-- ==== Sys2Proof/Word.lean ====
section
/-!
DEFINITION. The word types of the block (spec/00_scope.md R11): unsigned values of fixed width.
-/

namespace Sys2Proof

/-- `u8`: a byte on the bus or in the host's buffer. -/
abbrev Byte := BitVec 8

/-- `u32`: a command argument, a sector index, a sector count. -/
abbrev U32 := BitVec 32

/-- `u6`: a command index. -/
abbrev U6 := BitVec 6

/-- `u7`: a checksum. -/
abbrev U7 := BitVec 7

end Sys2Proof
end

