-- ==== Sys2Proof/Config.lean ====
section
/-!
DEFINITION. What is fixed for a machine: the constants of spec/00_scope.md R9, the parameters of R10,
and the values the spec leaves free.
-/

namespace Sys2Proof

/-- `CRC_MODE` (R10, 92_eei_decisions.md D9): the sixth byte of a frame for opcodes 0 and 8 is computed, or is the
constant of the source's table. -/
inductive CrcMode where
  | computed
  | table
  deriving DecidableEq, Repr

namespace Config

/-! The constants the source fixes (R9). -/

def frameLen : Nat := 6
def respPollBound : Nat := 10
def acmd41Bound : Nat := 1000
def tokenPollBound : Nat := 1000
def busyPollBound : Nat := 1000
/-- The sector payload, and the Session's hard-wired `block_size` (R36). -/
def blockSize : Nat := 512
def dataCrcLen : Nat := 2
def r7TailLen : Nat := 4
def pollByte : Byte := 0xFF#8
def cmdPrefix : Byte := 0x40#8
def crcCmd0 : Byte := 0x95#8
def crcCmd8 : Byte := 0x87#8
def dataStartToken : Byte := 0xFE#8
def acceptPattern : BitVec 5 := 0b00101#5
def r1Idle : Byte := 0x01#8
def eraseGranularity : Nat := 1
/-- The smallest number of bus-reset bytes the spec allows (R10: `RESET_IDLE_BYTES` is at least 10). -/
def resetIdleMin : Nat := 10

/-! The wire commands' opcodes and the arguments the block sends with them (30_encoding.md R95). -/

def opGoIdle : U6 := 0#6
def opSendIfCond : U6 := 8#6
def opSetBlocklen : U6 := 16#6
def opReadSingleBlock : U6 := 17#6
def opWriteBlock : U6 := 24#6
def opSendOpCond : U6 := 41#6
def opAppCmd : U6 := 55#6
def argZero : U32 := 0x00000000#32
def argIfCond : U32 := 0x000001AA#32
def argBlocklen : U32 := 0x00000200#32
def argOpCond : U32 := 0x40000000#32

/-! Free values: no body, so nothing can be proved of the value. -/

/-- What the card answers when the state lists no answer of its own (10_state.md R44): any byte, log 5. -/
opaque cardByte : Nat → Byte

/-- `last` of a `POLL` whose bound is 0 (42_command_engine.md R180: "`last` is unspecified"), log 16. -/
opaque unpolledByte : Nat → Byte

/-- `block_count` delivered by `capacity()` while the Session is not ready (45_adapter_boundary.md R292), log 17. -/
opaque unreadyBlockCount : Nat → U32

/-- `SECTOR_COUNT_FIXED` (R10, D19: OPEN) of the machine right after reset, log 6. -/
opaque sectorCountFixed : U32

end Config

/-- The parameters of the model (R10), each a named argument of it, and the granularity at which the machine is
stepped (10_state.md R29; log 7). No step writes them. -/
structure Params where
  sectorCountFixed : U32
  crcPlaceholder : Byte
  fill : Byte
  resetIdleBytes : Nat
  crcMode : CrcMode
  ifcondTimeoutFatal : Bool
  driveIndex : Nat
  /-- `false`: a host operation is one step. `true`: a start only starts it, and each further step makes one exchange. -/
  stepwise : Bool
  deriving DecidableEq, Repr

/-- The defaults of R10. -/
def Params.defaults : Params where
  sectorCountFixed := Config.sectorCountFixed
  crcPlaceholder := 0xFF#8
  fill := 0xFF#8
  resetIdleBytes := 10
  crcMode := .computed
  ifcondTimeoutFatal := false
  driveIndex := 0
  stepwise := false

/-- What R10 asks of the parameters: `RESET_IDLE_BYTES ≥ 10`. -/
abbrev Params.wf (p : Params) : Prop := Config.resetIdleMin ≤ p.resetIdleBytes

end Sys2Proof
end

