-- ==== Sys2Proof/Syntax.lean ====
section
/-!
DEFINITION. The instructions: one constructor for each row of spec/opcode_table.json (log 1).
-/

namespace Sys2Proof

/-- `pred` of `POLL` (42_command_engine.md R180), any test on one byte: bit `b` of the table answers for the byte `b` (log 23). -/
structure BytePred where
  table : BitVec 256
  deriving DecidableEq, Repr

/-- Whether the byte `b` passes the test. -/
def BytePred.holds (p : BytePred) (b : Byte) : Bool := p.table.getLsbD b.toNat

/-- The rows of the opcode table. Formats: FRAME48 (30_encoding.md R91, R95), BYTE (R96 to R102), HOSTOP (R110, R111). -/
inductive Instr where
  /-- `CMD_FRAME` (R91): a command frame whose opcode is none of the seven. -/
  | cmdFrame (opcode : U6) (arg : U32) (crc7 : U7)
  /-- `CMD0`, GO_IDLE_STATE (R203). -/
  | cmd0 (arg : U32) (crc7 : U7)
  /-- `CMD8`, SEND_IF_COND (R204). -/
  | cmd8 (arg : U32) (crc7 : U7)
  /-- `CMD16`, SET_BLOCKLEN (R208). -/
  | cmd16 (arg : U32) (crc7 : U7)
  /-- `CMD17`, READ_SINGLE_BLOCK (R241). -/
  | cmd17 (arg : U32) (crc7 : U7)
  /-- `CMD24`, WRITE_BLOCK (R246). -/
  | cmd24 (arg : U32) (crc7 : U7)
  /-- `ACMD41`, SEND_OP_COND (R206). -/
  | acmd41 (arg : U32) (crc7 : U7)
  /-- `CMD55`, APP_CMD (R206). -/
  | cmd55 (arg : U32) (crc7 : U7)
  /-- `DATA_START_TOKEN` (R99), either direction. -/
  | dataStartToken
  /-- `R1_VALID` (R96): bit 7 clear. -/
  | r1Valid (flags : U7)
  /-- `R1_NOT_YET` (R97): bit 7 set. -/
  | r1NotYet (low : U7)
  /-- `R1_IDLE_EXACT` (R203): the byte 0x01. -/
  | r1IdleExact
  /-- `R1_READY_EXACT` (R96): the byte 0x00. -/
  | r1ReadyExact
  /-- `DRESP_ACCEPTED` (R100): low five bits 00101. -/
  | drespAccepted (ignored : BitVec 3)
  /-- `DRESP_CRC_ERROR` (R100): low five bits 01011. -/
  | drespCrcError (ignored : BitVec 3)
  /-- `DRESP_WRITE_ERROR` (R100): low five bits 01101. -/
  | drespWriteError (ignored : BitVec 3)
  /-- `DRESP_OTHER` (R100): any other low five bits. -/
  | drespOther (ignored : BitVec 3) (r : BitVec 5)
  /-- `BUSY` (R101): the byte 0x00. -/
  | busyByte
  /-- `FILL` (R102): the byte the block sends when it has nothing to say. -/
  | fillByte
  /-- `EXCHANGE` (R140). -/
  | exchange (out : Byte)
  /-- `SELECT` (R141). -/
  | select
  /-- `DESELECT` (R142). -/
  | deselect
  /-- `SEND_COMMAND` (R182). -/
  | sendCommand (opcode : U6) (arg : U32)
  /-- `POLL` (R180). -/
  | poll (bound : Nat) (pred : BytePred) (out : Byte)
  /-- `INIT` (R200). -/
  | init
  /-- `READ_SECTOR` (R241). -/
  | readSector (index : U32) (buf : Nat)
  /-- `WRITE_SECTOR` (R246). -/
  | writeSector (index : U32) (buf : Nat)
  /-- `status` (R282). -/
  | status (drive : Nat)
  /-- `initialize` (R283). -/
  | initializeDrive (drive : Nat)
  /-- `read` (R284). -/
  | read (drive : Nat) (sector : U32) (count : Nat) (buf : Nat)
  /-- `write` (R285). -/
  | write (drive : Nat) (sector : U32) (count : Nat) (buf : Nat)
  /-- `test_unit_ready` (R291). -/
  | testUnitReady
  /-- `capacity` (R292). -/
  | capacity
  /-- `read10` (R293, R294). -/
  | read10 (lba : U32) (byteOffset : Nat) (buffer : Nat) (length : Nat)
  /-- `write10` (R293, R294). -/
  | write10 (lba : U32) (byteOffset : Nat) (buffer : Nat) (length : Nat)
  /-- `ioctl.sync` (R286). -/
  | ioctlSync (drive : Nat)
  /-- `ioctl.get_sector_count` (R287). -/
  | ioctlGetSectorCount (drive : Nat)
  /-- `ioctl.get_sector_size` (R288). -/
  | ioctlGetSectorSize (drive : Nat)
  /-- `ioctl.get_block_size` (R288). -/
  | ioctlGetBlockSize (drive : Nat)
  /-- `ioctl.unknown` (R289): a sub-command other than 0 to 3. -/
  | ioctlUnknown (drive : Nat) (sub : Nat)
  deriving DecidableEq, Repr

end Sys2Proof
end

