-- ==== Sys2Proof/WellFormed.lean ====
section
/-!
DEFINITION. The checks on instructions: a row's constructor stands only for the words of that row, and the operands
the spec calls natural numbers fit the four bytes the model's port gives them (log 1).
-/

namespace Sys2Proof

/-- The seven opcodes the block sends (30_encoding.md R95). -/
def namedOpcodes : List U6 :=
  [Config.opGoIdle, Config.opSendIfCond, Config.opSetBlocklen, Config.opReadSingleBlock, Config.opWriteBlock,
    Config.opSendOpCond, Config.opAppCmd]

/-- The data-response patterns with a row of their own (30_encoding.md R100). -/
def namedResponses : List (BitVec 5) := [0b00101#5, 0b01011#5, 0b01101#5]

/-- Whether a natural-number operand fits four bytes. -/
def fitsPort (n : Nat) : Bool := decide (n < 2 ^ 32)

/-- Whether the instruction is one the port can carry and belongs to its own row. -/
def Instr.wf : Instr → Bool
  | .cmdFrame opcode _ _ => !namedOpcodes.contains opcode
  | .cmd0 _ _ => true
  | .cmd8 _ _ => true
  | .cmd16 _ _ => true
  | .cmd17 _ _ => true
  | .cmd24 _ _ => true
  | .acmd41 _ _ => true
  | .cmd55 _ _ => true
  | .dataStartToken => true
  | .r1Valid _ => true
  | .r1NotYet _ => true
  | .r1IdleExact => true
  | .r1ReadyExact => true
  | .drespAccepted _ => true
  | .drespCrcError _ => true
  | .drespWriteError _ => true
  | .drespOther _ r => !namedResponses.contains r
  | .busyByte => true
  | .fillByte => true
  | .exchange _ => true
  | .select => true
  | .deselect => true
  | .sendCommand _ _ => true
  | .poll bound _ _ => fitsPort bound
  | .init => true
  | .readSector _ buf => fitsPort buf
  | .writeSector _ buf => fitsPort buf
  | .status drive => fitsPort drive
  | .initializeDrive drive => fitsPort drive
  | .read drive _ count buf => fitsPort drive && fitsPort count && fitsPort buf
  | .write drive _ count buf => fitsPort drive && fitsPort count && fitsPort buf
  | .testUnitReady => true
  | .capacity => true
  | .read10 _ byteOffset buffer length => fitsPort byteOffset && fitsPort buffer && fitsPort length
  | .write10 _ byteOffset buffer length => fitsPort byteOffset && fitsPort buffer && fitsPort length
  | .ioctlSync drive => fitsPort drive
  | .ioctlGetSectorCount drive => fitsPort drive
  | .ioctlGetSectorSize drive => fitsPort drive
  | .ioctlGetBlockSize drive => fitsPort drive
  | .ioctlUnknown drive sub => fitsPort drive && fitsPort sub && decide (4 ≤ sub)

end Sys2Proof
end

