-- ==== Sys2Proof/Decode.lean ====
section
/-!
DEFINITION. Reading an instruction from the bytes at the start port, and writing one (30_encoding.md R90 to R102, R110, R111).
A FRAME48 row is its six wire bytes, first byte 01xxxxxx (R91). A HOSTOP row is OPSEL in the low five bits of a byte whose
high three bits are 0 (R110), then its operands, most significant byte first. A BYTE row is a tag 0x20 to 0x2A, one for each
row, then the byte itself. The operand layout and the tags are the model's (log 1, log 2).
-/

namespace Sys2Proof

/-- Why bytes are no instruction. -/
inductive DecodeError where
  /-- No byte stands at the port. -/
  | empty
  /-- The bytes end inside the instruction. -/
  | truncated
  /-- The first byte is no OPSEL of R110, no tag and no frame's first byte (R104). -/
  | unknownSelector
  /-- The opcode byte of `SEND_COMMAND` is 64 or more (R92: an opcode of 64 or more cannot be given). -/
  | opcodeTooWide
  /-- The last bit of a frame is 0 (R91: the end bit is 1). -/
  | endBitClear
  /-- The byte after a tag is not of that tag's pattern. -/
  | patternMismatch
  deriving DecidableEq, Repr

/-! Byte order (R63: most significant byte first). -/

/-- The `k` low bytes of `v`, most significant first. -/
def bytesOfNat : Nat → Nat → List Byte
  | 0, _ => []
  | k + 1, v => BitVec.ofNat 8 (v / 256 ^ k) :: bytesOfNat k v

/-- The number whose bytes, most significant first, follow `acc`. -/
def natOfBytes (acc : Nat) : List Byte → Nat
  | [] => acc
  | b :: bs => natOfBytes (acc * 256 + b.toNat) bs

/-- The first `k` bytes as a number, and the bytes after them. -/
def takeNat : Nat → Nat → List Byte → Except DecodeError (Nat × List Byte)
  | 0, acc, bs => .ok (acc, bs)
  | _ + 1, _, [] => .error .truncated
  | k + 1, acc, b :: bs => takeNat k (acc * 256 + b.toNat) bs

/-- The first byte, and the bytes after it. -/
def takeByte : List Byte → Except DecodeError (Byte × List Byte)
  | [] => .error .truncated
  | b :: bs => .ok (b, bs)

/-- A `u32` operand. -/
def takeU32 (bs : List Byte) : Except DecodeError (U32 × List Byte) := do
  let r ← takeNat 4 0 bs
  return (BitVec.ofNat 32 r.1, r.2)

/-- A natural-number operand: four bytes. -/
def takePort (bs : List Byte) : Except DecodeError (Nat × List Byte) := takeNat 4 0 bs

/-! FRAME48 (R91). -/

/-- The first byte of a frame: start bit 0, transmission bit 1, the opcode (R91, R92). -/
def commandByte (opcode : U6) : Byte := 0b01#2 ++ opcode

/-- The four argument bytes, most significant first (R93). -/
def argBytes (arg : U32) : List Byte :=
  [arg.extractLsb' 24 8, arg.extractLsb' 16 8, arg.extractLsb' 8 8, arg.extractLsb' 0 8]

/-- The last byte of a frame: the checksum in bits 7:1, the end bit 1 (R91). -/
def checkByte (crc7 : U7) : Byte := crc7 ++ 1#1

/-- The six bytes of a frame in the order they are sent (R91). -/
def frameBytes (opcode : U6) (arg : U32) (crc7 : U7) : List Byte :=
  commandByte opcode :: argBytes arg ++ [checkByte crc7]

/-- The row of a frame: by its opcode (R95). -/
def frameRow (opcode : U6) (arg : U32) (crc7 : U7) : Instr :=
  if opcode = Config.opGoIdle then .cmd0 arg crc7
  else if opcode = Config.opSendIfCond then .cmd8 arg crc7
  else if opcode = Config.opSetBlocklen then .cmd16 arg crc7
  else if opcode = Config.opReadSingleBlock then .cmd17 arg crc7
  else if opcode = Config.opWriteBlock then .cmd24 arg crc7
  else if opcode = Config.opSendOpCond then .acmd41 arg crc7
  else if opcode = Config.opAppCmd then .cmd55 arg crc7
  else .cmdFrame opcode arg crc7

/-- A frame, its first byte already read. -/
def decodeFrame (first : Byte) : List Byte → Except DecodeError (Instr × List Byte)
  | a3 :: a2 :: a1 :: a0 :: c :: rest =>
    if c.getLsbD 0 then .ok (frameRow (first.extractLsb' 0 6) (a3 ++ a2 ++ a1 ++ a0) (c.extractLsb' 1 7), rest)
    else .error .endBitClear
  | _ => .error .truncated

/-! BYTE (R96 to R102). -/

/-- `DRESP` patterns: three ignored bits, then the status (R100). -/
def responseByte (ignored : BitVec 3) (status : BitVec 5) : Byte := ignored ++ status

/-- The row of tag `tag` with the byte `b`, if `b` is of that row's pattern. FILL is presented as 0xFF, R102's default, whatever
the parameter `FILL` is. DESIGN CHOICE (log 33). -/
def byteRow (tag : Nat) (b : Byte) : Option Instr :=
  match tag with
  | 0 => if b = 0xFE#8 then some .dataStartToken else none
  | 1 => if b.getLsbD 7 then none else some (.r1Valid (b.extractLsb' 0 7))
  | 2 => if b.getLsbD 7 then some (.r1NotYet (b.extractLsb' 0 7)) else none
  | 3 => if b = 0x01#8 then some .r1IdleExact else none
  | 4 => if b = 0x00#8 then some .r1ReadyExact else none
  | 5 => if b.extractLsb' 0 5 = 0b00101#5 then some (.drespAccepted (b.extractLsb' 5 3)) else none
  | 6 => if b.extractLsb' 0 5 = 0b01011#5 then some (.drespCrcError (b.extractLsb' 5 3)) else none
  | 7 => if b.extractLsb' 0 5 = 0b01101#5 then some (.drespWriteError (b.extractLsb' 5 3)) else none
  | 8 => if namedResponses.contains (b.extractLsb' 0 5) then none
         else some (.drespOther (b.extractLsb' 5 3) (b.extractLsb' 0 5))
  | 9 => if b = 0x00#8 then some .busyByte else none
  | 10 => if b = 0xFF#8 then some .fillByte else none
  | _ => none

/-- A BYTE row, its tag already read. -/
def decodeByteRow (tag : Nat) (bs : List Byte) : Except DecodeError (Instr × List Byte) := do
  let r ← takeByte bs
  match byteRow tag r.1 with
  | some i => return (i, r.2)
  | none => throw .patternMismatch

/-! HOSTOP (R110, R111). -/

/-- The row of an `ioctl` by its sub-command number (R111). The buffer R110 lists as its third operand is not kept. DESIGN CHOICE
(log 36). -/
def ioctlRow (drive sub : Nat) : Instr :=
  if sub = 0 then .ioctlSync drive
  else if sub = 1 then .ioctlGetSectorCount drive
  else if sub = 2 then .ioctlGetSectorSize drive
  else if sub = 3 then .ioctlGetBlockSize drive
  else .ioctlUnknown drive sub

/-- The operands of the host operation whose selector is `opsel` (R110). An `ioctl` has two at the port, drive and sub-command, and
no bytes for the buffer R110 lists. DESIGN CHOICE (log 36). -/
def decodeHostOp (opsel : Byte) (bs : List Byte) : Except DecodeError (Instr × List Byte) :=
  match opsel with
  | 0x00#8 => do
    let out ← takeByte bs
    return (.exchange out.1, out.2)
  | 0x01#8 => return (.select, bs)
  | 0x02#8 => return (.deselect, bs)
  | 0x03#8 => do
    let opcode ← takeByte bs
    if opcode.1.extractLsb' 6 2 ≠ 0#2 then throw .opcodeTooWide
    let arg ← takeU32 opcode.2
    return (.sendCommand (opcode.1.extractLsb' 0 6) arg.1, arg.2)
  | 0x04#8 => do
    let bound ← takePort bs
    let out ← takeByte bound.2
    let table ← takeNat 32 0 out.2
    return (.poll bound.1 ⟨BitVec.ofNat 256 table.1⟩ out.1, table.2)
  | 0x08#8 => return (.init, bs)
  | 0x09#8 => do
    let index ← takeU32 bs
    let buf ← takePort index.2
    return (.readSector index.1 buf.1, buf.2)
  | 0x0A#8 => do
    let index ← takeU32 bs
    let buf ← takePort index.2
    return (.writeSector index.1 buf.1, buf.2)
  | 0x10#8 => do
    let drive ← takePort bs
    return (.status drive.1, drive.2)
  | 0x11#8 => do
    let drive ← takePort bs
    return (.initializeDrive drive.1, drive.2)
  | 0x12#8 => do
    let drive ← takePort bs
    let sector ← takeU32 drive.2
    let count ← takePort sector.2
    let buf ← takePort count.2
    return (.read drive.1 sector.1 count.1 buf.1, buf.2)
  | 0x13#8 => do
    let drive ← takePort bs
    let sector ← takeU32 drive.2
    let count ← takePort sector.2
    let buf ← takePort count.2
    return (.write drive.1 sector.1 count.1 buf.1, buf.2)
  | 0x14#8 => do
    let drive ← takePort bs
    let sub ← takePort drive.2
    return (ioctlRow drive.1 sub.1, sub.2)
  | 0x18#8 => return (.testUnitReady, bs)
  | 0x19#8 => return (.capacity, bs)
  | 0x1A#8 => do
    let lba ← takeU32 bs
    let byteOffset ← takePort lba.2
    let buffer ← takePort byteOffset.2
    let length ← takePort buffer.2
    return (.read10 lba.1 byteOffset.1 buffer.1 length.1, length.2)
  | 0x1B#8 => do
    let lba ← takeU32 bs
    let byteOffset ← takePort lba.2
    let buffer ← takePort byteOffset.2
    let length ← takePort buffer.2
    return (.write10 lba.1 byteOffset.1 buffer.1 length.1, length.2)
  | _ => throw .unknownSelector

/-- The tag of the first BYTE row. -/
def byteTagBase : Nat := 0x20

/-- The number of BYTE rows. -/
def byteTagCount : Nat := 11

/-- The instruction at the head of the bytes, and the bytes after it, or why there is none. -/
def decode : List Byte → Except DecodeError (Instr × List Byte)
  | [] => .error .empty
  | first :: rest =>
    if first.extractLsb' 6 2 = 0b01#2 then decodeFrame first rest
    else if byteTagBase ≤ first.toNat ∧ first.toNat < byteTagBase + byteTagCount then
      decodeByteRow (first.toNat - byteTagBase) rest
    else decodeHostOp first rest

/-! The encoder. -/

/-- A tagged byte of a BYTE row. -/
def tagged (tag : Nat) (b : Byte) : List Byte := [BitVec.ofNat 8 (byteTagBase + tag), b]

/-- A natural-number operand: four bytes. -/
def portBytes (n : Nat) : List Byte := bytesOfNat 4 n

/-- A `u32` operand. -/
def u32Bytes (w : U32) : List Byte := bytesOfNat 4 w.toNat

/-- The bytes of an instruction, as `decode` reads them. -/
def encode : Instr → List Byte
  | .cmdFrame opcode arg crc7 => frameBytes opcode arg crc7
  | .cmd0 arg crc7 => frameBytes Config.opGoIdle arg crc7
  | .cmd8 arg crc7 => frameBytes Config.opSendIfCond arg crc7
  | .cmd16 arg crc7 => frameBytes Config.opSetBlocklen arg crc7
  | .cmd17 arg crc7 => frameBytes Config.opReadSingleBlock arg crc7
  | .cmd24 arg crc7 => frameBytes Config.opWriteBlock arg crc7
  | .acmd41 arg crc7 => frameBytes Config.opSendOpCond arg crc7
  | .cmd55 arg crc7 => frameBytes Config.opAppCmd arg crc7
  | .dataStartToken => tagged 0 0xFE#8
  | .r1Valid flags => tagged 1 (0#1 ++ flags)
  | .r1NotYet low => tagged 2 (1#1 ++ low)
  | .r1IdleExact => tagged 3 0x01#8
  | .r1ReadyExact => tagged 4 0x00#8
  | .drespAccepted ignored => tagged 5 (responseByte ignored 0b00101#5)
  | .drespCrcError ignored => tagged 6 (responseByte ignored 0b01011#5)
  | .drespWriteError ignored => tagged 7 (responseByte ignored 0b01101#5)
  | .drespOther ignored r => tagged 8 (responseByte ignored r)
  | .busyByte => tagged 9 0x00#8
  | .fillByte => tagged 10 0xFF#8
  | .exchange out => [0x00#8, out]
  | .select => [0x01#8]
  | .deselect => [0x02#8]
  | .sendCommand opcode arg => 0x03#8 :: (0#2 ++ opcode) :: u32Bytes arg
  | .poll bound pred out => 0x04#8 :: portBytes bound ++ out :: bytesOfNat 32 pred.table.toNat
  | .init => [0x08#8]
  | .readSector index buf => 0x09#8 :: u32Bytes index ++ portBytes buf
  | .writeSector index buf => 0x0A#8 :: u32Bytes index ++ portBytes buf
  | .status drive => 0x10#8 :: portBytes drive
  | .initializeDrive drive => 0x11#8 :: portBytes drive
  | .read drive sector count buf => 0x12#8 :: portBytes drive ++ u32Bytes sector ++ portBytes count ++ portBytes buf
  | .write drive sector count buf => 0x13#8 :: portBytes drive ++ u32Bytes sector ++ portBytes count ++ portBytes buf
  | .ioctlSync drive => 0x14#8 :: portBytes drive ++ portBytes 0
  | .ioctlGetSectorCount drive => 0x14#8 :: portBytes drive ++ portBytes 1
  | .ioctlGetSectorSize drive => 0x14#8 :: portBytes drive ++ portBytes 2
  | .ioctlGetBlockSize drive => 0x14#8 :: portBytes drive ++ portBytes 3
  | .ioctlUnknown drive sub => 0x14#8 :: portBytes drive ++ portBytes sub
  | .testUnitReady => [0x18#8]
  | .capacity => [0x19#8]
  | .read10 lba byteOffset buffer length =>
    0x1A#8 :: u32Bytes lba ++ portBytes byteOffset ++ portBytes buffer ++ portBytes length
  | .write10 lba byteOffset buffer length =>
    0x1B#8 :: u32Bytes lba ++ portBytes byteOffset ++ portBytes buffer ++ portBytes length

/-! The words of spec/opcode_table.json. -/

/-- The selectors R110 assigns. -/
def selectors : List Nat := [0x00, 0x01, 0x02, 0x03, 0x04, 0x08, 0x09, 0x0A, 0x10, 0x11, 0x12, 0x13, 0x14, 0x18, 0x19, 0x1A, 0x1B]

/-- The BYTE row that a byte of the table stands for when it is no selector: the most specific pattern it has. -/
def byteTagOf (b : Byte) : Nat :=
  if b = 0xFE#8 then 0
  else if b = 0xFF#8 then 10
  else if b.getLsbD 7 then 2
  else if b = responseByte 0#3 0b00101#5 then 5
  else if b = responseByte 0#3 0b01011#5 then 6
  else if b = responseByte 0#3 0b01101#5 then 7
  else 1

/-- The zero bytes laid out above the bits the table gives (operand bytes of zeros), at least the longest instruction's. -/
def operandZeros : List Byte := List.replicate 40 0#8

/-- The bytes of a word of the opcode table. A FRAME48 row is one 48-bit number whose bit 47 is the first on the wire (R91),
so its bytes stand most significant first (log 3). A row of one byte is a selector if R110 assigns it and a BYTE row's byte
behind its tag if not (log 2). -/
def tableBytes (nbits w : Nat) : List Byte :=
  if nbits = 48 then bytesOfNat 6 w ++ operandZeros
  else if nbits ≤ 8 then
    if selectors.contains w then BitVec.ofNat 8 w :: operandZeros
    else tagged (byteTagOf (BitVec.ofNat 8 w)) (BitVec.ofNat 8 w) ++ operandZeros
  else []

/-- The instruction the decoder reads from a word of the opcode table. -/
def decodeTableWord (nbits w : Nat) : Option Instr :=
  match decode (tableBytes nbits w) with
  | .ok r => some r.1
  | .error _ => none

end Sys2Proof
end

