-- ==== Sys2Proof/Machine/State.lean ====
section
/-!
DEFINITION. The state of the block (spec/10_state.md), of its ports, of the host's buffer and of the card's answers to come;
what a step can stop with; the state right after reset (R46).
-/

namespace Sys2Proof.Machine

/-- `fsm` (R28). -/
inductive Fsm where
  | uninit
  | busReset
  | goIdle
  | checkInterfaceCondition
  | applicationInit
  | setBlockLength
  | capacityFixed
  | ready
  | failed
  deriving DecidableEq, Repr

/-- `phase` (R29). -/
inductive Phase where
  | idle
  | frame
  | respPoll
  | r7Drain
  | resetIdle
  | tokenPoll
  | rdPayload
  | rdCrc
  | wrToken
  | wrPayload
  | wrCrc
  | wrResp
  | busyPoll
  deriving DecidableEq, Repr

/-- The step an `InitFailure` names (60_exceptions.md R310). -/
inductive InitStep where
  | goIdle
  | checkInterfaceCondition
  | applicationInit
  | setBlockLength
  deriving DecidableEq, Repr

/-- The poll a `TransferTimeout` names (R310). -/
inductive WhichPoll where
  | token
  | busy
  deriving DecidableEq, Repr

/-- The reason a `WriteRejected` names (R310). -/
inductive Reason where
  | crcError
  | writeError
  | other
  deriving DecidableEq, Repr

/-- The result type (R310). -/
inductive Result where
  | ok
  | initFailure (step : InitStep) (r : Byte)
  | notReady
  | commandRejected (r : Byte)
  | transferTimeout (which : WhichPoll)
  | writeRejected (reason : Reason) (d : Byte)
  | parameterError
  deriving DecidableEq, Repr

/-- What an operation hands the host beside its result on the port `res` (R39; log 9). -/
inductive Delivered where
  /-- Nothing: the operation has a result only, or none. -/
  | nothing
  /-- The byte of `EXCHANGE` (R140), of `SEND_COMMAND` (R182) or of a wire command (R95). -/
  | byte (b : Byte)
  /-- The triple of `POLL` (R180). -/
  | poll (hit : Bool) (last : Byte) (n : Nat)
  /-- `status`: ready or not-ready (R282). -/
  | status (ready : Bool)
  /-- `test_unit_ready` (R291). -/
  | flag (b : Bool)
  /-- `capacity` (R292). -/
  | capacity (blockCount : U32) (blockSize : Nat)
  /-- The number an `ioctl` delivers (R287, R288). -/
  | number (n : Nat)
  deriving DecidableEq, Repr

/-- A bus event of the ghost trace (R42). -/
inductive Event where
  | sel
  | desel
  | xfer (sel : Bool) (out inp : Byte)
  | slept
  deriving DecidableEq, Repr

/-- `FRAME` (R22): the six bytes of a command. -/
structure Frame where
  b0 : Byte
  b1 : Byte
  b2 : Byte
  b3 : Byte
  b4 : Byte
  b5 : Byte
  deriving DecidableEq, Repr

/-- `R7TAIL` (R25): four bytes in reception order. -/
structure Tail where
  t0 : Byte
  t1 : Byte
  t2 : Byte
  t3 : Byte
  deriving DecidableEq, Repr

/-- The host's memory (20_memory.md R60 b): cells in rising order of address, none of them blank (log 15). -/
abbrev Memory := List Host.Cell

/-- What a byte of host memory that nothing has written reads as (log 15). -/
def blankByte : Byte := 0#8

/-- The state of the machine. -/
structure State where
  /-- The parameters (R10, R43). -/
  cfg : Params
  /-- `ready` (R31). -/
  ready : Bool
  /-- `fsm` (R28). -/
  fsm : Fsm
  /-- `sector_count` (R35). -/
  sectorCount : U32
  /-- `sel`, the chip-select latch (R37). -/
  sel : Bool
  /-- `busy` (R38). -/
  busy : Bool
  /-- `TXB` (R21). -/
  txb : Byte
  /-- `RXB` (R21). -/
  rxb : Byte
  /-- `OPC` (R22). -/
  opc : U6
  /-- `ARG` (R22). -/
  arg : U32
  /-- `FRAME` (R22). -/
  frame : Frame
  /-- `CRC` (R23). -/
  crc : U7
  /-- `R1` (R24). -/
  r1 : Byte
  /-- `R7TAIL` (R25). -/
  r7tail : Tail
  /-- `TOK` (R26). -/
  tok : Byte
  /-- `DRESP` (R26). -/
  dresp : Byte
  /-- `BUSYB` (R26). -/
  busyb : Byte
  /-- `phase` (R29). -/
  phase : Phase
  /-- `framei` (R29). -/
  framei : Nat
  /-- `pollcnt` (R29). -/
  pollcnt : Nat
  /-- `retrycnt` (R29). -/
  retrycnt : Nat
  /-- Whether the command in flight of an ACMD41 attempt is its `APP_CMD`: the model's own (log 32). -/
  appcmd : Bool
  /-- `byteidx` (R29). -/
  byteidx : Nat
  /-- `sectidx` (R29; log 22). -/
  sectidx : U32
  /-- The model's own number of the sector in transit, of which `sectidx` holds the low 32 bits (log 22). -/
  sectno : Nat
  /-- The model's counter of the short loops (log 21). -/
  loopidx : Nat
  /-- The operation in flight, latched from the ports `op` and `opnd` (R39; log 7). -/
  running : Option Instr
  /-- `RES` (R33). -/
  res : Result
  /-- The rest of the port `res` (log 9). -/
  out : Delivered
  /-- `xcount`, ghost (R41). -/
  xcount : Nat
  /-- `trace`, ghost, oldest event first (R42). -/
  trace : List Event
  /-- The host's memory, where its sector buffers are (R62). -/
  mem : Memory
  /-- The host address at which the port `buf` is attached for the sector in transit (R39; log 12). -/
  bufp : Nat
  /-- What the host presents at the ports `op`, `opnd` and `start` (R39; log 4): empty when `start` is not asserted. -/
  port : List Byte
  /-- The reset input (70_reset_and_hazards.md R350, R352; log 25). -/
  rst : Bool
  /-- The card's answers to come (R44; log 5). -/
  card : List Byte
  /-- How many free values have been drawn (log 5). -/
  draws : Nat
  deriving DecidableEq, Repr

/-- A step never stops with a fault: every error of the block is an ordinary result of an operation, and the block has no
stuck state (60_exceptions.md R324), so no constructor is needed (log 26). -/
inductive Fault where
  deriving DecidableEq, Repr

/-- What a step refuses to give a meaning. -/
inductive Refusal where
  /-- Raised by `exec` for an instruction without a meaning. Safe. No arm raises it. -/
  | notModelled (mnemonic : String)
  /-- Raised by the start of a host operation or wire command while one is in flight (R358, U4: no step). Safe. -/
  | startWhileBusy
  /-- Raised by the reset input while an operation is in flight (R352, U13: no step). Safe. -/
  | resetWhileBusy
  /-- Raised by `read10` and `write10` whose offset or length is no multiple of 512 (R294, U8: no meaning given). Safe. -/
  | raggedOffset
  /-- Raised by the byte row `FILL` while the operation in flight sends another byte next, so that a FILL byte cannot be the
  next on the wire (R102; log 14). Safe. -/
  | fillNotNext
  deriving DecidableEq, Repr

/-- The state right after reset (R46, R350): the values R46 states; the registers it leaves unspecified at the values of
log 8 and log 9; the parameters at the defaults of R10; nothing at the ports; host memory with nothing listed. -/
def State.reset : State where
  cfg := Params.defaults
  ready := false
  fsm := .uninit
  sectorCount := 0#32
  sel := false
  busy := false
  txb := 0#8
  rxb := 0#8
  opc := 0#6
  arg := 0#32
  frame := ⟨0#8, 0#8, 0#8, 0#8, 0#8, 0#8⟩
  crc := 0#7
  r1 := 0#8
  r7tail := ⟨0#8, 0#8, 0#8, 0#8⟩
  tok := 0#8
  dresp := 0#8
  busyb := 0#8
  phase := .idle
  framei := 0
  pollcnt := 0
  retrycnt := 0
  appcmd := false
  byteidx := 0
  sectidx := 0#32
  sectno := 0
  loopidx := 0
  running := none
  res := .ok
  out := .nothing
  xcount := 0
  trace := []
  mem := []
  bufp := 0
  port := []
  rst := false
  card := []
  draws := 0

end Sys2Proof.Machine
end

