-- ==== Sys2Proof/Machine/Flags.lean ====
section
/-!
DEFINITION. What the block computes from bits: the checksum of a command frame (spec/41_crc7.md) and the tests it makes on
received bytes (10_state.md R32, 30_encoding.md R96, R100, R101).
-/

namespace Sys2Proof.Machine

/-! The checksum. -/

/-- A byte's bits, most significant first (R63 c, R160). -/
def bitsOfByte (b : Byte) : List Bool :=
  [b.getLsbD 7, b.getLsbD 6, b.getLsbD 5, b.getLsbD 4, b.getLsbD 3, b.getLsbD 2, b.getLsbD 1, b.getLsbD 0]

/-- One data bit into the working register (R160): generator x^7 + x^3 + 1. -/
def crcBit (crc : U7) (d : Bool) : U7 :=
  if Bool.xor (crc.getLsbD 6) d then (crc <<< 1) ^^^ 0x09#7 else crc <<< 1

/-- One byte into the working register (R160). -/
def crcOfByte (crc : U7) (b : Byte) : U7 := (bitsOfByte b).foldl crcBit crc

/-- `Crc7` (R160). -/
def crc7 (bytes : List Byte) : U7 := bytes.foldl crcOfByte 0#7

/-- The five bytes of a frame the checksum is taken over (R161). -/
def frameHead (opcode : U6) (arg : U32) : List Byte := commandByte opcode :: argBytes arg

/-- Whether the block computes the checksum of a command (R162): opcodes 0 and 8, in `CRC_MODE = computed`. -/
def crcComputed (p : Params) (opcode : U6) : Bool :=
  (opcode == Config.opGoIdle || opcode == Config.opSendIfCond) && p.crcMode == .computed

/-- `CrcByte` (R162), the sixth byte of a frame (R94). -/
def crcByte (p : Params) (opcode : U6) (arg : U32) : Byte :=
  if opcode = Config.opGoIdle ∨ opcode = Config.opSendIfCond then
    match p.crcMode with
    | .computed => checkByte (crc7 (frameHead opcode arg))
    | .table => if opcode = Config.opGoIdle then Config.crcCmd0 else Config.crcCmd8
  else p.crcPlaceholder

/-! `R1` (R96). -/

/-- Bit 7 clear: the byte is a response (R182). -/
def isResponse (b : Byte) : Bool := !b.getLsbD 7

/-- Bit 6, parameter error. -/
def r1ParameterError (b : Byte) : Bool := b.getLsbD 6

/-- Bit 5, address error. -/
def r1AddressError (b : Byte) : Bool := b.getLsbD 5

/-- Bit 4, erase sequence error. -/
def r1EraseSequenceError (b : Byte) : Bool := b.getLsbD 4

/-- Bit 3, CRC error. -/
def r1CrcError (b : Byte) : Bool := b.getLsbD 3

/-- Bit 2, illegal command. -/
def r1IllegalCommand (b : Byte) : Bool := b.getLsbD 2

/-- Bit 1, erase reset. -/
def r1EraseReset (b : Byte) : Bool := b.getLsbD 1

/-- Bit 0, the idle flag. -/
def r1IdleFlag (b : Byte) : Bool := b.getLsbD 0

/-- Exactly the idle flag (R203, R204). -/
def r1ExactlyIdle (b : Byte) : Bool := b == Config.r1Idle

/-- No flag at all (R208, R241, R246). -/
def r1AllClear (b : Byte) : Bool := b == 0#8

/-! Tokens. -/

/-- The start-of-data token (R99, R242). -/
def isStartToken (b : Byte) : Bool := b == Config.dataStartToken

/-- The status field of a data response (R100): bits 4:0, bits 7:5 ignored. -/
def responseStatus (d : Byte) : BitVec 5 := d.extractLsb' 0 5

/-- Acceptance of a write (R100, R248). -/
def writeAccepted (d : Byte) : Bool := responseStatus d == Config.acceptPattern

/-- `Reason` (R249): why a data response rejects. -/
def rejectReason (d : Byte) : Reason :=
  if responseStatus d = 0b01011#5 then .crcError
  else if responseStatus d = 0b01101#5 then .writeError
  else .other

/-- The card has left busy (R101, R250): any non-zero byte. -/
def notBusy (b : Byte) : Bool := b != 0#8

/-! Results. -/

/-- The numeric code of a result (60_exceptions.md R311). -/
def resultCode : Result → Nat
  | .ok => 0
  | .initFailure _ _ => 1
  | .notReady => 2
  | .commandRejected _ => 3
  | .transferTimeout _ => 4
  | .writeRejected _ _ => 5
  | .parameterError => 6

end Sys2Proof.Machine
end

