-- ==== Sys2Proof/Machine/Operands.lean ====
section
/-!
DEFINITION. The operand forms: the command frame built from an opcode and an argument (30_encoding.md R91 to R94), the byte a
BYTE row stands for, sector indices and buffer addresses (42_command_engine.md R190, 45_adapter_boundary.md R284, R293).
-/

namespace Sys2Proof.Machine

/-! The command frame. -/

/-- A frame of the four header fields and a sixth byte (R91 to R93). -/
def frameOf (opcode : U6) (arg : U32) (last : Byte) : Frame where
  b0 := commandByte opcode
  b1 := arg.extractLsb' 24 8
  b2 := arg.extractLsb' 16 8
  b3 := arg.extractLsb' 8 8
  b4 := arg.extractLsb' 0 8
  b5 := last

/-- `FRAME` as `SEND_COMMAND` builds it (R182). -/
def commandFrame (p : Params) (opcode : U6) (arg : U32) : Frame := frameOf opcode arg (crcByte p opcode arg)

/-- `FRAME` as a wire-command row gives it, its sixth byte included (R91; log 11). -/
def wireFrame (opcode : U6) (arg : U32) (crc7 : U7) : Frame := frameOf opcode arg (checkByte crc7)

/-- `FRAME[i]`. -/
def frameByte (f : Frame) (i : Nat) : Byte :=
  match i with
  | 0 => f.b0
  | 1 => f.b1
  | 2 => f.b2
  | 3 => f.b3
  | 4 => f.b4
  | _ => f.b5

/-- The six bytes in the order they are sent (R91). -/
def frameList (f : Frame) : List Byte := [f.b0, f.b1, f.b2, f.b3, f.b4, f.b5]

/-- `R7TAIL[j] <- b` (R204). -/
def tailWith (t : Tail) (j : Nat) (b : Byte) : Tail :=
  match j with
  | 0 => { t with t0 := b }
  | 1 => { t with t1 := b }
  | 2 => { t with t2 := b }
  | _ => { t with t3 := b }

/-! The bytes of the BYTE rows (R96 to R102). -/

/-- `R1_VALID`: bit 7 clear. -/
def validByte (flags : U7) : Byte := 0#1 ++ flags

/-- `R1_NOT_YET`: bit 7 set. -/
def notYetByte (low : U7) : Byte := 1#1 ++ low

/-! Sectors and buffers. -/

/-- The sector `k` after the first, modulo 2^32 (R284, R190 f). -/
def sectorAt (first : U32) (k : Nat) : U32 := first + BitVec.ofNat 32 k

/-- The address of the buffer of sector `k` of a request, without wrap (R284, R190 g). -/
def bufferAt (buf k : Nat) : Nat := buf + Config.blockSize * k

/-- Whether an exporter's number is in whole sectors (R294). -/
def wholeSectors (n : Nat) : Bool := n % Config.blockSize == 0

/-- The sector of an exporter's call (R293). -/
def exporterSector (lba : U32) (byteOffset : Nat) : U32 := sectorAt lba (byteOffset / Config.blockSize)

/-- The number of sectors of an exporter's call (R293). -/
def exporterCount (length : Nat) : Nat := length / Config.blockSize

end Sys2Proof.Machine
end

