-- ==== Sys2Proof/Machine/Ops.lean ====
section
/-!
DEFINITION. The named operations everything else is built from: host memory, the bus transport (spec/40_transport.md), the
bounded poll and the command engine (42_command_engine.md), raising an error and completing (60_exceptions.md R318), the
start of an operation (10_state.md R38) and the reset input (70_reset_and_hazards.md R350).
-/

namespace Sys2Proof.Machine

/-! Host memory, in canonical form (log 15). -/

/-- The byte at an address. -/
def memRead : Memory → Nat → Byte
  | [], _ => blankByte
  | (x, y) :: m, a => if a = x then y else memRead m a

/-- The memory with one byte written; writing the blank byte takes the cell out. -/
def memWrite : Memory → Nat → Byte → Memory
  | [], a, b => if b = blankByte then [] else [(a, b)]
  | (x, y) :: m, a, b =>
    if a < x then (if b = blankByte then (x, y) :: m else (a, b) :: (x, y) :: m)
    else if a = x then (if b = blankByte then m else (x, b) :: m)
    else (x, y) :: memWrite m a b

/-- The canonical form: addresses strictly rising, no blank cell. -/
abbrev Memory.wf (m : Memory) : Prop := m.Pairwise (fun c d => c.1 < d.1) ∧ ∀ c ∈ m, c.2 ≠ blankByte

/-- `BufRead` (00_scope.md R11): byte `i` of the buffer at the port `buf`. -/
def bufRead (s : State) (i : Nat) : Byte := memRead s.mem (s.bufp + i)

/-- `BufWrite` (R11). -/
def bufWrite (i : Nat) (b : Byte) (s : State) : State := { s with mem := memWrite s.mem (s.bufp + i) b }

/-- Go to sector `k` of a request (R29, R284; log 22). -/
def atSector (k : Nat) (s : State) : State := { s with sectidx := BitVec.ofNat 32 k, sectno := k }

/-- Attach the port `buf` to a host buffer (R39; log 12). -/
def attachBuffer (addr : Nat) (s : State) : State := { s with bufp := addr }

/-! The bus transport. -/

/-- `draw_u8()` (10_state.md R44): the card's next answer, a free value when none is listed (log 5). -/
def draw (s : State) : Byte × State :=
  match s.card with
  | b :: rest => (b, { s with card := rest })
  | [] => (Config.cardByte s.draws, { s with draws := s.draws + 1 })

/-- The effect of an exchange that sends `out` and receives `inp` (R140). -/
def transfer (out inp : Byte) (s : State) : State :=
  { s with txb := out, rxb := inp, xcount := s.xcount + 1, trace := s.trace ++ [.xfer s.sel out inp] }

/-- `Exchange(out)` (R140). -/
def exchange (out : Byte) (s : State) : Byte × State :=
  let d := draw s
  (d.1, transfer out d.1 d.2)

/-- `Select()` (R141). -/
def select (s : State) : State := { s with sel := true, trace := s.trace ++ [.sel] }

/-- `Deselect()` (R142). -/
def deselect (s : State) : State := { s with sel := false, trace := s.trace ++ [.desel] }

/-- `Sleep(1)` (43_init_sequencer.md R207): recorded, no other effect. -/
def sleep (s : State) : State := { s with trace := s.trace ++ [.slept] }

/-- `n` receive-only exchanges of `FILL` whose bytes are discarded (R102), counted in `loopidx`. -/
def clockFill : Nat → State → State
  | 0, s => s
  | n + 1, s =>
    let e := exchange s.cfg.fill s
    clockFill n { e.2 with loopidx := e.2.loopidx + 1 }

/-- Start one of the short counted loops (log 21). -/
def startLoop (s : State) : State := { s with loopidx := 0 }

/-- `n` exchanges of `FILL` whose bytes go to `R7TAIL` in reception order (R204, R98), counted in `loopidx`. -/
def drainTail : Nat → State → State
  | 0, s => s
  | n + 1, s =>
    let e := exchange s.cfg.fill s
    drainTail n { e.2 with r7tail := tailWith e.2.r7tail e.2.loopidx e.1, loopidx := e.2.loopidx + 1 }

/-- `n` exchanges of `FILL` whose bytes go to the buffer (R243), counted in `byteidx`. -/
def receivePayload : Nat → State → State
  | 0, s => s
  | n + 1, s =>
    let e := exchange s.cfg.fill s
    receivePayload n { bufWrite e.2.byteidx e.1 e.2 with byteidx := e.2.byteidx + 1 }

/-- `n` exchanges that send the buffer's bytes (R247), counted in `byteidx`; the bytes received are discarded. -/
def sendPayload : Nat → State → State
  | 0, s => s
  | n + 1, s =>
    let e := exchange (bufRead s s.byteidx) s
    sendPayload n { e.2 with byteidx := e.2.byteidx + 1 }

/-- Start a sector payload. -/
def startPayload (s : State) : State := { s with byteidx := 0 }

/-! The bounded poll (42_command_engine.md R180). -/

/-- What `Poll` answers. -/
structure PollResult where
  hit : Bool
  last : Byte
  n : Nat
  deriving DecidableEq, Repr

/-- The loop of `Poll`, with the exchanges still allowed and the last byte received. -/
def pollLoop (pred : Byte → Bool) (out : Byte) : Nat → Byte → State → PollResult × State
  | 0, last, s => (⟨false, last, s.pollcnt⟩, s)
  | k + 1, _, s =>
    let e := exchange out s
    let t := { e.2 with pollcnt := e.2.pollcnt + 1 }
    if pred e.1 then (⟨true, e.1, t.pollcnt⟩, t) else pollLoop pred out k e.1 t

/-- `Poll(bound, pred, out)` (R180). With bound 0 no exchange is made and `last` is a free value (log 16). -/
def poll (bound : Nat) (pred : Byte → Bool) (out : Byte) (s : State) : PollResult × State :=
  match bound with
  | 0 => (⟨false, Config.unpolledByte s.draws, 0⟩, { s with pollcnt := 0, draws := s.draws + 1 })
  | k + 1 => pollLoop pred out (k + 1) s.rxb { s with pollcnt := 0 }

/-! The command engine (R182). -/

/-- Latch a command and its frame (R22); its polls are still to come (log 34). -/
def latchFrame (opcode : U6) (arg : U32) (f : Frame) (s : State) : State :=
  { s with opc := opcode, arg := arg, frame := f, framei := 0, pollcnt := 0 }

/-- The first lines of `SendCommand`: the operands, the frame, and the checksum register where it is computed (R182, R23). -/
def latchCommand (opcode : U6) (arg : U32) (s : State) : State :=
  latchFrame opcode arg (commandFrame s.cfg opcode arg)
    { s with crc := if crcComputed s.cfg opcode then crc7 (frameHead opcode arg) else s.crc }

/-- Send the next `n` bytes of the frame; the bytes received are discarded (R186). -/
def sendFrame : Nat → State → State
  | 0, s => s
  | n + 1, s =>
    let e := exchange (frameByte s.frame s.framei) s
    sendFrame n { e.2 with framei := e.2.framei + 1 }

/-- Send the latched frame and poll for the response (R182): the last byte polled, whatever it is. -/
def sendLatched (s : State) : Byte × State :=
  let p := poll Config.respPollBound isResponse Config.pollByte (sendFrame Config.frameLen s)
  (p.1.last, { p.2 with r1 := p.1.last })

/-- `SendCommand(opcode, arg)` (R182). -/
def sendCommand (opcode : U6) (arg : U32) (s : State) : Byte × State := sendLatched (latchCommand opcode arg s)

/-- A command in a bracket of its own (R205). -/
def bracketCommand (opcode : U6) (arg : U32) (s : State) : Byte × State :=
  let c := sendCommand opcode arg (select s)
  (c.1, deselect c.2)

/-- Note which command of an ACMD41 attempt is in flight, for a machine stepped one exchange at a time (log 32). -/
def noteAppCmd (isAppCmd : Bool) (s : State) : State := { s with appcmd := isAppCmd }

/-- One more attempt of the ACMD41 loop (R206), `APP_CMD` first. -/
def nextAttempt (s : State) : State := noteAppCmd true { s with retrycnt := s.retrycnt + 1 }

/-! The end of an operation (60_exceptions.md R318; 10_state.md R33, R38). -/

/-- An operation without a `Result` ends: its value stands at the port `res`, and the block is idle. -/
def deliverValue (v : Delivered) (s : State) : State :=
  { s with out := v, busy := false, phase := .idle, running := none }

/-- An operation ends with `Ok`. -/
def deliverOk (v : Delivered) (s : State) : Result × State := (.ok, { deliverValue v s with res := .ok })

/-- `raise E(info)` (R318), in its order: close the bracket if it is open; `Failed` for `InitFailure` only; `RES`; idle. -/
def raiseError (bracketOpen : Bool) (e : Result) (s : State) : Result × State :=
  let closed := if bracketOpen then deselect s else s
  let moved := match e with
    | .initFailure _ _ => { closed with fsm := .failed }
    | _ => closed
  (e, { deliverValue .nothing moved with res := e })

/-! The start of an operation (R38, R358) and the reset input (R350 to R352). -/

/-- The host starts `i`. While an operation is in flight there is no step (R358). Else `busy` is set and `i` latched; `whole`
runs it to its end, or, in a machine stepped one exchange at a time (R29; log 7), `first` takes it to its first exchange. -/
def startOp (i : Instr) (first whole : State → State) (s : State) : Host.Outcome State Fault Refusal :=
  if s.busy then .refused .startWhileBusy
  else
    let t := { s with busy := true, running := some i }
    .next (if s.cfg.stepwise then first t else whole t)

/-- An operation that makes no exchange, or one, is one step in either granularity (R66). -/
def startWhole (i : Instr) (whole : State → State) (s : State) : Host.Outcome State Fault Refusal :=
  startOp i whole whole s

/-- The block after reset (R350, R46). The parameters, the host's memory and what the host presents are not the block's
(R43, R62), and the card is not reset (R351). -/
def resetBlock (s : State) : State :=
  { State.reset with cfg := s.cfg, mem := s.mem, port := s.port, card := s.card, draws := s.draws }

/-- The reset input: legal only when no operation runs (R352). -/
def hostReset (s : State) : Host.Outcome State Fault Refusal :=
  if s.busy then .refused .resetWhileBusy else .next (resetBlock s)

/-- The chip-select pin (R37, R39): low while the card is selected. -/
def csN (s : State) : Bool := !s.sel

end Sys2Proof.Machine
end

