-- ==== Sys2Proof/Machine/Stepwise.lean ====
section
/-!
DEFINITION. The block stepped one exchange at a time: the tables of 42_command_engine.md R189, 43_init_sequencer.md R211 and
44_block_io.md R254, over `phase`, the counters of 10_state.md R29 and the latched operation. A step is one exchange and the
moves the tables put after it (`Sel`, `Desel`, `Slept`, the next state of `fsm`).
-/

namespace Sys2Proof.Machine

/-! What the operation in flight does with its response. -/

/-- How an operation in flight goes on once its frame is answered (30_encoding.md R105). -/
inductive Flow where
  /-- No operation, or one that is never in flight between exchanges. -/
  | none
  /-- The response ends it; `bracketed` says whether it closes a bracket (R185: `SEND_COMMAND` does not). -/
  | command (bracketed : Bool)
  /-- Opcode 8: four trailing bytes if the response is 0x01. -/
  | ifCond
  /-- `INIT`, or `initialize`, which reports a failure as `NotReady` (R283). -/
  | sequence (viaAdapter : Bool)
  /-- One sector. -/
  | sector (isWrite : Bool)
  /-- `count` sectors from `first`, with the buffer at `buf`. -/
  | sectors (isWrite : Bool) (first : U32) (count buf : Nat)
  /-- A tier-1 `POLL`. -/
  | polling (bound : Nat) (pred : BytePred) (out : Byte)
  deriving DecidableEq, Repr

/-- The flow of each operation. -/
def flowOf : Instr → Flow
  | .cmdFrame _ _ _ => .command true
  | .cmd0 _ _ => .command true
  | .cmd16 _ _ => .command true
  | .acmd41 _ _ => .command true
  | .cmd55 _ _ => .command true
  | .sendCommand _ _ => .command false
  | .cmd8 _ _ => .ifCond
  | .cmd17 _ _ => .sector false
  | .cmd24 _ _ => .sector true
  | .readSector _ _ => .sector false
  | .writeSector _ _ => .sector true
  | .init => .sequence false
  | .initializeDrive _ => .sequence true
  | .read _ sector count buf => .sectors false sector count buf
  | .write _ sector count buf => .sectors true sector count buf
  | .read10 lba byteOffset buffer length =>
    .sectors false (exporterSector lba byteOffset) (exporterCount length) buffer
  | .write10 lba byteOffset buffer length =>
    .sectors true (exporterSector lba byteOffset) (exporterCount length) buffer
  | .poll bound pred out => .polling bound pred out
  | .dataStartToken | .r1Valid _ | .r1NotYet _ | .r1IdleExact | .r1ReadyExact | .drespAccepted _ | .drespCrcError _
  | .drespWriteError _ | .drespOther _ _ | .busyByte | .fillByte | .exchange _ | .select | .deselect | .status _
  | .testUnitReady | .capacity | .ioctlSync _ | .ioctlGetSectorCount _ | .ioctlGetSectorSize _ | .ioctlGetBlockSize _
  | .ioctlUnknown _ _ => .none

/-- The flow of the operation in flight. -/
def flow (s : State) : Flow :=
  match s.running with
  | some i => flowOf i
  | none => .none

/-- The byte the next exchange of the operation in flight sends (R189, R102, R247). -/
def nextOut (s : State) : Byte :=
  match s.phase with
  | .frame => frameByte s.frame s.framei
  | .respPoll =>
    match flow s with
    | .polling _ _ out => out
    | _ => Config.pollByte
  | .wrToken => Config.dataStartToken
  | .wrPayload => bufRead s s.byteidx
  | _ => s.cfg.fill

/-! Issuing commands. -/

/-- Select, and latch a command of the sequencers: its frame is next on the wire (R205). -/
def issue (opcode : U6) (arg : U32) (s : State) : State := { latchCommand opcode arg (select s) with phase := .frame }

/-- Select, and latch a wire command's own frame (log 11). -/
def issueWire (opcode : U6) (arg : U32) (crc7 : U7) (s : State) : State :=
  { latchFrame opcode arg (wireFrame opcode arg crc7) (select s) with phase := .frame }

/-- The wire command of a sector operation (R241, R246). -/
def sectorOpcode (isWrite : Bool) : U6 := if isWrite then Config.opWriteBlock else Config.opReadSingleBlock

/-- Attach the buffer of a sector and issue its command. -/
def issueSector (isWrite : Bool) (index : U32) (buf : Nat) (s : State) : State :=
  issue (sectorOpcode isWrite) index (attachBuffer buf s)

/-! The initialisation sequence (R211). -/

/-- Entry (R201, R202): not ready, `BusReset`, deselected; its polls are still to come (log 34). -/
def enterInit (s : State) : State := deselect { s with ready := false, fsm := .busReset, pollcnt := 0 }

/-- Entry, the idle bytes next. -/
def enterBusReset (s : State) : State := { startLoop (enterInit s) with phase := .resetIdle }

/-- R203. -/
def enterGoIdle (s : State) : State := issue Config.opGoIdle Config.argZero { s with fsm := .goIdle }

/-- R204. -/
def enterIfCond (s : State) : State :=
  issue Config.opSendIfCond Config.argIfCond { s with fsm := .checkInterfaceCondition }

/-- One more attempt of the ACMD41 loop (R206). -/
def startAttempt (s : State) : State := issue Config.opAppCmd Config.argZero (nextAttempt s)

/-- R206. -/
def enterApplicationInit (s : State) : State := startAttempt { s with fsm := .applicationInit, retrycnt := 0 }

/-- R208. -/
def enterSetBlockLength (s : State) : State := issue Config.opSetBlocklen Config.argBlocklen { s with fsm := .setBlockLength }

/-- `CapacityFixed`, then `Ready` (R209). -/
def fixCapacity (s : State) : State :=
  let t := { s with fsm := .capacityFixed, sectorCount := s.cfg.sectorCountFixed }
  { t with fsm := .ready, ready := true }

/-- `Failed` (R210), reported as `NotReady` by the adapter (R283). -/
def failInit (viaAdapter : Bool) (step : InitStep) (r : Byte) (s : State) : State :=
  let f := (raiseError false (.initFailure step r) s).2
  if viaAdapter then (raiseError false .notReady f).2 else f

/-- After the response to opcode 8 and its trailing bytes (R204). -/
def afterIfCond (viaAdapter : Bool) (r : Byte) (s : State) : State :=
  let c := deselect s
  if c.cfg.ifcondTimeoutFatal && !isResponse r then failInit viaAdapter .checkInterfaceCondition r c
  else enterApplicationInit c

/-- After the response to `SEND_OP_COND` (R206), its bracket closed. -/
def afterAttempt (viaAdapter : Bool) (r : Byte) (c : State) : State :=
  if r1IdleFlag r then
    let z := sleep c
    if z.retrycnt < Config.acmd41Bound then startAttempt z else failInit viaAdapter .applicationInit r z
  else enterSetBlockLength c

/-- The move of `fsm` on a response `r` (R211). Within an attempt of the ACMD41 loop the response to `APP_CMD` is told from that
to `SEND_OP_COND` by the model's own `appcmd`: `OPC` is read only by `SEND_COMMAND` (R22), and R29 lists no register for this.
DESIGN CHOICE, safe (log 32). -/
def afterInitResponse (viaAdapter : Bool) (r : Byte) (s : State) : State :=
  match s.fsm with
  | .goIdle =>
    if r1ExactlyIdle r then enterIfCond (deselect s) else failInit viaAdapter .goIdle r (deselect s)
  | .checkInterfaceCondition =>
    if r1ExactlyIdle r then { startLoop s with phase := .r7Drain } else afterIfCond viaAdapter r s
  | .applicationInit =>
    if s.appcmd then issue Config.opSendOpCond Config.argOpCond (noteAppCmd false (deselect s))
    else afterAttempt viaAdapter r (deselect s)
  | .setBlockLength =>
    if r1AllClear r then (deliverOk .nothing (fixCapacity (deselect s))).2
    else failInit viaAdapter .setBlockLength r (deselect s)
  | .uninit | .busReset | .capacityFixed | .ready | .failed => s

/-! Sectors (R254). -/

/-- The sector of an operation in flight ended with an error, its bracket still open. -/
def failSector (e : Result) (s : State) : State := (raiseError true e s).2

/-- The sector of an operation in flight ended well, its bracket closed: the next one (R284, R285), or the end. -/
def endSector (s : State) : State :=
  match flow s with
  | .sectors isWrite first count buf =>
    if s.sectno + 1 < count then
      issueSector isWrite (sectorAt first (s.sectno + 1)) (bufferAt buf (s.sectno + 1)) (atSector (s.sectno + 1) s)
    else (deliverOk .nothing s).2
  | .sector _ => (deliverOk .nothing s).2
  | .none | .command _ | .ifCond | .sequence _ | .polling _ _ _ => s

/-- After the response to opcode 17 or 24. -/
def afterSectorResponse (isWrite : Bool) (r : Byte) (s : State) : State :=
  if r1AllClear r then
    if isWrite then { s with phase := .wrToken } else { s with pollcnt := 0, phase := .tokenPoll }
  else failSector (.commandRejected r) s

/-! One exchange. -/

/-- The response poll is over with `r` (R189). What a lone wire command delivers here is log 35. -/
def afterResponse (r : Byte) (s : State) : State :=
  match flow s with
  | .command bracketed => deliverValue (.byte r) (if bracketed then deselect s else s)
  | .ifCond =>
    if r1ExactlyIdle r then { startLoop s with phase := .r7Drain } else deliverValue (.byte r) (deselect s)
  | .sequence viaAdapter => afterInitResponse viaAdapter r s
  | .sector isWrite => afterSectorResponse isWrite r s
  | .sectors isWrite _ _ _ => afterSectorResponse isWrite r s
  | .none | .polling _ _ _ => s

/-- The trailing bytes are drained (R204, R98). What a lone CMD8 delivers here is log 35. -/
def afterDrain (s : State) : State :=
  match flow s with
  | .ifCond => deliverValue (.byte s.r1) (deselect s)
  | .sequence viaAdapter => afterIfCond viaAdapter s.r1 s
  | .none | .command _ | .sector _ | .sectors _ _ _ _ | .polling _ _ _ => s

/-- The reaction to the byte `b` just received, by phase (R189, R211, R254). -/
def react (b : Byte) (s : State) : State :=
  match s.phase with
  | .idle => s
  | .resetIdle =>
    let t := { s with loopidx := s.loopidx + 1 }
    if t.loopidx < t.cfg.resetIdleBytes then t else enterGoIdle t
  | .frame =>
    let t := { s with framei := s.framei + 1 }
    if t.framei < Config.frameLen then t else { t with pollcnt := 0, phase := .respPoll }
  | .respPoll =>
    let t := { s with pollcnt := s.pollcnt + 1 }
    match flow s with
    | .polling bound pred _ =>
      if pred.holds b || decide (bound ≤ t.pollcnt) then deliverValue (.poll (pred.holds b) b t.pollcnt) t else t
    | _ =>
      let u := { t with r1 := b }
      if isResponse b || decide (Config.respPollBound ≤ u.pollcnt) then afterResponse b u else u
  | .r7Drain =>
    let t := { s with r7tail := tailWith s.r7tail s.loopidx b, loopidx := s.loopidx + 1 }
    if t.loopidx < Config.r7TailLen then t else afterDrain t
  | .tokenPoll =>
    let t := { s with pollcnt := s.pollcnt + 1, tok := b }
    if isStartToken b then { startPayload t with phase := .rdPayload }
    else if t.pollcnt < Config.tokenPollBound then t
    else failSector (.transferTimeout .token) t
  | .rdPayload =>
    let t := { bufWrite s.byteidx b s with byteidx := s.byteidx + 1 }
    if t.byteidx < Config.blockSize then t else { startLoop t with phase := .rdCrc }
  | .rdCrc =>
    let t := { s with loopidx := s.loopidx + 1 }
    if t.loopidx < Config.dataCrcLen then t else endSector (deselect t)
  | .wrToken => { startPayload s with phase := .wrPayload }
  | .wrPayload =>
    let t := { s with byteidx := s.byteidx + 1 }
    if t.byteidx < Config.blockSize then t else { startLoop t with phase := .wrCrc }
  | .wrCrc =>
    let t := { s with loopidx := s.loopidx + 1 }
    if t.loopidx < Config.dataCrcLen then t else { t with phase := .wrResp }
  | .wrResp =>
    let t := { s with dresp := b }
    if writeAccepted b then { t with pollcnt := 0, phase := .busyPoll }
    else failSector (.writeRejected (rejectReason b) b) t
  | .busyPoll =>
    let t := { s with pollcnt := s.pollcnt + 1, busyb := b }
    if notBusy b then endSector (deselect t)
    else if t.pollcnt < Config.busyPollBound then t
    else failSector (.transferTimeout .busy) t

/-- The next exchange of the operation in flight, in which the card answers `b`. -/
def advance (b : Byte) (s : State) : State :=
  if s.phase = .idle then s else react b (transfer (nextOut s) b s)

/-- The next exchange of the operation in flight, with the card's own answer (R44). -/
def crank (s : State) : State :=
  if s.phase = .idle then s
  else
    let d := draw s
    advance d.1 d.2

/-- `n` exchanges of the operation in flight. -/
def crankMany : Nat → State → State
  | 0, s => s
  | n + 1, s => crankMany n (crank s)

end Sys2Proof.Machine
end

