-- ==== Sys2Proof/Machine/BlockIo.lean ====
section
/-!
DEFINITION. The Block I/O Engine (spec/44_block_io.md): the transactions of opcodes 17 and 24, and the meanings of
READ_SECTOR (R241) and WRITE_SECTOR (R246).
-/

namespace Sys2Proof.Machine

/-- The data phase of a read, after `R1 == 0x00` (R242, R243). -/
def readData (s : State) : Result × State :=
  let p := poll Config.tokenPollBound isStartToken s.cfg.fill s
  let t := { p.2 with tok := p.1.last }
  if p.1.hit then
    let u := receivePayload Config.blockSize (startPayload t)
    deliverOk .nothing (deselect (clockFill Config.dataCrcLen (startLoop u)))
  else raiseError true (.transferTimeout .token) t

/-- The transaction of opcode 17, selected and latched (R241). -/
def readLatched (s : State) : Result × State :=
  let c := sendLatched s
  if r1AllClear c.1 then readData c.2 else raiseError true (.commandRejected c.1) c.2

/-- The busy poll of a write, after acceptance (R250). -/
def awaitWritten (s : State) : Result × State :=
  let p := poll Config.busyPollBound notBusy s.cfg.fill s
  let t := { p.2 with busyb := p.1.last }
  if p.1.hit then deliverOk .nothing (deselect t) else raiseError true (.transferTimeout .busy) t

/-- The data phase of a write, after `R1 == 0x00` (R247 to R249). -/
def writeData (s : State) : Result × State :=
  let k := exchange Config.dataStartToken s
  let u := sendPayload Config.blockSize (startPayload k.2)
  let v := clockFill Config.dataCrcLen (startLoop u)
  let d := exchange v.cfg.fill v
  let t := { d.2 with dresp := d.1 }
  if writeAccepted d.1 then awaitWritten t else raiseError true (.writeRejected (rejectReason d.1) d.1) t

/-- The transaction of opcode 24, selected and latched (R246). -/
def writeLatched (s : State) : Result × State :=
  let c := sendLatched s
  if r1AllClear c.1 then writeData c.2 else raiseError true (.commandRejected c.1) c.2

/-- `ReadSector(index, buf)` (R241), behind the ready gate (R255). -/
def readSector (index : U32) (buf : Nat) (s : State) : Result × State :=
  if s.ready then readLatched (latchCommand Config.opReadSingleBlock index (select (attachBuffer buf s)))
  else raiseError false .notReady s

/-- `WriteSector(index, buf)` (R246), behind the ready gate (R255). -/
def writeSector (index : U32) (buf : Nat) (s : State) : Result × State :=
  if s.ready then writeLatched (latchCommand Config.opWriteBlock index (select (attachBuffer buf s)))
  else raiseError false .notReady s

/-- The start of a sector operation (R254). -/
def firstSector (isWrite : Bool) (index : U32) (buf : Nat) (s : State) : State :=
  if s.ready then issueSector isWrite index buf s else (raiseError false .notReady s).2

def execReadSector (index : U32) (buf : Nat) (s : State) : Host.Outcome State Fault Refusal :=
  startOp (.readSector index buf) (firstSector false index buf) (fun t => (readSector index buf t).2) s

def execWriteSector (index : U32) (buf : Nat) (s : State) : Host.Outcome State Fault Refusal :=
  startOp (.writeSector index buf) (firstSector true index buf) (fun t => (writeSector index buf t).2) s

end Sys2Proof.Machine
end

