-- ==== Sys2Proof/Machine/Init.lean ====
section
/-!
DEFINITION. The Initialization State Machine (spec/43_init_sequencer.md): INIT (R200), one definition for each of its states.
-/

namespace Sys2Proof.Machine

/-- Entry and `BusReset` (R201, R202): not ready, deselected, the idle bytes. -/
def initBusReset (s : State) : State :=
  let t := enterInit s
  clockFill t.cfg.resetIdleBytes (startLoop t)

/-- `GoIdle` (R203). -/
def initGoIdle (s : State) : Byte × State := bracketCommand Config.opGoIdle Config.argZero { s with fsm := .goIdle }

/-- `CheckInterfaceCondition` (R204): the drain is inside the bracket. -/
def initIfCond (s : State) : Byte × State :=
  let c := sendCommand Config.opSendIfCond Config.argIfCond (select { s with fsm := .checkInterfaceCondition })
  let t := if r1ExactlyIdle c.1 then drainTail Config.r7TailLen (startLoop c.2) else c.2
  (c.1, deselect t)

/-- One attempt of the ACMD41 loop (R206): two brackets; the response to `APP_CMD` is ignored. -/
def initAttempt (s : State) : Byte × State :=
  let a := bracketCommand Config.opAppCmd Config.argZero (nextAttempt s)
  bracketCommand Config.opSendOpCond Config.argOpCond (noteAppCmd false a.2)

/-- The ACMD41 loop (R206) with the attempts still allowed: whether the idle flag cleared, and the last response. -/
def initAttempts : Nat → Byte → State → (Bool × Byte) × State
  | 0, r, s => ((false, r), s)
  | n + 1, _, s =>
    let a := initAttempt s
    if r1IdleFlag a.1 then initAttempts n a.1 (sleep a.2) else ((true, a.1), a.2)

/-- `ApplicationInit` (R206). -/
def initApplication (s : State) : (Bool × Byte) × State :=
  initAttempts Config.acmd41Bound s.r1 { s with fsm := .applicationInit, retrycnt := 0 }

/-- `SetBlockLength` (R208). -/
def initBlockLength (s : State) : Byte × State :=
  bracketCommand Config.opSetBlocklen Config.argBlocklen { s with fsm := .setBlockLength }

/-- `SetBlockLength`, `CapacityFixed`, `Ready` (R208, R209). -/
def initFromBlockLength (s : State) : Result × State :=
  let b := initBlockLength s
  if r1AllClear b.1 then deliverOk .nothing (fixCapacity b.2)
  else raiseError false (.initFailure .setBlockLength b.1) b.2

/-- From `ApplicationInit` on. -/
def initFromApplication (s : State) : Result × State :=
  let a := initApplication s
  if a.1.1 then initFromBlockLength a.2 else raiseError false (.initFailure .applicationInit a.1.2) a.2

/-- From `CheckInterfaceCondition` on. -/
def initFromIfCond (s : State) : Result × State :=
  let c := initIfCond s
  if c.2.cfg.ifcondTimeoutFatal && !isResponse c.1 then raiseError false (.initFailure .checkInterfaceCondition c.1) c.2
  else initFromApplication c.2

/-- `Init()` (R200). -/
def initCard (s : State) : Result × State :=
  let g := initGoIdle (initBusReset s)
  if r1ExactlyIdle g.1 then initFromIfCond g.2 else raiseError false (.initFailure .goIdle g.1) g.2

def execInit (s : State) : Host.Outcome State Fault Refusal :=
  startOp .init enterBusReset (fun t => (initCard t).2) s

end Sys2Proof.Machine
end

