-- ==== Sys2Proof/Machine/Adapter.lean ====
section
/-!
DEFINITION. The Block Device Adapter and the mass-storage exporter's boundary (spec/45_adapter_boundary.md).
-/

namespace Sys2Proof.Machine

/-! The checks, in the order of R290. -/

/-- The drive check. -/
def driveOk (drive : Nat) (s : State) : Bool := drive == s.cfg.driveIndex

/-- The drive check, then the ready gate (R281): what a call that fails one of them reports. -/
def gate (drive : Nat) (s : State) : Option Result :=
  if driveOk drive s then (if s.ready then none else some .notReady) else some .parameterError

/-- A call behind both checks; one that fails makes no bus activity (R281). -/
def behindGate (drive : Nat) (work : State → State) (s : State) : State :=
  match gate drive s with
  | some e => (raiseError false e s).2
  | none => work s

/-! Sectors one by one (R284, R285). -/

/-- The sectors from the `k`-th on, `n` of them left: stop at the first failure. -/
def readSectors (sector : U32) (buf : Nat) : Nat → Nat → State → Result × State
  | 0, _, s => deliverOk .nothing s
  | n + 1, k, s =>
    let r := readSector (sectorAt sector k) (bufferAt buf k) (atSector k s)
    if r.1 = .ok then readSectors sector buf n (k + 1) r.2 else r

/-- As `readSectors`, writing. -/
def writeSectors (sector : U32) (buf : Nat) : Nat → Nat → State → Result × State
  | 0, _, s => deliverOk .nothing s
  | n + 1, k, s =>
    let r := writeSector (sectorAt sector k) (bufferAt buf k) (atSector k s)
    if r.1 = .ok then writeSectors sector buf n (k + 1) r.2 else r

/-- The start of a request of `count` sectors: the first sector's command, or the end if there is none. -/
def firstSectors (isWrite : Bool) (sector : U32) (count buf : Nat) (s : State) : State :=
  if count = 0 then (deliverOk .nothing s).2
  else issueSector isWrite (sectorAt sector 0) (bufferAt buf 0) (atSector 0 s)

/-- `read` (R284). -/
def runRead (drive : Nat) (sector : U32) (count buf : Nat) (s : State) : State :=
  behindGate drive (fun t => (readSectors sector buf count 0 t).2) s

/-- `write` (R285). -/
def runWrite (drive : Nat) (sector : U32) (count buf : Nat) (s : State) : State :=
  behindGate drive (fun t => (writeSectors sector buf count 0 t).2) s

/-! The calls. -/

/-- `status(drive)` (R282): a wrong drive is not-ready. -/
def runStatus (drive : Nat) (s : State) : State := deliverValue (.status (driveOk drive s && s.ready)) s

/-- `initialize(drive)` (R283): `INIT` behind the drive check, its failure reported as `NotReady`. -/
def runInitialize (drive : Nat) (s : State) : State :=
  if driveOk drive s then
    let r := initCard s
    if r.1 = .ok then (deliverOk .nothing r.2).2 else (raiseError false .notReady r.2).2
  else (raiseError false .parameterError s).2

/-- The start of `initialize`. -/
def firstInitialize (drive : Nat) (s : State) : State :=
  if driveOk drive s then enterBusReset s else (raiseError false .parameterError s).2

/-- `ioctl(sync)` (R286): nothing to do. -/
def runIoctlSync (drive : Nat) (s : State) : State := behindGate drive (fun t => (deliverOk .nothing t).2) s

/-- `ioctl(get_sector_count)` (R287). -/
def runIoctlSectorCount (drive : Nat) (s : State) : State :=
  behindGate drive (fun t => (deliverOk (.number t.sectorCount.toNat) t).2) s

/-- `ioctl(get_sector_size)` (R288): 512, whether ready or not. -/
def runIoctlSectorSize (drive : Nat) (s : State) : State :=
  if driveOk drive s then (deliverOk (.number Config.blockSize) s).2 else (raiseError false .parameterError s).2

/-- `ioctl(get_block_size)` (R288): the erase granularity, 1. -/
def runIoctlBlockSize (drive : Nat) (s : State) : State :=
  behindGate drive (fun t => (deliverOk (.number Config.eraseGranularity) t).2) s

/-- `ioctl` with an unknown sub-command (R289), whatever the drive and the Session (R290). -/
def runIoctlUnknown (s : State) : State := (raiseError false .parameterError s).2

def execStatus (drive : Nat) (s : State) : Host.Outcome State Fault Refusal :=
  startWhole (.status drive) (runStatus drive) s

def execInitializeDrive (drive : Nat) (s : State) : Host.Outcome State Fault Refusal :=
  startOp (.initializeDrive drive) (firstInitialize drive) (runInitialize drive) s

def execRead (drive : Nat) (sector : U32) (count buf : Nat) (s : State) : Host.Outcome State Fault Refusal :=
  startOp (.read drive sector count buf) (behindGate drive (firstSectors false sector count buf))
    (runRead drive sector count buf) s

def execWrite (drive : Nat) (sector : U32) (count buf : Nat) (s : State) : Host.Outcome State Fault Refusal :=
  startOp (.write drive sector count buf) (behindGate drive (firstSectors true sector count buf))
    (runWrite drive sector count buf) s

def execIoctlSync (drive : Nat) (s : State) : Host.Outcome State Fault Refusal :=
  startWhole (.ioctlSync drive) (runIoctlSync drive) s

def execIoctlGetSectorCount (drive : Nat) (s : State) : Host.Outcome State Fault Refusal :=
  startWhole (.ioctlGetSectorCount drive) (runIoctlSectorCount drive) s

def execIoctlGetSectorSize (drive : Nat) (s : State) : Host.Outcome State Fault Refusal :=
  startWhole (.ioctlGetSectorSize drive) (runIoctlSectorSize drive) s

def execIoctlGetBlockSize (drive : Nat) (s : State) : Host.Outcome State Fault Refusal :=
  startWhole (.ioctlGetBlockSize drive) (runIoctlBlockSize drive) s

def execIoctlUnknown (drive sub : Nat) (s : State) : Host.Outcome State Fault Refusal :=
  startWhole (.ioctlUnknown drive sub) runIoctlUnknown s

/-! The mass-storage exporter. -/

/-- `test_unit_ready()` (R291). `RES` is left as it was, although R310 does not name this call among those that deliver no
`Result`. DESIGN CHOICE (log 9). -/
def runTestUnitReady (s : State) : State := deliverValue (.flag s.ready) s

/-- `capacity()` (R292): while the Session is not ready the count is a free value (U3; log 17). `RES` is left as it was, although
R310 does not name this call among those that deliver no `Result`. DESIGN CHOICE (log 9). -/
def runCapacity (s : State) : State :=
  if s.ready then deliverValue (.capacity s.sectorCount Config.blockSize) s
  else deliverValue (.capacity (Config.unreadyBlockCount s.draws) Config.blockSize) { s with draws := s.draws + 1 }

def execTestUnitReady (s : State) : Host.Outcome State Fault Refusal := startWhole .testUnitReady runTestUnitReady s

def execCapacity (s : State) : Host.Outcome State Fault Refusal := startWhole .capacity runCapacity s

/-- `read10` (R293); an offset or length that is not in whole sectors has no meaning (R294). -/
def execRead10 (lba : U32) (byteOffset buffer length : Nat) (s : State) : Host.Outcome State Fault Refusal :=
  if wholeSectors byteOffset && wholeSectors length then
    startOp (.read10 lba byteOffset buffer length)
      (fun t => behindGate t.cfg.driveIndex
        (firstSectors false (exporterSector lba byteOffset) (exporterCount length) buffer) t)
      (fun t => runRead t.cfg.driveIndex (exporterSector lba byteOffset) (exporterCount length) buffer t) s
  else .refused .raggedOffset

/-- `write10` (R293, R294). -/
def execWrite10 (lba : U32) (byteOffset buffer length : Nat) (s : State) : Host.Outcome State Fault Refusal :=
  if wholeSectors byteOffset && wholeSectors length then
    startOp (.write10 lba byteOffset buffer length)
      (fun t => behindGate t.cfg.driveIndex
        (firstSectors true (exporterSector lba byteOffset) (exporterCount length) buffer) t)
      (fun t => runWrite t.cfg.driveIndex (exporterSector lba byteOffset) (exporterCount length) buffer t) s
  else .refused .raggedOffset

end Sys2Proof.Machine
end

