-- ==== Sys2Proof/Machine/Transport.lean ====
section
/-!
DEFINITION. The meanings of EXCHANGE, SELECT and DESELECT (spec/40_transport.md R140 to R142).
-/

namespace Sys2Proof.Machine

/-- `EXCHANGE(out)`: one exchange; the host gets the byte received (R140). -/
def runExchange (out : Byte) (s : State) : State :=
  let e := exchange out s
  deliverValue (.byte e.1) e.2

/-- `SELECT()` (R141). -/
def runSelect (s : State) : State := deliverValue .nothing (select s)

/-- `DESELECT()` (R142). -/
def runDeselect (s : State) : State := deliverValue .nothing (deselect s)

def execExchange (out : Byte) (s : State) : Host.Outcome State Fault Refusal :=
  startWhole (.exchange out) (runExchange out) s

def execSelect (s : State) : Host.Outcome State Fault Refusal := startWhole .select runSelect s

def execDeselect (s : State) : Host.Outcome State Fault Refusal := startWhole .deselect runDeselect s

end Sys2Proof.Machine
end

