-- ==== Sys2Proof/Machine/BusBytes.lean ====
section
/-!
DEFINITION. The meanings of the BYTE rows (30_encoding.md R96 to R102): each is the one exchange in which that byte travels.
While an operation is in flight it is that operation's next exchange, and the block reacts as the tables R189, R211 and R254
say; with none in flight it is a bare exchange (40_transport.md R140) (log 13).
-/

namespace Sys2Proof.Machine

/-- An exchange in which the card answers `b`; a bare one sends `out`. -/
def receiveByte (out b : Byte) (s : State) : Host.Outcome State Fault Refusal :=
  .next (if s.busy then advance b s else deliverValue (.byte b) (transfer out b s))

/-- The start token: while an operation is in flight, sent by the block where a write sends it (R247), else the card's answer
(R242). With none in flight R99 does not say which way it travels: the block sends it, and the card answers as it does
otherwise. DESIGN CHOICE (log 13). -/
def execDataStartToken (s : State) : Host.Outcome State Fault Refusal :=
  if s.busy then
    .next (if s.phase = .wrToken then crank s else advance Config.dataStartToken s)
  else .next (runExchange Config.dataStartToken s)

/-- A response byte: bit 7 clear (R96). -/
def execR1Valid (flags : U7) (s : State) : Host.Outcome State Fault Refusal :=
  receiveByte Config.pollByte (validByte flags) s

/-- "Not yet": bit 7 set (R97). -/
def execR1NotYet (low : U7) (s : State) : Host.Outcome State Fault Refusal :=
  receiveByte Config.pollByte (notYetByte low) s

/-- The response 0x01 (R203, R204). -/
def execR1IdleExact (s : State) : Host.Outcome State Fault Refusal :=
  receiveByte Config.pollByte Config.r1Idle s

/-- The response 0x00 (R208, R241, R246). -/
def execR1ReadyExact (s : State) : Host.Outcome State Fault Refusal :=
  receiveByte Config.pollByte 0x00#8 s

/-- A data response that accepts (R100, R248). -/
def execDrespAccepted (ignored : BitVec 3) (s : State) : Host.Outcome State Fault Refusal :=
  receiveByte s.cfg.fill (responseByte ignored Config.acceptPattern) s

/-- A data response that rejects for a CRC error (R249). -/
def execDrespCrcError (ignored : BitVec 3) (s : State) : Host.Outcome State Fault Refusal :=
  receiveByte s.cfg.fill (responseByte ignored 0b01011#5) s

/-- A data response that rejects for a write error (R249). -/
def execDrespWriteError (ignored : BitVec 3) (s : State) : Host.Outcome State Fault Refusal :=
  receiveByte s.cfg.fill (responseByte ignored 0b01101#5) s

/-- A data response that rejects for another reason (R249). -/
def execDrespOther (ignored : BitVec 3) (r : BitVec 5) (s : State) : Host.Outcome State Fault Refusal :=
  receiveByte s.cfg.fill (responseByte ignored r) s

/-- Still busy (R101, R250). -/
def execBusyByte (s : State) : Host.Outcome State Fault Refusal :=
  receiveByte s.cfg.fill 0x00#8 s

/-- The block sends `FILL` (R102); where the operation in flight sends another byte next, that cannot happen (log 14). What is sent
is the parameter `FILL`, also where that is not the 0xFF the row is presented as. DESIGN CHOICE (log 33). -/
def execFillByte (s : State) : Host.Outcome State Fault Refusal :=
  if s.busy then
    if nextOut s = s.cfg.fill then .next (crank s) else .refused .fillNotNext
  else .next (runExchange s.cfg.fill s)

end Sys2Proof.Machine
end

