-- ==== Sys2Proof/Machine/Command.lean ====
section
/-!
DEFINITION. The meanings of SEND_COMMAND and POLL (spec/42_command_engine.md R180, R182).
-/

namespace Sys2Proof.Machine

/-- `SEND_COMMAND(opcode, arg)`: the host gets the byte (R182). It drives no chip select (R185) and writes no `RES`. -/
def runSendCommand (opcode : U6) (arg : U32) (s : State) : State :=
  let c := sendCommand opcode arg s
  deliverValue (.byte c.1) c.2

/-- The start of `SEND_COMMAND` (R189): the frame is next. -/
def firstSendCommand (opcode : U6) (arg : U32) (s : State) : State := { latchCommand opcode arg s with phase := .frame }

/-- `POLL(bound, pred, out)`: the host gets the triple (R180). -/
def runPoll (bound : Nat) (pred : BytePred) (out : Byte) (s : State) : State :=
  let p := poll bound pred.holds out s
  deliverValue (.poll p.1.hit p.1.last p.1.n) p.2

/-- The start of `POLL`; with bound 0 it is over at once. -/
def firstPoll (bound : Nat) (pred : BytePred) (out : Byte) (s : State) : State :=
  if bound = 0 then runPoll bound pred out s else { s with pollcnt := 0, phase := .respPoll }

def execSendCommand (opcode : U6) (arg : U32) (s : State) : Host.Outcome State Fault Refusal :=
  startOp (.sendCommand opcode arg) (firstSendCommand opcode arg) (runSendCommand opcode arg) s

def execPoll (bound : Nat) (pred : BytePred) (out : Byte) (s : State) : Host.Outcome State Fault Refusal :=
  startOp (.poll bound pred out) (firstPoll bound pred out) (runPoll bound pred out) s

end Sys2Proof.Machine
end

