-- ==== Sys2Proof/Machine/Wire.lean ====
section
/-!
DEFINITION. The meanings of the FRAME48 rows (30_encoding.md R91, R95, R105): each is its command's whole transaction on the
bus, in a bracket of its own (R205), with the row's own six bytes (log 11). What a row hands the host when it completes is the
model's choice, since the spec gives a wire command no host result (log 35).
-/

namespace Sys2Proof.Machine

/-- Select, and latch a wire command's own frame. -/
def latchWire (opcode : U6) (arg : U32) (crc7 : U7) (s : State) : State :=
  latchFrame opcode arg (wireFrame opcode arg crc7) (select s)

/-- The transaction of a command whose response is the one R1 byte (R105). DESIGN CHOICE (log 35): the response is handed to the
host in `out`, as `SEND_COMMAND` hands it (R110), and `RES` is left as it was. -/
def wireCommand (opcode : U6) (arg : U32) (crc7 : U7) (s : State) : State :=
  let c := sendLatched (latchWire opcode arg crc7 s)
  deliverValue (.byte c.1) (deselect c.2)

/-- The transaction of opcode 8: R1, then four bytes if it is 0x01 (R98, R204). DESIGN CHOICE (log 35): R1 is handed to the host
in `out`, and `RES` is left as it was. -/
def wireIfCond (arg : U32) (crc7 : U7) (s : State) : State :=
  let c := sendLatched (latchWire Config.opSendIfCond arg crc7 s)
  let t := if r1ExactlyIdle c.1 then drainTail Config.r7TailLen (startLoop c.2) else c.2
  deliverValue (.byte c.1) (deselect t)

/-- The transaction of opcode 17 (R241), into the attached buffer (log 12). DESIGN CHOICE (log 35): its result goes to `RES` and
`out` is cleared, as `READ_SECTOR` does. -/
def wireRead (arg : U32) (crc7 : U7) (s : State) : State :=
  (readLatched (latchWire Config.opReadSingleBlock arg crc7 s)).2

/-- The transaction of opcode 24 (R246), from the attached buffer (log 12). DESIGN CHOICE (log 35): its result goes to `RES` and
`out` is cleared, as `WRITE_SECTOR` does. -/
def wireWrite (arg : U32) (crc7 : U7) (s : State) : State :=
  (writeLatched (latchWire Config.opWriteBlock arg crc7 s)).2

/-- CMD_FRAME, with any opcode. -/
def execCmdFrame (opcode : U6) (arg : U32) (crc7 : U7) (s : State) : Host.Outcome State Fault Refusal :=
  startOp (.cmdFrame opcode arg crc7) (issueWire opcode arg crc7) (wireCommand opcode arg crc7) s

/-- GO_IDLE_STATE. -/
def execCmd0 (arg : U32) (crc7 : U7) (s : State) : Host.Outcome State Fault Refusal :=
  startOp (.cmd0 arg crc7) (issueWire Config.opGoIdle arg crc7) (wireCommand Config.opGoIdle arg crc7) s

/-- SEND_IF_COND. -/
def execCmd8 (arg : U32) (crc7 : U7) (s : State) : Host.Outcome State Fault Refusal :=
  startOp (.cmd8 arg crc7) (issueWire Config.opSendIfCond arg crc7) (wireIfCond arg crc7) s

/-- SET_BLOCKLEN. -/
def execCmd16 (arg : U32) (crc7 : U7) (s : State) : Host.Outcome State Fault Refusal :=
  startOp (.cmd16 arg crc7) (issueWire Config.opSetBlocklen arg crc7) (wireCommand Config.opSetBlocklen arg crc7) s

/-- READ_SINGLE_BLOCK. -/
def execCmd17 (arg : U32) (crc7 : U7) (s : State) : Host.Outcome State Fault Refusal :=
  startOp (.cmd17 arg crc7) (issueWire Config.opReadSingleBlock arg crc7) (wireRead arg crc7) s

/-- WRITE_BLOCK. -/
def execCmd24 (arg : U32) (crc7 : U7) (s : State) : Host.Outcome State Fault Refusal :=
  startOp (.cmd24 arg crc7) (issueWire Config.opWriteBlock arg crc7) (wireWrite arg crc7) s

/-- SEND_OP_COND. -/
def execAcmd41 (arg : U32) (crc7 : U7) (s : State) : Host.Outcome State Fault Refusal :=
  startOp (.acmd41 arg crc7) (issueWire Config.opSendOpCond arg crc7) (wireCommand Config.opSendOpCond arg crc7) s

/-- APP_CMD. -/
def execCmd55 (arg : U32) (crc7 : U7) (s : State) : Host.Outcome State Fault Refusal :=
  startOp (.cmd55 arg crc7) (issueWire Config.opAppCmd arg crc7) (wireCommand Config.opAppCmd arg crc7) s

end Sys2Proof.Machine
end

