-- ==== Sys2Proof/Machine/Dispatch.lean ====
section
/-!
DEFINITION. One arm for each constructor of `Instr`.
-/

namespace Sys2Proof.Machine

def exec (i : Instr) (s : State) : Host.Outcome State Fault Refusal :=
  match i with
  | .cmdFrame opcode arg crc => Sys2Proof.Machine.execCmdFrame opcode arg crc s
  | .cmd0 arg crc => Sys2Proof.Machine.execCmd0 arg crc s
  | .cmd8 arg crc => Sys2Proof.Machine.execCmd8 arg crc s
  | .cmd16 arg crc => Sys2Proof.Machine.execCmd16 arg crc s
  | .cmd17 arg crc => Sys2Proof.Machine.execCmd17 arg crc s
  | .cmd24 arg crc => Sys2Proof.Machine.execCmd24 arg crc s
  | .acmd41 arg crc => Sys2Proof.Machine.execAcmd41 arg crc s
  | .cmd55 arg crc => Sys2Proof.Machine.execCmd55 arg crc s
  | .dataStartToken => Sys2Proof.Machine.execDataStartToken s
  | .r1Valid flags => Sys2Proof.Machine.execR1Valid flags s
  | .r1NotYet low => Sys2Proof.Machine.execR1NotYet low s
  | .r1IdleExact => Sys2Proof.Machine.execR1IdleExact s
  | .r1ReadyExact => Sys2Proof.Machine.execR1ReadyExact s
  | .drespAccepted ignored => Sys2Proof.Machine.execDrespAccepted ignored s
  | .drespCrcError ignored => Sys2Proof.Machine.execDrespCrcError ignored s
  | .drespWriteError ignored => Sys2Proof.Machine.execDrespWriteError ignored s
  | .drespOther ignored r => Sys2Proof.Machine.execDrespOther ignored r s
  | .busyByte => Sys2Proof.Machine.execBusyByte s
  | .fillByte => Sys2Proof.Machine.execFillByte s
  | .exchange out => Sys2Proof.Machine.execExchange out s
  | .select => Sys2Proof.Machine.execSelect s
  | .deselect => Sys2Proof.Machine.execDeselect s
  | .sendCommand opcode arg => Sys2Proof.Machine.execSendCommand opcode arg s
  | .poll bound pred out => Sys2Proof.Machine.execPoll bound pred out s
  | .init => Sys2Proof.Machine.execInit s
  | .readSector index buf => Sys2Proof.Machine.execReadSector index buf s
  | .writeSector index buf => Sys2Proof.Machine.execWriteSector index buf s
  | .status drive => Sys2Proof.Machine.execStatus drive s
  | .initializeDrive drive => Sys2Proof.Machine.execInitializeDrive drive s
  | .read drive sector count buf => Sys2Proof.Machine.execRead drive sector count buf s
  | .write drive sector count buf => Sys2Proof.Machine.execWrite drive sector count buf s
  | .testUnitReady => Sys2Proof.Machine.execTestUnitReady s
  | .capacity => Sys2Proof.Machine.execCapacity s
  | .read10 lba off buffer length => Sys2Proof.Machine.execRead10 lba off buffer length s
  | .write10 lba off buffer length => Sys2Proof.Machine.execWrite10 lba off buffer length s
  | .ioctlSync drive => Sys2Proof.Machine.execIoctlSync drive s
  | .ioctlGetSectorCount drive => Sys2Proof.Machine.execIoctlGetSectorCount drive s
  | .ioctlGetSectorSize drive => Sys2Proof.Machine.execIoctlGetSectorSize drive s
  | .ioctlGetBlockSize drive => Sys2Proof.Machine.execIoctlGetBlockSize drive s
  | .ioctlUnknown drive sub => Sys2Proof.Machine.execIoctlUnknown drive sub s

end Sys2Proof.Machine
end

