-- ==== Sys2Proof/Machine/Step.lean ====
section
/-!
DEFINITION. One step: the reset input, the operation the host presents, the next exchange of the operation in flight, or
nothing.
-/

namespace Sys2Proof.Machine

/-- One step. The reset input comes first (R350). With nothing presented an operation in flight makes its next exchange, and
an idle block stays as it is (R318: it waits for the next start; log 31). Else the instruction at the head of the port runs;
bytes that are none start nothing (30_encoding.md R104; log 20). -/
def step (s : State) : Host.Outcome State Fault Refusal :=
  if s.rst then hostReset s
  else
    match s.port with
    | [] => .next (if s.busy then crank s else s)
    | b :: bs =>
      match decode (b :: bs) with
      | .ok r => exec r.1 { s with port := r.2 }
      | .error _ => .next { s with port := [] }

/-- The state with the instruction of a word of the opcode table presented at the port (log 4). -/
def State.withFetchWord (s : State) (nbits w : Nat) : State := { s with port := tableBytes nbits w }

end Sys2Proof.Machine
end

