-- ==== Sys2Proof/Machine/Serial.lean ====
section
/-!
DEFINITION. The bit-serial refinement of one exchange (40_transport.md R143, informative): the pins SCK, MOSI, MISO and CS_N
of 10_state.md R39 over the sixteen half periods of the eight clock pulses. It is below the normative level: no state and no
meaning depends on it (log 24).
-/

namespace Sys2Proof.Machine

/-- The four bus pins during one half period of the clock. -/
structure Pins where
  sck : Bool
  mosi : Bool
  miso : Bool
  csN : Bool
  deriving DecidableEq, Repr

/-- One clock period (R143): `MOSI` changes with the falling edge that starts it, and both lines are sampled on the rising edge.
R143 does not say when `MISO` changes: here it changes with `MOSI` and holds its bit over both halves. DESIGN CHOICE (log 37). -/
def bitPeriod (sel mosi miso : Bool) : List Pins := [⟨false, mosi, miso, !sel⟩, ⟨true, mosi, miso, !sel⟩]

/-- The eight clock periods of an exchange, most significant bit first. -/
def exchangeWave (sel : Bool) (out inp : Byte) : List Pins :=
  ((bitsOfByte out).zip (bitsOfByte inp)).flatMap (fun b => bitPeriod sel b.1 b.2)

/-- The pins at each rising edge of the clock, from a given clock level before. -/
def risingEdges : Bool → List Pins → List Pins
  | _, [] => []
  | before, p :: ps => if !before && p.sck then p :: risingEdges p.sck ps else risingEdges p.sck ps

/-- The byte shifted in from bits, most significant first. -/
def byteOfBits (bits : List Bool) : Byte := bits.foldl (fun b d => (b <<< 1) ||| (if d then 1#8 else 0#8)) 0#8

/-- What a receiver that samples `MISO` (the block) gets from a wave that starts with the clock low. -/
def sampledMiso (w : List Pins) : Byte := byteOfBits ((risingEdges false w).map Pins.miso)

/-- What a receiver that samples `MOSI` (the card) gets. -/
def sampledMosi (w : List Pins) : Byte := byteOfBits ((risingEdges false w).map Pins.mosi)

end Sys2Proof.Machine
end

