-- ==== Sys2Proof/Safety.lean ====
section
/-!
DEFINITION. The terms claims are stated in: bus events, when an operation runs whole, the invariants of a state, a state that
differs only where named, and the fixture card of 95_test_vectors.md section 4.
-/

namespace Sys2Proof.Machine

/-! Bus events. -/

/-- An exchange. -/
def isXfer : Event → Bool
  | .xfer _ _ _ => true
  | .sel | .desel | .slept => false

/-- The exchanges among the events. -/
def xferCount (evs : List Event) : Nat := evs.countP isXfer

/-- The sleeps among the events. -/
def sleepCount (evs : List Event) : Nat := evs.count .slept

/-- The exchanges that send `outs` and receive `ins`, one by one, with the latch at `sel`. -/
def xfers (sel : Bool) (outs ins : List Byte) : List Event := List.zipWith (Event.xfer sel) outs ins

/-- Receive-only exchanges that each send `out` and receive `got` (R102). -/
def listenEvents (sel : Bool) (out : Byte) (got : List Byte) : List Event :=
  xfers sel (List.replicate got.length out) got

/-- One command: the six bytes of its frame, hearing `heard`, then the response poll, receiving `got` (R182). -/
def commandEvents (sel : Bool) (f : Frame) (heard got : List Byte) : List Event :=
  xfers sel (frameList f) heard ++ listenEvents sel Config.pollByte got

/-- The bytes received in the events, in order. -/
def received (evs : List Event) : List Byte :=
  evs.filterMap (fun e => match e with | .xfer _ _ inp => some inp | .sel | .desel | .slept => none)

/-- The card's next `n` answers (R44), and what is left of the card's list and counter: `draw`, `n` times. -/
def takeAnswers : Nat → List Byte → Nat → List Byte × List Byte × Nat
  | 0, card, draws => ([], card, draws)
  | n + 1, b :: card, draws =>
    let r := takeAnswers n card draws
    (b :: r.1, r.2)
  | n + 1, [], draws =>
    let r := takeAnswers n [] (draws + 1)
    (Config.cardByte draws :: r.1, r.2)

/-- `t` comes after `s` by the bus events `evs`, in that order (R42); the call counter counts their exchanges (R41), and the
bytes received in them are the card's next answers (R44). -/
structure Emitted (s t : State) (evs : List Event) : Prop where
  trace : t.trace = s.trace ++ evs
  count : t.xcount = s.xcount + xferCount evs
  heard : takeAnswers (xferCount evs) s.card s.draws = (received evs, t.card, t.draws)

/-- `got` is what a bounded poll receives (R180): at least one byte, at most `bound`; none before the last passes the test;
the last is `last`, and if it does not pass, the bound is spent. -/
structure Polled (bound : Nat) (pred : Byte → Bool) (got : List Byte) (last : Byte) : Prop where
  ends : got.getLast? = some last
  within : got.length ≤ bound
  misses : ∀ b ∈ got.dropLast, pred b = false
  spent : pred last = false → got.length = bound

/-- What the six frame exchanges and the response poll of one command receive: `r` is its response (R182, R183). -/
structure Answered (heard got : List Byte) (r : Byte) : Prop where
  frame : heard.length = Config.frameLen
  response : Polled Config.respPollBound isResponse got r

/-! Whole transactions, as the events that follow their `Sel`, and what they come to. -/

/-- A command whose response is its one R1 byte `r` (R105), up to its `Desel`. -/
def CommandRun (f : Frame) (evs : List Event) (r : Byte) : Prop :=
  ∃ heard got, Answered heard got r ∧ evs = commandEvents true f heard got ++ [.desel]

/-- Opcode 8 (R98, R204): the trailing bytes `tail`, four of them exactly if the response is 0x01. -/
def IfCondRun (p : Params) (f : Frame) (evs : List Event) (r : Byte) (tail : List Byte) : Prop :=
  tail.length = (if r = 0x01#8 then 4 else 0) ∧
    ∃ heard got, Answered heard got r ∧
      evs = commandEvents true f heard got ++ listenEvents true p.fill tail ++ [.desel]

/-- How a transaction of opcode 17 ends: the result, `R1`, `TOK` if the token poll ran, and the bytes that go to the buffer. -/
structure ReadEnd where
  res : Result
  r1 : Byte
  tok : Option Byte
  data : List Byte

/-- The transaction of opcode 17 (R241 to R244). -/
inductive ReadRun (p : Params) (f : Frame) : List Event → ReadEnd → Prop
  /-- A non-zero response. -/
  | rejected (heard got : List Byte) (r : Byte) (a : Answered heard got r) (h : r ≠ 0#8) :
    ReadRun p f (commandEvents true f heard got ++ [.desel]) ⟨.commandRejected r, r, none, []⟩
  /-- No start token among the bytes of the poll. -/
  | timeout (heard got toks : List Byte) (last : Byte) (a : Answered heard got 0#8)
      (b : Polled Config.tokenPollBound isStartToken toks last) (h : last ≠ 0xFE#8) :
    ReadRun p f (commandEvents true f heard got ++ listenEvents true p.fill toks ++ [.desel])
      ⟨.transferTimeout .token, 0#8, some last, []⟩
  /-- The token, 512 bytes, two bytes discarded. -/
  | done (heard got toks data crc : List Byte) (a : Answered heard got 0#8)
      (b : Polled Config.tokenPollBound isStartToken toks 0xFE#8) (h : data.length = Config.blockSize)
      (k : crc.length = Config.dataCrcLen) :
    ReadRun p f (commandEvents true f heard got ++ listenEvents true p.fill (toks ++ data ++ crc) ++ [.desel])
      ⟨.ok, 0#8, some 0xFE#8, data⟩

/-- How a transaction of opcode 24 ends: the result, `R1`, and `DRESP` and `BUSYB` if they were received. -/
structure WriteEnd where
  res : Result
  r1 : Byte
  dresp : Option Byte
  busyb : Option Byte

/-- The 516 exchanges from the start token to the data response `d` (R247, R248), hearing `heard` before it. -/
def packetEvents (p : Params) (data heard : List Byte) (d : Byte) : List Event :=
  xfers true (0xFE#8 :: data ++ [p.fill, p.fill, p.fill]) (heard ++ [d])

/-- The transaction of opcode 24 (R246 to R250) with the payload `data`. -/
inductive WriteRun (p : Params) (f : Frame) (data : List Byte) : List Event → WriteEnd → Prop
  /-- A non-zero response. -/
  | commandRejected (heard got : List Byte) (r : Byte) (a : Answered heard got r) (h : r ≠ 0#8) :
    WriteRun p f data (commandEvents true f heard got ++ [.desel]) ⟨.commandRejected r, r, none, none⟩
  /-- A data response that does not accept. -/
  | rejected (heard got more : List Byte) (d : Byte) (a : Answered heard got 0#8) (n : more.length = data.length + 3)
      (h : writeAccepted d = false) :
    WriteRun p f data (commandEvents true f heard got ++ packetEvents p data more d ++ [.desel])
      ⟨.writeRejected (rejectReason d) d, 0#8, some d, none⟩
  /-- Accepted, and busy to the bound: `last` is 0x00; or done, `last` any other byte. -/
  | accepted (heard got more busy : List Byte) (d last : Byte) (a : Answered heard got 0#8)
      (n : more.length = data.length + 3) (h : writeAccepted d = true)
      (b : Polled Config.busyPollBound notBusy busy last) :
    WriteRun p f data
      (commandEvents true f heard got ++ packetEvents p data more d ++ listenEvents true p.fill busy ++ [.desel])
      ⟨if last = 0#8 then .transferTimeout .busy else .ok, 0#8, some d, some last⟩

/-! The initialisation sequence as events (R200 to R211). -/

/-- `R7TAIL` after the trailing bytes `tail` (R25, R204): all four of them, in the order received, or as it was. -/
def tailAfter (before : Tail) (tail : List Byte) : Tail :=
  if tail = [] then before else ⟨tail.getD 0 0#8, tail.getD 1 0#8, tail.getD 2 0#8, tail.getD 3 0#8⟩

/-- A command in a bracket of its own (R205). -/
def Bracket (p : Params) (opcode : U6) (arg : U32) (evs : List Event) (r : Byte) : Prop :=
  ∃ b, CommandRun (commandFrame p opcode arg) b r ∧ evs = .sel :: b

/-- The bracket of opcode 8 with the argument of R95, its trailing bytes inside (R204). -/
def IfCondBracket (p : Params) (evs : List Event) (r : Byte) (tail : List Byte) : Prop :=
  ∃ b, IfCondRun p (commandFrame p 8#6 0x000001AA#32) b r tail ∧ evs = .sel :: b

/-- One attempt of the ACMD41 loop (R206): two brackets, the first one's response any byte. -/
def Attempt (p : Params) (evs : List Event) (r : Byte) : Prop :=
  ∃ a b any, Bracket p 55#6 0#32 a any ∧ Bracket p 41#6 0x40000000#32 b r ∧ evs = a ++ b

/-- `n` attempts that all find the idle flag set, each followed by a sleep (R206, R207); `r` is the last response. -/
def StillIdle (p : Params) : Nat → List Event → Byte → Prop
  | 0, evs, _ => evs = []
  | n + 1, evs, r =>
    ∃ before r0 a, StillIdle p n before r0 ∧ Attempt p a r ∧ r1IdleFlag r = true ∧ evs = before ++ a ++ [.slept]

/-- `BusReset` (R202). -/
def busResetEvents (p : Params) (idle : List Byte) : List Event := .desel :: listenEvents false p.fill idle

/-- What a run of `INIT` leaves beside the Session: its result, the last response (`R1`), and the trailing bytes of opcode 8. -/
structure InitOutcome where
  res : Result
  r1 : Byte
  tail : List Byte

/-- The whole bus behaviour of `INIT`, with the arguments of R95, and what it comes to (R200, R211). -/
inductive InitRun (p : Params) : List Event → InitOutcome → Prop
  /-- `GoIdle` fails. -/
  | goIdle (idle : List Byte) (g : List Event) (r : Byte) (n : idle.length = p.resetIdleBytes) (b : Bracket p 0#6 0#32 g r)
      (h : r ≠ 0x01#8) :
    InitRun p (busResetEvents p idle ++ g) ⟨.initFailure .goIdle r, r, []⟩
  /-- `CheckInterfaceCondition` fails: only with `IFCOND_TIMEOUT_FATAL`. -/
  | ifCond (idle : List Byte) (g c : List Event) (r : Byte) (n : idle.length = p.resetIdleBytes)
      (b : Bracket p 0#6 0#32 g 0x01#8) (i : IfCondBracket p c r []) (fatal : p.ifcondTimeoutFatal = true)
      (h : isResponse r = false) :
    InitRun p (busResetEvents p idle ++ g ++ c) ⟨.initFailure .checkInterfaceCondition r, r, []⟩
  /-- `ApplicationInit` fails: 1000 attempts, none of which clears the flag. -/
  | application (idle : List Byte) (g c w : List Event) (rc r : Byte) (tail : List Byte) (n : idle.length = p.resetIdleBytes)
      (b : Bracket p 0#6 0#32 g 0x01#8) (i : IfCondBracket p c rc tail)
      (pass : p.ifcondTimeoutFatal = true → isResponse rc = true) (h : StillIdle p 1000 w r) :
    InitRun p (busResetEvents p idle ++ g ++ c ++ w) ⟨.initFailure .applicationInit r, r, tail⟩
  /-- An attempt clears the flag, at most the 1000th; then `SetBlockLength` fails or `Ready` is reached. -/
  | blockLength (idle : List Byte) (g c w a l : List Event) (rc r0 ra r : Byte) (tail : List Byte) (k : Nat)
      (n : idle.length = p.resetIdleBytes) (b : Bracket p 0#6 0#32 g 0x01#8) (i : IfCondBracket p c rc tail)
      (pass : p.ifcondTimeoutFatal = true → isResponse rc = true) (hk : k < 1000) (h : StillIdle p k w r0)
      (m : Attempt p a ra) (cleared : r1IdleFlag ra = false) (e : Bracket p 16#6 0x00000200#32 l r) :
    InitRun p (busResetEvents p idle ++ g ++ c ++ w ++ a ++ l)
      ⟨if r = 0#8 then .ok else .initFailure .setBlockLength r, r, tail⟩

/-- The bytes sent in the events, in order. -/
def sent (evs : List Event) : List Byte :=
  evs.filterMap (fun e => match e with | .xfer _ out _ => some out | .sel | .desel | .slept => none)

/-- The six bytes sent after each `Sel`: the frames of the commands sent in brackets (R205). -/
def framesSent : List Event → List (List Byte)
  | [] => []
  | .sel :: evs => (sent evs).take 6 :: framesSent evs
  | .desel :: evs => framesSent evs
  | .slept :: evs => framesSent evs
  | .xfer _ _ _ :: evs => framesSent evs

/-- `s` with the bus history of `t`: all that an exchange writes (R140), with the card's list and counter; every other field
is that of `s`. The frame of an operation is stated with it: `t = { withBus t s with ... }` names every other change. -/
def withBus (t s : State) : State :=
  { s with txb := t.txb, rxb := t.rxb, xcount := t.xcount, trace := t.trace, card := t.card, draws := t.draws }

/-! When an operation can start. -/

/-- No operation is in flight and the machine runs an operation in one step. -/
abbrev Whole (s : State) : Prop := s.busy = false ∧ s.cfg.stepwise = false

/-- `s` with the operation `i` just started: what the meaning of `i` runs on. -/
def started (i : Instr) (s : State) : State := { s with busy := true, running := some i }

/-- The Session (R34): what only `INIT` writes. -/
def session (s : State) : Bool × Fsm × U32 := (s.ready, s.fsm, s.sectorCount)

/-- The rows that write the Session (R30). -/
def writesSession : Instr → Bool
  | .init => true
  | .initializeDrive _ => true
  | _ => false

/-- The data calls behind the ready gate of tier 3 (R281): `read`, `write` and every `ioctl` but `get_sector_size`. -/
def gatedCall : Instr → Bool
  | .read _ _ _ _ => true
  | .write _ _ _ _ => true
  | .ioctlSync _ => true
  | .ioctlGetSectorCount _ => true
  | .ioctlGetBlockSize _ => true
  | _ => false

/-- A BYTE row: one exchange, whatever is in flight (log 13). -/
def isByteRow : Instr → Bool
  | .dataStartToken | .r1Valid _ | .r1NotYet _ | .r1IdleExact | .r1ReadyExact | .drespAccepted _ | .drespCrcError _
  | .drespWriteError _ | .drespOther _ _ | .busyByte | .fillByte => true
  | .cmdFrame _ _ _ | .cmd0 _ _ | .cmd8 _ _ | .cmd16 _ _ | .cmd17 _ _ | .cmd24 _ _ | .acmd41 _ _ | .cmd55 _ _
  | .exchange _ | .select | .deselect | .sendCommand _ _ | .poll _ _ _ | .init | .readSector _ _ | .writeSector _ _
  | .status _ | .initializeDrive _ | .read _ _ _ _ | .write _ _ _ _ | .testUnitReady | .capacity | .read10 _ _ _ _
  | .write10 _ _ _ _ | .ioctlSync _ | .ioctlGetSectorCount _ | .ioctlGetSectorSize _ | .ioctlGetBlockSize _
  | .ioctlUnknown _ _ => false

/-- An exporter's call whose offset or length is no multiple of 512 (R294). -/
def raggedCall : Instr → Bool
  | .read10 _ byteOffset _ length => byteOffset % 512 != 0 || length % 512 != 0
  | .write10 _ byteOffset _ length => byteOffset % 512 != 0 || length % 512 != 0
  | _ => false

/-- The operations of tiers 2 and 3 (30_encoding.md R110). -/
def aboveTransport : Instr → Bool
  | .init | .readSector _ _ | .writeSector _ _ | .status _ | .initializeDrive _ | .read _ _ _ _ | .write _ _ _ _
  | .testUnitReady | .capacity | .read10 _ _ _ _ | .write10 _ _ _ _ | .ioctlSync _ | .ioctlGetSectorCount _
  | .ioctlGetSectorSize _ | .ioctlGetBlockSize _ | .ioctlUnknown _ _ => true
  | _ => false

/-- `n` bytes of host memory from an address on. -/
def hostBytes (m : Memory) (addr n : Nat) : List Byte := (List.range n).map (fun i => memRead m (addr + i))

/-- `s` after one exchange (R140) that sends `out` and receives `inp`. -/
def exchanged (out inp : Byte) (s : State) : State :=
  { s with txb := out, rxb := inp, xcount := s.xcount + 1, trace := s.trace ++ [.xfer s.sel out inp] }

/-- `s` with no operation in flight (R318 step 4; R38). -/
def atRest (s : State) : State := { s with busy := false, phase := .idle, running := none }

/-! A response poll in flight. -/

/-- `i` is a BYTE row of a response poll, in which the card answers `r` (30_encoding.md R96, R97, R203, R208). -/
def ResponseRow (i : Instr) (r : Byte) : Prop :=
  (∃ flags : U7, i = .r1Valid flags ∧ r = 0#1 ++ flags) ∨ (∃ low : U7, i = .r1NotYet low ∧ r = 1#1 ++ low) ∨
    (i = .r1IdleExact ∧ r = 0x01#8) ∨ (i = .r1ReadyExact ∧ r = 0x00#8)

/-- `s` after one more exchange of its response poll, answered by `r` (R182, R24). -/
def polledResponse (r : Byte) (s : State) : State := { exchanged 0xFF#8 r s with pollcnt := s.pollcnt + 1, r1 := r }

/-- `s` with its bracket closed (R142). -/
def bracketClosed (s : State) : State := { s with sel := false, trace := s.trace ++ [.desel] }

/-- `s` with a bracket opened and a command latched whose six bytes are `f`, the first of them next (R141, R22, R182); its polls are
still to come (log 34). -/
def commandNext (opcode : U6) (arg : U32) (f : Frame) (s : State) : State :=
  { s with
    sel := true
    trace := s.trace ++ [.sel]
    opc := opcode
    arg := arg
    frame := f
    framei := 0
    pollcnt := 0
    phase := .frame }

/-- `s` with the sequence ended in a failure of `step` (R210), reported as `NotReady` by `initialize` (R283). -/
def sequenceFailed (viaAdapter : Bool) (step : InitStep) (r : Byte) (s : State) : State :=
  { atRest s with fsm := .failed, res := if viaAdapter then .notReady else .initFailure step r, out := .nothing }

/-- The same machine, run whole or one exchange at a time (log 7). -/
def withGranularity (stepwise : Bool) (s : State) : State := { s with cfg := { s.cfg with stepwise := stepwise } }

/-- Started in a machine stepped one exchange at a time, `i` reaches in as many exchanges as the whole run makes exactly the
state the whole run ends in (R29: a model that treats each operation as one function needs no phase). -/
def StepwiseAgrees (i : Instr) (s : State) : Prop :=
  ∃ n t u, exec i (withGranularity false s) = .next t ∧ exec i (withGranularity true s) = .next u ∧
    crankMany n u = withGranularity true t ∧ t.xcount = s.xcount + n

/-! Invariants. -/

/-- `fsm` outside the initialisation sequence (R201: no operation in flight leaves it intermediate). -/
def settled : Fsm → Bool
  | .uninit | .ready | .failed => true
  | .busReset | .goIdle | .checkInterfaceCondition | .applicationInit | .setBlockLength | .capacityFixed => false

/-- Whether a flow is the initialisation sequence. -/
def isSequence : Flow → Bool
  | .sequence _ => true
  | .none | .command _ | .ifCond | .sector _ | .sectors _ _ _ _ | .polling _ _ _ => false

/-- The phases the tables R189, R211 and R254 take an operation through, by its flow. -/
def phaseFits : Flow → Phase → Bool
  | .none, _ => false
  | .command _, p => p == .frame || p == .respPoll
  | .ifCond, p => p == .frame || p == .respPoll || p == .r7Drain
  | .sequence _, p => p == .resetIdle || p == .frame || p == .respPoll || p == .r7Drain
  | .sector false, p => p == .frame || p == .respPoll || p == .tokenPoll || p == .rdPayload || p == .rdCrc
  | .sectors false _ _ _, p => p == .frame || p == .respPoll || p == .tokenPoll || p == .rdPayload || p == .rdCrc
  | .sector true, p =>
    p == .frame || p == .respPoll || p == .wrToken || p == .wrPayload || p == .wrCrc || p == .wrResp || p == .busyPoll
  | .sectors true _ _ _, p =>
    p == .frame || p == .respPoll || p == .wrToken || p == .wrPayload || p == .wrCrc || p == .wrResp || p == .busyPoll
  | .polling _ _ _, p => p == .respPoll

/-- The phases the table R211 gives each state of the sequence. -/
def sequenceFits : Fsm → Phase → Bool
  | .busReset, p => p == .resetIdle
  | .checkInterfaceCondition, p => p == .frame || p == .respPoll || p == .r7Drain
  | .goIdle, p => p == .frame || p == .respPoll
  | .applicationInit, p => p == .frame || p == .respPoll
  | .setBlockLength, p => p == .frame || p == .respPoll
  | .uninit, _ => false
  | .capacityFixed, _ => false
  | .ready, _ => false
  | .failed, _ => false

/-- The invariant of the machine: the Session invariant of R47, what an idle and a running block look like, host memory in
canonical form, and parameters R10 allows. -/
structure State.Inv (s : State) : Prop where
  /-- `ready` exactly in `Ready` (R31, R47). -/
  readyIff : s.ready = true ↔ s.fsm = .ready
  /-- The capacity is the constant while ready (R47). -/
  capacity : s.ready = true → s.sectorCount = s.cfg.sectorCountFixed
  /-- An idle block is in phase `Idle`, with no operation latched and no intermediate `fsm` (R47, R201). -/
  idle : s.busy = false → s.phase = .idle ∧ s.running = none ∧ settled s.fsm = true
  /-- A running operation is in a phase of its own table, and `fsm` is intermediate exactly for `INIT`. -/
  flight : s.busy = true → phaseFits (flow s) s.phase = true ∧ (isSequence (flow s) = true ↔ settled s.fsm = false)
  /-- `INIT` is in a phase of the state it is in (R211). -/
  sequence : s.busy = true → isSequence (flow s) = true → sequenceFits s.fsm s.phase = true
  /-- Host memory is in canonical form. -/
  memory : s.mem.wf
  /-- The parameters are ones R10 allows. -/
  params : s.cfg.wf

/-- `framei`, `byteidx` and `retrycnt` in the ranges of R29. -/
structure State.LoopsInRange (s : State) : Prop where
  framei : s.framei ≤ 6
  frameiNext : s.phase = .frame → s.framei < 6
  byteidx : s.byteidx ≤ 512
  byteidxNext : s.phase = .rdPayload ∨ s.phase = .wrPayload → s.byteidx < 512
  retrycnt : s.retrycnt ≤ 1000

/-- The exchanges the response poll of a flow may make: the call's own bound for a tier-1 `POLL`, whose first exchange is always
made once it is in flight, else 10 (R180, R182). -/
def responseBound : Flow → Nat
  | .polling bound _ _ => max 1 bound
  | .none | .command _ | .ifCond | .sequence _ | .sector _ | .sectors _ _ _ _ => 10

/-- Whether a flow is a tier-1 `POLL`. -/
def isPolling : Flow → Bool
  | .polling _ _ _ => true
  | .none | .command _ | .ifCond | .sequence _ | .sector _ | .sectors _ _ _ _ => false

/-- `pollcnt` and `sectidx` in the ranges of R29, R327 and R190 e, while an operation is in flight. -/
structure State.PollsInRange (s : State) : Prop where
  /-- 0 to 1000, for every flow but a tier-1 `POLL`. -/
  pollcnt : s.busy = true → isPolling (flow s) = false → s.pollcnt ≤ 1000
  /-- A response poll that goes on has not reached its bound. -/
  respPollNext : s.busy = true → s.phase = .respPoll → s.pollcnt < responseBound (flow s)
  /-- The token poll and the busy poll, likewise. -/
  transferPollNext : s.busy = true → s.phase = .tokenPoll ∨ s.phase = .busyPoll → s.pollcnt < 1000
  /-- A request is at a sector below its count; `sectidx` is its number, modulo 2^32 (log 22). -/
  sector : s.busy = true → ∀ isWrite first count buf, flow s = .sectors isWrite first count buf →
    s.sectno < count ∧ s.sectidx = BitVec.ofNat 32 s.sectno

/-- The counters in the ranges of R29 and R327. -/
abbrev State.CountersInRange (s : State) : Prop := s.LoopsInRange ∧ s.PollsInRange

/-! The fixture card (95_test_vectors.md section 4): one well-behaved card. It is no part of the hardware (log 27). -/

/-- What the card collects of a write's data packet. -/
inductive CardRx where
  | inactive
  | awaitingToken
  | collecting (bytes : List Byte)

/-- The fixture card: its parameters and its state. -/
structure FixtureCard where
  tokDelay : Nat
  busyN : Nat
  v2 : Bool
  dataResponse : Byte
  idle : Bool
  acmd : Bool
  left : Nat
  store : U32 → List Byte
  q : List Byte
  frame : List Byte
  rx : CardRx
  widx : U32

/-- The idle flag as a response byte. -/
def FixtureCard.flagByte (c : FixtureCard) : Byte := if c.idle then 0x01#8 else 0x00#8

/-- `execute(frame)`: the six bytes of a command are in. -/
def FixtureCard.execute (c : FixtureCard) (f : List Byte) : FixtureCard :=
  let op := (f.getD 0 0#8).extractLsb' 0 6
  let arg : U32 := f.getD 1 0#8 ++ f.getD 2 0#8 ++ f.getD 3 0#8 ++ f.getD 4 0#8
  let d := { c with acmd := false }
  if op = Config.opGoIdle then { d with idle := true, q := [0x01#8] }
  else if op = Config.opSendIfCond then
    if c.v2 then { d with q := [c.flagByte, 0x00#8, 0x00#8, f.getD 3 0#8 &&& 0x0F#8, f.getD 4 0#8] }
    else { d with q := [0x04#8 ||| c.flagByte] }
  else if op = Config.opAppCmd then { d with acmd := true, q := [c.flagByte] }
  else if op = Config.opSendOpCond ∧ c.acmd = true then
    if 0 < c.left then { d with left := c.left - 1, q := [0x01#8] } else { d with idle := false, q := [0x00#8] }
  else if op = Config.opSetBlocklen then { d with q := [if arg = Config.argBlocklen then 0x00#8 else 0x40#8] }
  else if op = Config.opReadSingleBlock then
    if c.idle then { d with q := [0x01#8] }
    else
      { d with q := 0x00#8 :: List.replicate c.tokDelay 0xFF#8 ++ 0xFE#8 :: c.store arg ++ [0x00#8, 0x00#8] }
  else if op = Config.opWriteBlock then
    if c.idle then { d with q := [0x01#8] } else { d with q := [0x00#8], rx := .awaitingToken, widx := arg }
  else { d with q := [0x04#8 ||| c.flagByte] }

/-- What the card takes from the byte sent to it, its own byte already given. -/
def FixtureCard.take (c : FixtureCard) (out : Byte) : FixtureCard :=
  match c.rx with
  | .awaitingToken => if out = Config.dataStartToken then { c with rx := .collecting [] } else c
  | .collecting bytes =>
    let got := bytes ++ [out]
    if got.length = 514 then
      let d := { c with rx := .inactive, q := c.q ++ [c.dataResponse] }
      if writeAccepted c.dataResponse then
        { d with q := d.q ++ List.replicate c.busyN 0x00#8,
                 store := fun i => if i = c.widx then got.take 512 else c.store i }
      else d
    else { c with rx := .collecting got }
  | .inactive =>
    match c.frame with
    | [] => if out.extractLsb' 6 2 = 0b01#2 then { c with frame := [out] } else c
    | f :: fs =>
      let got := (f :: fs) ++ [out]
      if got.length = 6 then { c.execute got with frame := [] } else { c with frame := got }

/-- One exchange at the card. -/
def FixtureCard.exchange (c : FixtureCard) (sel : Bool) (out : Byte) : Byte × FixtureCard :=
  if sel then
    match c.q with
    | [] => (0xFF#8, c.take out)
    | b :: rest => (b, { c with q := rest }.take out)
  else (0xFF#8, { c with q := [], frame := [], rx := .inactive })

/-- The card after the events, if it gives every byte the block received in them. -/
def FixtureCard.answers (c : FixtureCard) : List Event → Option FixtureCard
  | [] => some c
  | .xfer sel out inp :: evs =>
    let r := c.exchange sel out
    if r.1 = inp then FixtureCard.answers r.2 evs else none
  | .sel :: evs => c.answers evs
  | .desel :: evs => c.answers evs
  | .slept :: evs => c.answers evs

/-- The card waits for a command and is out of idle. -/
structure FixtureCard.Quiet (c : FixtureCard) : Prop where
  idle : c.idle = false
  q : c.q = []
  frame : c.frame = []
  rx : c.rx = .inactive

end Sys2Proof.Machine
end

