-- ==== Sys2Proof/Certificates/Slice0/Obligations.lean ====
section
/-!
DEFINITION. The statements for the provers. Each docstring names the rule of spec/ it formalises; where a statement rests on a
choice of the model, the docstring names the log entry.
-/

open Sys2Proof Sys2Proof.Machine

/-! Encoding. -/

/-- Words written out from the spec's encodings (30_encoding.md R91, R95, R96, R99, R100, R110), among them three host operations:
EXCHANGE, INIT, and ioctl with R111's sub-command 2; the selector 0x1F, which R110 does not assign, is rejected (R104). The operand
bytes of host operations are the model's, log 1, the tags of BYTE rows too, log 2. -/
def Obligations.SpecWordsDecode : Prop :=
  decodeTableWord 48 0x400000000095 = some (.cmd0 0#32 0x4A#7) ∧
  decodeTableWord 48 0x48000001AA87 = some (.cmd8 0x000001AA#32 0x43#7) ∧
  decodeTableWord 48 0x5000000200FF = some (.cmd16 0x00000200#32 0x7F#7) ∧
  decodeTableWord 48 0x5112345678FF = some (.cmd17 0x12345678#32 0x7F#7) ∧
  decodeTableWord 48 0x5800000001FF = some (.cmd24 0x00000001#32 0x7F#7) ∧
  decodeTableWord 48 0x6940000000FF = some (.acmd41 0x40000000#32 0x7F#7) ∧
  decodeTableWord 48 0x7700000000FF = some (.cmd55 0#32 0x7F#7) ∧
  decodeTableWord 48 0x4D00000000FF = some (.cmdFrame 13#6 0#32 0x7F#7) ∧
  decodeTableWord 8 0xFE = some .dataStartToken ∧
  decode [0x23#8, 0x01#8] = .ok (.r1IdleExact, []) ∧
  decode [0x25#8, 0xE5#8] = .ok (.drespAccepted 7#3, []) ∧
  decode [0x00#8, 0xA5#8] = .ok (.exchange 0xA5#8, []) ∧
  decode [0x08#8] = .ok (.init, []) ∧
  decode [0x14#8, 0#8, 0#8, 0#8, 0#8, 0#8, 0#8, 0#8, 2#8] = .ok (.ioctlGetSectorSize 0, []) ∧
  decode [0x1F#8] = .error .unknownSelector

/-- Every well-formed instruction, whatever its operands and whatever follows it at the port, is read back from its bytes. -/
def Obligations.DecodeReadsBackEncode : Prop :=
  ∀ (i : Instr) (rest : List Byte), i.wf = true → decode (encode i ++ rest) = .ok (i, rest)

/-- What the decoder reads is well-formed, and the bytes it consumed are that instruction's own: two byte strings never stand
for one instruction, and no byte of an encoding is ignored. -/
def Obligations.DecodedBytesAreTheirEncoding : Prop :=
  ∀ (bytes : List Byte) (i : Instr) (rest : List Byte),
    decode bytes = .ok (i, rest) → i.wf = true ∧ bytes = encode i ++ rest

/-- Every 48-bit word whose bits 47:46 are 01 and whose bit 0 is 1 is a command frame, with its opcode in bits 45:40, its
argument in bits 39:8 and its checksum in bits 7:1 (R91, R95; that the word's bit 47 comes first is R91's). -/
def Obligations.FrameWordsDecodeByTheirFields : Prop :=
  ∀ w : BitVec 48, w.extractLsb' 46 2 = 0b01#2 → w.getLsbD 0 = true →
    decodeTableWord 48 w.toNat = some (frameRow (w.extractLsb' 40 6) (w.extractLsb' 8 32) (w.extractLsb' 1 7))

/-! The step. -/

/-- A step runs the decoded instruction: when the bytes at the port decode to `i`, the step is `exec i` at the state whose
port holds the bytes after it; nothing else is added around it. -/
def Obligations.StepRunsTheDecodedInstruction : Prop :=
  ∀ (s : State) (i : Instr) (rest : List Byte),
    s.rst = false → decode s.port = .ok (i, rest) → step s = exec i { s with port := rest }

/-- Bytes that are no instruction start nothing (R104: a selector outside the table starts nothing; that the port is then
empty is the model's, log 20), and an idle block with nothing presented stays as it is (log 31). -/
def Obligations.StepStartsNothingWithoutAnInstruction : Prop :=
  (∀ (s : State) (e : DecodeError),
    s.rst = false → s.port ≠ [] → decode s.port = .error e → step s = .next { s with port := [] }) ∧
  ∀ s : State, s.rst = false → s.port = [] → s.busy = false → step s = .next s

/-- With nothing presented, a step of a running operation is its next exchange: it sends the byte the operation sends next and
takes the card's next answer (R29, R44, R189). -/
def Obligations.StepMakesTheNextExchange : Prop :=
  ∀ s : State, s.rst = false → s.port = [] → s.busy = true → s.phase ≠ .idle →
    ∃ u : State, step s = .next (react (draw s).1 u) ∧
      u = { exchanged (nextOut s) (draw s).1 s with card := u.card, draws := u.draws } ∧
      takeAnswers 1 s.card s.draws = ([(draw s).1], u.card, u.draws)

/-- The reset input (R350, R351, R352): while no operation runs it leaves the reset state, whatever stands at the port; the
parameters, host memory, the host's port and the card are not reset (log 25). Of the registers R46 leaves unspecified, the values
are the model's: 0 (log 8; `appcmd` log 32), `RES` Ok and nothing delivered (log 9), `bufp` 0 (log 12). While an operation runs
there is no step. -/
def Obligations.ResetInputResetsAnIdleBlock : Prop :=
  ∀ s : State, s.rst = true →
    (s.busy = false → step s =
      .next { State.reset with cfg := s.cfg, mem := s.mem, port := s.port, card := s.card, draws := s.draws }) ∧
    (s.busy = true → step s = .refused .resetWhileBusy)

/-- The host may assert `start` only while no operation is in flight (R358): every instruction but a byte on the wire is
refused then, a ragged exporter's call under its own name (R294). -/
def Obligations.StartWhileBusyIsRefused : Prop :=
  ∀ (i : Instr) (s : State), s.busy = true → isByteRow i = false →
    exec i s = .refused (if raggedCall i then .raggedOffset else .startWhileBusy)

/-! Reset and invariants. -/

/-- What the spec says reset leaves (R350, R46): the values R46 leaves unspecified are not stated. -/
def Obligations.ResetLeavesTheStatedValues : Prop :=
  State.reset.ready = false ∧ State.reset.fsm = .uninit ∧ State.reset.sel = false ∧ State.reset.busy = false ∧
    State.reset.phase = .idle ∧ State.reset.xcount = 0 ∧ State.reset.trace = [] ∧ Config.blockSize = 512

/-- The reset state meets the invariants. -/
def Obligations.ResetMeetsTheInvariants : Prop := State.reset.Inv ∧ State.reset.CountersInRange

/-- Every step keeps the invariant: the Session invariant (R31, R47), the shape of an idle and of a running block, and host
memory in canonical form. -/
def Obligations.EveryStepKeepsTheInvariant : Prop :=
  ∀ s t : State, s.Inv → step s = .next t → t.Inv

/-- Every step keeps the counters in the ranges of R29, R327 and R190 e, in a state that meets the invariant: `framei`, `byteidx`
and `retrycnt` always; `pollcnt` at most 1000 while an operation other than a tier-1 `POLL` is in flight (a `POLL` has its own
bound), and below its bound while a poll goes on; `sectidx` below the request's count (log 22). -/
def Obligations.EveryStepKeepsTheCounters : Prop :=
  ∀ s t : State, s.Inv → s.CountersInRange → step s = .next t → t.CountersInRange

/-- No step writes a parameter (R43). -/
def Obligations.NoStepWritesAParameter : Prop :=
  ∀ s t : State, step s = .next t → t.cfg = s.cfg

/-- The ghosts account for every step but a reset: events are only appended, and the call counter counts their exchanges (R41,
R42). -/
def Obligations.EveryStepAccountsForItsExchanges : Prop :=
  ∀ s t : State, s.rst = false → step s = .next t →
    ∃ evs, t.trace = s.trace ++ evs ∧ t.xcount = s.xcount + xferCount evs

/-- No step but one of the initialisation sequence writes the Session (R30, R31, R35), in a state that meets the invariant. -/
def Obligations.OnlyTheSequenceWritesTheSession : Prop :=
  ∀ s t : State, s.Inv → s.rst = false → isSequence (flow s) = false →
    (∀ i rest, decode s.port = .ok (i, rest) → writesSession i = false) →
    step s = .next t → session t = session s

/-- Raising an error (R318): the open bracket is closed, `InitFailure` alone moves `fsm` to `Failed`, the error stands in `RES`
and is the result, and the block is idle. The latched operation and the value port are cleared too, which is the model's choice
(logs 7 and 9); nothing else changes. -/
def Obligations.RaisingAnErrorEndsTheOperation : Prop :=
  ∀ (bracketOpen : Bool) (e : Result) (s : State),
    raiseError bracketOpen e s =
      (e, { atRest s with
        sel := if bracketOpen then false else s.sel
        trace := s.trace ++ (if bracketOpen then [.desel] else [])
        fsm := match e with
          | .initFailure _ _ => .failed
          | _ => s.fsm
        res := e
        out := .nothing })

/-- After any operation of tiers 2 and 3 completes, the card is deselected, if it was when the operation started (R252, R47):
an operation that selects deselects as its last bus action, run whole or one exchange at a time. SEND_COMMAND and POLL are
excepted: they drive no chip select (R185). -/
def Obligations.EveryOperationLeavesTheCardDeselected : Prop :=
  (∀ (i : Instr) (s t : State), aboveTransport i = true → s.sel = false → exec i s = .next t → t.busy = false →
    t.sel = false) ∧
  ∀ s t : State, s.rst = false → s.busy = true → flow s ≠ .command false →
    (∀ bound pred out, flow s ≠ .polling bound pred out) → step s = .next t → t.busy = false → t.sel = false

/-! The transport. -/

/-- EXCHANGE (R140): one byte each way, the card's next answer, and no other effect; the byte is the host's. -/
def Obligations.ExchangeMovesOneByteEachWay : Prop :=
  ∀ (s : State) (out : Byte), s.busy = false →
    ∃ (inp : Byte) (card : List Byte) (draws : Nat),
      takeAnswers 1 s.card s.draws = ([inp], card, draws) ∧
      exec (.exchange out) s =
        .next { atRest (exchanged out inp s) with card := card, draws := draws, out := .byte inp }

/-- SELECT and DESELECT (R141, R142): the latch and the event, and no exchange. That the value port is cleared is the model's choice
(log 9). -/
def Obligations.SelectAndDeselectDriveTheLatch : Prop :=
  ∀ s : State, s.busy = false →
    exec .select s = .next { atRest s with sel := true, trace := s.trace ++ [.sel], out := .nothing } ∧
    exec .deselect s = .next { atRest s with sel := false, trace := s.trace ++ [.desel], out := .nothing }

/-- The bit-serial refinement of an exchange (R143): eight clock periods, low half first; in period `k` bit `7 - k` of each
byte, on both halves (for `MISO` this is the model's choice, log 37); chip select low exactly while selected; and a receiver that samples on rising edges gets the bytes. -/
def Obligations.SerialWaveCarriesBothBytes : Prop :=
  ∀ (sel : Bool) (out inp : Byte),
    (exchangeWave sel out inp).length = 16 ∧
    (∀ k < 8, (exchangeWave sel out inp)[2 * k]? = some ⟨false, out.getLsbD (7 - k), inp.getLsbD (7 - k), !sel⟩ ∧
      (exchangeWave sel out inp)[2 * k + 1]? = some ⟨true, out.getLsbD (7 - k), inp.getLsbD (7 - k), !sel⟩) ∧
    sampledMosi (exchangeWave sel out inp) = out ∧ sampledMiso (exchangeWave sel out inp) = inp

/-! The checksum. -/

/-- `Crc7` is linear over exclusive-or for lists of equal length (R160). -/
def Obligations.CrcIsLinear : Prop :=
  ∀ a b : List Byte, a.length = b.length → crc7 (List.zipWith (· ^^^ ·) a b) = crc7 a ^^^ crc7 b

/-- `Crc7` is a polynomial remainder (R161): the message bits, first bit first, are the coefficients of M over GF(2), highest
power first; `Crc7` is the remainder of M times x^7 by x^7 + x^3 + 1, its x^6 coefficient in bit 6. -/
def Obligations.CrcIsThePolynomialRemainder : Prop :=
  ∀ bytes : List Byte,
    ((((bytes.flatMap bitsOfByte).foldl (fun (m : Polynomial (ZMod 2)) (d : Bool) =>
        m * Polynomial.X + (if d then 1 else 0)) 0) * Polynomial.X ^ 7) %ₘ
      (Polynomial.X ^ 7 + Polynomial.X ^ 3 + 1)) =
    ∑ k ∈ Finset.range 7, (if (crc7 bytes).getLsbD k then (Polynomial.X ^ k : Polynomial (ZMod 2)) else 0)

/-- The worked examples of the checksum (R164), the two arguments of opcode 8 that give 0x87 there, and its value on the lists
R160 names. -/
def Obligations.CrcWorkedExamples : Prop :=
  crc7 [0x40#8, 0#8, 0#8, 0#8, 0#8] = 0x4A#7 ∧ crc7 [0x48#8, 0#8, 0#8, 0x01#8, 0xAA#8] = 0x43#7 ∧
  ([0x40#8, 0#8, 0#8, 0#8, 0#8] : List Byte).inits.map crc7 = [0#7, 0x64#7, 0x6D#7, 0x66#7, 0x49#7, 0x4A#7] ∧
  ([0x48#8, 0#8, 0#8, 0x01#8, 0xAA#8] : List Byte).inits.map crc7 = [0#7, 0x2C#7, 0x35#7, 0x0C#7, 0x58#7, 0x43#7] ∧
  crc7 [] = 0#7 ∧ crc7 [0#8] = 0#7 ∧ crc7 [0x01#8] = 0x09#7 ∧ crc7 [0x80#8] = 0x41#7 ∧ crc7 [0xFF#8] = 0x79#7 ∧
  crcByte { Params.defaults with crcMode := .computed } Config.opGoIdle 0#32 = 0x95#8 ∧
  crcByte { Params.defaults with crcMode := .computed } Config.opSendIfCond 0x000001AA#32 = 0x87#8 ∧
  (List.range 256).filter (fun k =>
    crcByte { Params.defaults with crcMode := .computed } Config.opSendIfCond (BitVec.ofNat 32 (0x100 + k)) = 0x87#8) =
      [0x23, 0xAA]

/-- `CrcByte` (R162, R94, R163): the checksum over the command byte and the argument bytes in bits 7:1 with bit 0 set, or the
table's two constants, for opcodes 0 and 8; the placeholder for every other opcode, whatever the argument. -/
def Obligations.SixthByteOfAFrame : Prop :=
  ∀ (p : Params) (opcode : U6) (arg : U32),
    crcByte p opcode arg =
      if opcode = 0#6 ∨ opcode = 8#6 then
        (if p.crcMode = .computed then
          ((crc7 [0x40#8 ||| opcode.setWidth 8, arg.extractLsb' 24 8, arg.extractLsb' 16 8, arg.extractLsb' 8 8,
            arg.extractLsb' 0 8]).setWidth 8 <<< 1) ||| 0x01#8
        else if opcode = 0#6 then 0x95#8 else 0x87#8)
      else p.crcPlaceholder

/-! Tier 1: the command engine. -/

/-- POLL (R180; its bound 0 clause is the model's choice, log 16). With a bound of at least 1 it sends `out` until the first byte that passes the test or until the bound is
spent, and delivers the triple. With bound 0 it makes no exchange: no hit, `n` 0, and `last` a free value (log 16), so that no
value of it is stated. -/
def Obligations.PollSendsUntilAByteHits : Prop :=
  ∀ (s : State) (bound : Nat) (pred : BytePred) (out : Byte), Whole s →
    (1 ≤ bound →
      ∃ t got last, exec (.poll bound pred out) s = .next t ∧ Polled bound pred.holds got last ∧
        Emitted s t (listenEvents s.sel out got) ∧
        t = { atRest (withBus t s) with pollcnt := got.length, out := .poll (pred.holds last) last got.length }) ∧
    (bound = 0 →
      ∃ last, exec (.poll bound pred out) s =
        .next { atRest s with pollcnt := 0, draws := s.draws + 1, out := .poll false last 0 })

/-- SEND_COMMAND (R182, R183, R185 to R188): the six bytes of the frame, then the response poll; the last byte polled is the
result and stands in `R1`; `CRC` is written only where the checksum is computed. -/
def Obligations.SendCommandFramesThenPolls : Prop :=
  ∀ (s : State) (opcode : U6) (arg : U32), Whole s →
    ∃ t heard got r, exec (.sendCommand opcode arg) s = .next t ∧ Answered heard got r ∧
      Emitted s t (commandEvents s.sel (commandFrame s.cfg opcode arg) heard got) ∧
      t = { atRest (withBus t s) with
        opc := opcode
        arg := arg
        frame := ⟨0x40#8 ||| opcode.setWidth 8, arg.extractLsb' 24 8, arg.extractLsb' 16 8, arg.extractLsb' 8 8,
          arg.extractLsb' 0 8, crcByte s.cfg opcode arg⟩
        framei := 6
        crc := if (opcode = 0#6 ∨ opcode = 8#6) ∧ s.cfg.crcMode = .computed then crc7 (frameHead opcode arg) else s.crc
        pollcnt := got.length
        r1 := r
        out := .byte r }

/-! The wire commands: each row's own six bytes, written out from R91, in a bracket of its own (R105, R205; that a row is its whole
transaction is the model's, log 11, and so is what it hands the host in `out` or `RES`, log 35). -/

/-- CMD_FRAME, CMD0, CMD16, ACMD41 and CMD55: one R1 byte. -/
def Obligations.OneByteCommandsRunTheirBracket : Prop :=
  ∀ (s : State) (opcode : U6) (arg : U32) (crc : U7) (i : Instr) (f : Frame), Whole s →
    f = ⟨0x40#8 ||| opcode.setWidth 8, arg.extractLsb' 24 8, arg.extractLsb' 16 8, arg.extractLsb' 8 8, arg.extractLsb' 0 8,
      (crc.setWidth 8 <<< 1) ||| 0x01#8⟩ →
    i = .cmdFrame opcode arg crc ∨ (opcode = 0#6 ∧ i = .cmd0 arg crc) ∨ (opcode = 16#6 ∧ i = .cmd16 arg crc) ∨
      (opcode = 41#6 ∧ i = .acmd41 arg crc) ∨ (opcode = 55#6 ∧ i = .cmd55 arg crc) →
    ∃ t evs r n, exec i s = .next t ∧ CommandRun f evs r ∧ Emitted s t (.sel :: evs) ∧
      xferCount evs = 6 + n ∧
      t = { atRest (withBus t s) with
        sel := false
        opc := opcode
        arg := arg
        frame := f
        framei := 6
        pollcnt := n
        r1 := r
        out := .byte r }

/-- CMD8 (R98, R204, R105): four trailing bytes exactly if R1 is 0x01, in `R7TAIL` in the order received. -/
def Obligations.Cmd8DrainsItsTrailingBytes : Prop :=
  ∀ (s : State) (arg : U32) (crc : U7) (f : Frame), Whole s →
    f = ⟨0x48#8, arg.extractLsb' 24 8, arg.extractLsb' 16 8, arg.extractLsb' 8 8, arg.extractLsb' 0 8,
      (crc.setWidth 8 <<< 1) ||| 0x01#8⟩ →
    ∃ t evs r tail, exec (.cmd8 arg crc) s = .next t ∧
      IfCondRun s.cfg f evs r tail ∧ Emitted s t (.sel :: evs) ∧
      t = { atRest (withBus t s) with
        sel := false
        opc := 8#6
        arg := arg
        frame := f
        framei := 6
        pollcnt := t.pollcnt
        loopidx := t.loopidx
        r1 := r
        r7tail := if r = 0x01#8 then ⟨tail.getD 0 0#8, tail.getD 1 0#8, tail.getD 2 0#8, tail.getD 3 0#8⟩ else s.r7tail
        out := .byte r }

/-- CMD17 (R241 to R244): the transaction, its payload into the attached buffer (log 12); host memory holds the payload there
and is unchanged everywhere else. -/
def Obligations.Cmd17ReadsABlock : Prop :=
  ∀ (s : State) (arg : U32) (crc : U7) (f : Frame), Whole s → s.mem.wf →
    f = ⟨0x51#8, arg.extractLsb' 24 8, arg.extractLsb' 16 8, arg.extractLsb' 8 8, arg.extractLsb' 0 8,
      (crc.setWidth 8 <<< 1) ||| 0x01#8⟩ →
    ∃ t evs e, exec (.cmd17 arg crc) s = .next t ∧ ReadRun s.cfg f evs e ∧
      Emitted s t (.sel :: evs) ∧
      (∀ a, memRead t.mem a =
        if s.bufp ≤ a ∧ a < s.bufp + e.data.length then e.data.getD (a - s.bufp) 0#8 else memRead s.mem a) ∧
      t = { atRest (withBus t s) with
        sel := false
        opc := 17#6
        arg := arg
        frame := f
        framei := 6
        pollcnt := t.pollcnt
        byteidx := t.byteidx
        loopidx := t.loopidx
        r1 := e.r1
        tok := e.tok.getD s.tok
        mem := t.mem
        res := e.res
        out := .nothing }

/-- CMD24 (R246 to R250): the transaction, its payload from the attached buffer (log 12). -/
def Obligations.Cmd24WritesABlock : Prop :=
  ∀ (s : State) (arg : U32) (crc : U7) (f : Frame), Whole s →
    f = ⟨0x58#8, arg.extractLsb' 24 8, arg.extractLsb' 16 8, arg.extractLsb' 8 8, arg.extractLsb' 0 8,
      (crc.setWidth 8 <<< 1) ||| 0x01#8⟩ →
    ∃ t evs e, exec (.cmd24 arg crc) s = .next t ∧
      WriteRun s.cfg f (hostBytes s.mem s.bufp 512) evs e ∧ Emitted s t (.sel :: evs) ∧
      t = { atRest (withBus t s) with
        sel := false
        opc := 24#6
        arg := arg
        frame := f
        framei := 6
        pollcnt := t.pollcnt
        byteidx := t.byteidx
        loopidx := t.loopidx
        r1 := e.r1
        dresp := e.dresp.getD s.dresp
        busyb := e.busyb.getD s.busyb
        res := e.res
        out := .nothing }

/-! The byte rows. -/

/-- With no operation in flight a BYTE row is one bare exchange (R140), in which the card answers that byte, or, for the start
token and FILL, in which the block sends it (log 13). -/
def Obligations.IdleByteRowsAreBareExchanges : Prop :=
  ∀ s : State, s.busy = false →
    (∀ flags, exec (.r1Valid flags) s =
      .next { atRest (exchanged 0xFF#8 (0#1 ++ flags) s) with out := .byte (0#1 ++ flags) }) ∧
    (∀ low, exec (.r1NotYet low) s =
      .next { atRest (exchanged 0xFF#8 (1#1 ++ low) s) with out := .byte (1#1 ++ low) }) ∧
    exec .r1IdleExact s = .next { atRest (exchanged 0xFF#8 0x01#8 s) with out := .byte 0x01#8 } ∧
    exec .r1ReadyExact s = .next { atRest (exchanged 0xFF#8 0x00#8 s) with out := .byte 0x00#8 } ∧
    (∀ x, exec (.drespAccepted x) s =
      .next { atRest (exchanged s.cfg.fill (x ++ 0b00101#5) s) with out := .byte (x ++ 0b00101#5) }) ∧
    (∀ x, exec (.drespCrcError x) s =
      .next { atRest (exchanged s.cfg.fill (x ++ 0b01011#5) s) with out := .byte (x ++ 0b01011#5) }) ∧
    (∀ x, exec (.drespWriteError x) s =
      .next { atRest (exchanged s.cfg.fill (x ++ 0b01101#5) s) with out := .byte (x ++ 0b01101#5) }) ∧
    (∀ x r, exec (.drespOther x r) s =
      .next { atRest (exchanged s.cfg.fill (x ++ r) s) with out := .byte (x ++ r) }) ∧
    exec .busyByte s = .next { atRest (exchanged s.cfg.fill 0x00#8 s) with out := .byte 0x00#8 } ∧
    ∃ (inp : Byte) (card : List Byte) (draws : Nat),
      takeAnswers 1 s.card s.draws = ([inp], card, draws) ∧
      exec .dataStartToken s =
        .next { atRest (exchanged 0xFE#8 inp s) with card := card, draws := draws, out := .byte inp } ∧
      exec .fillByte s =
        .next { atRest (exchanged s.cfg.fill inp s) with card := card, draws := draws, out := .byte inp }

/-- A response byte in the response poll of the operation in flight, in every operation that has one. A byte with bit 7 clear ends
the poll, one with bit 7 set only as the tenth (R97, R182, R189). The ended poll of SEND_COMMAND delivers the byte and drives no
chip select (R185). That of a lone wire command delivers it too, with its bracket closed, and leaves `RES` as it was: the bracket
is the model's choice (log 11) and so is what is delivered (log 35); with opcode 8 the byte 0x01 opens the drain first. That of a
sector operation goes on to the token poll or the start token on 0x00, and is `CommandRejected` on any other byte (R241, R246).
That of INIT moves `fsm` (R211): `GoIdle` on 0x01 only (R203); opcode 8 drains on 0x01, fails on a timeout if the parameter says
so, else goes on (R204); within an attempt opcode 41 follows opcode 55 whatever the response, and the idle flag decides after
opcode 41, with a sleep and at most 1000 attempts (R206, R207; `appcmd`, log 32); `SetBlockLength` completes on 0x00 only (R208,
R209). A tier-1 POLL applies its own test and bound (R180), and stands in this phase by the model's choice (log 21). That
`pollcnt` is 0 once the next frame is latched is the model's too (log 34). -/
def Obligations.ResponseBytesInTheResponsePoll : Prop :=
  ∀ (s : State) (i : Instr) (r : Byte), s.busy = true → s.phase = .respPoll → ResponseRow i r →
    (∀ bound pred out, flow s = .polling bound pred out → exec i s = .next
      (if pred.holds r = true ∨ bound ≤ s.pollcnt + 1 then
        { atRest (exchanged out r s) with pollcnt := s.pollcnt + 1, out := .poll (pred.holds r) r (s.pollcnt + 1) }
      else { exchanged out r s with pollcnt := s.pollcnt + 1 })) ∧
    (isPolling (flow s) = false → r.getLsbD 7 = true → s.pollcnt + 1 < 10 → exec i s = .next (polledResponse r s)) ∧
    (r.getLsbD 7 = false ∨ 10 ≤ s.pollcnt + 1 →
      (∀ bracketed, flow s = .command bracketed → exec i s = .next
        { atRest (if bracketed then bracketClosed (polledResponse r s) else polledResponse r s) with out := .byte r }) ∧
      (flow s = .ifCond → exec i s = .next
        (if r = 0x01#8 then { polledResponse r s with loopidx := 0, phase := .r7Drain }
        else { atRest (bracketClosed (polledResponse r s)) with out := .byte r })) ∧
      (∀ isWrite, flow s = .sector isWrite ∨ (∃ first count buf, flow s = .sectors isWrite first count buf) →
        exec i s = .next
          (if r = 0x00#8 then
            { polledResponse r s with
              pollcnt := if isWrite then s.pollcnt + 1 else 0
              phase := if isWrite then .wrToken else .tokenPoll }
          else { atRest (bracketClosed (polledResponse r s)) with res := .commandRejected r, out := .nothing })) ∧
      ∀ viaAdapter, flow s = .sequence viaAdapter →
        (s.fsm = .goIdle → exec i s = .next
          (if r = 0x01#8 then
            commandNext 8#6 0x000001AA#32 ⟨0x48#8, 0x00#8, 0x00#8, 0x01#8, 0xAA#8, 0x87#8⟩
              { bracketClosed (polledResponse r s) with
                fsm := .checkInterfaceCondition
                crc := if s.cfg.crcMode = .computed then 0x43#7 else s.crc }
          else sequenceFailed viaAdapter .goIdle r (bracketClosed (polledResponse r s)))) ∧
        (s.fsm = .checkInterfaceCondition → exec i s = .next
          (if r = 0x01#8 then { polledResponse r s with loopidx := 0, phase := .r7Drain }
          else if s.cfg.ifcondTimeoutFatal = true ∧ r.getLsbD 7 = true then
            sequenceFailed viaAdapter .checkInterfaceCondition r (bracketClosed (polledResponse r s))
          else
            commandNext 55#6 0x00000000#32 ⟨0x77#8, 0x00#8, 0x00#8, 0x00#8, 0x00#8, s.cfg.crcPlaceholder⟩
              { bracketClosed (polledResponse r s) with fsm := .applicationInit, retrycnt := 1, appcmd := true })) ∧
        (s.fsm = .applicationInit → s.appcmd = true → exec i s = .next
          (commandNext 41#6 0x40000000#32 ⟨0x69#8, 0x40#8, 0x00#8, 0x00#8, 0x00#8, s.cfg.crcPlaceholder⟩
            { bracketClosed (polledResponse r s) with appcmd := false })) ∧
        (s.fsm = .applicationInit → s.appcmd = false → exec i s = .next
          (if r.getLsbD 0 = true then
            (if s.retrycnt < 1000 then
              commandNext 55#6 0x00000000#32 ⟨0x77#8, 0x00#8, 0x00#8, 0x00#8, 0x00#8, s.cfg.crcPlaceholder⟩
                { bracketClosed (polledResponse r s) with
                  trace := s.trace ++ [.xfer s.sel 0xFF#8 r, .desel, .slept]
                  retrycnt := s.retrycnt + 1
                  appcmd := true }
            else sequenceFailed viaAdapter .applicationInit r
              { bracketClosed (polledResponse r s) with trace := s.trace ++ [.xfer s.sel 0xFF#8 r, .desel, .slept] })
          else
            commandNext 16#6 0x00000200#32 ⟨0x50#8, 0x00#8, 0x00#8, 0x02#8, 0x00#8, s.cfg.crcPlaceholder⟩
              { bracketClosed (polledResponse r s) with fsm := .setBlockLength })) ∧
        (s.fsm = .setBlockLength → exec i s = .next
          (if r = 0x00#8 then
            { atRest (bracketClosed (polledResponse r s)) with
              sectorCount := s.cfg.sectorCountFixed
              ready := true
              fsm := .ready
              res := .ok
              out := .nothing }
          else sequenceFailed viaAdapter .setBlockLength r (bracketClosed (polledResponse r s)))))

/-- The start token in its two places (R242, R247): received in the token poll it opens the payload; where a write sends it
next, it is sent, and the card's answer discarded. Any other byte in the token poll, bit 7 set or clear, is "not yet" (R103 b); the
1000th of them ends the operation with `TransferTimeout(Token)`, the card deselected (R242). -/
def Obligations.StartTokenOpensThePayload : Prop :=
  ∀ s : State, s.busy = true →
    (s.phase = .tokenPoll → exec .dataStartToken s = .next
      { exchanged s.cfg.fill 0xFE#8 s with pollcnt := s.pollcnt + 1, tok := 0xFE#8, byteidx := 0, phase := .rdPayload }) ∧
    (s.phase = .tokenPoll →
      ∀ (i : Instr) (b : Byte), (∃ low, i = .r1NotYet low ∧ b = 1#1 ++ low ∧ b ≠ 0xFE#8) ∨ (∃ flags, i = .r1Valid flags ∧ b = 0#1 ++ flags) →
        exec i s = .next
          (if s.pollcnt + 1 < 1000 then { exchanged s.cfg.fill b s with pollcnt := s.pollcnt + 1, tok := b }
          else
            { atRest (exchanged s.cfg.fill b s) with
              pollcnt := s.pollcnt + 1
              tok := b
              sel := false
              trace := s.trace ++ [.xfer s.sel s.cfg.fill b, .desel]
              res := .transferTimeout .token
              out := .nothing })) ∧
    (s.phase = .wrToken → ∃ inp card draws, takeAnswers 1 s.card s.draws = ([inp], card, draws) ∧
      exec .dataStartToken s = .next
        { exchanged 0xFE#8 inp s with card := card, draws := draws, byteidx := 0, phase := .wrPayload })

/-- The data response of a running write (R100, R248, R249): acceptance opens the busy poll; every other pattern deselects,
and reports its reason and the byte. -/
def Obligations.DataResponseDecidesTheWrite : Prop :=
  ∀ (s : State) (x : BitVec 3), s.busy = true → s.phase = .wrResp →
    exec (.drespAccepted x) s = .next
      { exchanged s.cfg.fill (x ++ 0b00101#5) s with dresp := x ++ 0b00101#5, pollcnt := 0, phase := .busyPoll } ∧
    ∀ (i : Instr) (status : BitVec 5) (reason : Reason),
      (i = .drespCrcError x ∧ status = 0b01011#5 ∧ reason = .crcError) ∨
      (i = .drespWriteError x ∧ status = 0b01101#5 ∧ reason = .writeError) ∨
      (i = .drespOther x status ∧ i.wf = true ∧ reason = .other) →
      exec i s = .next
        { atRest (exchanged s.cfg.fill (x ++ status) s) with
          dresp := x ++ status
          sel := false
          trace := s.trace ++ [.xfer s.sel s.cfg.fill (x ++ status), .desel]
          res := .writeRejected reason (x ++ status)
          out := .nothing }

/-- The busy poll of a running write (R101, R250): 0x00 is still busy, until the bound; any other byte completes the sector. -/
def Obligations.BusyBytesKeepTheBusyPoll : Prop :=
  ∀ s : State, s.busy = true → s.phase = .busyPoll →
    exec .busyByte s = .next
      (if s.pollcnt + 1 < 1000 then
        { exchanged s.cfg.fill 0x00#8 s with pollcnt := s.pollcnt + 1, busyb := 0x00#8 }
      else
        { atRest (exchanged s.cfg.fill 0x00#8 s) with
          pollcnt := s.pollcnt + 1
          busyb := 0x00#8
          sel := false
          trace := s.trace ++ [.xfer s.sel s.cfg.fill 0x00#8, .desel]
          res := .transferTimeout .busy
          out := .nothing }) ∧
    ∀ low : U7, flow s = .sector true → exec (.r1NotYet low) s = .next
      { atRest (exchanged s.cfg.fill (1#1 ++ low) s) with
        pollcnt := s.pollcnt + 1
        busyb := 1#1 ++ low
        sel := false
        trace := s.trace ++ [.xfer s.sel s.cfg.fill (1#1 ++ low), .desel]
        res := .ok
        out := .nothing }

/-- FILL while an operation is in flight (R102). What the operation sends next: FILL in every receive phase; a byte of the frame,
a poll byte, the start token or a byte of the buffer elsewhere. Where it is FILL, be it by the parameter's value (log 33), the row
is the operation's next exchange: FILL is sent, and the card's answer taken; where it is another byte the row is refused (log 14). -/
def Obligations.FillRowSendsTheFillByte : Prop :=
  ∀ s : State, s.busy = true → s.phase ≠ .idle →
    (s.phase ∈ [.resetIdle, .r7Drain, .tokenPoll, .rdPayload, .rdCrc, .wrCrc, .wrResp, .busyPoll] → nextOut s = s.cfg.fill) ∧
    (s.phase = .frame → s.framei < 6 →
      [s.frame.b0, s.frame.b1, s.frame.b2, s.frame.b3, s.frame.b4, s.frame.b5][s.framei]? = some (nextOut s)) ∧
    (s.phase = .respPoll → nextOut s =
      match flow s with
      | .polling _ _ out => out
      | _ => 0xFF#8) ∧
    (s.phase = .wrToken → nextOut s = 0xFE#8) ∧
    (s.phase = .wrPayload → nextOut s = memRead s.mem (s.bufp + s.byteidx)) ∧
    (nextOut s = s.cfg.fill → ∃ u : State, exec .fillByte s = .next (react (draw s).1 u) ∧
      u = { exchanged s.cfg.fill (draw s).1 s with card := u.card, draws := u.draws } ∧
      takeAnswers 1 s.card s.draws = ([(draw s).1], u.card, u.draws)) ∧
    (nextOut s ≠ s.cfg.fill → exec .fillByte s = .refused .fillNotNext)

/-! INIT. -/

/-- INIT (R200 to R211): its bus behaviour is a run of the sequence with the arguments of R95, its result the run's; `R1` is the
run's last response, and `R7TAIL` holds the trailing bytes of opcode 8, or what it held where there were none (R204); on `Ok` the
Session is ready with the fixed capacity, else it is failed and the capacity as it was; and beside the command engine's registers,
the counters and the model's own `appcmd` (log 32) nothing else is written. -/
def Obligations.InitRunsItsSequence : Prop :=
  ∀ s : State, Whole s →
    ∃ t evs tail, exec .init s = .next t ∧ InitRun s.cfg evs ⟨t.res, t.r1, tail⟩ ∧ Emitted s t evs ∧
      t = { atRest (withBus t s) with
        ready := decide (t.res = .ok)
        fsm := if t.res = .ok then .ready else .failed
        sectorCount := if t.res = .ok then s.cfg.sectorCountFixed else s.sectorCount
        sel := false
        opc := t.opc
        arg := t.arg
        frame := t.frame
        framei := 6
        crc := t.crc
        r1 := t.r1
        r7tail := tailAfter s.r7tail tail
        pollcnt := t.pollcnt
        retrycnt := t.retrycnt
        appcmd := t.appcmd
        loopidx := t.loopidx
        res := t.res
        out := .nothing }

/-- The bounds of INIT (R212) with ten idle bytes: exchanges and sleeps. -/
def Obligations.InitStaysWithinItsBounds : Prop :=
  ∀ s : State, Whole s → s.cfg.resetIdleBytes = 10 →
    ∃ t evs, exec .init s = .next t ∧ Emitted s t evs ∧
      (t.res = .ok → 45 ≤ xferCount evs ∧ xferCount evs ≤ 32062 ∧ sleepCount evs ≤ 999) ∧
      (t.res ≠ .ok → 17 ≤ xferCount evs ∧ xferCount evs ≤ 32062 ∧ sleepCount evs ≤ 1000)

/-- INIT sends no command but opcodes 0, 8, 55, 41 and 16 (R213), each with the argument of R95 and the sixth byte of R94: the six
bytes sent after every `Sel` are one of these five frames, and those of opcodes 0, 8 and 16 are sent at most once. -/
def Obligations.InitSendsOnlyItsFiveCommands : Prop :=
  ∀ s : State, Whole s →
    ∃ t evs, exec .init s = .next t ∧ Emitted s t evs ∧
      (∀ f ∈ framesSent evs, f ∈ [[0x40#8, 0x00#8, 0x00#8, 0x00#8, 0x00#8, 0x95#8], [0x48#8, 0x00#8, 0x00#8, 0x01#8, 0xAA#8, 0x87#8],
        [0x77#8, 0x00#8, 0x00#8, 0x00#8, 0x00#8, s.cfg.crcPlaceholder], [0x69#8, 0x40#8, 0x00#8, 0x00#8, 0x00#8, s.cfg.crcPlaceholder],
        [0x50#8, 0x00#8, 0x00#8, 0x02#8, 0x00#8, s.cfg.crcPlaceholder]]) ∧
      (framesSent evs).countP (fun f => f.head? == some 0x40#8) ≤ 1 ∧
      (framesSent evs).countP (fun f => f.head? == some 0x48#8) ≤ 1 ∧
      (framesSent evs).countP (fun f => f.head? == some 0x50#8) ≤ 1

/-- A first response other than 0x01 ends INIT at once (R203): after ten idle bytes and one bracket nothing further is sent. -/
def Obligations.InitStopsAtAWrongFirstResponse : Prop :=
  ∀ (s : State) (idle heard got after : List Byte) (r : Byte), Whole s →
    idle.length = s.cfg.resetIdleBytes → Answered heard got r → r ≠ 0x01#8 → s.card = idle ++ heard ++ got ++ after →
    ∃ t, exec .init s = .next t ∧ t.res = .initFailure .goIdle r ∧ t.ready = false ∧ t.fsm = .failed ∧ t.sel = false ∧
      t.xcount = s.xcount + (s.cfg.resetIdleBytes + 6 + got.length) ∧ t.card = after ∧
      t.trace = s.trace ++ .desel :: listenEvents false s.cfg.fill idle ++ .sel ::
        commandEvents true ⟨0x40#8, 0#8, 0#8, 0#8, 0#8, 0x95#8⟩ heard got ++ [.desel]

/-! Sectors. -/

/-- READ_SECTOR and WRITE_SECTOR on a Session that is not ready (R255, R313): `NotReady`, and nothing on the bus. That `RES`, and
nothing else, is written is the model's reading (log 10). -/
def Obligations.SectorOperationsNeedAReadySession : Prop :=
  ∀ (s : State) (index : U32) (buf : Nat), s.busy = false → s.ready = false →
    exec (.readSector index buf) s = .next { atRest s with res := .notReady, out := .nothing } ∧
    exec (.writeSector index buf) s = .next { atRest s with res := .notReady, out := .nothing }

/-- READ_SECTOR (R241 to R244): the transaction of opcode 17 with the index unscaled (R61); host memory holds the payload at
the buffer and is unchanged everywhere else. That the port `buf` stays attached to that buffer (`bufp`) is the model's choice
(log 12). -/
def Obligations.ReadSectorRunsItsTransaction : Prop :=
  ∀ (s : State) (index : U32) (buf : Nat), Whole s → s.ready = true → s.mem.wf →
    ∃ t evs e, exec (.readSector index buf) s = .next t ∧ ReadRun s.cfg (commandFrame s.cfg 17#6 index) evs e ∧
      Emitted s t (.sel :: evs) ∧
      (∀ a, memRead t.mem a =
        if buf ≤ a ∧ a < buf + e.data.length then e.data.getD (a - buf) 0#8 else memRead s.mem a) ∧
      t = { atRest (withBus t s) with
        sel := false
        opc := 17#6
        arg := index
        frame := commandFrame s.cfg 17#6 index
        framei := 6
        pollcnt := t.pollcnt
        byteidx := t.byteidx
        loopidx := t.loopidx
        r1 := e.r1
        tok := e.tok.getD s.tok
        mem := t.mem
        bufp := buf
        res := e.res
        out := .nothing }

/-- WRITE_SECTOR (R246 to R250): the transaction of opcode 24 with the buffer's 512 bytes; host memory is only read. That
the port `buf` stays attached to that buffer (`bufp`) is the model's choice (log 12). -/
def Obligations.WriteSectorRunsItsTransaction : Prop :=
  ∀ (s : State) (index : U32) (buf : Nat), Whole s → s.ready = true →
    ∃ t evs e, exec (.writeSector index buf) s = .next t ∧
      WriteRun s.cfg (commandFrame s.cfg 24#6 index) (hostBytes s.mem buf 512) evs e ∧ Emitted s t (.sel :: evs) ∧
      t = { atRest (withBus t s) with
        sel := false
        opc := 24#6
        arg := index
        frame := commandFrame s.cfg 24#6 index
        framei := 6
        pollcnt := t.pollcnt
        byteidx := t.byteidx
        loopidx := t.loopidx
        r1 := e.r1
        dresp := e.dresp.getD s.dresp
        busyb := e.busyb.getD s.busyb
        bufp := buf
        res := e.res
        out := .nothing }

/-- The exchange counts of sector operations (R245, R251), by result. -/
def Obligations.SectorExchangeCounts : Prop :=
  ∀ (s t : State) (index : U32) (buf n : Nat), Whole s → s.ready = true → t.xcount = s.xcount + n →
    (exec (.readSector index buf) s = .next t →
      match t.res with
      | .ok => 522 ≤ n ∧ n ≤ 1530
      | .commandRejected _ => 7 ≤ n ∧ n ≤ 16
      | .transferTimeout which => which = .token ∧ 1007 ≤ n ∧ n ≤ 1016
      | _ => False) ∧
    (exec (.writeSector index buf) s = .next t →
      match t.res with
      | .ok => 524 ≤ n ∧ n ≤ 1532
      | .commandRejected _ => 7 ≤ n ∧ n ≤ 16
      | .transferTimeout which => which = .busy ∧ 1523 ≤ n ∧ n ≤ 1532
      | .writeRejected _ _ => 523 ≤ n ∧ n ≤ 532
      | _ => False)

/-- A failed read writes nothing to the buffer (R244): whatever the failure, host memory is as it was. -/
def Obligations.FailedReadLeavesTheBuffer : Prop :=
  ∀ (s t : State) (index : U32) (buf : Nat), Whole s → exec (.readSector index buf) s = .next t →
    t.res ≠ .ok → t.mem = s.mem

/-! The adapter. -/

/-- `read` sector by sector (R284): none is `Ok` at once; else the first sector's READ_SECTOR, whose failure ends it with that
error, and on success the rest of the request at the next index and the next 512 bytes. That `sectidx` is the sector's number
modulo 2^32 in a request of any length is the model's choice (log 22). -/
def Obligations.ReadRequestGoesSectorBySector : Prop :=
  ∀ (s : State) (drive : Nat) (sector : U32) (buf : Nat), Whole s → drive = s.cfg.driveIndex → s.ready = true →
    exec (.read drive sector 0 buf) s = .next { atRest s with res := .ok, out := .nothing } ∧
    ∀ n, ∃ u, exec (.readSector sector buf) s = .next u ∧
      (u.res ≠ .ok → exec (.read drive sector (n + 1) buf) s = .next { u with sectidx := 0#32, sectno := 0 }) ∧
      (u.res = .ok → ∃ v, exec (.read drive (sector + 1#32) n (buf + 512)) u = .next v ∧
        exec (.read drive sector (n + 1) buf) s = .next
          { v with sectidx := if n = 0 then 0#32 else v.sectidx + 1#32, sectno := if n = 0 then 0 else v.sectno + 1 })

/-- `write` sector by sector (R285), as `read`; what the earlier sectors sent stays sent. That `sectidx` is the sector's number
modulo 2^32 in a request of any length is the model's choice (log 22). -/
def Obligations.WriteRequestGoesSectorBySector : Prop :=
  ∀ (s : State) (drive : Nat) (sector : U32) (buf : Nat), Whole s → drive = s.cfg.driveIndex → s.ready = true →
    exec (.write drive sector 0 buf) s = .next { atRest s with res := .ok, out := .nothing } ∧
    ∀ n, ∃ u, exec (.writeSector sector buf) s = .next u ∧
      (u.res ≠ .ok → exec (.write drive sector (n + 1) buf) s = .next { u with sectidx := 0#32, sectno := 0 }) ∧
      (u.res = .ok → ∃ v, exec (.write drive (sector + 1#32) n (buf + 512)) u = .next v ∧
        exec (.write drive sector (n + 1) buf) s = .next
          { v with sectidx := if n = 0 then 0#32 else v.sectidx + 1#32, sectno := if n = 0 then 0 else v.sectno + 1 })

/-- The fail-fast checks (R281, R290, R317): a data call with a wrong drive is a `ParameterError`, else on a Session that is not
ready `NotReady`, in either case with nothing on the bus and no state changed but the result delivered (log 10). -/
def Obligations.CallsBehindTheGateFailFast : Prop :=
  ∀ (i : Instr) (s : State) (drive : Nat), s.busy = false →
    (∃ sector count buf, i = .read drive sector count buf) ∨ (∃ sector count buf, i = .write drive sector count buf) ∨
      i = .ioctlSync drive ∨ i = .ioctlGetSectorCount drive ∨ i = .ioctlGetBlockSize drive →
    (drive ≠ s.cfg.driveIndex → exec i s = .next { atRest s with res := .parameterError, out := .nothing }) ∧
    (drive = s.cfg.driveIndex → s.ready = false → exec i s = .next { atRest s with res := .notReady, out := .nothing })

/-- `status` (R282): ready exactly for the configured drive on a ready Session; no bus activity and no error. -/
def Obligations.StatusReportsTheSession : Prop :=
  ∀ (s : State) (drive : Nat), s.busy = false →
    exec (.status drive) s = .next { atRest s with out := .status (drive == s.cfg.driveIndex && s.ready) }

/-- `initialize` (R283): INIT behind the drive check, every time it is called, with a failure reported as `NotReady`. That a wrong
drive writes `RES`, and nothing else, is the model's reading (log 10). -/
def Obligations.InitializeIsInitBehindTheDriveCheck : Prop :=
  ∀ (s : State) (drive : Nat), Whole s →
    (drive ≠ s.cfg.driveIndex →
      exec (.initializeDrive drive) s = .next { atRest s with res := .parameterError, out := .nothing }) ∧
    (drive = s.cfg.driveIndex → ∃ t, exec .init s = .next t ∧
      exec (.initializeDrive drive) s = .next { t with res := if t.res = .ok then .ok else .notReady })

/-- The `ioctl` sub-commands (R286 to R289): what each delivers behind the drive check and the ready gate; `get_sector_size`
also on a Session that is not ready; an unknown sub-command is a `ParameterError`, whatever the drive and the Session (R290). That
a failed check writes `RES`, clears the value port, and changes nothing else is the model's reading (log 10), and that an `ioctl` has
no buffer operand, so that host memory is as it was, is the model's choice (log 36). -/
def Obligations.IoctlDeliversByItsSubCommand : Prop :=
  ∀ (s : State) (drive sub : Nat), s.busy = false →
    (drive = s.cfg.driveIndex → s.ready = true →
      exec (.ioctlSync drive) s = .next { atRest s with res := .ok, out := .nothing } ∧
      exec (.ioctlGetSectorCount drive) s = .next { atRest s with res := .ok, out := .number s.sectorCount.toNat } ∧
      exec (.ioctlGetBlockSize drive) s = .next { atRest s with res := .ok, out := .number 1 }) ∧
    (drive = s.cfg.driveIndex → s.ready = false →
      ∀ i, i = .ioctlSync drive ∨ i = .ioctlGetSectorCount drive ∨ i = .ioctlGetBlockSize drive →
        exec i s = .next { atRest s with res := .notReady, out := .nothing }) ∧
    (drive = s.cfg.driveIndex →
      exec (.ioctlGetSectorSize drive) s = .next { atRest s with res := .ok, out := .number 512 }) ∧
    (drive ≠ s.cfg.driveIndex →
      ∀ i, i = .ioctlSync drive ∨ i = .ioctlGetSectorCount drive ∨ i = .ioctlGetSectorSize drive ∨
          i = .ioctlGetBlockSize drive →
        exec i s = .next { atRest s with res := .parameterError, out := .nothing }) ∧
    exec (.ioctlUnknown drive sub) s = .next { atRest s with res := .parameterError, out := .nothing }

/-- `test_unit_ready` and `capacity` (R291, R292): the ready flag; the capacity and 512. While the Session is not ready the
count is a free value (log 17, a choice of the model), so no value of it is stated. That neither writes `RES` is the model's
choice (log 9). -/
def Obligations.ExporterQueriesReadTheSession : Prop :=
  ∀ s : State, s.busy = false →
    exec .testUnitReady s = .next { atRest s with out := .flag s.ready } ∧
    (s.ready = true → exec .capacity s = .next { atRest s with out := .capacity s.sectorCount 512 }) ∧
    (s.ready = false → ∃ count,
      exec .capacity s = .next { atRest s with draws := s.draws + 1, out := .capacity count 512 })

/-- `read10` and `write10` in whole sectors are `read` and `write` of the configured drive at `lba + byte_offset div 512`
modulo 2^32, `length div 512` sectors (R293). -/
def Obligations.ExporterTransfersAreAdapterTransfers : Prop :=
  ∀ (s : State) (lba : U32) (byteOffset buffer length : Nat), Whole s → byteOffset % 512 = 0 → length % 512 = 0 →
    (∃ t, exec (.read10 lba byteOffset buffer length) s = .next t ∧
      exec (.read s.cfg.driveIndex (BitVec.ofNat 32 (lba.toNat + byteOffset / 512)) (length / 512) buffer) s = .next t) ∧
    (∃ t, exec (.write10 lba byteOffset buffer length) s = .next t ∧
      exec (.write s.cfg.driveIndex (BitVec.ofNat 32 (lba.toNat + byteOffset / 512)) (length / 512) buffer) s = .next t)

/-- `read10` and `write10` with an offset or a length that is no multiple of 512 are refused (R294). -/
def Obligations.RaggedExporterCallsAreRefused : Prop :=
  ∀ (s : State) (lba : U32) (byteOffset buffer length : Nat), byteOffset % 512 ≠ 0 ∨ length % 512 ≠ 0 →
    exec (.read10 lba byteOffset buffer length) s = .refused .raggedOffset ∧
    exec (.write10 lba byteOffset buffer length) s = .refused .raggedOffset

/-! One exchange at a time. -/

/-- The table of the command engine agrees with its pseudocode (R189 with R180, R182). -/
def Obligations.StepwiseCommandsReachTheWholeRun : Prop :=
  ∀ (s : State) (opcode : U6) (arg : U32) (crc : U7) (bound : Nat) (pred : BytePred) (out : Byte), s.busy = false →
    StepwiseAgrees (.sendCommand opcode arg) s ∧ StepwiseAgrees (.poll bound pred out) s ∧
    StepwiseAgrees (.cmdFrame opcode arg crc) s ∧ StepwiseAgrees (.cmd0 arg crc) s ∧ StepwiseAgrees (.cmd8 arg crc) s ∧
    StepwiseAgrees (.cmd16 arg crc) s ∧ StepwiseAgrees (.acmd41 arg crc) s ∧ StepwiseAgrees (.cmd55 arg crc) s

/-- The table of the Block I/O Engine agrees with its pseudocode (R254 with R241, R246). -/
def Obligations.StepwiseSectorsReachTheWholeRun : Prop :=
  ∀ (s : State) (index arg : U32) (crc : U7) (buf : Nat), s.busy = false →
    StepwiseAgrees (.readSector index buf) s ∧ StepwiseAgrees (.writeSector index buf) s ∧
    StepwiseAgrees (.cmd17 arg crc) s ∧ StepwiseAgrees (.cmd24 arg crc) s

/-- The table of the initialisation sequence agrees with its pseudocode (R211 with R200). -/
def Obligations.StepwiseInitReachesTheWholeRun : Prop :=
  ∀ (s : State) (drive : Nat), s.busy = false → s.cfg.wf →
    StepwiseAgrees .init s ∧ StepwiseAgrees (.initializeDrive drive) s

/-- A request of any number of sectors, run one exchange at a time, agrees with the loops of R284 and R285; so does an
exporter's call in whole sectors (R293). -/
def Obligations.StepwiseRequestsReachTheWholeRun : Prop :=
  (∀ (s : State) (drive : Nat) (sector : U32) (count buf : Nat), s.busy = false →
    StepwiseAgrees (.read drive sector count buf) s ∧ StepwiseAgrees (.write drive sector count buf) s) ∧
  ∀ (s : State) (lba : U32) (byteOffset buffer length : Nat), s.busy = false → byteOffset % 512 = 0 → length % 512 = 0 →
    StepwiseAgrees (.read10 lba byteOffset buffer length) s ∧ StepwiseAgrees (.write10 lba byteOffset buffer length) s

/-! Block and card. -/

/-- The round trip (R70 d) against the fixture card of 95_test_vectors.md section 4, with FILL at its default 0xFF: a WRITE_SECTOR
that ends in `Ok`, then a READ_SECTOR of the same index that ends in `Ok`, both answered by the card, leave in the second buffer what
stood in the first. -/
def Obligations.WriteThenReadReturnsThePayload : Prop :=
  ∀ (s t u : State) (c d e : FixtureCard) (evs more : List Event) (index : U32) (buf buf' : Nat),
    Whole s → s.ready = true → s.mem.wf → s.cfg.fill = 0xFF#8 → c.Quiet →
    exec (.writeSector index buf) s = .next t → Emitted s t evs → c.answers evs = some d → t.res = .ok →
    exec (.readSector index buf') t = .next u → Emitted t u more → d.answers more = some e → u.res = .ok →
    hostBytes u.mem buf' 512 = hostBytes s.mem buf 512
end

