-- ==== Sys2Proof/Laws/State.lean ====
section
/-!
SUPPORT. What each record update of Machine/Ops.lean does to each field of the state.
-/

namespace Sys2Proof.Machine

/-! `transfer` (R140). -/

@[simp] theorem transfer_cfg (o i : Byte) (s : State) : (transfer o i s).cfg = s.cfg := rfl
@[simp] theorem transfer_ready (o i : Byte) (s : State) : (transfer o i s).ready = s.ready := rfl
@[simp] theorem transfer_fsm (o i : Byte) (s : State) : (transfer o i s).fsm = s.fsm := rfl
@[simp] theorem transfer_sectorCount (o i : Byte) (s : State) : (transfer o i s).sectorCount = s.sectorCount := rfl
@[simp] theorem transfer_sel (o i : Byte) (s : State) : (transfer o i s).sel = s.sel := rfl
@[simp] theorem transfer_busy (o i : Byte) (s : State) : (transfer o i s).busy = s.busy := rfl
@[simp] theorem transfer_txb (o i : Byte) (s : State) : (transfer o i s).txb = o := rfl
@[simp] theorem transfer_rxb (o i : Byte) (s : State) : (transfer o i s).rxb = i := rfl
@[simp] theorem transfer_opc (o i : Byte) (s : State) : (transfer o i s).opc = s.opc := rfl
@[simp] theorem transfer_arg (o i : Byte) (s : State) : (transfer o i s).arg = s.arg := rfl
@[simp] theorem transfer_frame (o i : Byte) (s : State) : (transfer o i s).frame = s.frame := rfl
@[simp] theorem transfer_crc (o i : Byte) (s : State) : (transfer o i s).crc = s.crc := rfl
@[simp] theorem transfer_r1 (o i : Byte) (s : State) : (transfer o i s).r1 = s.r1 := rfl
@[simp] theorem transfer_r7tail (o i : Byte) (s : State) : (transfer o i s).r7tail = s.r7tail := rfl
@[simp] theorem transfer_tok (o i : Byte) (s : State) : (transfer o i s).tok = s.tok := rfl
@[simp] theorem transfer_dresp (o i : Byte) (s : State) : (transfer o i s).dresp = s.dresp := rfl
@[simp] theorem transfer_busyb (o i : Byte) (s : State) : (transfer o i s).busyb = s.busyb := rfl
@[simp] theorem transfer_phase (o i : Byte) (s : State) : (transfer o i s).phase = s.phase := rfl
@[simp] theorem transfer_framei (o i : Byte) (s : State) : (transfer o i s).framei = s.framei := rfl
@[simp] theorem transfer_pollcnt (o i : Byte) (s : State) : (transfer o i s).pollcnt = s.pollcnt := rfl
@[simp] theorem transfer_retrycnt (o i : Byte) (s : State) : (transfer o i s).retrycnt = s.retrycnt := rfl
@[simp] theorem transfer_appcmd (o i : Byte) (s : State) : (transfer o i s).appcmd = s.appcmd := rfl
@[simp] theorem transfer_byteidx (o i : Byte) (s : State) : (transfer o i s).byteidx = s.byteidx := rfl
@[simp] theorem transfer_sectidx (o i : Byte) (s : State) : (transfer o i s).sectidx = s.sectidx := rfl
@[simp] theorem transfer_sectno (o i : Byte) (s : State) : (transfer o i s).sectno = s.sectno := rfl
@[simp] theorem transfer_loopidx (o i : Byte) (s : State) : (transfer o i s).loopidx = s.loopidx := rfl
@[simp] theorem transfer_running (o i : Byte) (s : State) : (transfer o i s).running = s.running := rfl
@[simp] theorem transfer_res (o i : Byte) (s : State) : (transfer o i s).res = s.res := rfl
@[simp] theorem transfer_out (o i : Byte) (s : State) : (transfer o i s).out = s.out := rfl
@[simp] theorem transfer_xcount (o i : Byte) (s : State) : (transfer o i s).xcount = s.xcount + 1 := rfl
@[simp] theorem transfer_trace (o i : Byte) (s : State) : (transfer o i s).trace = s.trace ++ [.xfer s.sel o i] := rfl
@[simp] theorem transfer_mem (o i : Byte) (s : State) : (transfer o i s).mem = s.mem := rfl
@[simp] theorem transfer_bufp (o i : Byte) (s : State) : (transfer o i s).bufp = s.bufp := rfl
@[simp] theorem transfer_port (o i : Byte) (s : State) : (transfer o i s).port = s.port := rfl
@[simp] theorem transfer_rst (o i : Byte) (s : State) : (transfer o i s).rst = s.rst := rfl
@[simp] theorem transfer_card (o i : Byte) (s : State) : (transfer o i s).card = s.card := rfl
@[simp] theorem transfer_draws (o i : Byte) (s : State) : (transfer o i s).draws = s.draws := rfl

/-! `select` (R141). -/

@[simp] theorem select_cfg (s : State) : (select s).cfg = s.cfg := rfl
@[simp] theorem select_ready (s : State) : (select s).ready = s.ready := rfl
@[simp] theorem select_fsm (s : State) : (select s).fsm = s.fsm := rfl
@[simp] theorem select_sectorCount (s : State) : (select s).sectorCount = s.sectorCount := rfl
@[simp] theorem select_sel (s : State) : (select s).sel = true := rfl
@[simp] theorem select_busy (s : State) : (select s).busy = s.busy := rfl
@[simp] theorem select_txb (s : State) : (select s).txb = s.txb := rfl
@[simp] theorem select_rxb (s : State) : (select s).rxb = s.rxb := rfl
@[simp] theorem select_opc (s : State) : (select s).opc = s.opc := rfl
@[simp] theorem select_arg (s : State) : (select s).arg = s.arg := rfl
@[simp] theorem select_frame (s : State) : (select s).frame = s.frame := rfl
@[simp] theorem select_crc (s : State) : (select s).crc = s.crc := rfl
@[simp] theorem select_r1 (s : State) : (select s).r1 = s.r1 := rfl
@[simp] theorem select_r7tail (s : State) : (select s).r7tail = s.r7tail := rfl
@[simp] theorem select_tok (s : State) : (select s).tok = s.tok := rfl
@[simp] theorem select_dresp (s : State) : (select s).dresp = s.dresp := rfl
@[simp] theorem select_busyb (s : State) : (select s).busyb = s.busyb := rfl
@[simp] theorem select_phase (s : State) : (select s).phase = s.phase := rfl
@[simp] theorem select_framei (s : State) : (select s).framei = s.framei := rfl
@[simp] theorem select_pollcnt (s : State) : (select s).pollcnt = s.pollcnt := rfl
@[simp] theorem select_retrycnt (s : State) : (select s).retrycnt = s.retrycnt := rfl
@[simp] theorem select_appcmd (s : State) : (select s).appcmd = s.appcmd := rfl
@[simp] theorem select_byteidx (s : State) : (select s).byteidx = s.byteidx := rfl
@[simp] theorem select_sectidx (s : State) : (select s).sectidx = s.sectidx := rfl
@[simp] theorem select_sectno (s : State) : (select s).sectno = s.sectno := rfl
@[simp] theorem select_loopidx (s : State) : (select s).loopidx = s.loopidx := rfl
@[simp] theorem select_running (s : State) : (select s).running = s.running := rfl
@[simp] theorem select_res (s : State) : (select s).res = s.res := rfl
@[simp] theorem select_out (s : State) : (select s).out = s.out := rfl
@[simp] theorem select_xcount (s : State) : (select s).xcount = s.xcount := rfl
@[simp] theorem select_trace (s : State) : (select s).trace = s.trace ++ [.sel] := rfl
@[simp] theorem select_mem (s : State) : (select s).mem = s.mem := rfl
@[simp] theorem select_bufp (s : State) : (select s).bufp = s.bufp := rfl
@[simp] theorem select_port (s : State) : (select s).port = s.port := rfl
@[simp] theorem select_rst (s : State) : (select s).rst = s.rst := rfl
@[simp] theorem select_card (s : State) : (select s).card = s.card := rfl
@[simp] theorem select_draws (s : State) : (select s).draws = s.draws := rfl

/-! `deselect` (R142). -/

@[simp] theorem deselect_cfg (s : State) : (deselect s).cfg = s.cfg := rfl
@[simp] theorem deselect_ready (s : State) : (deselect s).ready = s.ready := rfl
@[simp] theorem deselect_fsm (s : State) : (deselect s).fsm = s.fsm := rfl
@[simp] theorem deselect_sectorCount (s : State) : (deselect s).sectorCount = s.sectorCount := rfl
@[simp] theorem deselect_sel (s : State) : (deselect s).sel = false := rfl
@[simp] theorem deselect_busy (s : State) : (deselect s).busy = s.busy := rfl
@[simp] theorem deselect_txb (s : State) : (deselect s).txb = s.txb := rfl
@[simp] theorem deselect_rxb (s : State) : (deselect s).rxb = s.rxb := rfl
@[simp] theorem deselect_opc (s : State) : (deselect s).opc = s.opc := rfl
@[simp] theorem deselect_arg (s : State) : (deselect s).arg = s.arg := rfl
@[simp] theorem deselect_frame (s : State) : (deselect s).frame = s.frame := rfl
@[simp] theorem deselect_crc (s : State) : (deselect s).crc = s.crc := rfl
@[simp] theorem deselect_r1 (s : State) : (deselect s).r1 = s.r1 := rfl
@[simp] theorem deselect_r7tail (s : State) : (deselect s).r7tail = s.r7tail := rfl
@[simp] theorem deselect_tok (s : State) : (deselect s).tok = s.tok := rfl
@[simp] theorem deselect_dresp (s : State) : (deselect s).dresp = s.dresp := rfl
@[simp] theorem deselect_busyb (s : State) : (deselect s).busyb = s.busyb := rfl
@[simp] theorem deselect_phase (s : State) : (deselect s).phase = s.phase := rfl
@[simp] theorem deselect_framei (s : State) : (deselect s).framei = s.framei := rfl
@[simp] theorem deselect_pollcnt (s : State) : (deselect s).pollcnt = s.pollcnt := rfl
@[simp] theorem deselect_retrycnt (s : State) : (deselect s).retrycnt = s.retrycnt := rfl
@[simp] theorem deselect_appcmd (s : State) : (deselect s).appcmd = s.appcmd := rfl
@[simp] theorem deselect_byteidx (s : State) : (deselect s).byteidx = s.byteidx := rfl
@[simp] theorem deselect_sectidx (s : State) : (deselect s).sectidx = s.sectidx := rfl
@[simp] theorem deselect_sectno (s : State) : (deselect s).sectno = s.sectno := rfl
@[simp] theorem deselect_loopidx (s : State) : (deselect s).loopidx = s.loopidx := rfl
@[simp] theorem deselect_running (s : State) : (deselect s).running = s.running := rfl
@[simp] theorem deselect_res (s : State) : (deselect s).res = s.res := rfl
@[simp] theorem deselect_out (s : State) : (deselect s).out = s.out := rfl
@[simp] theorem deselect_xcount (s : State) : (deselect s).xcount = s.xcount := rfl
@[simp] theorem deselect_trace (s : State) : (deselect s).trace = s.trace ++ [.desel] := rfl
@[simp] theorem deselect_mem (s : State) : (deselect s).mem = s.mem := rfl
@[simp] theorem deselect_bufp (s : State) : (deselect s).bufp = s.bufp := rfl
@[simp] theorem deselect_port (s : State) : (deselect s).port = s.port := rfl
@[simp] theorem deselect_rst (s : State) : (deselect s).rst = s.rst := rfl
@[simp] theorem deselect_card (s : State) : (deselect s).card = s.card := rfl
@[simp] theorem deselect_draws (s : State) : (deselect s).draws = s.draws := rfl

/-! `sleep` (R207). -/

@[simp] theorem sleep_cfg (s : State) : (sleep s).cfg = s.cfg := rfl
@[simp] theorem sleep_ready (s : State) : (sleep s).ready = s.ready := rfl
@[simp] theorem sleep_fsm (s : State) : (sleep s).fsm = s.fsm := rfl
@[simp] theorem sleep_sectorCount (s : State) : (sleep s).sectorCount = s.sectorCount := rfl
@[simp] theorem sleep_sel (s : State) : (sleep s).sel = s.sel := rfl
@[simp] theorem sleep_busy (s : State) : (sleep s).busy = s.busy := rfl
@[simp] theorem sleep_txb (s : State) : (sleep s).txb = s.txb := rfl
@[simp] theorem sleep_rxb (s : State) : (sleep s).rxb = s.rxb := rfl
@[simp] theorem sleep_opc (s : State) : (sleep s).opc = s.opc := rfl
@[simp] theorem sleep_arg (s : State) : (sleep s).arg = s.arg := rfl
@[simp] theorem sleep_frame (s : State) : (sleep s).frame = s.frame := rfl
@[simp] theorem sleep_crc (s : State) : (sleep s).crc = s.crc := rfl
@[simp] theorem sleep_r1 (s : State) : (sleep s).r1 = s.r1 := rfl
@[simp] theorem sleep_r7tail (s : State) : (sleep s).r7tail = s.r7tail := rfl
@[simp] theorem sleep_tok (s : State) : (sleep s).tok = s.tok := rfl
@[simp] theorem sleep_dresp (s : State) : (sleep s).dresp = s.dresp := rfl
@[simp] theorem sleep_busyb (s : State) : (sleep s).busyb = s.busyb := rfl
@[simp] theorem sleep_phase (s : State) : (sleep s).phase = s.phase := rfl
@[simp] theorem sleep_framei (s : State) : (sleep s).framei = s.framei := rfl
@[simp] theorem sleep_pollcnt (s : State) : (sleep s).pollcnt = s.pollcnt := rfl
@[simp] theorem sleep_retrycnt (s : State) : (sleep s).retrycnt = s.retrycnt := rfl
@[simp] theorem sleep_appcmd (s : State) : (sleep s).appcmd = s.appcmd := rfl
@[simp] theorem sleep_byteidx (s : State) : (sleep s).byteidx = s.byteidx := rfl
@[simp] theorem sleep_sectidx (s : State) : (sleep s).sectidx = s.sectidx := rfl
@[simp] theorem sleep_sectno (s : State) : (sleep s).sectno = s.sectno := rfl
@[simp] theorem sleep_loopidx (s : State) : (sleep s).loopidx = s.loopidx := rfl
@[simp] theorem sleep_running (s : State) : (sleep s).running = s.running := rfl
@[simp] theorem sleep_res (s : State) : (sleep s).res = s.res := rfl
@[simp] theorem sleep_out (s : State) : (sleep s).out = s.out := rfl
@[simp] theorem sleep_xcount (s : State) : (sleep s).xcount = s.xcount := rfl
@[simp] theorem sleep_trace (s : State) : (sleep s).trace = s.trace ++ [.slept] := rfl
@[simp] theorem sleep_mem (s : State) : (sleep s).mem = s.mem := rfl
@[simp] theorem sleep_bufp (s : State) : (sleep s).bufp = s.bufp := rfl
@[simp] theorem sleep_port (s : State) : (sleep s).port = s.port := rfl
@[simp] theorem sleep_rst (s : State) : (sleep s).rst = s.rst := rfl
@[simp] theorem sleep_card (s : State) : (sleep s).card = s.card := rfl
@[simp] theorem sleep_draws (s : State) : (sleep s).draws = s.draws := rfl

/-! `startLoop`. -/

@[simp] theorem startLoop_cfg (s : State) : (startLoop s).cfg = s.cfg := rfl
@[simp] theorem startLoop_ready (s : State) : (startLoop s).ready = s.ready := rfl
@[simp] theorem startLoop_fsm (s : State) : (startLoop s).fsm = s.fsm := rfl
@[simp] theorem startLoop_sectorCount (s : State) : (startLoop s).sectorCount = s.sectorCount := rfl
@[simp] theorem startLoop_sel (s : State) : (startLoop s).sel = s.sel := rfl
@[simp] theorem startLoop_busy (s : State) : (startLoop s).busy = s.busy := rfl
@[simp] theorem startLoop_txb (s : State) : (startLoop s).txb = s.txb := rfl
@[simp] theorem startLoop_rxb (s : State) : (startLoop s).rxb = s.rxb := rfl
@[simp] theorem startLoop_opc (s : State) : (startLoop s).opc = s.opc := rfl
@[simp] theorem startLoop_arg (s : State) : (startLoop s).arg = s.arg := rfl
@[simp] theorem startLoop_frame (s : State) : (startLoop s).frame = s.frame := rfl
@[simp] theorem startLoop_crc (s : State) : (startLoop s).crc = s.crc := rfl
@[simp] theorem startLoop_r1 (s : State) : (startLoop s).r1 = s.r1 := rfl
@[simp] theorem startLoop_r7tail (s : State) : (startLoop s).r7tail = s.r7tail := rfl
@[simp] theorem startLoop_tok (s : State) : (startLoop s).tok = s.tok := rfl
@[simp] theorem startLoop_dresp (s : State) : (startLoop s).dresp = s.dresp := rfl
@[simp] theorem startLoop_busyb (s : State) : (startLoop s).busyb = s.busyb := rfl
@[simp] theorem startLoop_phase (s : State) : (startLoop s).phase = s.phase := rfl
@[simp] theorem startLoop_framei (s : State) : (startLoop s).framei = s.framei := rfl
@[simp] theorem startLoop_pollcnt (s : State) : (startLoop s).pollcnt = s.pollcnt := rfl
@[simp] theorem startLoop_retrycnt (s : State) : (startLoop s).retrycnt = s.retrycnt := rfl
@[simp] theorem startLoop_appcmd (s : State) : (startLoop s).appcmd = s.appcmd := rfl
@[simp] theorem startLoop_byteidx (s : State) : (startLoop s).byteidx = s.byteidx := rfl
@[simp] theorem startLoop_sectidx (s : State) : (startLoop s).sectidx = s.sectidx := rfl
@[simp] theorem startLoop_sectno (s : State) : (startLoop s).sectno = s.sectno := rfl
@[simp] theorem startLoop_loopidx (s : State) : (startLoop s).loopidx = 0 := rfl
@[simp] theorem startLoop_running (s : State) : (startLoop s).running = s.running := rfl
@[simp] theorem startLoop_res (s : State) : (startLoop s).res = s.res := rfl
@[simp] theorem startLoop_out (s : State) : (startLoop s).out = s.out := rfl
@[simp] theorem startLoop_xcount (s : State) : (startLoop s).xcount = s.xcount := rfl
@[simp] theorem startLoop_trace (s : State) : (startLoop s).trace = s.trace := rfl
@[simp] theorem startLoop_mem (s : State) : (startLoop s).mem = s.mem := rfl
@[simp] theorem startLoop_bufp (s : State) : (startLoop s).bufp = s.bufp := rfl
@[simp] theorem startLoop_port (s : State) : (startLoop s).port = s.port := rfl
@[simp] theorem startLoop_rst (s : State) : (startLoop s).rst = s.rst := rfl
@[simp] theorem startLoop_card (s : State) : (startLoop s).card = s.card := rfl
@[simp] theorem startLoop_draws (s : State) : (startLoop s).draws = s.draws := rfl

/-! `startPayload`. -/

@[simp] theorem startPayload_cfg (s : State) : (startPayload s).cfg = s.cfg := rfl
@[simp] theorem startPayload_ready (s : State) : (startPayload s).ready = s.ready := rfl
@[simp] theorem startPayload_fsm (s : State) : (startPayload s).fsm = s.fsm := rfl
@[simp] theorem startPayload_sectorCount (s : State) : (startPayload s).sectorCount = s.sectorCount := rfl
@[simp] theorem startPayload_sel (s : State) : (startPayload s).sel = s.sel := rfl
@[simp] theorem startPayload_busy (s : State) : (startPayload s).busy = s.busy := rfl
@[simp] theorem startPayload_txb (s : State) : (startPayload s).txb = s.txb := rfl
@[simp] theorem startPayload_rxb (s : State) : (startPayload s).rxb = s.rxb := rfl
@[simp] theorem startPayload_opc (s : State) : (startPayload s).opc = s.opc := rfl
@[simp] theorem startPayload_arg (s : State) : (startPayload s).arg = s.arg := rfl
@[simp] theorem startPayload_frame (s : State) : (startPayload s).frame = s.frame := rfl
@[simp] theorem startPayload_crc (s : State) : (startPayload s).crc = s.crc := rfl
@[simp] theorem startPayload_r1 (s : State) : (startPayload s).r1 = s.r1 := rfl
@[simp] theorem startPayload_r7tail (s : State) : (startPayload s).r7tail = s.r7tail := rfl
@[simp] theorem startPayload_tok (s : State) : (startPayload s).tok = s.tok := rfl
@[simp] theorem startPayload_dresp (s : State) : (startPayload s).dresp = s.dresp := rfl
@[simp] theorem startPayload_busyb (s : State) : (startPayload s).busyb = s.busyb := rfl
@[simp] theorem startPayload_phase (s : State) : (startPayload s).phase = s.phase := rfl
@[simp] theorem startPayload_framei (s : State) : (startPayload s).framei = s.framei := rfl
@[simp] theorem startPayload_pollcnt (s : State) : (startPayload s).pollcnt = s.pollcnt := rfl
@[simp] theorem startPayload_retrycnt (s : State) : (startPayload s).retrycnt = s.retrycnt := rfl
@[simp] theorem startPayload_appcmd (s : State) : (startPayload s).appcmd = s.appcmd := rfl
@[simp] theorem startPayload_byteidx (s : State) : (startPayload s).byteidx = 0 := rfl
@[simp] theorem startPayload_sectidx (s : State) : (startPayload s).sectidx = s.sectidx := rfl
@[simp] theorem startPayload_sectno (s : State) : (startPayload s).sectno = s.sectno := rfl
@[simp] theorem startPayload_loopidx (s : State) : (startPayload s).loopidx = s.loopidx := rfl
@[simp] theorem startPayload_running (s : State) : (startPayload s).running = s.running := rfl
@[simp] theorem startPayload_res (s : State) : (startPayload s).res = s.res := rfl
@[simp] theorem startPayload_out (s : State) : (startPayload s).out = s.out := rfl
@[simp] theorem startPayload_xcount (s : State) : (startPayload s).xcount = s.xcount := rfl
@[simp] theorem startPayload_trace (s : State) : (startPayload s).trace = s.trace := rfl
@[simp] theorem startPayload_mem (s : State) : (startPayload s).mem = s.mem := rfl
@[simp] theorem startPayload_bufp (s : State) : (startPayload s).bufp = s.bufp := rfl
@[simp] theorem startPayload_port (s : State) : (startPayload s).port = s.port := rfl
@[simp] theorem startPayload_rst (s : State) : (startPayload s).rst = s.rst := rfl
@[simp] theorem startPayload_card (s : State) : (startPayload s).card = s.card := rfl
@[simp] theorem startPayload_draws (s : State) : (startPayload s).draws = s.draws := rfl

/-! `atSector` (R29). -/

@[simp] theorem atSector_cfg (k : Nat) (s : State) : (atSector k s).cfg = s.cfg := rfl
@[simp] theorem atSector_ready (k : Nat) (s : State) : (atSector k s).ready = s.ready := rfl
@[simp] theorem atSector_fsm (k : Nat) (s : State) : (atSector k s).fsm = s.fsm := rfl
@[simp] theorem atSector_sectorCount (k : Nat) (s : State) : (atSector k s).sectorCount = s.sectorCount := rfl
@[simp] theorem atSector_sel (k : Nat) (s : State) : (atSector k s).sel = s.sel := rfl
@[simp] theorem atSector_busy (k : Nat) (s : State) : (atSector k s).busy = s.busy := rfl
@[simp] theorem atSector_txb (k : Nat) (s : State) : (atSector k s).txb = s.txb := rfl
@[simp] theorem atSector_rxb (k : Nat) (s : State) : (atSector k s).rxb = s.rxb := rfl
@[simp] theorem atSector_opc (k : Nat) (s : State) : (atSector k s).opc = s.opc := rfl
@[simp] theorem atSector_arg (k : Nat) (s : State) : (atSector k s).arg = s.arg := rfl
@[simp] theorem atSector_frame (k : Nat) (s : State) : (atSector k s).frame = s.frame := rfl
@[simp] theorem atSector_crc (k : Nat) (s : State) : (atSector k s).crc = s.crc := rfl
@[simp] theorem atSector_r1 (k : Nat) (s : State) : (atSector k s).r1 = s.r1 := rfl
@[simp] theorem atSector_r7tail (k : Nat) (s : State) : (atSector k s).r7tail = s.r7tail := rfl
@[simp] theorem atSector_tok (k : Nat) (s : State) : (atSector k s).tok = s.tok := rfl
@[simp] theorem atSector_dresp (k : Nat) (s : State) : (atSector k s).dresp = s.dresp := rfl
@[simp] theorem atSector_busyb (k : Nat) (s : State) : (atSector k s).busyb = s.busyb := rfl
@[simp] theorem atSector_phase (k : Nat) (s : State) : (atSector k s).phase = s.phase := rfl
@[simp] theorem atSector_framei (k : Nat) (s : State) : (atSector k s).framei = s.framei := rfl
@[simp] theorem atSector_pollcnt (k : Nat) (s : State) : (atSector k s).pollcnt = s.pollcnt := rfl
@[simp] theorem atSector_retrycnt (k : Nat) (s : State) : (atSector k s).retrycnt = s.retrycnt := rfl
@[simp] theorem atSector_appcmd (k : Nat) (s : State) : (atSector k s).appcmd = s.appcmd := rfl
@[simp] theorem atSector_byteidx (k : Nat) (s : State) : (atSector k s).byteidx = s.byteidx := rfl
@[simp] theorem atSector_sectidx (k : Nat) (s : State) : (atSector k s).sectidx = BitVec.ofNat 32 k := rfl
@[simp] theorem atSector_sectno (k : Nat) (s : State) : (atSector k s).sectno = k := rfl
@[simp] theorem atSector_loopidx (k : Nat) (s : State) : (atSector k s).loopidx = s.loopidx := rfl
@[simp] theorem atSector_running (k : Nat) (s : State) : (atSector k s).running = s.running := rfl
@[simp] theorem atSector_res (k : Nat) (s : State) : (atSector k s).res = s.res := rfl
@[simp] theorem atSector_out (k : Nat) (s : State) : (atSector k s).out = s.out := rfl
@[simp] theorem atSector_xcount (k : Nat) (s : State) : (atSector k s).xcount = s.xcount := rfl
@[simp] theorem atSector_trace (k : Nat) (s : State) : (atSector k s).trace = s.trace := rfl
@[simp] theorem atSector_mem (k : Nat) (s : State) : (atSector k s).mem = s.mem := rfl
@[simp] theorem atSector_bufp (k : Nat) (s : State) : (atSector k s).bufp = s.bufp := rfl
@[simp] theorem atSector_port (k : Nat) (s : State) : (atSector k s).port = s.port := rfl
@[simp] theorem atSector_rst (k : Nat) (s : State) : (atSector k s).rst = s.rst := rfl
@[simp] theorem atSector_card (k : Nat) (s : State) : (atSector k s).card = s.card := rfl
@[simp] theorem atSector_draws (k : Nat) (s : State) : (atSector k s).draws = s.draws := rfl

/-! `attachBuffer`. -/

@[simp] theorem attachBuffer_cfg (a : Nat) (s : State) : (attachBuffer a s).cfg = s.cfg := rfl
@[simp] theorem attachBuffer_ready (a : Nat) (s : State) : (attachBuffer a s).ready = s.ready := rfl
@[simp] theorem attachBuffer_fsm (a : Nat) (s : State) : (attachBuffer a s).fsm = s.fsm := rfl
@[simp] theorem attachBuffer_sectorCount (a : Nat) (s : State) : (attachBuffer a s).sectorCount = s.sectorCount := rfl
@[simp] theorem attachBuffer_sel (a : Nat) (s : State) : (attachBuffer a s).sel = s.sel := rfl
@[simp] theorem attachBuffer_busy (a : Nat) (s : State) : (attachBuffer a s).busy = s.busy := rfl
@[simp] theorem attachBuffer_txb (a : Nat) (s : State) : (attachBuffer a s).txb = s.txb := rfl
@[simp] theorem attachBuffer_rxb (a : Nat) (s : State) : (attachBuffer a s).rxb = s.rxb := rfl
@[simp] theorem attachBuffer_opc (a : Nat) (s : State) : (attachBuffer a s).opc = s.opc := rfl
@[simp] theorem attachBuffer_arg (a : Nat) (s : State) : (attachBuffer a s).arg = s.arg := rfl
@[simp] theorem attachBuffer_frame (a : Nat) (s : State) : (attachBuffer a s).frame = s.frame := rfl
@[simp] theorem attachBuffer_crc (a : Nat) (s : State) : (attachBuffer a s).crc = s.crc := rfl
@[simp] theorem attachBuffer_r1 (a : Nat) (s : State) : (attachBuffer a s).r1 = s.r1 := rfl
@[simp] theorem attachBuffer_r7tail (a : Nat) (s : State) : (attachBuffer a s).r7tail = s.r7tail := rfl
@[simp] theorem attachBuffer_tok (a : Nat) (s : State) : (attachBuffer a s).tok = s.tok := rfl
@[simp] theorem attachBuffer_dresp (a : Nat) (s : State) : (attachBuffer a s).dresp = s.dresp := rfl
@[simp] theorem attachBuffer_busyb (a : Nat) (s : State) : (attachBuffer a s).busyb = s.busyb := rfl
@[simp] theorem attachBuffer_phase (a : Nat) (s : State) : (attachBuffer a s).phase = s.phase := rfl
@[simp] theorem attachBuffer_framei (a : Nat) (s : State) : (attachBuffer a s).framei = s.framei := rfl
@[simp] theorem attachBuffer_pollcnt (a : Nat) (s : State) : (attachBuffer a s).pollcnt = s.pollcnt := rfl
@[simp] theorem attachBuffer_retrycnt (a : Nat) (s : State) : (attachBuffer a s).retrycnt = s.retrycnt := rfl
@[simp] theorem attachBuffer_appcmd (a : Nat) (s : State) : (attachBuffer a s).appcmd = s.appcmd := rfl
@[simp] theorem attachBuffer_byteidx (a : Nat) (s : State) : (attachBuffer a s).byteidx = s.byteidx := rfl
@[simp] theorem attachBuffer_sectidx (a : Nat) (s : State) : (attachBuffer a s).sectidx = s.sectidx := rfl
@[simp] theorem attachBuffer_sectno (a : Nat) (s : State) : (attachBuffer a s).sectno = s.sectno := rfl
@[simp] theorem attachBuffer_loopidx (a : Nat) (s : State) : (attachBuffer a s).loopidx = s.loopidx := rfl
@[simp] theorem attachBuffer_running (a : Nat) (s : State) : (attachBuffer a s).running = s.running := rfl
@[simp] theorem attachBuffer_res (a : Nat) (s : State) : (attachBuffer a s).res = s.res := rfl
@[simp] theorem attachBuffer_out (a : Nat) (s : State) : (attachBuffer a s).out = s.out := rfl
@[simp] theorem attachBuffer_xcount (a : Nat) (s : State) : (attachBuffer a s).xcount = s.xcount := rfl
@[simp] theorem attachBuffer_trace (a : Nat) (s : State) : (attachBuffer a s).trace = s.trace := rfl
@[simp] theorem attachBuffer_mem (a : Nat) (s : State) : (attachBuffer a s).mem = s.mem := rfl
@[simp] theorem attachBuffer_bufp (a : Nat) (s : State) : (attachBuffer a s).bufp = a := rfl
@[simp] theorem attachBuffer_port (a : Nat) (s : State) : (attachBuffer a s).port = s.port := rfl
@[simp] theorem attachBuffer_rst (a : Nat) (s : State) : (attachBuffer a s).rst = s.rst := rfl
@[simp] theorem attachBuffer_card (a : Nat) (s : State) : (attachBuffer a s).card = s.card := rfl
@[simp] theorem attachBuffer_draws (a : Nat) (s : State) : (attachBuffer a s).draws = s.draws := rfl

/-! `bufWrite` (R11). -/

@[simp] theorem bufWrite_cfg (i : Nat) (b : Byte) (s : State) : (bufWrite i b s).cfg = s.cfg := rfl
@[simp] theorem bufWrite_ready (i : Nat) (b : Byte) (s : State) : (bufWrite i b s).ready = s.ready := rfl
@[simp] theorem bufWrite_fsm (i : Nat) (b : Byte) (s : State) : (bufWrite i b s).fsm = s.fsm := rfl
@[simp] theorem bufWrite_sectorCount (i : Nat) (b : Byte) (s : State) : (bufWrite i b s).sectorCount = s.sectorCount := rfl
@[simp] theorem bufWrite_sel (i : Nat) (b : Byte) (s : State) : (bufWrite i b s).sel = s.sel := rfl
@[simp] theorem bufWrite_busy (i : Nat) (b : Byte) (s : State) : (bufWrite i b s).busy = s.busy := rfl
@[simp] theorem bufWrite_txb (i : Nat) (b : Byte) (s : State) : (bufWrite i b s).txb = s.txb := rfl
@[simp] theorem bufWrite_rxb (i : Nat) (b : Byte) (s : State) : (bufWrite i b s).rxb = s.rxb := rfl
@[simp] theorem bufWrite_opc (i : Nat) (b : Byte) (s : State) : (bufWrite i b s).opc = s.opc := rfl
@[simp] theorem bufWrite_arg (i : Nat) (b : Byte) (s : State) : (bufWrite i b s).arg = s.arg := rfl
@[simp] theorem bufWrite_frame (i : Nat) (b : Byte) (s : State) : (bufWrite i b s).frame = s.frame := rfl
@[simp] theorem bufWrite_crc (i : Nat) (b : Byte) (s : State) : (bufWrite i b s).crc = s.crc := rfl
@[simp] theorem bufWrite_r1 (i : Nat) (b : Byte) (s : State) : (bufWrite i b s).r1 = s.r1 := rfl
@[simp] theorem bufWrite_r7tail (i : Nat) (b : Byte) (s : State) : (bufWrite i b s).r7tail = s.r7tail := rfl
@[simp] theorem bufWrite_tok (i : Nat) (b : Byte) (s : State) : (bufWrite i b s).tok = s.tok := rfl
@[simp] theorem bufWrite_dresp (i : Nat) (b : Byte) (s : State) : (bufWrite i b s).dresp = s.dresp := rfl
@[simp] theorem bufWrite_busyb (i : Nat) (b : Byte) (s : State) : (bufWrite i b s).busyb = s.busyb := rfl
@[simp] theorem bufWrite_phase (i : Nat) (b : Byte) (s : State) : (bufWrite i b s).phase = s.phase := rfl
@[simp] theorem bufWrite_framei (i : Nat) (b : Byte) (s : State) : (bufWrite i b s).framei = s.framei := rfl
@[simp] theorem bufWrite_pollcnt (i : Nat) (b : Byte) (s : State) : (bufWrite i b s).pollcnt = s.pollcnt := rfl
@[simp] theorem bufWrite_retrycnt (i : Nat) (b : Byte) (s : State) : (bufWrite i b s).retrycnt = s.retrycnt := rfl
@[simp] theorem bufWrite_appcmd (i : Nat) (b : Byte) (s : State) : (bufWrite i b s).appcmd = s.appcmd := rfl
@[simp] theorem bufWrite_byteidx (i : Nat) (b : Byte) (s : State) : (bufWrite i b s).byteidx = s.byteidx := rfl
@[simp] theorem bufWrite_sectidx (i : Nat) (b : Byte) (s : State) : (bufWrite i b s).sectidx = s.sectidx := rfl
@[simp] theorem bufWrite_sectno (i : Nat) (b : Byte) (s : State) : (bufWrite i b s).sectno = s.sectno := rfl
@[simp] theorem bufWrite_loopidx (i : Nat) (b : Byte) (s : State) : (bufWrite i b s).loopidx = s.loopidx := rfl
@[simp] theorem bufWrite_running (i : Nat) (b : Byte) (s : State) : (bufWrite i b s).running = s.running := rfl
@[simp] theorem bufWrite_res (i : Nat) (b : Byte) (s : State) : (bufWrite i b s).res = s.res := rfl
@[simp] theorem bufWrite_out (i : Nat) (b : Byte) (s : State) : (bufWrite i b s).out = s.out := rfl
@[simp] theorem bufWrite_xcount (i : Nat) (b : Byte) (s : State) : (bufWrite i b s).xcount = s.xcount := rfl
@[simp] theorem bufWrite_trace (i : Nat) (b : Byte) (s : State) : (bufWrite i b s).trace = s.trace := rfl
@[simp] theorem bufWrite_mem (i : Nat) (b : Byte) (s : State) : (bufWrite i b s).mem = memWrite s.mem (s.bufp + i) b := rfl
@[simp] theorem bufWrite_bufp (i : Nat) (b : Byte) (s : State) : (bufWrite i b s).bufp = s.bufp := rfl
@[simp] theorem bufWrite_port (i : Nat) (b : Byte) (s : State) : (bufWrite i b s).port = s.port := rfl
@[simp] theorem bufWrite_rst (i : Nat) (b : Byte) (s : State) : (bufWrite i b s).rst = s.rst := rfl
@[simp] theorem bufWrite_card (i : Nat) (b : Byte) (s : State) : (bufWrite i b s).card = s.card := rfl
@[simp] theorem bufWrite_draws (i : Nat) (b : Byte) (s : State) : (bufWrite i b s).draws = s.draws := rfl

/-! `latchFrame` (R22). -/

@[simp] theorem latchFrame_cfg (o : U6) (a : U32) (f : Frame) (s : State) : (latchFrame o a f s).cfg = s.cfg := rfl
@[simp] theorem latchFrame_ready (o : U6) (a : U32) (f : Frame) (s : State) : (latchFrame o a f s).ready = s.ready := rfl
@[simp] theorem latchFrame_fsm (o : U6) (a : U32) (f : Frame) (s : State) : (latchFrame o a f s).fsm = s.fsm := rfl
@[simp] theorem latchFrame_sectorCount (o : U6) (a : U32) (f : Frame) (s : State) : (latchFrame o a f s).sectorCount = s.sectorCount := rfl
@[simp] theorem latchFrame_sel (o : U6) (a : U32) (f : Frame) (s : State) : (latchFrame o a f s).sel = s.sel := rfl
@[simp] theorem latchFrame_busy (o : U6) (a : U32) (f : Frame) (s : State) : (latchFrame o a f s).busy = s.busy := rfl
@[simp] theorem latchFrame_txb (o : U6) (a : U32) (f : Frame) (s : State) : (latchFrame o a f s).txb = s.txb := rfl
@[simp] theorem latchFrame_rxb (o : U6) (a : U32) (f : Frame) (s : State) : (latchFrame o a f s).rxb = s.rxb := rfl
@[simp] theorem latchFrame_opc (o : U6) (a : U32) (f : Frame) (s : State) : (latchFrame o a f s).opc = o := rfl
@[simp] theorem latchFrame_arg (o : U6) (a : U32) (f : Frame) (s : State) : (latchFrame o a f s).arg = a := rfl
@[simp] theorem latchFrame_frame (o : U6) (a : U32) (f : Frame) (s : State) : (latchFrame o a f s).frame = f := rfl
@[simp] theorem latchFrame_crc (o : U6) (a : U32) (f : Frame) (s : State) : (latchFrame o a f s).crc = s.crc := rfl
@[simp] theorem latchFrame_r1 (o : U6) (a : U32) (f : Frame) (s : State) : (latchFrame o a f s).r1 = s.r1 := rfl
@[simp] theorem latchFrame_r7tail (o : U6) (a : U32) (f : Frame) (s : State) : (latchFrame o a f s).r7tail = s.r7tail := rfl
@[simp] theorem latchFrame_tok (o : U6) (a : U32) (f : Frame) (s : State) : (latchFrame o a f s).tok = s.tok := rfl
@[simp] theorem latchFrame_dresp (o : U6) (a : U32) (f : Frame) (s : State) : (latchFrame o a f s).dresp = s.dresp := rfl
@[simp] theorem latchFrame_busyb (o : U6) (a : U32) (f : Frame) (s : State) : (latchFrame o a f s).busyb = s.busyb := rfl
@[simp] theorem latchFrame_phase (o : U6) (a : U32) (f : Frame) (s : State) : (latchFrame o a f s).phase = s.phase := rfl
@[simp] theorem latchFrame_framei (o : U6) (a : U32) (f : Frame) (s : State) : (latchFrame o a f s).framei = 0 := rfl
@[simp] theorem latchFrame_pollcnt (o : U6) (a : U32) (f : Frame) (s : State) : (latchFrame o a f s).pollcnt = 0 := rfl
@[simp] theorem latchFrame_retrycnt (o : U6) (a : U32) (f : Frame) (s : State) : (latchFrame o a f s).retrycnt = s.retrycnt := rfl
@[simp] theorem latchFrame_appcmd (o : U6) (a : U32) (f : Frame) (s : State) : (latchFrame o a f s).appcmd = s.appcmd := rfl
@[simp] theorem latchFrame_byteidx (o : U6) (a : U32) (f : Frame) (s : State) : (latchFrame o a f s).byteidx = s.byteidx := rfl
@[simp] theorem latchFrame_sectidx (o : U6) (a : U32) (f : Frame) (s : State) : (latchFrame o a f s).sectidx = s.sectidx := rfl
@[simp] theorem latchFrame_sectno (o : U6) (a : U32) (f : Frame) (s : State) : (latchFrame o a f s).sectno = s.sectno := rfl
@[simp] theorem latchFrame_loopidx (o : U6) (a : U32) (f : Frame) (s : State) : (latchFrame o a f s).loopidx = s.loopidx := rfl
@[simp] theorem latchFrame_running (o : U6) (a : U32) (f : Frame) (s : State) : (latchFrame o a f s).running = s.running := rfl
@[simp] theorem latchFrame_res (o : U6) (a : U32) (f : Frame) (s : State) : (latchFrame o a f s).res = s.res := rfl
@[simp] theorem latchFrame_out (o : U6) (a : U32) (f : Frame) (s : State) : (latchFrame o a f s).out = s.out := rfl
@[simp] theorem latchFrame_xcount (o : U6) (a : U32) (f : Frame) (s : State) : (latchFrame o a f s).xcount = s.xcount := rfl
@[simp] theorem latchFrame_trace (o : U6) (a : U32) (f : Frame) (s : State) : (latchFrame o a f s).trace = s.trace := rfl
@[simp] theorem latchFrame_mem (o : U6) (a : U32) (f : Frame) (s : State) : (latchFrame o a f s).mem = s.mem := rfl
@[simp] theorem latchFrame_bufp (o : U6) (a : U32) (f : Frame) (s : State) : (latchFrame o a f s).bufp = s.bufp := rfl
@[simp] theorem latchFrame_port (o : U6) (a : U32) (f : Frame) (s : State) : (latchFrame o a f s).port = s.port := rfl
@[simp] theorem latchFrame_rst (o : U6) (a : U32) (f : Frame) (s : State) : (latchFrame o a f s).rst = s.rst := rfl
@[simp] theorem latchFrame_card (o : U6) (a : U32) (f : Frame) (s : State) : (latchFrame o a f s).card = s.card := rfl
@[simp] theorem latchFrame_draws (o : U6) (a : U32) (f : Frame) (s : State) : (latchFrame o a f s).draws = s.draws := rfl

/-! `latchCommand` (R182). -/

@[simp] theorem latchCommand_cfg (o : U6) (a : U32) (s : State) : (latchCommand o a s).cfg = s.cfg := rfl
@[simp] theorem latchCommand_ready (o : U6) (a : U32) (s : State) : (latchCommand o a s).ready = s.ready := rfl
@[simp] theorem latchCommand_fsm (o : U6) (a : U32) (s : State) : (latchCommand o a s).fsm = s.fsm := rfl
@[simp] theorem latchCommand_sectorCount (o : U6) (a : U32) (s : State) : (latchCommand o a s).sectorCount = s.sectorCount := rfl
@[simp] theorem latchCommand_sel (o : U6) (a : U32) (s : State) : (latchCommand o a s).sel = s.sel := rfl
@[simp] theorem latchCommand_busy (o : U6) (a : U32) (s : State) : (latchCommand o a s).busy = s.busy := rfl
@[simp] theorem latchCommand_txb (o : U6) (a : U32) (s : State) : (latchCommand o a s).txb = s.txb := rfl
@[simp] theorem latchCommand_rxb (o : U6) (a : U32) (s : State) : (latchCommand o a s).rxb = s.rxb := rfl
@[simp] theorem latchCommand_opc (o : U6) (a : U32) (s : State) : (latchCommand o a s).opc = o := rfl
@[simp] theorem latchCommand_arg (o : U6) (a : U32) (s : State) : (latchCommand o a s).arg = a := rfl
@[simp] theorem latchCommand_frame (o : U6) (a : U32) (s : State) : (latchCommand o a s).frame = commandFrame s.cfg o a := rfl
@[simp] theorem latchCommand_crc (o : U6) (a : U32) (s : State) : (latchCommand o a s).crc = if crcComputed s.cfg o then crc7 (frameHead o a) else s.crc := rfl
@[simp] theorem latchCommand_r1 (o : U6) (a : U32) (s : State) : (latchCommand o a s).r1 = s.r1 := rfl
@[simp] theorem latchCommand_r7tail (o : U6) (a : U32) (s : State) : (latchCommand o a s).r7tail = s.r7tail := rfl
@[simp] theorem latchCommand_tok (o : U6) (a : U32) (s : State) : (latchCommand o a s).tok = s.tok := rfl
@[simp] theorem latchCommand_dresp (o : U6) (a : U32) (s : State) : (latchCommand o a s).dresp = s.dresp := rfl
@[simp] theorem latchCommand_busyb (o : U6) (a : U32) (s : State) : (latchCommand o a s).busyb = s.busyb := rfl
@[simp] theorem latchCommand_phase (o : U6) (a : U32) (s : State) : (latchCommand o a s).phase = s.phase := rfl
@[simp] theorem latchCommand_framei (o : U6) (a : U32) (s : State) : (latchCommand o a s).framei = 0 := rfl
@[simp] theorem latchCommand_pollcnt (o : U6) (a : U32) (s : State) : (latchCommand o a s).pollcnt = 0 := rfl
@[simp] theorem latchCommand_retrycnt (o : U6) (a : U32) (s : State) : (latchCommand o a s).retrycnt = s.retrycnt := rfl
@[simp] theorem latchCommand_appcmd (o : U6) (a : U32) (s : State) : (latchCommand o a s).appcmd = s.appcmd := rfl
@[simp] theorem latchCommand_byteidx (o : U6) (a : U32) (s : State) : (latchCommand o a s).byteidx = s.byteidx := rfl
@[simp] theorem latchCommand_sectidx (o : U6) (a : U32) (s : State) : (latchCommand o a s).sectidx = s.sectidx := rfl
@[simp] theorem latchCommand_sectno (o : U6) (a : U32) (s : State) : (latchCommand o a s).sectno = s.sectno := rfl
@[simp] theorem latchCommand_loopidx (o : U6) (a : U32) (s : State) : (latchCommand o a s).loopidx = s.loopidx := rfl
@[simp] theorem latchCommand_running (o : U6) (a : U32) (s : State) : (latchCommand o a s).running = s.running := rfl
@[simp] theorem latchCommand_res (o : U6) (a : U32) (s : State) : (latchCommand o a s).res = s.res := rfl
@[simp] theorem latchCommand_out (o : U6) (a : U32) (s : State) : (latchCommand o a s).out = s.out := rfl
@[simp] theorem latchCommand_xcount (o : U6) (a : U32) (s : State) : (latchCommand o a s).xcount = s.xcount := rfl
@[simp] theorem latchCommand_trace (o : U6) (a : U32) (s : State) : (latchCommand o a s).trace = s.trace := rfl
@[simp] theorem latchCommand_mem (o : U6) (a : U32) (s : State) : (latchCommand o a s).mem = s.mem := rfl
@[simp] theorem latchCommand_bufp (o : U6) (a : U32) (s : State) : (latchCommand o a s).bufp = s.bufp := rfl
@[simp] theorem latchCommand_port (o : U6) (a : U32) (s : State) : (latchCommand o a s).port = s.port := rfl
@[simp] theorem latchCommand_rst (o : U6) (a : U32) (s : State) : (latchCommand o a s).rst = s.rst := rfl
@[simp] theorem latchCommand_card (o : U6) (a : U32) (s : State) : (latchCommand o a s).card = s.card := rfl
@[simp] theorem latchCommand_draws (o : U6) (a : U32) (s : State) : (latchCommand o a s).draws = s.draws := rfl

/-! `noteAppCmd`. -/

@[simp] theorem noteAppCmd_cfg (b : Bool) (s : State) : (noteAppCmd b s).cfg = s.cfg := rfl
@[simp] theorem noteAppCmd_ready (b : Bool) (s : State) : (noteAppCmd b s).ready = s.ready := rfl
@[simp] theorem noteAppCmd_fsm (b : Bool) (s : State) : (noteAppCmd b s).fsm = s.fsm := rfl
@[simp] theorem noteAppCmd_sectorCount (b : Bool) (s : State) : (noteAppCmd b s).sectorCount = s.sectorCount := rfl
@[simp] theorem noteAppCmd_sel (b : Bool) (s : State) : (noteAppCmd b s).sel = s.sel := rfl
@[simp] theorem noteAppCmd_busy (b : Bool) (s : State) : (noteAppCmd b s).busy = s.busy := rfl
@[simp] theorem noteAppCmd_txb (b : Bool) (s : State) : (noteAppCmd b s).txb = s.txb := rfl
@[simp] theorem noteAppCmd_rxb (b : Bool) (s : State) : (noteAppCmd b s).rxb = s.rxb := rfl
@[simp] theorem noteAppCmd_opc (b : Bool) (s : State) : (noteAppCmd b s).opc = s.opc := rfl
@[simp] theorem noteAppCmd_arg (b : Bool) (s : State) : (noteAppCmd b s).arg = s.arg := rfl
@[simp] theorem noteAppCmd_frame (b : Bool) (s : State) : (noteAppCmd b s).frame = s.frame := rfl
@[simp] theorem noteAppCmd_crc (b : Bool) (s : State) : (noteAppCmd b s).crc = s.crc := rfl
@[simp] theorem noteAppCmd_r1 (b : Bool) (s : State) : (noteAppCmd b s).r1 = s.r1 := rfl
@[simp] theorem noteAppCmd_r7tail (b : Bool) (s : State) : (noteAppCmd b s).r7tail = s.r7tail := rfl
@[simp] theorem noteAppCmd_tok (b : Bool) (s : State) : (noteAppCmd b s).tok = s.tok := rfl
@[simp] theorem noteAppCmd_dresp (b : Bool) (s : State) : (noteAppCmd b s).dresp = s.dresp := rfl
@[simp] theorem noteAppCmd_busyb (b : Bool) (s : State) : (noteAppCmd b s).busyb = s.busyb := rfl
@[simp] theorem noteAppCmd_phase (b : Bool) (s : State) : (noteAppCmd b s).phase = s.phase := rfl
@[simp] theorem noteAppCmd_framei (b : Bool) (s : State) : (noteAppCmd b s).framei = s.framei := rfl
@[simp] theorem noteAppCmd_pollcnt (b : Bool) (s : State) : (noteAppCmd b s).pollcnt = s.pollcnt := rfl
@[simp] theorem noteAppCmd_retrycnt (b : Bool) (s : State) : (noteAppCmd b s).retrycnt = s.retrycnt := rfl
@[simp] theorem noteAppCmd_appcmd (b : Bool) (s : State) : (noteAppCmd b s).appcmd = b := rfl
@[simp] theorem noteAppCmd_byteidx (b : Bool) (s : State) : (noteAppCmd b s).byteidx = s.byteidx := rfl
@[simp] theorem noteAppCmd_sectidx (b : Bool) (s : State) : (noteAppCmd b s).sectidx = s.sectidx := rfl
@[simp] theorem noteAppCmd_sectno (b : Bool) (s : State) : (noteAppCmd b s).sectno = s.sectno := rfl
@[simp] theorem noteAppCmd_loopidx (b : Bool) (s : State) : (noteAppCmd b s).loopidx = s.loopidx := rfl
@[simp] theorem noteAppCmd_running (b : Bool) (s : State) : (noteAppCmd b s).running = s.running := rfl
@[simp] theorem noteAppCmd_res (b : Bool) (s : State) : (noteAppCmd b s).res = s.res := rfl
@[simp] theorem noteAppCmd_out (b : Bool) (s : State) : (noteAppCmd b s).out = s.out := rfl
@[simp] theorem noteAppCmd_xcount (b : Bool) (s : State) : (noteAppCmd b s).xcount = s.xcount := rfl
@[simp] theorem noteAppCmd_trace (b : Bool) (s : State) : (noteAppCmd b s).trace = s.trace := rfl
@[simp] theorem noteAppCmd_mem (b : Bool) (s : State) : (noteAppCmd b s).mem = s.mem := rfl
@[simp] theorem noteAppCmd_bufp (b : Bool) (s : State) : (noteAppCmd b s).bufp = s.bufp := rfl
@[simp] theorem noteAppCmd_port (b : Bool) (s : State) : (noteAppCmd b s).port = s.port := rfl
@[simp] theorem noteAppCmd_rst (b : Bool) (s : State) : (noteAppCmd b s).rst = s.rst := rfl
@[simp] theorem noteAppCmd_card (b : Bool) (s : State) : (noteAppCmd b s).card = s.card := rfl
@[simp] theorem noteAppCmd_draws (b : Bool) (s : State) : (noteAppCmd b s).draws = s.draws := rfl

/-! `nextAttempt` (R206). -/

@[simp] theorem nextAttempt_cfg (s : State) : (nextAttempt s).cfg = s.cfg := rfl
@[simp] theorem nextAttempt_ready (s : State) : (nextAttempt s).ready = s.ready := rfl
@[simp] theorem nextAttempt_fsm (s : State) : (nextAttempt s).fsm = s.fsm := rfl
@[simp] theorem nextAttempt_sectorCount (s : State) : (nextAttempt s).sectorCount = s.sectorCount := rfl
@[simp] theorem nextAttempt_sel (s : State) : (nextAttempt s).sel = s.sel := rfl
@[simp] theorem nextAttempt_busy (s : State) : (nextAttempt s).busy = s.busy := rfl
@[simp] theorem nextAttempt_txb (s : State) : (nextAttempt s).txb = s.txb := rfl
@[simp] theorem nextAttempt_rxb (s : State) : (nextAttempt s).rxb = s.rxb := rfl
@[simp] theorem nextAttempt_opc (s : State) : (nextAttempt s).opc = s.opc := rfl
@[simp] theorem nextAttempt_arg (s : State) : (nextAttempt s).arg = s.arg := rfl
@[simp] theorem nextAttempt_frame (s : State) : (nextAttempt s).frame = s.frame := rfl
@[simp] theorem nextAttempt_crc (s : State) : (nextAttempt s).crc = s.crc := rfl
@[simp] theorem nextAttempt_r1 (s : State) : (nextAttempt s).r1 = s.r1 := rfl
@[simp] theorem nextAttempt_r7tail (s : State) : (nextAttempt s).r7tail = s.r7tail := rfl
@[simp] theorem nextAttempt_tok (s : State) : (nextAttempt s).tok = s.tok := rfl
@[simp] theorem nextAttempt_dresp (s : State) : (nextAttempt s).dresp = s.dresp := rfl
@[simp] theorem nextAttempt_busyb (s : State) : (nextAttempt s).busyb = s.busyb := rfl
@[simp] theorem nextAttempt_phase (s : State) : (nextAttempt s).phase = s.phase := rfl
@[simp] theorem nextAttempt_framei (s : State) : (nextAttempt s).framei = s.framei := rfl
@[simp] theorem nextAttempt_pollcnt (s : State) : (nextAttempt s).pollcnt = s.pollcnt := rfl
@[simp] theorem nextAttempt_retrycnt (s : State) : (nextAttempt s).retrycnt = s.retrycnt + 1 := rfl
@[simp] theorem nextAttempt_appcmd (s : State) : (nextAttempt s).appcmd = true := rfl
@[simp] theorem nextAttempt_byteidx (s : State) : (nextAttempt s).byteidx = s.byteidx := rfl
@[simp] theorem nextAttempt_sectidx (s : State) : (nextAttempt s).sectidx = s.sectidx := rfl
@[simp] theorem nextAttempt_sectno (s : State) : (nextAttempt s).sectno = s.sectno := rfl
@[simp] theorem nextAttempt_loopidx (s : State) : (nextAttempt s).loopidx = s.loopidx := rfl
@[simp] theorem nextAttempt_running (s : State) : (nextAttempt s).running = s.running := rfl
@[simp] theorem nextAttempt_res (s : State) : (nextAttempt s).res = s.res := rfl
@[simp] theorem nextAttempt_out (s : State) : (nextAttempt s).out = s.out := rfl
@[simp] theorem nextAttempt_xcount (s : State) : (nextAttempt s).xcount = s.xcount := rfl
@[simp] theorem nextAttempt_trace (s : State) : (nextAttempt s).trace = s.trace := rfl
@[simp] theorem nextAttempt_mem (s : State) : (nextAttempt s).mem = s.mem := rfl
@[simp] theorem nextAttempt_bufp (s : State) : (nextAttempt s).bufp = s.bufp := rfl
@[simp] theorem nextAttempt_port (s : State) : (nextAttempt s).port = s.port := rfl
@[simp] theorem nextAttempt_rst (s : State) : (nextAttempt s).rst = s.rst := rfl
@[simp] theorem nextAttempt_card (s : State) : (nextAttempt s).card = s.card := rfl
@[simp] theorem nextAttempt_draws (s : State) : (nextAttempt s).draws = s.draws := rfl

/-! `deliverValue` (R318). -/

@[simp] theorem deliverValue_cfg (v : Delivered) (s : State) : (deliverValue v s).cfg = s.cfg := rfl
@[simp] theorem deliverValue_ready (v : Delivered) (s : State) : (deliverValue v s).ready = s.ready := rfl
@[simp] theorem deliverValue_fsm (v : Delivered) (s : State) : (deliverValue v s).fsm = s.fsm := rfl
@[simp] theorem deliverValue_sectorCount (v : Delivered) (s : State) : (deliverValue v s).sectorCount = s.sectorCount := rfl
@[simp] theorem deliverValue_sel (v : Delivered) (s : State) : (deliverValue v s).sel = s.sel := rfl
@[simp] theorem deliverValue_busy (v : Delivered) (s : State) : (deliverValue v s).busy = false := rfl
@[simp] theorem deliverValue_txb (v : Delivered) (s : State) : (deliverValue v s).txb = s.txb := rfl
@[simp] theorem deliverValue_rxb (v : Delivered) (s : State) : (deliverValue v s).rxb = s.rxb := rfl
@[simp] theorem deliverValue_opc (v : Delivered) (s : State) : (deliverValue v s).opc = s.opc := rfl
@[simp] theorem deliverValue_arg (v : Delivered) (s : State) : (deliverValue v s).arg = s.arg := rfl
@[simp] theorem deliverValue_frame (v : Delivered) (s : State) : (deliverValue v s).frame = s.frame := rfl
@[simp] theorem deliverValue_crc (v : Delivered) (s : State) : (deliverValue v s).crc = s.crc := rfl
@[simp] theorem deliverValue_r1 (v : Delivered) (s : State) : (deliverValue v s).r1 = s.r1 := rfl
@[simp] theorem deliverValue_r7tail (v : Delivered) (s : State) : (deliverValue v s).r7tail = s.r7tail := rfl
@[simp] theorem deliverValue_tok (v : Delivered) (s : State) : (deliverValue v s).tok = s.tok := rfl
@[simp] theorem deliverValue_dresp (v : Delivered) (s : State) : (deliverValue v s).dresp = s.dresp := rfl
@[simp] theorem deliverValue_busyb (v : Delivered) (s : State) : (deliverValue v s).busyb = s.busyb := rfl
@[simp] theorem deliverValue_phase (v : Delivered) (s : State) : (deliverValue v s).phase = .idle := rfl
@[simp] theorem deliverValue_framei (v : Delivered) (s : State) : (deliverValue v s).framei = s.framei := rfl
@[simp] theorem deliverValue_pollcnt (v : Delivered) (s : State) : (deliverValue v s).pollcnt = s.pollcnt := rfl
@[simp] theorem deliverValue_retrycnt (v : Delivered) (s : State) : (deliverValue v s).retrycnt = s.retrycnt := rfl
@[simp] theorem deliverValue_appcmd (v : Delivered) (s : State) : (deliverValue v s).appcmd = s.appcmd := rfl
@[simp] theorem deliverValue_byteidx (v : Delivered) (s : State) : (deliverValue v s).byteidx = s.byteidx := rfl
@[simp] theorem deliverValue_sectidx (v : Delivered) (s : State) : (deliverValue v s).sectidx = s.sectidx := rfl
@[simp] theorem deliverValue_sectno (v : Delivered) (s : State) : (deliverValue v s).sectno = s.sectno := rfl
@[simp] theorem deliverValue_loopidx (v : Delivered) (s : State) : (deliverValue v s).loopidx = s.loopidx := rfl
@[simp] theorem deliverValue_running (v : Delivered) (s : State) : (deliverValue v s).running = none := rfl
@[simp] theorem deliverValue_res (v : Delivered) (s : State) : (deliverValue v s).res = s.res := rfl
@[simp] theorem deliverValue_out (v : Delivered) (s : State) : (deliverValue v s).out = v := rfl
@[simp] theorem deliverValue_xcount (v : Delivered) (s : State) : (deliverValue v s).xcount = s.xcount := rfl
@[simp] theorem deliverValue_trace (v : Delivered) (s : State) : (deliverValue v s).trace = s.trace := rfl
@[simp] theorem deliverValue_mem (v : Delivered) (s : State) : (deliverValue v s).mem = s.mem := rfl
@[simp] theorem deliverValue_bufp (v : Delivered) (s : State) : (deliverValue v s).bufp = s.bufp := rfl
@[simp] theorem deliverValue_port (v : Delivered) (s : State) : (deliverValue v s).port = s.port := rfl
@[simp] theorem deliverValue_rst (v : Delivered) (s : State) : (deliverValue v s).rst = s.rst := rfl
@[simp] theorem deliverValue_card (v : Delivered) (s : State) : (deliverValue v s).card = s.card := rfl
@[simp] theorem deliverValue_draws (v : Delivered) (s : State) : (deliverValue v s).draws = s.draws := rfl

/-! `fixCapacity` (R209). -/

@[simp] theorem fixCapacity_cfg (s : State) : (fixCapacity s).cfg = s.cfg := rfl
@[simp] theorem fixCapacity_ready (s : State) : (fixCapacity s).ready = true := rfl
@[simp] theorem fixCapacity_fsm (s : State) : (fixCapacity s).fsm = .ready := rfl
@[simp] theorem fixCapacity_sectorCount (s : State) : (fixCapacity s).sectorCount = s.cfg.sectorCountFixed := rfl
@[simp] theorem fixCapacity_sel (s : State) : (fixCapacity s).sel = s.sel := rfl
@[simp] theorem fixCapacity_busy (s : State) : (fixCapacity s).busy = s.busy := rfl
@[simp] theorem fixCapacity_txb (s : State) : (fixCapacity s).txb = s.txb := rfl
@[simp] theorem fixCapacity_rxb (s : State) : (fixCapacity s).rxb = s.rxb := rfl
@[simp] theorem fixCapacity_opc (s : State) : (fixCapacity s).opc = s.opc := rfl
@[simp] theorem fixCapacity_arg (s : State) : (fixCapacity s).arg = s.arg := rfl
@[simp] theorem fixCapacity_frame (s : State) : (fixCapacity s).frame = s.frame := rfl
@[simp] theorem fixCapacity_crc (s : State) : (fixCapacity s).crc = s.crc := rfl
@[simp] theorem fixCapacity_r1 (s : State) : (fixCapacity s).r1 = s.r1 := rfl
@[simp] theorem fixCapacity_r7tail (s : State) : (fixCapacity s).r7tail = s.r7tail := rfl
@[simp] theorem fixCapacity_tok (s : State) : (fixCapacity s).tok = s.tok := rfl
@[simp] theorem fixCapacity_dresp (s : State) : (fixCapacity s).dresp = s.dresp := rfl
@[simp] theorem fixCapacity_busyb (s : State) : (fixCapacity s).busyb = s.busyb := rfl
@[simp] theorem fixCapacity_phase (s : State) : (fixCapacity s).phase = s.phase := rfl
@[simp] theorem fixCapacity_framei (s : State) : (fixCapacity s).framei = s.framei := rfl
@[simp] theorem fixCapacity_pollcnt (s : State) : (fixCapacity s).pollcnt = s.pollcnt := rfl
@[simp] theorem fixCapacity_retrycnt (s : State) : (fixCapacity s).retrycnt = s.retrycnt := rfl
@[simp] theorem fixCapacity_appcmd (s : State) : (fixCapacity s).appcmd = s.appcmd := rfl
@[simp] theorem fixCapacity_byteidx (s : State) : (fixCapacity s).byteidx = s.byteidx := rfl
@[simp] theorem fixCapacity_sectidx (s : State) : (fixCapacity s).sectidx = s.sectidx := rfl
@[simp] theorem fixCapacity_sectno (s : State) : (fixCapacity s).sectno = s.sectno := rfl
@[simp] theorem fixCapacity_loopidx (s : State) : (fixCapacity s).loopidx = s.loopidx := rfl
@[simp] theorem fixCapacity_running (s : State) : (fixCapacity s).running = s.running := rfl
@[simp] theorem fixCapacity_res (s : State) : (fixCapacity s).res = s.res := rfl
@[simp] theorem fixCapacity_out (s : State) : (fixCapacity s).out = s.out := rfl
@[simp] theorem fixCapacity_xcount (s : State) : (fixCapacity s).xcount = s.xcount := rfl
@[simp] theorem fixCapacity_trace (s : State) : (fixCapacity s).trace = s.trace := rfl
@[simp] theorem fixCapacity_mem (s : State) : (fixCapacity s).mem = s.mem := rfl
@[simp] theorem fixCapacity_bufp (s : State) : (fixCapacity s).bufp = s.bufp := rfl
@[simp] theorem fixCapacity_port (s : State) : (fixCapacity s).port = s.port := rfl
@[simp] theorem fixCapacity_rst (s : State) : (fixCapacity s).rst = s.rst := rfl
@[simp] theorem fixCapacity_card (s : State) : (fixCapacity s).card = s.card := rfl
@[simp] theorem fixCapacity_draws (s : State) : (fixCapacity s).draws = s.draws := rfl

/-! `started` (R38). -/

@[simp] theorem started_cfg (j : Instr) (s : State) : (started j s).cfg = s.cfg := rfl
@[simp] theorem started_ready (j : Instr) (s : State) : (started j s).ready = s.ready := rfl
@[simp] theorem started_fsm (j : Instr) (s : State) : (started j s).fsm = s.fsm := rfl
@[simp] theorem started_sectorCount (j : Instr) (s : State) : (started j s).sectorCount = s.sectorCount := rfl
@[simp] theorem started_sel (j : Instr) (s : State) : (started j s).sel = s.sel := rfl
@[simp] theorem started_busy (j : Instr) (s : State) : (started j s).busy = true := rfl
@[simp] theorem started_txb (j : Instr) (s : State) : (started j s).txb = s.txb := rfl
@[simp] theorem started_rxb (j : Instr) (s : State) : (started j s).rxb = s.rxb := rfl
@[simp] theorem started_opc (j : Instr) (s : State) : (started j s).opc = s.opc := rfl
@[simp] theorem started_arg (j : Instr) (s : State) : (started j s).arg = s.arg := rfl
@[simp] theorem started_frame (j : Instr) (s : State) : (started j s).frame = s.frame := rfl
@[simp] theorem started_crc (j : Instr) (s : State) : (started j s).crc = s.crc := rfl
@[simp] theorem started_r1 (j : Instr) (s : State) : (started j s).r1 = s.r1 := rfl
@[simp] theorem started_r7tail (j : Instr) (s : State) : (started j s).r7tail = s.r7tail := rfl
@[simp] theorem started_tok (j : Instr) (s : State) : (started j s).tok = s.tok := rfl
@[simp] theorem started_dresp (j : Instr) (s : State) : (started j s).dresp = s.dresp := rfl
@[simp] theorem started_busyb (j : Instr) (s : State) : (started j s).busyb = s.busyb := rfl
@[simp] theorem started_phase (j : Instr) (s : State) : (started j s).phase = s.phase := rfl
@[simp] theorem started_framei (j : Instr) (s : State) : (started j s).framei = s.framei := rfl
@[simp] theorem started_pollcnt (j : Instr) (s : State) : (started j s).pollcnt = s.pollcnt := rfl
@[simp] theorem started_retrycnt (j : Instr) (s : State) : (started j s).retrycnt = s.retrycnt := rfl
@[simp] theorem started_appcmd (j : Instr) (s : State) : (started j s).appcmd = s.appcmd := rfl
@[simp] theorem started_byteidx (j : Instr) (s : State) : (started j s).byteidx = s.byteidx := rfl
@[simp] theorem started_sectidx (j : Instr) (s : State) : (started j s).sectidx = s.sectidx := rfl
@[simp] theorem started_sectno (j : Instr) (s : State) : (started j s).sectno = s.sectno := rfl
@[simp] theorem started_loopidx (j : Instr) (s : State) : (started j s).loopidx = s.loopidx := rfl
@[simp] theorem started_running (j : Instr) (s : State) : (started j s).running = some j := rfl
@[simp] theorem started_res (j : Instr) (s : State) : (started j s).res = s.res := rfl
@[simp] theorem started_out (j : Instr) (s : State) : (started j s).out = s.out := rfl
@[simp] theorem started_xcount (j : Instr) (s : State) : (started j s).xcount = s.xcount := rfl
@[simp] theorem started_trace (j : Instr) (s : State) : (started j s).trace = s.trace := rfl
@[simp] theorem started_mem (j : Instr) (s : State) : (started j s).mem = s.mem := rfl
@[simp] theorem started_bufp (j : Instr) (s : State) : (started j s).bufp = s.bufp := rfl
@[simp] theorem started_port (j : Instr) (s : State) : (started j s).port = s.port := rfl
@[simp] theorem started_rst (j : Instr) (s : State) : (started j s).rst = s.rst := rfl
@[simp] theorem started_card (j : Instr) (s : State) : (started j s).card = s.card := rfl
@[simp] theorem started_draws (j : Instr) (s : State) : (started j s).draws = s.draws := rfl

/-! `deliverOk` and `raiseError` (R318). -/

@[simp] theorem deliverOk_result (v : Delivered) (s : State) : (deliverOk v s).1 = .ok := rfl
@[simp] theorem raiseError_result (o : Bool) (e : Result) (s : State) : (raiseError o e s).1 = e := rfl
@[simp] theorem deliverOk_cfg (v : Delivered) (s : State) : (deliverOk v s).2.cfg = s.cfg := rfl
@[simp] theorem deliverOk_ready (v : Delivered) (s : State) : (deliverOk v s).2.ready = s.ready := rfl
@[simp] theorem deliverOk_fsm (v : Delivered) (s : State) : (deliverOk v s).2.fsm = s.fsm := rfl
@[simp] theorem deliverOk_sectorCount (v : Delivered) (s : State) : (deliverOk v s).2.sectorCount = s.sectorCount := rfl
@[simp] theorem deliverOk_sel (v : Delivered) (s : State) : (deliverOk v s).2.sel = s.sel := rfl
@[simp] theorem deliverOk_busy (v : Delivered) (s : State) : (deliverOk v s).2.busy = false := rfl
@[simp] theorem deliverOk_txb (v : Delivered) (s : State) : (deliverOk v s).2.txb = s.txb := rfl
@[simp] theorem deliverOk_rxb (v : Delivered) (s : State) : (deliverOk v s).2.rxb = s.rxb := rfl
@[simp] theorem deliverOk_opc (v : Delivered) (s : State) : (deliverOk v s).2.opc = s.opc := rfl
@[simp] theorem deliverOk_arg (v : Delivered) (s : State) : (deliverOk v s).2.arg = s.arg := rfl
@[simp] theorem deliverOk_frame (v : Delivered) (s : State) : (deliverOk v s).2.frame = s.frame := rfl
@[simp] theorem deliverOk_crc (v : Delivered) (s : State) : (deliverOk v s).2.crc = s.crc := rfl
@[simp] theorem deliverOk_r1 (v : Delivered) (s : State) : (deliverOk v s).2.r1 = s.r1 := rfl
@[simp] theorem deliverOk_r7tail (v : Delivered) (s : State) : (deliverOk v s).2.r7tail = s.r7tail := rfl
@[simp] theorem deliverOk_tok (v : Delivered) (s : State) : (deliverOk v s).2.tok = s.tok := rfl
@[simp] theorem deliverOk_dresp (v : Delivered) (s : State) : (deliverOk v s).2.dresp = s.dresp := rfl
@[simp] theorem deliverOk_busyb (v : Delivered) (s : State) : (deliverOk v s).2.busyb = s.busyb := rfl
@[simp] theorem deliverOk_phase (v : Delivered) (s : State) : (deliverOk v s).2.phase = .idle := rfl
@[simp] theorem deliverOk_framei (v : Delivered) (s : State) : (deliverOk v s).2.framei = s.framei := rfl
@[simp] theorem deliverOk_pollcnt (v : Delivered) (s : State) : (deliverOk v s).2.pollcnt = s.pollcnt := rfl
@[simp] theorem deliverOk_retrycnt (v : Delivered) (s : State) : (deliverOk v s).2.retrycnt = s.retrycnt := rfl
@[simp] theorem deliverOk_appcmd (v : Delivered) (s : State) : (deliverOk v s).2.appcmd = s.appcmd := rfl
@[simp] theorem deliverOk_byteidx (v : Delivered) (s : State) : (deliverOk v s).2.byteidx = s.byteidx := rfl
@[simp] theorem deliverOk_sectidx (v : Delivered) (s : State) : (deliverOk v s).2.sectidx = s.sectidx := rfl
@[simp] theorem deliverOk_sectno (v : Delivered) (s : State) : (deliverOk v s).2.sectno = s.sectno := rfl
@[simp] theorem deliverOk_loopidx (v : Delivered) (s : State) : (deliverOk v s).2.loopidx = s.loopidx := rfl
@[simp] theorem deliverOk_running (v : Delivered) (s : State) : (deliverOk v s).2.running = none := rfl
@[simp] theorem deliverOk_res (v : Delivered) (s : State) : (deliverOk v s).2.res = .ok := rfl
@[simp] theorem deliverOk_out (v : Delivered) (s : State) : (deliverOk v s).2.out = v := rfl
@[simp] theorem deliverOk_xcount (v : Delivered) (s : State) : (deliverOk v s).2.xcount = s.xcount := rfl
@[simp] theorem deliverOk_trace (v : Delivered) (s : State) : (deliverOk v s).2.trace = s.trace := rfl
@[simp] theorem deliverOk_mem (v : Delivered) (s : State) : (deliverOk v s).2.mem = s.mem := rfl
@[simp] theorem deliverOk_bufp (v : Delivered) (s : State) : (deliverOk v s).2.bufp = s.bufp := rfl
@[simp] theorem deliverOk_port (v : Delivered) (s : State) : (deliverOk v s).2.port = s.port := rfl
@[simp] theorem deliverOk_rst (v : Delivered) (s : State) : (deliverOk v s).2.rst = s.rst := rfl
@[simp] theorem deliverOk_card (v : Delivered) (s : State) : (deliverOk v s).2.card = s.card := rfl
@[simp] theorem deliverOk_draws (v : Delivered) (s : State) : (deliverOk v s).2.draws = s.draws := rfl

@[simp] theorem raiseError_cfg (o : Bool) (e : Result) (s : State) : (raiseError o e s).2.cfg = s.cfg := by cases o <;> cases e <;> rfl
@[simp] theorem raiseError_ready (o : Bool) (e : Result) (s : State) : (raiseError o e s).2.ready = s.ready := by cases o <;> cases e <;> rfl
@[simp] theorem raiseError_sectorCount (o : Bool) (e : Result) (s : State) : (raiseError o e s).2.sectorCount = s.sectorCount := by cases o <;> cases e <;> rfl
@[simp] theorem raiseError_busy (o : Bool) (e : Result) (s : State) : (raiseError o e s).2.busy = false := rfl
@[simp] theorem raiseError_txb (o : Bool) (e : Result) (s : State) : (raiseError o e s).2.txb = s.txb := by cases o <;> cases e <;> rfl
@[simp] theorem raiseError_rxb (o : Bool) (e : Result) (s : State) : (raiseError o e s).2.rxb = s.rxb := by cases o <;> cases e <;> rfl
@[simp] theorem raiseError_opc (o : Bool) (e : Result) (s : State) : (raiseError o e s).2.opc = s.opc := by cases o <;> cases e <;> rfl
@[simp] theorem raiseError_arg (o : Bool) (e : Result) (s : State) : (raiseError o e s).2.arg = s.arg := by cases o <;> cases e <;> rfl
@[simp] theorem raiseError_frame (o : Bool) (e : Result) (s : State) : (raiseError o e s).2.frame = s.frame := by cases o <;> cases e <;> rfl
@[simp] theorem raiseError_crc (o : Bool) (e : Result) (s : State) : (raiseError o e s).2.crc = s.crc := by cases o <;> cases e <;> rfl
@[simp] theorem raiseError_r1 (o : Bool) (e : Result) (s : State) : (raiseError o e s).2.r1 = s.r1 := by cases o <;> cases e <;> rfl
@[simp] theorem raiseError_r7tail (o : Bool) (e : Result) (s : State) : (raiseError o e s).2.r7tail = s.r7tail := by cases o <;> cases e <;> rfl
@[simp] theorem raiseError_tok (o : Bool) (e : Result) (s : State) : (raiseError o e s).2.tok = s.tok := by cases o <;> cases e <;> rfl
@[simp] theorem raiseError_dresp (o : Bool) (e : Result) (s : State) : (raiseError o e s).2.dresp = s.dresp := by cases o <;> cases e <;> rfl
@[simp] theorem raiseError_busyb (o : Bool) (e : Result) (s : State) : (raiseError o e s).2.busyb = s.busyb := by cases o <;> cases e <;> rfl
@[simp] theorem raiseError_phase (o : Bool) (e : Result) (s : State) : (raiseError o e s).2.phase = .idle := rfl
@[simp] theorem raiseError_framei (o : Bool) (e : Result) (s : State) : (raiseError o e s).2.framei = s.framei := by cases o <;> cases e <;> rfl
@[simp] theorem raiseError_pollcnt (o : Bool) (e : Result) (s : State) : (raiseError o e s).2.pollcnt = s.pollcnt := by cases o <;> cases e <;> rfl
@[simp] theorem raiseError_retrycnt (o : Bool) (e : Result) (s : State) : (raiseError o e s).2.retrycnt = s.retrycnt := by cases o <;> cases e <;> rfl
@[simp] theorem raiseError_appcmd (o : Bool) (e : Result) (s : State) : (raiseError o e s).2.appcmd = s.appcmd := by cases o <;> cases e <;> rfl
@[simp] theorem raiseError_byteidx (o : Bool) (e : Result) (s : State) : (raiseError o e s).2.byteidx = s.byteidx := by cases o <;> cases e <;> rfl
@[simp] theorem raiseError_sectidx (o : Bool) (e : Result) (s : State) : (raiseError o e s).2.sectidx = s.sectidx := by cases o <;> cases e <;> rfl
@[simp] theorem raiseError_sectno (o : Bool) (e : Result) (s : State) : (raiseError o e s).2.sectno = s.sectno := by cases o <;> cases e <;> rfl
@[simp] theorem raiseError_loopidx (o : Bool) (e : Result) (s : State) : (raiseError o e s).2.loopidx = s.loopidx := by cases o <;> cases e <;> rfl
@[simp] theorem raiseError_running (o : Bool) (e : Result) (s : State) : (raiseError o e s).2.running = none := rfl
@[simp] theorem raiseError_res (o : Bool) (e : Result) (s : State) : (raiseError o e s).2.res = e := rfl
@[simp] theorem raiseError_out (o : Bool) (e : Result) (s : State) : (raiseError o e s).2.out = .nothing := rfl
@[simp] theorem raiseError_xcount (o : Bool) (e : Result) (s : State) : (raiseError o e s).2.xcount = s.xcount := by cases o <;> cases e <;> rfl
@[simp] theorem raiseError_mem (o : Bool) (e : Result) (s : State) : (raiseError o e s).2.mem = s.mem := by cases o <;> cases e <;> rfl
@[simp] theorem raiseError_bufp (o : Bool) (e : Result) (s : State) : (raiseError o e s).2.bufp = s.bufp := by cases o <;> cases e <;> rfl
@[simp] theorem raiseError_port (o : Bool) (e : Result) (s : State) : (raiseError o e s).2.port = s.port := by cases o <;> cases e <;> rfl
@[simp] theorem raiseError_rst (o : Bool) (e : Result) (s : State) : (raiseError o e s).2.rst = s.rst := by cases o <;> cases e <;> rfl
@[simp] theorem raiseError_card (o : Bool) (e : Result) (s : State) : (raiseError o e s).2.card = s.card := by cases o <;> cases e <;> rfl
@[simp] theorem raiseError_draws (o : Bool) (e : Result) (s : State) : (raiseError o e s).2.draws = s.draws := by cases o <;> cases e <;> rfl
@[simp] theorem raiseError_sel (o : Bool) (e : Result) (s : State) :
    (raiseError o e s).2.sel = if o then false else s.sel := by cases o <;> cases e <;> rfl
@[simp] theorem raiseError_trace (o : Bool) (e : Result) (s : State) :
    (raiseError o e s).2.trace = if o then s.trace ++ [.desel] else s.trace := by cases o <;> cases e <;> rfl

/-- Whether an error is an `InitFailure`. -/
def isInitFailure : Result → Bool
  | .initFailure _ _ => true
  | .ok | .notReady | .commandRejected _ | .transferTimeout _ | .writeRejected _ _ | .parameterError => false

@[simp] theorem raiseError_fsm (o : Bool) (e : Result) (s : State) :
    (raiseError o e s).2.fsm = if isInitFailure e then .failed else s.fsm := by cases o <;> cases e <;> rfl

/-! `draw` and `exchange` (R44, R140). -/

@[simp] theorem draw_cfg (s : State) : (draw s).2.cfg = s.cfg := by unfold draw; split <;> rfl
@[simp] theorem draw_ready (s : State) : (draw s).2.ready = s.ready := by unfold draw; split <;> rfl
@[simp] theorem draw_fsm (s : State) : (draw s).2.fsm = s.fsm := by unfold draw; split <;> rfl
@[simp] theorem draw_sectorCount (s : State) : (draw s).2.sectorCount = s.sectorCount := by unfold draw; split <;> rfl
@[simp] theorem draw_sel (s : State) : (draw s).2.sel = s.sel := by unfold draw; split <;> rfl
@[simp] theorem draw_busy (s : State) : (draw s).2.busy = s.busy := by unfold draw; split <;> rfl
@[simp] theorem draw_txb (s : State) : (draw s).2.txb = s.txb := by unfold draw; split <;> rfl
@[simp] theorem draw_rxb (s : State) : (draw s).2.rxb = s.rxb := by unfold draw; split <;> rfl
@[simp] theorem draw_opc (s : State) : (draw s).2.opc = s.opc := by unfold draw; split <;> rfl
@[simp] theorem draw_arg (s : State) : (draw s).2.arg = s.arg := by unfold draw; split <;> rfl
@[simp] theorem draw_frame (s : State) : (draw s).2.frame = s.frame := by unfold draw; split <;> rfl
@[simp] theorem draw_crc (s : State) : (draw s).2.crc = s.crc := by unfold draw; split <;> rfl
@[simp] theorem draw_r1 (s : State) : (draw s).2.r1 = s.r1 := by unfold draw; split <;> rfl
@[simp] theorem draw_r7tail (s : State) : (draw s).2.r7tail = s.r7tail := by unfold draw; split <;> rfl
@[simp] theorem draw_tok (s : State) : (draw s).2.tok = s.tok := by unfold draw; split <;> rfl
@[simp] theorem draw_dresp (s : State) : (draw s).2.dresp = s.dresp := by unfold draw; split <;> rfl
@[simp] theorem draw_busyb (s : State) : (draw s).2.busyb = s.busyb := by unfold draw; split <;> rfl
@[simp] theorem draw_phase (s : State) : (draw s).2.phase = s.phase := by unfold draw; split <;> rfl
@[simp] theorem draw_framei (s : State) : (draw s).2.framei = s.framei := by unfold draw; split <;> rfl
@[simp] theorem draw_pollcnt (s : State) : (draw s).2.pollcnt = s.pollcnt := by unfold draw; split <;> rfl
@[simp] theorem draw_retrycnt (s : State) : (draw s).2.retrycnt = s.retrycnt := by unfold draw; split <;> rfl
@[simp] theorem draw_appcmd (s : State) : (draw s).2.appcmd = s.appcmd := by unfold draw; split <;> rfl
@[simp] theorem draw_byteidx (s : State) : (draw s).2.byteidx = s.byteidx := by unfold draw; split <;> rfl
@[simp] theorem draw_sectidx (s : State) : (draw s).2.sectidx = s.sectidx := by unfold draw; split <;> rfl
@[simp] theorem draw_sectno (s : State) : (draw s).2.sectno = s.sectno := by unfold draw; split <;> rfl
@[simp] theorem draw_loopidx (s : State) : (draw s).2.loopidx = s.loopidx := by unfold draw; split <;> rfl
@[simp] theorem draw_running (s : State) : (draw s).2.running = s.running := by unfold draw; split <;> rfl
@[simp] theorem draw_res (s : State) : (draw s).2.res = s.res := by unfold draw; split <;> rfl
@[simp] theorem draw_out (s : State) : (draw s).2.out = s.out := by unfold draw; split <;> rfl
@[simp] theorem draw_xcount (s : State) : (draw s).2.xcount = s.xcount := by unfold draw; split <;> rfl
@[simp] theorem draw_trace (s : State) : (draw s).2.trace = s.trace := by unfold draw; split <;> rfl
@[simp] theorem draw_mem (s : State) : (draw s).2.mem = s.mem := by unfold draw; split <;> rfl
@[simp] theorem draw_bufp (s : State) : (draw s).2.bufp = s.bufp := by unfold draw; split <;> rfl
@[simp] theorem draw_port (s : State) : (draw s).2.port = s.port := by unfold draw; split <;> rfl
@[simp] theorem draw_rst (s : State) : (draw s).2.rst = s.rst := by unfold draw; split <;> rfl

@[simp] theorem exchange_byte (o : Byte) (s : State) : (exchange o s).1 = (draw s).1 := rfl
@[simp] theorem exchange_cfg (o : Byte) (s : State) : (exchange o s).2.cfg = s.cfg := by simp [exchange]
@[simp] theorem exchange_ready (o : Byte) (s : State) : (exchange o s).2.ready = s.ready := by simp [exchange]
@[simp] theorem exchange_fsm (o : Byte) (s : State) : (exchange o s).2.fsm = s.fsm := by simp [exchange]
@[simp] theorem exchange_sectorCount (o : Byte) (s : State) : (exchange o s).2.sectorCount = s.sectorCount := by simp [exchange]
@[simp] theorem exchange_sel (o : Byte) (s : State) : (exchange o s).2.sel = s.sel := by simp [exchange]
@[simp] theorem exchange_busy (o : Byte) (s : State) : (exchange o s).2.busy = s.busy := by simp [exchange]
@[simp] theorem exchange_txb (o : Byte) (s : State) : (exchange o s).2.txb = o := by simp [exchange]
@[simp] theorem exchange_rxb (o : Byte) (s : State) : (exchange o s).2.rxb = (draw s).1 := by simp [exchange]
@[simp] theorem exchange_opc (o : Byte) (s : State) : (exchange o s).2.opc = s.opc := by simp [exchange]
@[simp] theorem exchange_arg (o : Byte) (s : State) : (exchange o s).2.arg = s.arg := by simp [exchange]
@[simp] theorem exchange_frame (o : Byte) (s : State) : (exchange o s).2.frame = s.frame := by simp [exchange]
@[simp] theorem exchange_crc (o : Byte) (s : State) : (exchange o s).2.crc = s.crc := by simp [exchange]
@[simp] theorem exchange_r1 (o : Byte) (s : State) : (exchange o s).2.r1 = s.r1 := by simp [exchange]
@[simp] theorem exchange_r7tail (o : Byte) (s : State) : (exchange o s).2.r7tail = s.r7tail := by simp [exchange]
@[simp] theorem exchange_tok (o : Byte) (s : State) : (exchange o s).2.tok = s.tok := by simp [exchange]
@[simp] theorem exchange_dresp (o : Byte) (s : State) : (exchange o s).2.dresp = s.dresp := by simp [exchange]
@[simp] theorem exchange_busyb (o : Byte) (s : State) : (exchange o s).2.busyb = s.busyb := by simp [exchange]
@[simp] theorem exchange_phase (o : Byte) (s : State) : (exchange o s).2.phase = s.phase := by simp [exchange]
@[simp] theorem exchange_framei (o : Byte) (s : State) : (exchange o s).2.framei = s.framei := by simp [exchange]
@[simp] theorem exchange_pollcnt (o : Byte) (s : State) : (exchange o s).2.pollcnt = s.pollcnt := by simp [exchange]
@[simp] theorem exchange_retrycnt (o : Byte) (s : State) : (exchange o s).2.retrycnt = s.retrycnt := by simp [exchange]
@[simp] theorem exchange_appcmd (o : Byte) (s : State) : (exchange o s).2.appcmd = s.appcmd := by simp [exchange]
@[simp] theorem exchange_byteidx (o : Byte) (s : State) : (exchange o s).2.byteidx = s.byteidx := by simp [exchange]
@[simp] theorem exchange_sectidx (o : Byte) (s : State) : (exchange o s).2.sectidx = s.sectidx := by simp [exchange]
@[simp] theorem exchange_sectno (o : Byte) (s : State) : (exchange o s).2.sectno = s.sectno := by simp [exchange]
@[simp] theorem exchange_loopidx (o : Byte) (s : State) : (exchange o s).2.loopidx = s.loopidx := by simp [exchange]
@[simp] theorem exchange_running (o : Byte) (s : State) : (exchange o s).2.running = s.running := by simp [exchange]
@[simp] theorem exchange_res (o : Byte) (s : State) : (exchange o s).2.res = s.res := by simp [exchange]
@[simp] theorem exchange_out (o : Byte) (s : State) : (exchange o s).2.out = s.out := by simp [exchange]
@[simp] theorem exchange_xcount (o : Byte) (s : State) : (exchange o s).2.xcount = s.xcount + 1 := by simp [exchange]
@[simp] theorem exchange_trace (o : Byte) (s : State) : (exchange o s).2.trace = s.trace ++ [.xfer s.sel o (draw s).1] := by simp [exchange]
@[simp] theorem exchange_mem (o : Byte) (s : State) : (exchange o s).2.mem = s.mem := by simp [exchange]
@[simp] theorem exchange_bufp (o : Byte) (s : State) : (exchange o s).2.bufp = s.bufp := by simp [exchange]
@[simp] theorem exchange_port (o : Byte) (s : State) : (exchange o s).2.port = s.port := by simp [exchange]
@[simp] theorem exchange_rst (o : Byte) (s : State) : (exchange o s).2.rst = s.rst := by simp [exchange]
@[simp] theorem exchange_card (o : Byte) (s : State) : (exchange o s).2.card = (draw s).2.card := rfl
@[simp] theorem exchange_draws (o : Byte) (s : State) : (exchange o s).2.draws = (draw s).2.draws := rfl

end Sys2Proof.Machine
end

