-- ==== Sys2Proof/Laws/Memory.lean ====
section
/-!
SUPPORT. Host memory: a read after a write, and the canonical form kept by every operation (log 15).
-/

namespace Sys2Proof.Machine

theorem memRead_below {m : Memory} {a : Nat} (h : ∀ c ∈ m, a < c.1) : memRead m a = blankByte := by
  induction m with
  | nil => rfl
  | cons c m ih =>
    have hc := h c (by simp)
    simp only [memRead]
    rw [if_neg (by omega)]
    exact ih fun d hd => h d (by simp [hd])

/-- Writing keeps the canonical form, and lists no address but the one written. -/
theorem memWrite_spec (m : Memory) (a : Nat) (b : Byte) (h : m.wf) :
    (memWrite m a b).wf ∧ (∀ c ∈ memWrite m a b, c.1 = a ∨ c ∈ m) ∧
      ∀ x, memRead (memWrite m a b) x = if x = a then b else memRead m x := by
  induction m with
  | nil =>
    unfold memWrite
    split <;> rename_i hb
    · refine ⟨h, by simp, fun x => ?_⟩
      split <;> simp_all [memRead]
    · refine ⟨⟨by simp, by simpa using hb⟩, by simp, fun x => ?_⟩
      simp only [memRead]
  | cons c m ih =>
    obtain ⟨⟨hlt, hs⟩, hb⟩ := And.imp_left List.pairwise_cons.1 h
    have hbm : ∀ d ∈ m, d.2 ≠ blankByte := fun d hd => hb d (by simp [hd])
    have hbc : c.2 ≠ blankByte := hb c (by simp)
    obtain ⟨x, y⟩ := c
    unfold memWrite
    by_cases h1 : a < x
    · rw [if_pos h1]
      have habove : ∀ d ∈ (x, y) :: m, a < d.1 := by
        intro d hd
        rcases List.mem_cons.1 hd with rfl | hd
        · exact h1
        · exact lt_trans h1 (hlt d hd)
      by_cases h2 : b = blankByte
      · rw [if_pos h2]
        refine ⟨h, fun d hd => .inr hd, fun z => ?_⟩
        split
        · subst_vars; exact memRead_below habove
        · rfl
      · rw [if_neg h2]
        refine ⟨⟨List.pairwise_cons.2 ⟨habove, h.1⟩, ?_⟩, ?_, fun z => ?_⟩
        · intro d hd
          rcases List.mem_cons.1 hd with rfl | hd
          · exact h2
          · exact hb d hd
        · intro d hd
          rcases List.mem_cons.1 hd with rfl | hd
          · exact .inl rfl
          · exact .inr hd
        · simp only [memRead]
    · rw [if_neg h1]
      by_cases h2 : a = x
      · rw [if_pos h2]
        subst h2
        by_cases h3 : b = blankByte
        · rw [if_pos h3]
          refine ⟨⟨hs, hbm⟩, fun d hd => .inr (by simp [hd]), fun z => ?_⟩
          by_cases hz : z = a
          · rw [if_pos hz, hz, h3]; exact memRead_below hlt
          · rw [if_neg hz]; simp [memRead, hz]
        · rw [if_neg h3]
          refine ⟨⟨List.pairwise_cons.2 ⟨hlt, hs⟩, ?_⟩, ?_, fun z => ?_⟩
          · intro d hd
            rcases List.mem_cons.1 hd with rfl | hd
            · exact h3
            · exact hbm d hd
          · intro d hd
            rcases List.mem_cons.1 hd with rfl | hd
            · exact .inl rfl
            · exact .inr (by simp [hd])
          · simp only [memRead]
            by_cases hz : z = a <;> simp [hz]
      · rw [if_neg h2]
        obtain ⟨iw, im, ir⟩ := ih ⟨hs, hbm⟩
        refine ⟨⟨List.pairwise_cons.2 ⟨?_, iw.1⟩, ?_⟩, ?_, fun z => ?_⟩
        · intro d hd
          rcases im d hd with h | h
          · simp only [h]; omega
          · exact hlt d h
        · intro d hd
          rcases List.mem_cons.1 hd with rfl | hd
          · exact hbc
          · exact iw.2 d hd
        · intro d hd
          rcases List.mem_cons.1 hd with rfl | hd
          · exact .inr (by simp)
          · exact (im d hd).imp_right fun h => by simp [h]
        · simp only [memRead]
          by_cases hz : z = x
          · rw [if_pos hz, if_neg (by omega), if_pos hz]
          · rw [if_neg hz, ir z, if_neg hz]

theorem memWrite_wf {m : Memory} (h : m.wf) (a : Nat) (b : Byte) : (memWrite m a b).wf := (memWrite_spec m a b h).1

theorem memRead_memWrite {m : Memory} (h : m.wf) (a : Nat) (b : Byte) (x : Nat) :
    memRead (memWrite m a b) x = if x = a then b else memRead m x := (memWrite_spec m a b h).2.2 x

theorem bufWrite_wf {s : State} (h : s.mem.wf) (i : Nat) (b : Byte) : (bufWrite i b s).mem.wf := memWrite_wf h _ _

end Sys2Proof.Machine
end

