-- ==== Sys2Proof/Laws/Bus.lean ====
section
/-!
SUPPORT. What each shared operation does on the bus: its events (`Emitted`), the bytes it hears, and its frame
(`t = { withBus t s with ... }`).
-/

namespace Sys2Proof.Machine

/-! Events. -/

@[simp] theorem xferCount_nil : xferCount [] = 0 := rfl
@[simp] theorem xferCount_append (a b : List Event) : xferCount (a ++ b) = xferCount a + xferCount b := List.countP_append
@[simp] theorem xferCount_xfer (b : Bool) (o i : Byte) (l : List Event) :
    xferCount (.xfer b o i :: l) = xferCount l + 1 := by simp [xferCount, List.countP_cons, isXfer]
@[simp] theorem xferCount_sel (l : List Event) : xferCount (.sel :: l) = xferCount l := by simp [xferCount, isXfer]
@[simp] theorem xferCount_desel (l : List Event) : xferCount (.desel :: l) = xferCount l := by simp [xferCount, isXfer]
@[simp] theorem xferCount_slept (l : List Event) : xferCount (.slept :: l) = xferCount l := by simp [xferCount, isXfer]
@[simp] theorem received_nil : received [] = [] := rfl
@[simp] theorem received_append (a b : List Event) : received (a ++ b) = received a ++ received b :=
  List.filterMap_append ..
@[simp] theorem received_xfer (b : Bool) (o i : Byte) (l : List Event) :
    received (.xfer b o i :: l) = i :: received l := rfl
@[simp] theorem received_sel (l : List Event) : received (.sel :: l) = received l := rfl
@[simp] theorem received_desel (l : List Event) : received (.desel :: l) = received l := rfl
@[simp] theorem received_slept (l : List Event) : received (.slept :: l) = received l := rfl
@[simp] theorem sleepCount_append (a b : List Event) : sleepCount (a ++ b) = sleepCount a + sleepCount b :=
  List.count_append
@[simp] theorem xfers_nil (b : Bool) : xfers b [] [] = [] := rfl
@[simp] theorem xfers_cons (b : Bool) (o i : Byte) (os is : List Byte) :
    xfers b (o :: os) (i :: is) = .xfer b o i :: xfers b os is := rfl
@[simp] theorem listenEvents_nil (b : Bool) (o : Byte) : listenEvents b o [] = [] := rfl
@[simp] theorem listenEvents_cons (b : Bool) (o i : Byte) (is : List Byte) :
    listenEvents b o (i :: is) = .xfer b o i :: listenEvents b o is := rfl

theorem xfers_append (b : Bool) {os is os' is' : List Byte} (h : os.length = is.length) :
    xfers b (os ++ os') (is ++ is') = xfers b os is ++ xfers b os' is' := List.zipWith_append h

theorem xferCount_xfers (b : Bool) (os is : List Byte) : xferCount (xfers b os is) = min os.length is.length := by
  induction os generalizing is with
  | nil => simp [xfers]
  | cons o os ih =>
    cases is with
    | nil => simp [xfers]
    | cons i is => simp [ih]

theorem received_xfers (b : Bool) (os is : List Byte) (h : os.length = is.length) : received (xfers b os is) = is := by
  induction os generalizing is with
  | nil => cases is <;> simp_all
  | cons o os ih =>
    cases is with
    | nil => simp at h
    | cons i is => simp_all

@[simp] theorem xferCount_listen (b : Bool) (o : Byte) (is : List Byte) : xferCount (listenEvents b o is) = is.length := by
  simp [listenEvents, xferCount_xfers]

@[simp] theorem received_listen (b : Bool) (o : Byte) (is : List Byte) : received (listenEvents b o is) = is := by
  simp [listenEvents, received_xfers]

theorem xferCount_command (b : Bool) (f : Frame) {heard : List Byte} (got : List Byte) (h : heard.length = Config.frameLen) :
    xferCount (commandEvents b f heard got) = Config.frameLen + got.length := by
  simp [commandEvents, xferCount_xfers, frameList, h, Config.frameLen]

theorem received_command (b : Bool) (f : Frame) {heard : List Byte} (got : List Byte) (h : heard.length = Config.frameLen) :
    received (commandEvents b f heard got) = heard ++ got := by
  simp [commandEvents, received_xfers, frameList, h, Config.frameLen]

/-- No bus event of an exchange list is a sleep. -/
theorem sleepCount_xfers (b : Bool) (os is : List Byte) : sleepCount (xfers b os is) = 0 := by
  induction os generalizing is with
  | nil => simp [xfers, sleepCount]
  | cons o os ih =>
    cases is with
    | nil => simp [xfers, sleepCount]
    | cons i is => simpa [sleepCount] using ih is

/-! The card's answers. -/

theorem takeAnswers_draw (n : Nat) (s : State) :
    takeAnswers (n + 1) s.card s.draws =
      ((draw s).1 :: (takeAnswers n (draw s).2.card (draw s).2.draws).1,
        (takeAnswers n (draw s).2.card (draw s).2.draws).2) := by
  unfold draw
  cases s.card <;> simp [takeAnswers]

theorem takeAnswers_add (m n : Nat) (card : List Byte) (draws : Nat) :
    takeAnswers (m + n) card draws =
      ((takeAnswers m card draws).1 ++ (takeAnswers n (takeAnswers m card draws).2.1 (takeAnswers m card draws).2.2).1,
        (takeAnswers n (takeAnswers m card draws).2.1 (takeAnswers m card draws).2.2).2) := by
  induction m generalizing card draws with
  | zero => simp [takeAnswers]
  | succ m ih =>
    rw [Nat.succ_add]
    cases card <;> simp [takeAnswers, ih]

/-! `Emitted` composes. -/

theorem Emitted.refl (s : State) : Emitted s s [] := ⟨by simp, by simp, rfl⟩

theorem Emitted.trans {s t u : State} {a b : List Event} (h : Emitted s t a) (k : Emitted t u b) :
    Emitted s u (a ++ b) where
  trace := by rw [k.trace, h.trace, List.append_assoc]
  count := by rw [k.count, h.count, xferCount_append, Nat.add_assoc]
  heard := by rw [xferCount_append, takeAnswers_add, h.heard, k.heard, received_append]

theorem Emitted.cast {s t : State} {a b : List Event} (h : Emitted s t a) (e : a = b) : Emitted s t b := e ▸ h

theorem exchange_emits (o : Byte) (s : State) : Emitted s (exchange o s).2 [.xfer s.sel o (draw s).1] where
  trace := by simp
  count := by simp
  heard := by
    rw [xferCount_xfer, xferCount_nil, takeAnswers_draw]
    simp [takeAnswers]

theorem exchange_withBus (o : Byte) (s : State) : (exchange o s).2 = withBus (exchange o s).2 s := by
  unfold exchange draw
  split <;> rfl

theorem select_emits (s : State) : Emitted s (select s) [.sel] := ⟨rfl, rfl, rfl⟩
theorem deselect_emits (s : State) : Emitted s (deselect s) [.desel] := ⟨rfl, rfl, rfl⟩
theorem sleep_emits (s : State) : Emitted s (sleep s) [.slept] := ⟨rfl, rfl, rfl⟩

/-! The counted loops. -/

theorem clockFill_spec (n : Nat) (s : State) :
    ∃ got, got.length = n ∧ Emitted s (clockFill n s) (listenEvents s.sel s.cfg.fill got) ∧
      clockFill n s = { withBus (clockFill n s) s with loopidx := s.loopidx + n } := by
  induction n generalizing s with
  | zero => exact ⟨[], rfl, .refl s, rfl⟩
  | succ n ih =>
    have e := exchange_emits s.cfg.fill s
    have w := exchange_withBus s.cfg.fill s
    simp only [clockFill]
    generalize (exchange s.cfg.fill s).2 = u at e w ⊢
    have hs : u.sel = s.sel := (congrArg State.sel w).trans rfl
    have hc : u.cfg = s.cfg := (congrArg State.cfg w).trans rfl
    have hl : u.loopidx = s.loopidx := (congrArg State.loopidx w).trans rfl
    obtain ⟨got, hn, he, hw⟩ := ih { u with loopidx := u.loopidx + 1 }
    refine ⟨(draw s).1 :: got, by simp [hn], ?_, hw.trans ?_⟩
    · exact (e.trans ⟨he.trace, he.count, he.heard⟩).cast (by simp [hs, hc])
    · generalize clockFill n _ = t
      rw [show s.loopidx + (n + 1) = u.loopidx + 1 + n by omega]
      generalize u.loopidx = l
      rw [w]; rfl

theorem drainTail_spec (n : Nat) (s : State) :
    ∃ got, got.length = n ∧ Emitted s (drainTail n s) (listenEvents s.sel s.cfg.fill got) ∧
      drainTail n s =
        { withBus (drainTail n s) s with
          loopidx := s.loopidx + n
          r7tail := (got.zipIdx s.loopidx).foldl (fun t p => tailWith t p.2 p.1) s.r7tail } := by
  induction n generalizing s with
  | zero => exact ⟨[], rfl, .refl s, rfl⟩
  | succ n ih =>
    have e := exchange_emits s.cfg.fill s
    have w := exchange_withBus s.cfg.fill s
    simp only [drainTail, exchange_byte]
    generalize (exchange s.cfg.fill s).2 = u at e w ⊢
    have hs : u.sel = s.sel := (congrArg State.sel w).trans rfl
    have hc : u.cfg = s.cfg := (congrArg State.cfg w).trans rfl
    have hl : u.loopidx = s.loopidx := (congrArg State.loopidx w).trans rfl
    have ht : u.r7tail = s.r7tail := (congrArg State.r7tail w).trans rfl
    obtain ⟨got, hn, he, hw⟩ :=
      ih { u with r7tail := tailWith u.r7tail u.loopidx (draw s).1, loopidx := u.loopidx + 1 }
    refine ⟨(draw s).1 :: got, by simp [hn], ?_, hw.trans ?_⟩
    · exact (e.trans ⟨he.trace, he.count, he.heard⟩).cast (by simp [hs, hc])
    · generalize drainTail n _ = t
      simp only [List.zipIdx_cons, List.foldl_cons]
      rw [show s.loopidx + (n + 1) = u.loopidx + 1 + n by omega, ← hl, ← ht]
      generalize u.loopidx = l
      generalize u.r7tail = l'
      rw [w]; rfl

/-- What memory holds after `bytes` are written from address `a` on. -/
def memWriteAll : Memory → Nat → List Byte → Memory
  | m, _, [] => m
  | m, a, b :: bs => memWriteAll (memWrite m a b) (a + 1) bs

theorem memWriteAll_wf {m : Memory} (h : m.wf) (a : Nat) (bs : List Byte) : (memWriteAll m a bs).wf := by
  induction bs generalizing m a with
  | nil => exact h
  | cons b bs ih => exact ih (memWrite_wf h a b) (a + 1)

theorem memRead_memWriteAll {m : Memory} (h : m.wf) (a : Nat) (bs : List Byte) (x : Nat) :
    memRead (memWriteAll m a bs) x =
      if a ≤ x ∧ x < a + bs.length then bs.getD (x - a) 0#8 else memRead m x := by
  induction bs generalizing m a with
  | nil => simp [memWriteAll]
  | cons b bs ih =>
    rw [memWriteAll, ih (memWrite_wf h a b) (a + 1), memRead_memWrite h]
    by_cases h1 : x = a
    · subst h1; simp
    · by_cases h2 : a + 1 ≤ x ∧ x < a + 1 + bs.length
      · rw [if_pos h2, if_pos (by simp; omega)]
        obtain ⟨k, rfl⟩ : ∃ k, x = a + 1 + k := ⟨x - (a + 1), by omega⟩
        rw [show a + 1 + k - a = k + 1 by omega, show a + 1 + k - (a + 1) = k by omega]
        simp
      · rw [if_neg h2, if_neg h1, if_neg (by simp; omega)]

theorem receivePayload_spec (n : Nat) (s : State) :
    ∃ got, got.length = n ∧ Emitted s (receivePayload n s) (listenEvents s.sel s.cfg.fill got) ∧
      receivePayload n s =
        { withBus (receivePayload n s) s with
          byteidx := s.byteidx + n
          mem := memWriteAll s.mem (s.bufp + s.byteidx) got } := by
  induction n generalizing s with
  | zero => exact ⟨[], rfl, .refl s, rfl⟩
  | succ n ih =>
    have e := exchange_emits s.cfg.fill s
    have w := exchange_withBus s.cfg.fill s
    simp only [receivePayload, exchange_byte]
    generalize (exchange s.cfg.fill s).2 = u at e w ⊢
    have hs : u.sel = s.sel := (congrArg State.sel w).trans rfl
    have hc : u.cfg = s.cfg := (congrArg State.cfg w).trans rfl
    have hl : u.byteidx = s.byteidx := (congrArg State.byteidx w).trans rfl
    have hm : u.mem = s.mem := (congrArg State.mem w).trans rfl
    have hb : u.bufp = s.bufp := (congrArg State.bufp w).trans rfl
    obtain ⟨got, hn, he, hw⟩ :=
      ih { bufWrite u.byteidx (draw s).1 u with byteidx := u.byteidx + 1 }
    refine ⟨(draw s).1 :: got, by simp [hn], ?_, hw.trans ?_⟩
    · exact (e.trans ⟨he.trace, he.count, he.heard⟩).cast (by simp [hs, hc])
    · generalize receivePayload n _ = t
      simp only [memWriteAll, bufWrite, ← hl, ← hm, ← hb]
      rw [show u.byteidx + (n + 1) = u.byteidx + 1 + n by omega,
        show u.bufp + u.byteidx + 1 = u.bufp + (u.byteidx + 1) by omega]
      generalize memWriteAll _ _ _ = m
      generalize u.byteidx = l
      rw [w]; rfl

/-- The `n` bytes of the attached buffer from index `i` on. -/
def bufBytes (s : State) (i : Nat) : Nat → List Byte
  | 0 => []
  | n + 1 => bufRead s i :: bufBytes s (i + 1) n

@[simp] theorem bufBytes_length (s : State) (i n : Nat) : (bufBytes s i n).length = n := by
  induction n generalizing i <;> simp_all [bufBytes]

theorem bufBytes_congr {s t : State} (hm : t.mem = s.mem) (hb : t.bufp = s.bufp) (i n : Nat) :
    bufBytes t i n = bufBytes s i n := by
  induction n generalizing i <;> simp_all [bufBytes, bufRead]

theorem bufBytes_getD (s : State) (i n k : Nat) (h : k < n) : (bufBytes s i n).getD k 0#8 = bufRead s (i + k) := by
  induction n generalizing i k with
  | zero => omega
  | succ n ih =>
    cases k with
    | zero => simp [bufBytes]
    | succ k =>
      have := ih (i + 1) k (by omega)
      simp only [bufBytes, List.getD_cons_succ, this]
      congr 1; omega

theorem bufBytes_eq_hostBytes (s : State) (n : Nat) : bufBytes s 0 n = hostBytes s.mem s.bufp n := by
  apply List.ext_getElem
  · simp [hostBytes]
  · intro i h1 h2
    have := bufBytes_getD s 0 n i (by simpa using h1)
    rw [← List.getElem_eq_getD (h := h1) 0#8] at this
    simp [this, hostBytes, bufRead]

theorem sendPayload_spec (n : Nat) (s : State) :
    ∃ heard, heard.length = n ∧ Emitted s (sendPayload n s) (xfers s.sel (bufBytes s s.byteidx n) heard) ∧
      sendPayload n s = { withBus (sendPayload n s) s with byteidx := s.byteidx + n } := by
  induction n generalizing s with
  | zero => exact ⟨[], rfl, .refl s, rfl⟩
  | succ n ih =>
    have e := exchange_emits (bufRead s s.byteidx) s
    have w := exchange_withBus (bufRead s s.byteidx) s
    simp only [sendPayload]
    generalize (exchange (bufRead s s.byteidx) s).2 = u at e w ⊢
    have hs : u.sel = s.sel := (congrArg State.sel w).trans rfl
    have hl : u.byteidx = s.byteidx := (congrArg State.byteidx w).trans rfl
    have hm : u.mem = s.mem := (congrArg State.mem w).trans rfl
    have hb : u.bufp = s.bufp := (congrArg State.bufp w).trans rfl
    obtain ⟨got, hn, he, hw⟩ := ih { u with byteidx := u.byteidx + 1 }
    refine ⟨(draw s).1 :: got, by simp [hn], ?_, hw.trans ?_⟩
    · have := bufBytes_congr (s := s) (t := { u with byteidx := u.byteidx + 1 }) hm hb (s.byteidx + 1) n
      exact (e.trans ⟨he.trace, he.count, he.heard⟩).cast (by simp [hs, hl, bufBytes, ← this])
    · generalize sendPayload n _ = t
      rw [← hl, show u.byteidx + (n + 1) = u.byteidx + 1 + n by omega]
      generalize u.byteidx = l
      rw [w]; rfl

/-! The poll. -/

theorem Polled.ne_nil {bound : Nat} {pred : Byte → Bool} {got : List Byte} {last : Byte}
    (h : Polled bound pred got last) : got ≠ [] := by
  intro e; have := h.ends; simp [e] at this

theorem Polled.pos {bound : Nat} {pred : Byte → Bool} {got : List Byte} {last : Byte}
    (h : Polled bound pred got last) : 1 ≤ got.length := List.length_pos_of_ne_nil h.ne_nil

theorem pollLoop_spec (pred : Byte → Bool) (out : Byte) (k : Nat) (last : Byte) (s : State) :
    ∃ got l, Polled (k + 1) pred got l ∧ Emitted s (pollLoop pred out (k + 1) last s).2 (listenEvents s.sel out got) ∧
      pollLoop pred out (k + 1) last s =
        (⟨pred l, l, s.pollcnt + got.length⟩,
          { withBus (pollLoop pred out (k + 1) last s).2 s with pollcnt := s.pollcnt + got.length }) := by
  induction k generalizing s last with
  | zero =>
    have e := exchange_emits out s
    have w := exchange_withBus out s
    refine ⟨[(draw s).1], (draw s).1, ⟨rfl, by simp, by simp, by simp⟩, ?_, ?_⟩
    · simp only [pollLoop, exchange_byte]
      by_cases h : pred (draw s).1 = true <;> simp only [h] <;> exact ⟨e.trace, e.count, e.heard⟩
    · simp only [pollLoop, exchange_byte]
      generalize (exchange out s).2 = u at e w ⊢
      have hp : u.pollcnt = s.pollcnt := (congrArg State.pollcnt w).trans rfl
      by_cases h : pred (draw s).1 = true
      · simp only [h, if_true, hp, List.length_singleton]
        refine Prod.ext rfl ?_
        simp only
        generalize s.pollcnt + 1 = l
        rw [w]; rfl
      · simp only [h, hp, List.length_singleton]
        refine Prod.ext ?_ ?_
        · simp
        · simp only
          generalize s.pollcnt + 1 = l
          rw [w]; rfl
  | succ k ih =>
    have e := exchange_emits out s
    have w := exchange_withBus out s
    rw [pollLoop]
    simp only [exchange_byte]
    generalize (exchange out s).2 = u at e w ⊢
    have hp : u.pollcnt = s.pollcnt := (congrArg State.pollcnt w).trans rfl
    have hs : u.sel = s.sel := (congrArg State.sel w).trans rfl
    by_cases h : pred (draw s).1 = true
    · refine ⟨[(draw s).1], (draw s).1, ⟨rfl, by simp, by simp, by simp [h]⟩, ?_, ?_⟩
      · simp only [h, if_true]; exact ⟨e.trace, e.count, e.heard⟩
      · simp only [h, if_true, hp, List.length_singleton]
        refine Prod.ext rfl ?_
        simp only
        generalize s.pollcnt + 1 = l
        rw [w]; rfl
    · obtain ⟨got, l, hpo, he, hw⟩ := ih (draw s).1 { u with pollcnt := u.pollcnt + 1 }
      simp only [h, Bool.false_eq_true, if_false]
      refine ⟨(draw s).1 :: got, l, ⟨?_, ?_, ?_, ?_⟩, ?_, hw.trans ?_⟩
      · rw [List.getLast?_cons, hpo.ends]; rfl
      · have := hpo.within; simp; omega
      · intro b hb
        rw [List.dropLast_cons_of_ne_nil hpo.ne_nil] at hb
        rcases List.mem_cons.1 hb with rfl | hb
        · simpa using h
        · exact hpo.misses b hb
      · intro hl; have := hpo.spent hl; simp; omega
      · exact (e.trans ⟨he.trace, he.count, he.heard⟩).cast (by simp [hs])
      · generalize (pollLoop _ _ _ _ _).2 = t
        simp only [List.length_cons, hp]
        rw [show s.pollcnt + (got.length + 1) = s.pollcnt + 1 + got.length by omega]
        refine Prod.ext rfl ?_
        simp only
        generalize s.pollcnt + 1 + got.length = l
        rw [w]; rfl

/-- Everything `poll` does with a bound of at least 1 (R180). -/
theorem poll_spec (bound : Nat) (h : 1 ≤ bound) (pred : Byte → Bool) (out : Byte) (s : State) :
    ∃ got l, Polled bound pred got l ∧ Emitted s (poll bound pred out s).2 (listenEvents s.sel out got) ∧
      poll bound pred out s =
        (⟨pred l, l, got.length⟩, { withBus (poll bound pred out s).2 s with pollcnt := got.length }) := by
  obtain ⟨k, rfl⟩ : ∃ k, bound = k + 1 := ⟨bound - 1, by omega⟩
  obtain ⟨got, l, hp, he, hw⟩ := pollLoop_spec pred out k s.rxb { s with pollcnt := 0 }
  refine ⟨got, l, hp, ⟨he.trace, he.count, he.heard⟩, hw.trans ?_⟩
  simp only [Nat.zero_add]; rfl

/-! The command engine. -/

theorem sendFrame_spec (n : Nat) (s : State) :
    ∃ heard, heard.length = n ∧
      Emitted s (sendFrame n s) (xfers s.sel ((List.range' s.framei n).map (frameByte s.frame)) heard) ∧
      sendFrame n s = { withBus (sendFrame n s) s with framei := s.framei + n } := by
  induction n generalizing s with
  | zero => exact ⟨[], rfl, .refl s, rfl⟩
  | succ n ih =>
    have e := exchange_emits (frameByte s.frame s.framei) s
    have w := exchange_withBus (frameByte s.frame s.framei) s
    simp only [sendFrame]
    generalize (exchange (frameByte s.frame s.framei) s).2 = u at e w ⊢
    have hs : u.sel = s.sel := (congrArg State.sel w).trans rfl
    have hl : u.framei = s.framei := (congrArg State.framei w).trans rfl
    have hf : u.frame = s.frame := (congrArg State.frame w).trans rfl
    obtain ⟨heard, hn, he, hw⟩ := ih { u with framei := u.framei + 1 }
    refine ⟨(draw s).1 :: heard, by simp [hn], ?_, hw.trans ?_⟩
    · exact (e.trans ⟨he.trace, he.count, he.heard⟩).cast (by simp [hs, hl, hf, List.range'_succ])
    · generalize sendFrame n _ = t
      rw [← hl, show u.framei + (n + 1) = u.framei + 1 + n by omega]
      generalize u.framei = l
      rw [w]; rfl

/-- Everything `sendLatched` does when the frame is latched and none of it sent (R182). -/
theorem sendLatched_spec (s : State) (h : s.framei = 0) :
    ∃ heard got r, Answered heard got r ∧
      Emitted s (sendLatched s).2 (commandEvents s.sel s.frame heard got) ∧
      sendLatched s =
        (r, { withBus (sendLatched s).2 s with framei := Config.frameLen, pollcnt := got.length, r1 := r }) := by
  obtain ⟨heard, hn, he, hw⟩ := sendFrame_spec Config.frameLen s
  unfold sendLatched
  generalize sendFrame Config.frameLen s = u at he hw ⊢
  obtain ⟨got, r, hp, hpe, hpw⟩ := poll_spec Config.respPollBound (by decide) isResponse Config.pollByte u
  have hs : u.sel = s.sel := (congrArg State.sel hw).trans rfl
  generalize poll Config.respPollBound isResponse Config.pollByte u = p at hpe hpw ⊢
  have h1 : p.1.last = r := by rw [hpw]
  have h2 : p.2 = { withBus p.2 u with pollcnt := got.length } := congrArg Prod.snd hpw
  refine ⟨heard, got, r, ⟨hn, hp⟩, ?_, ?_⟩
  · have := he.trans hpe
    refine ⟨?_, ?_, ?_⟩
    · rw [this.trace, hs]; simp [commandEvents, frameList, h, Config.frameLen, List.range', frameByte]
    · rw [this.count, hs]; simp [commandEvents, frameList, h, Config.frameLen, List.range', frameByte]
    · refine Eq.trans ?_ (this.heard.trans ?_) <;> rw [hs] <;>
        simp [commandEvents, frameList, h, Config.frameLen, List.range', frameByte]
  · simp only [h1]
    refine Prod.ext rfl ?_
    simp only
    generalize r = r'
    generalize p.2 = q at h2
    rw [h2, hw, h, Nat.zero_add]
    rfl

end Sys2Proof.Machine
end

