-- ==== Sys2Proof/Laws/Card.lean ====
section
/-!
SUPPORT. Runs whose bytes received are known: a card whose next answers are listed, a bounded poll read from a given stream,
and what the fixture card of 95_test_vectors.md section 4 takes from the events of a command, a poll and a data packet.
-/

namespace Sys2Proof.Machine

/-! Listed answers. -/

theorem takeAnswers_append (a b : List Byte) (d : Nat) : takeAnswers a.length (a ++ b) d = (a, b, d) := by
  induction a with
  | nil => rfl
  | cons x a ih => simp [takeAnswers, ih]

theorem takeAnswers_listed {n : Nat} {card : List Byte} (h : n ≤ card.length) (d : Nat) :
    takeAnswers n card d = (card.take n, card.drop n, d) := by
  have := takeAnswers_append (card.take n) (card.drop n) d
  simpa [List.length_take, Nat.min_eq_left h] using this

theorem takeAnswers_prefix (n : Nat) (card : List Byte) (d : Nat) :
    (takeAnswers n card d).1 <+: card ∨ card <+: (takeAnswers n card d).1 := by
  rcases Nat.le_total n card.length with h | h
  · rw [takeAnswers_listed h]
    exact .inl (List.take_prefix _ _)
  · obtain ⟨k, rfl⟩ := Nat.exists_eq_add_of_le h
    rw [takeAnswers_add, takeAnswers_listed (Nat.le_refl _)]
    right
    simp

/-- Two polls of the same kind that read the same stream receive the same bytes. -/
theorem Polled.unique {bound : Nat} {pred : Byte → Bool} {g g' x x' : List Byte} {l l' : Byte}
    (h : Polled bound pred g l) (h' : Polled bound pred g' l') (e : g ++ x = g' ++ x') : g = g' ∧ l = l' := by
  have key : ∀ {g g' : List Byte} {l l' : Byte}, Polled bound pred g l → Polled bound pred g' l' → g <+: g' → g = g' := by
    intro g g' l l' h h' hp
    by_contra hne
    obtain ⟨z, rfl⟩ := hp
    have hz : z ≠ [] := by rintro rfl; simp at hne
    have hlast : l ∈ (g ++ z).dropLast := by
      rw [List.dropLast_append_of_ne_nil hz]
      exact List.mem_append_left _ (List.mem_of_getLast? h.ends)
    have hs := h.spent (h'.misses l hlast)
    have hw := h'.within
    have := List.length_pos_of_ne_nil hz
    simp at hw
    omega
  have hg : g = g' := by
    rcases List.prefix_or_prefix_of_prefix (List.prefix_append g x) (e ▸ List.prefix_append g' x') with hp | hp
    · exact key h h' hp
    · exact (key h' h hp).symm
  subst hg
  exact ⟨rfl, by simpa using h.ends.symm.trans h'.ends⟩

/-- A poll that reads a stream up to its first hit receives just that. -/
theorem polled_first {bound : Nat} {pred : Byte → Bool} {miss : List Byte} {b : Byte} (hm : ∀ x ∈ miss, pred x = false)
    (hb : pred b = true) (hl : miss.length < bound) : Polled bound pred (miss ++ [b]) b where
  ends := by simp
  within := by simpa using hl
  misses := by simpa using hm
  spent := by simp [hb]

/-! The fixture card. -/

/-- The next `n` answers of the card while nothing new is queued: its queue, then 0xFF. -/
def queued (q : List Byte) (n : Nat) : List Byte := (q ++ List.replicate n 0xFF#8).take n

@[simp] theorem queued_length (q : List Byte) (n : Nat) : (queued q n).length = n := by simp [queued]

@[simp] theorem queued_zero (q : List Byte) : queued q 0 = [] := rfl

@[simp] theorem queued_nil (n : Nat) : queued [] n = List.replicate n 0xFF#8 := by simp [queued]

theorem queued_cons (b : Byte) (q : List Byte) (n : Nat) : queued (b :: q) (n + 1) = b :: queued q n := by
  simp [queued, List.replicate_succ', ← List.append_assoc]

theorem answers_append (c : FixtureCard) (a b : List Event) :
    c.answers (a ++ b) = (c.answers a).bind (fun d => d.answers b) := by
  induction a generalizing c with
  | nil => rfl
  | cons e a ih =>
    cases e <;> simp only [List.cons_append, FixtureCard.answers, ih]
    split <;> simp

/-- The card ignores FILL while it waits for a command or for the start token. -/
theorem take_fill (c : FixtureCard) (h : c.rx = .awaitingToken ∨ (c.rx = .inactive ∧ c.frame = [])) :
    c.take 0xFF#8 = c := by
  unfold FixtureCard.take
  rcases h with h | ⟨h, k⟩
  · simp [h, Config.dataStartToken]
  · simp [h, k]

/-- Receive-only exchanges of FILL: the card answers from its queue. -/
theorem answers_listen (c : FixtureCard) (got : List Byte)
    (h : c.rx = .awaitingToken ∨ (c.rx = .inactive ∧ c.frame = [])) :
    c.answers (listenEvents true 0xFF#8 got) =
      if got = queued c.q got.length then some { c with q := c.q.drop got.length } else none := by
  induction got generalizing c with
  | nil => simp [FixtureCard.answers]
  | cons b got ih =>
    have hq : ∀ q, ({ c with q := q } : FixtureCard).take 0xFF#8 = { c with q := q } := fun q => take_fill _ h
    cases hc : c.q with
    | nil =>
      have e : c.exchange true 0xFF#8 = (0xFF#8, c) := by
        simp only [FixtureCard.exchange, hc, if_true]
        rw [take_fill c h]
      simp only [listenEvents_cons, FixtureCard.answers, e, ih _ h, List.length_cons, queued_nil, List.replicate_succ,
        List.cons.injEq, List.drop_nil, hc]
      by_cases hb : 0xFF#8 = b
      · simp [← hb]
      · rw [if_neg hb, if_neg (fun k => hb k.1.symm)]
    | cons x q =>
      have e : c.exchange true 0xFF#8 = (x, { c with q := q }) := by simp only [FixtureCard.exchange, hc, if_true, hq]
      simp only [listenEvents_cons, FixtureCard.answers, e, List.length_cons, queued_cons, List.cons.injEq,
        List.drop_succ_cons]
      have := ih { c with q := q } h
      rw [this]
      by_cases hb : x = b
      · simp [← hb]
      · rw [if_neg hb, if_neg (fun k => hb k.1.symm)]

/-- One exchange at the card. -/
theorem answers_xfer (c : FixtureCard) (b : Bool) (o i : Byte) (evs : List Event) :
    c.answers (.xfer b o i :: evs) = if (c.exchange b o).1 = i then (c.exchange b o).2.answers evs else none := rfl

/-- The six bytes of a command: the card answers 0xFF to each, and executes it. -/
theorem answers_frame (c : FixtureCard) (f : Frame) (heard : List Byte) (hl : heard.length = 6) (hr : c.rx = .inactive)
    (hf : c.frame = []) (hq : c.q = []) (hb : f.b0.extractLsb' 6 2 = 0b01#2) :
    c.answers (xfers true (frameList f) heard) =
      if heard = List.replicate 6 0xFF#8 then
        some { ({ c with frame := [f.b0, f.b1, f.b2, f.b3, f.b4] } : FixtureCard).execute (frameList f) with frame := [] }
      else none := by
  have step : ∀ (fr : List Byte) (o : Byte), fr ≠ [] → fr.length + 1 < 6 →
      ({ c with frame := fr } : FixtureCard).exchange true o = (0xFF#8, { c with frame := fr ++ [o] }) := by
    intro fr o hn h6
    match fr, hn with
    | x :: xs, _ =>
      have : ¬ (x :: xs ++ [o]).length = 6 := by simp at h6 ⊢; omega
      simp only [FixtureCard.exchange, FixtureCard.take, hq, hr, if_true, if_neg this]
  have last : ∀ (x0 x1 x2 x3 x4 o : Byte), ({ c with frame := [x0, x1, x2, x3, x4] } : FixtureCard).exchange true o =
      (0xFF#8, { ({ c with frame := [x0, x1, x2, x3, x4] } : FixtureCard).execute [x0, x1, x2, x3, x4, o] with frame := [] }) := by
    intro x0 x1 x2 x3 x4 o
    have : (x0 :: [x1, x2, x3, x4] ++ [o]).length = 6 := rfl
    simp only [FixtureCard.exchange, FixtureCard.take, hq, hr, if_true, if_pos this]
    rfl
  have first : c.exchange true f.b0 = (0xFF#8, { c with frame := [f.b0] }) := by
    simp only [FixtureCard.exchange, FixtureCard.take, hq, hr, hf, hb, if_true]
  match heard, hl with
  | [h0, h1, h2, h3, h4, h5], _ =>
    simp only [frameList, xfers_cons, xfers_nil]
    rw [answers_xfer, first]
    rw [answers_xfer, step [f.b0] f.b1 (by simp) (by simp)]
    simp only [List.cons_append, List.nil_append]
    rw [answers_xfer, step [f.b0, f.b1] f.b2 (by simp) (by simp)]
    simp only [List.cons_append, List.nil_append]
    rw [answers_xfer, step [f.b0, f.b1, f.b2] f.b3 (by simp) (by simp)]
    simp only [List.cons_append, List.nil_append]
    rw [answers_xfer, step [f.b0, f.b1, f.b2, f.b3] f.b4 (by simp) (by simp)]
    simp only [List.cons_append, List.nil_append]
    rw [answers_xfer, last, FixtureCard.answers]
    by_cases k : [h0, h1, h2, h3, h4, h5] = List.replicate 6 0xFF#8
    · rw [if_pos k]
      simp only [List.replicate, List.cons.injEq, and_true] at k
      obtain ⟨rfl, rfl, rfl, rfl, rfl, rfl⟩ := k
      rfl
    · rw [if_neg k]
      split_ifs with k0 k1 k2 k3 k4 k5
      · exact absurd (by rw [← k0, ← k1, ← k2, ← k3, ← k4, ← k5]; rfl) k
      all_goals rfl

/-- The bytes of a data packet up to the last but one: the card collects them. -/
theorem answers_collect (c : FixtureCard) (outs ins got : List Byte) (hl : outs.length = ins.length) (hq : c.q = [])
    (hn : got.length + outs.length < 514) :
    ({ c with rx := .collecting got } : FixtureCard).answers (xfers true outs ins) =
      if ins = List.replicate outs.length 0xFF#8 then some { c with rx := .collecting (got ++ outs) } else none := by
  induction outs generalizing ins got with
  | nil =>
    cases ins with
    | nil => simp [FixtureCard.answers]
    | cons _ _ => simp at hl
  | cons o outs ih =>
    cases ins with
    | nil => simp at hl
    | cons i ins =>
      have e : ({ c with rx := .collecting got } : FixtureCard).exchange true o =
          (0xFF#8, { c with rx := .collecting (got ++ [o]) }) := by
        simp only [List.length_cons] at hn
        have hne : (got ++ [o]).length ≠ 514 := by simp; omega
        simp only [FixtureCard.exchange, FixtureCard.take, hq, if_true, if_neg hne]
      simp only [List.length_cons, Nat.add_right_cancel_iff] at hl hn
      have := ih ins (got ++ [o]) hl (by simp; omega)
      rw [xfers_cons, answers_xfer, e, this]
      simp only [List.length_cons, List.replicate_succ, List.cons.injEq, List.append_assoc, List.singleton_append]
      by_cases hi : 0xFF#8 = i
      · simp [← hi]
      · rw [if_neg hi, if_neg (fun k => hi k.1.symm)]

/-- The card after a data packet of the payload `data`. -/
def afterPacket (c : FixtureCard) (data : List Byte) : FixtureCard :=
  if writeAccepted c.dataResponse then
    { c with q := List.replicate c.busyN 0x00#8, rx := .inactive, store := fun i => if i = c.widx then data else c.store i }
  else { c with q := [], rx := .inactive }

/-- A data packet, with the default FILL: the card answers 0xFF up to the second dummy checksum byte, then its response. -/
theorem answers_packet (c : FixtureCard) (p : Params) (data heard : List Byte) (d : Byte) (hp : p.fill = 0xFF#8)
    (hd : data.length = 512) (hh : heard.length = 515) (hr : c.rx = .awaitingToken) (hf : c.frame = []) (hq : c.q = []) :
    c.answers (packetEvents p data heard d) =
      if heard = List.replicate 515 0xFF#8 ∧ d = c.dataResponse then some (afterPacket c data) else none := by
  obtain ⟨h0, mid, h1, rfl, hm⟩ : ∃ h0 mid h1, heard = h0 :: (mid ++ [h1]) ∧ mid.length = 513 := by
    obtain ⟨h0, rest, rfl⟩ := List.exists_cons_of_ne_nil (l := heard) (by rintro rfl; simp at hh)
    rw [List.length_cons] at hh
    have hne : rest ≠ [] := by rintro rfl; simp at hh
    exact ⟨h0, rest.dropLast, rest.getLast hne, by rw [List.dropLast_append_getLast], by rw [List.length_dropLast]; omega⟩
  have he : packetEvents p data (h0 :: (mid ++ [h1])) d =
      .xfer true 0xFE#8 h0 :: (xfers true (data ++ [0xFF#8]) mid ++ [.xfer true 0xFF#8 h1, .xfer true 0xFF#8 d]) := by
    have e : xfers true ((data ++ [0xFF#8]) ++ [0xFF#8, 0xFF#8]) (mid ++ [h1, d]) =
        xfers true (data ++ [0xFF#8]) mid ++ xfers true [0xFF#8, 0xFF#8] [h1, d] := xfers_append _ (by simp [hd, hm])
    simpa [packetEvents, hp] using e
  have e0 : c.exchange true 0xFE#8 = (0xFF#8, { c with rx := .collecting [] }) := by
    simp only [FixtureCard.exchange, FixtureCard.take, hq, hr, Config.dataStartToken, if_true]
  have e1 : ({ c with rx := .collecting (data ++ [0xFF#8]) } : FixtureCard).exchange true 0xFF#8 =
      (0xFF#8, if writeAccepted c.dataResponse then
        { c with
          q := c.dataResponse :: List.replicate c.busyN 0x00#8
          rx := .inactive
          store := fun i => if i = c.widx then data else c.store i }
        else { c with q := [c.dataResponse], rx := .inactive }) := by
    have h514 : (data ++ [0xFF#8] ++ [0xFF#8]).length = 514 := by simp [hd]
    simp only [FixtureCard.exchange, FixtureCard.take, hq, if_true, if_pos h514, List.nil_append, List.singleton_append]
    have ht : (data ++ [0xFF#8] ++ [0xFF#8]).take 512 = data := by
      rw [List.append_assoc, List.take_append_of_le_length (by omega), List.take_of_length_le (by omega)]
    rw [ht]
  have e2 : ∀ (store : U32 → List Byte) (q : List Byte),
      ({ c with q := c.dataResponse :: q, rx := .inactive, store := store } : FixtureCard).exchange true 0xFF#8 =
        (c.dataResponse, { c with q := q, rx := .inactive, store := store }) := by
    intro store q
    simp only [FixtureCard.exchange, if_true]
    exact congrArg _ (take_fill { c with q := q, rx := .inactive, store := store } (.inr ⟨rfl, hf⟩))
  have hrep : (h0 :: (mid ++ [h1]) = List.replicate 515 0xFF#8) ↔
      h0 = 0xFF#8 ∧ mid = List.replicate 513 0xFF#8 ∧ h1 = 0xFF#8 := by
    have h513 : List.replicate 514 0xFF#8 = List.replicate 513 0xFF#8 ++ [0xFF#8] := List.replicate_succ' ..
    rw [List.replicate_succ, List.cons.injEq, h513]
    constructor
    · rintro ⟨a, b⟩
      obtain ⟨b, c⟩ := List.append_inj b (by rw [hm, List.length_replicate])
      exact ⟨a, b, by simpa using c⟩
    · rintro ⟨a, b, c⟩
      exact ⟨a, by rw [b, c]⟩
  have e3 := answers_collect c (data ++ [0xFF#8]) mid [] (by rw [List.length_append, hd, hm]; rfl) hq
    (by rw [List.length_append, hd]; decide)
  rw [he, answers_xfer, e0]
  simp only [answers_append, e3, List.nil_append, List.length_append, hd, List.length_singleton, Nat.reduceAdd, hrep]
  by_cases k0 : 0xFF#8 = h0
  · by_cases k1 : mid = List.replicate 513 0xFF#8
    · rw [if_pos k0, if_pos k1, Option.bind_some, answers_xfer, e1]
      by_cases k2 : 0xFF#8 = h1
      · have k : h0 = 0xFF#8 ∧ mid = List.replicate 513 0xFF#8 ∧ h1 = 0xFF#8 := ⟨k0.symm, k1, k2.symm⟩
        rw [if_pos k2, answers_xfer]
        simp only [k, true_and]
        by_cases k3 : writeAccepted c.dataResponse = true
        · simp only [k3, if_true, e2, afterPacket, FixtureCard.answers, eq_comm (b := d)]
        · have := e2 c.store []
          simp only [k3, if_false, Bool.false_eq_true, this, afterPacket, FixtureCard.answers, eq_comm (b := d)]
      · rw [if_neg k2, if_neg (fun k => k2 k.1.2.2.symm)]
    · rw [if_pos k0, if_neg k1, Option.bind_none, if_neg (fun k => k1 k.1.2.1)]
  · rw [if_neg k0, if_neg (fun k => k0 k.1.1.symm)]

/-! Commands 17 and 24 at a card that waits for a command. -/

/-- The card after the six bytes of command 17. -/
def afterRead (c : FixtureCard) (arg : U32) (frame : List Byte) : FixtureCard :=
  { c with
    acmd := false
    frame := frame
    q := 0x00#8 :: List.replicate c.tokDelay 0xFF#8 ++ 0xFE#8 :: c.store arg ++ [0x00#8, 0x00#8] }

/-- The card after the six bytes of command 24. -/
def afterWrite (c : FixtureCard) (arg : U32) (frame : List Byte) : FixtureCard :=
  { c with acmd := false, frame := frame, q := [0x00#8], rx := .awaitingToken, widx := arg }

/-- The argument a card reads from a frame is the one the frame was made of (R93). -/
theorem frame_arg (arg : U32) :
    (arg.extractLsb' 24 8 ++ arg.extractLsb' 16 8 ++ arg.extractLsb' 8 8 ++ arg.extractLsb' 0 8 : U32) = arg := by
  ext i hi
  simp only [BitVec.getElem_append, BitVec.getElem_extractLsb']
  split <;> [skip; split <;> [skip; split]] <;> rw [BitVec.getElem_eq_testBit_toNat] <;> congr 1 <;> omega

theorem execute_read (c : FixtureCard) (p : Params) (arg : U32) (h : c.idle = false) :
    c.execute (frameList (commandFrame p Config.opReadSingleBlock arg)) = afterRead c arg c.frame := by
  have ho : (commandByte Config.opReadSingleBlock).extractLsb' 0 6 = 17#6 := by decide
  simp only [FixtureCard.execute, afterRead, frameList, commandFrame, frameOf, List.getD_cons_zero, List.getD_cons_succ, ho,
    frame_arg, h]
  rfl

theorem execute_write (c : FixtureCard) (p : Params) (arg : U32) (h : c.idle = false) :
    c.execute (frameList (commandFrame p Config.opWriteBlock arg)) = afterWrite c arg c.frame := by
  have ho : (commandByte Config.opWriteBlock).extractLsb' 0 6 = 24#6 := by decide
  simp only [FixtureCard.execute, afterWrite, frameList, commandFrame, frameOf, List.getD_cons_zero, List.getD_cons_succ, ho,
    frame_arg, h]
  rfl

/-- A response poll that hears the queue `0x00 :: q` hears just the 0x00. -/
theorem response_clear {got : List Byte} {r : Byte} {q : List Byte} (h : Polled Config.respPollBound isResponse got r)
    (e : got = queued (0x00#8 :: q) got.length) : got = [0x00#8] ∧ r = 0x00#8 := by
  have h0 : Polled Config.respPollBound isResponse [0x00#8] 0x00#8 :=
    polled_first (miss := []) (by simp) (by decide) (by decide)
  refine h.unique (x := []) (x' := got.tail) h0 ?_
  match got, h.ne_nil with
  | g :: gs, _ =>
    rw [List.length_cons, queued_cons, List.cons.injEq] at e
    simp [e.1]

/-- The first byte of a frame is a command byte (R91). -/
theorem frame_tag (p : Params) (opcode : U6) (arg : U32) : (commandFrame p opcode arg).b0.extractLsb' 6 2 = 0b01#2 := by
  change (commandByte opcode).extractLsb' 6 2 = 0b01#2
  revert opcode
  decide

/-- A command of a sector operation, answered 0x00: the card's bytes, and the card after it. -/
theorem answers_command {c d : FixtureCard} {f : Frame} {heard got : List Byte} {q : List Byte} {m : FixtureCard}
    (hc : c.Quiet) (hb : f.b0.extractLsb' 6 2 = 0b01#2) (h : Answered heard got 0#8)
    (hm : ({ c with frame := [f.b0, f.b1, f.b2, f.b3, f.b4] } : FixtureCard).execute (frameList f) = m)
    (hq : m.q = 0x00#8 :: q) (hr : m.rx = .awaitingToken ∨ m.rx = .inactive)
    (ha : c.answers (commandEvents true f heard got) = some d) :
    heard = List.replicate 6 0xFF#8 ∧ got = [0x00#8] ∧ d = { m with frame := [], q := q } := by
  rw [commandEvents, answers_append, answers_frame c f heard h.frame hc.rx hc.frame hc.q hb] at ha
  split at ha
  case isFalse => simp at ha
  case isTrue h6 =>
    rw [Option.bind_some, hm] at ha
    change FixtureCard.answers { m with frame := [] } (listenEvents true 0xFF#8 got) = some d at ha
    rw [answers_listen _ _ (by rcases hr with hr | hr <;> simp [hr])] at ha
    split at ha
    case isFalse => simp at ha
    case isTrue hg =>
      simp only [hq] at hg
      obtain ⟨rfl, -⟩ := response_clear h.response hg
      refine ⟨h6, rfl, ?_⟩
      simpa [hq] using ha.symm

/-- The card answers a command it answers with 0x00. -/
theorem answers_command_clear {c : FixtureCard} {f : Frame} {q : List Byte} {m : FixtureCard} (hc : c.Quiet)
    (hb : f.b0.extractLsb' 6 2 = 0b01#2)
    (hm : ({ c with frame := [f.b0, f.b1, f.b2, f.b3, f.b4] } : FixtureCard).execute (frameList f) = m)
    (hq : m.q = 0x00#8 :: q) (hr : m.rx = .awaitingToken ∨ m.rx = .inactive) :
    c.answers (commandEvents true f (List.replicate 6 0xFF#8) [0x00#8]) = some { m with frame := [], q := q } := by
  rw [commandEvents, answers_append, answers_frame c f _ (by simp) hc.rx hc.frame hc.q hb, if_pos rfl, Option.bind_some, hm]
  change FixtureCard.answers { m with frame := [] } (listenEvents true 0xFF#8 [0x00#8]) = _
  rw [answers_listen _ _ (by rcases hr with hr | hr <;> simp [hr]), hq,
    if_pos (by rw [List.length_singleton, queued_cons]; rfl)]
  rfl

/-- A write that ends well leaves its payload in the card, which then waits for the next command. -/
theorem card_write {c d : FixtureCard} {p : Params} {index : U32} {data : List Byte} {evs : List Event} {e : WriteEnd}
    (hc : c.Quiet) (hp : p.fill = 0xFF#8) (hd : data.length = 512)
    (hr : WriteRun p (commandFrame p Config.opWriteBlock index) data evs e) (hok : e.res = .ok)
    (ha : c.answers evs = some d) : d.Quiet ∧ d.store = fun i => if i = index then data else c.store i := by
  cases hr with
  | commandRejected => simp at hok
  | rejected => simp at hok
  | accepted heard got more busy r last a n h b =>
    have hlast : last ≠ 0#8 := by rintro rfl; simp at hok
    rw [answers_append, answers_append, answers_append] at ha
    simp only [Option.bind_eq_some_iff] at ha
    obtain ⟨c3, ⟨c2, ⟨c1, h1, h2⟩, h3⟩, h4⟩ := ha
    obtain ⟨-, -, rfl⟩ := answers_command (q := []) hc (frame_tag p _ index) a
      (execute_write { c with frame := _ } p index hc.idle) rfl (.inl rfl) h1
    rw [answers_packet _ p data more r hp hd (by omega) rfl rfl rfl] at h2
    split at h2
    case isFalse => simp at h2
    case isTrue hk =>
      obtain ⟨rfl, rfl⟩ : c2 = _ ∧ r = c.dataResponse := ⟨(Option.some.inj h2).symm, hk.2⟩
      simp only [afterPacket, afterWrite, h, if_true, hp] at h3
      rw [answers_listen _ _ (.inr ⟨rfl, rfl⟩)] at h3
      split at h3
      case isFalse => simp at h3
      case isTrue hb =>
        obtain rfl := Option.some.inj h3
        obtain rfl : _ = d := Option.some.inj h4
        refine ⟨⟨hc.idle, ?_, rfl, rfl⟩, rfl⟩
        simp only [List.drop_eq_nil_iff, List.length_replicate]
        by_contra hlt
        simp only [not_le] at hlt
        have : last = 0#8 := by
          have hl := b.ends
          rw [hb, queued, List.take_append_of_le_length (by simp; omega), List.take_replicate] at hl
          rw [List.getLast?_replicate] at hl
          split at hl <;> simp at hl
          exact hl.symm
        exact hlast this

/-- A read that ends well delivers the sector the card holds. -/
theorem card_read {c d : FixtureCard} {p : Params} {index : U32} {evs : List Event} {e : ReadEnd}
    (hc : c.Quiet) (hp : p.fill = 0xFF#8) (hs : (c.store index).length = 512)
    (hr : ReadRun p (commandFrame p Config.opReadSingleBlock index) evs e) (hok : e.res = .ok)
    (ha : c.answers evs = some d) : e.data = c.store index := by
  cases hr with
  | rejected => simp at hok
  | timeout => simp at hok
  | done heard got toks data crc a b h k =>
    rw [answers_append, answers_append] at ha
    simp only [Option.bind_eq_some_iff] at ha
    obtain ⟨c2, ⟨c1, h1, h2⟩, -⟩ := ha
    obtain ⟨-, -, rfl⟩ := answers_command
      (q := List.replicate c.tokDelay 0xFF#8 ++ 0xFE#8 :: c.store index ++ [0x00#8, 0x00#8]) hc (frame_tag p _ index) a
      (execute_read { c with frame := _ } p index hc.idle) rfl (.inr hc.rx) h1
    rw [hp, answers_listen _ _ (.inr ⟨by exact hc.rx, by rfl⟩)] at h2
    split at h2
    case isFalse => simp at h2
    case isTrue hb =>
      have wide : Polled (Config.tokenPollBound + c.tokDelay + 1) isStartToken toks 0xFE#8 :=
        ⟨b.ends, by have := b.within; omega, b.misses, fun k => absurd k (by decide)⟩
      have first : Polled (Config.tokenPollBound + c.tokDelay + 1) isStartToken (List.replicate c.tokDelay 0xFF#8 ++ [0xFE#8])
          0xFE#8 := polled_first (by intro x hx; rw [List.eq_of_mem_replicate hx]; decide) (by decide) (by simp +arith)
      have e := List.take_append_drop (toks ++ data ++ crc).length
        (List.replicate c.tokDelay 0xFF#8 ++ 0xFE#8 :: c.store index ++ [0x00#8, 0x00#8] ++
          List.replicate (toks ++ data ++ crc).length 0xFF#8)
      rw [show List.take _ _ = toks ++ data ++ crc from hb.symm] at e
      simp only [List.append_assoc, List.cons_append] at e
      rw [← List.singleton_append (x := 0xFE#8), ← List.append_assoc _ [0xFE#8]] at e
      obtain ⟨rfl, -⟩ := wide.unique first e
      exact (List.append_inj (List.append_cancel_left e) (by rw [h, hs]; rfl)).1

end Sys2Proof.Machine
end

