-- ==== Sys2Proof/Laws/Command.lean ====
section
/-!
SUPPORT. What a whole command does: the command engine (42_command_engine.md R182) and a command in a bracket of its own (43_init_sequencer.md
R205).
-/

namespace Sys2Proof.Machine

/-- Everything `sendCommand` does (R182). -/
theorem sendCommand_spec (opcode : U6) (arg : U32) (s : State) :
    ∃ heard got r, Answered heard got r ∧
      Emitted s (sendCommand opcode arg s).2 (commandEvents s.sel (commandFrame s.cfg opcode arg) heard got) ∧
      sendCommand opcode arg s =
        (r, { withBus (sendCommand opcode arg s).2 s with
          opc := opcode
          arg := arg
          frame := commandFrame s.cfg opcode arg
          framei := Config.frameLen
          crc := if crcComputed s.cfg opcode then crc7 (frameHead opcode arg) else s.crc
          pollcnt := got.length
          r1 := r }) := by
  obtain ⟨heard, got, r, ha, he, hw⟩ := sendLatched_spec (latchCommand opcode arg s) rfl
  refine ⟨heard, got, r, ha, ⟨he.trace, he.count, he.heard⟩, ?_⟩
  unfold sendCommand
  refine hw.trans (Prod.ext rfl ?_)
  generalize (sendLatched (latchCommand opcode arg s)).2 = t
  rfl

/-- Everything a command in a bracket of its own does (R205). -/
theorem bracketCommand_spec (opcode : U6) (arg : U32) (s : State) :
    ∃ evs r n, 1 ≤ n ∧ n ≤ Config.respPollBound ∧ Bracket s.cfg opcode arg evs r ∧
      Emitted s (bracketCommand opcode arg s).2 evs ∧
      bracketCommand opcode arg s =
        (r, { withBus (bracketCommand opcode arg s).2 s with
          sel := false
          opc := opcode
          arg := arg
          frame := commandFrame s.cfg opcode arg
          framei := Config.frameLen
          crc := if crcComputed s.cfg opcode then crc7 (frameHead opcode arg) else s.crc
          pollcnt := n
          r1 := r }) := by
  obtain ⟨heard, got, r, ha, he, hw⟩ := sendCommand_spec opcode arg (select s)
  have e := ((select_emits s).trans he).trans (deselect_emits (sendCommand opcode arg (select s)).2)
  refine ⟨_, r, got.length, ha.response.pos, ha.response.within,
    ⟨_, ⟨heard, got, ha, rfl⟩, rfl⟩, e.cast ?_, ?_⟩
  · simp
  · have h1 := congrArg Prod.fst hw
    have h2 := congrArg Prod.snd hw
    simp only at h1 h2
    unfold bracketCommand
    refine Prod.ext h1 ?_
    simp only
    generalize (sendCommand opcode arg (select s)).2 = t at h2
    rw [h2]; rfl

/-- Everything `drainTail` does from index 0, for the four bytes of opcode 8 (R204): they stand in `R7TAIL` in order. -/
theorem drainTail_four (s : State) (h : s.loopidx = 0) :
    ∃ a b c d, Emitted s (drainTail Config.r7TailLen s) (listenEvents s.sel s.cfg.fill [a, b, c, d]) ∧
      drainTail Config.r7TailLen s =
        { withBus (drainTail Config.r7TailLen s) s with loopidx := Config.r7TailLen, r7tail := ⟨a, b, c, d⟩ } := by
  obtain ⟨got, hn, he, hw⟩ := drainTail_spec Config.r7TailLen s
  match got, hn with
  | [a, b, c, d], _ =>
    refine ⟨a, b, c, d, he, hw.trans ?_⟩
    generalize drainTail Config.r7TailLen s = t
    simp only [h, Nat.zero_add]
    rfl

end Sys2Proof.Machine
end

