-- ==== Sys2Proof/Laws/Invariant.lean ====
section
/-!
SUPPORT. The invariant of an operation in flight, one definition of the tables R189, R211 and R254 at a time.
-/

namespace Sys2Proof.Machine

/-- The part of the invariant that holds in the middle of a step too: the Session, host memory, the parameters. -/
structure Sess (s : State) : Prop where
  r : s.ready = true ↔ s.fsm = .ready
  c : s.ready = true → s.sectorCount = s.cfg.sectorCountFixed
  m : s.mem.wf
  p : s.cfg.wf

/-- A running operation, whatever its phase. -/
structure Flt (s : State) : Prop where
  sess : Sess s
  busy : s.busy = true
  seq : isSequence (flow s) = true ↔ settled s.fsm = false

theorem Sess.congr {s t : State} (h : Sess s) (e : (t.cfg, t.ready, t.fsm, t.sectorCount) = (s.cfg, s.ready, s.fsm, s.sectorCount)) (m : t.mem.wf) : Sess t := by
  simp only [Prod.mk.injEq] at e
  obtain ⟨e1, e2, e3, e4⟩ := e
  exact ⟨by rw [e2, e3]; exact h.r, by rw [e1, e2, e4]; exact h.c, m, by rw [e1]; exact h.p⟩

theorem flow_congr {s t : State} (e : t.running = s.running) : flow t = flow s := by unfold flow; rw [e]

theorem Flt.congr {s t : State} (h : Flt s) (e : (t.cfg, t.ready, t.fsm, t.sectorCount) = (s.cfg, s.ready, s.fsm, s.sectorCount)) (m : t.mem.wf)
    (b : t.busy = s.busy) (r : t.running = s.running) : Flt t := by
  refine ⟨h.sess.congr e m, b.trans h.busy, ?_⟩
  simp only [Prod.mk.injEq] at e
  rw [flow_congr r, e.2.2.1]; exact h.seq

/-- A sequence is in a phase of its state (R211). -/
def InSequence (s : State) (p : Phase) : Prop := isSequence (flow s) = true → sequenceFits s.fsm p = true

theorem inSequence_of {s : State} (k : isSequence (flow s) = false) (p : Phase) : InSequence s p := fun e => by rw [k] at e; cases e

theorem inSequence_at {s : State} {f : Fsm} {p : Phase} (h : s.fsm = f) (k : sequenceFits f p = true) : InSequence s p :=
  fun _ => by rw [h]; exact k

theorem Flt.inv {s : State} (h : Flt s) (p : phaseFits (flow s) s.phase = true) (q : InSequence s s.phase) : s.Inv :=
  ⟨h.sess.r, h.sess.c, fun hb => (by rw [h.busy] at hb; cases hb), fun _ => ⟨p, h.seq⟩, fun _ => q, h.sess.m, h.sess.p⟩

theorem Sess.done {s : State} (h : Sess s) (f : settled s.fsm = true) (b : s.busy = false) (p : s.phase = .idle) (r : s.running = none) : s.Inv :=
  ⟨h.r, h.c, fun _ => ⟨p, r, f⟩, fun hb => by (rw [b] at hb; cases hb), fun hb => by (rw [b] at hb; cases hb), h.m, h.p⟩

theorem done_value {s : State} (h : Sess s) (f : settled s.fsm = true) (v : Delivered) : (deliverValue v s).Inv :=
  (Sess.done (s := deliverValue v s) (h.congr rfl h.m) f rfl rfl rfl)

theorem done_ok {s : State} (h : Sess s) (f : settled s.fsm = true) (v : Delivered) : (deliverOk v s).2.Inv :=
  (Sess.done (s := (deliverOk v s).2) (h.congr rfl h.m) f rfl rfl rfl)

theorem done_raise {s : State} (h : Sess s) (f : settled s.fsm = true) (c : Bool) (e : Result) (he : ∀ a b, e ≠ .initFailure a b) : (raiseError c e s).2.Inv := by
  cases c <;> cases e
  all_goals first
    | exact absurd rfl (he _ _)
    | exact (Sess.done (s := (raiseError _ _ s).2) (h.congr rfl h.m) f rfl rfl rfl)

theorem done_fail {s : State} (h : Sess s) (hr : s.ready = false) (v : Bool) (st : InitStep) (r : Byte) : (failInit v st r s).Inv := by
  have hs : Sess (failInit v st r s) := by
    cases v
    · exact ⟨by simp [failInit, raiseError, deliverValue, hr], by simp [failInit, raiseError, deliverValue, hr], h.m, h.p⟩
    · exact ⟨by simp [failInit, raiseError, deliverValue, hr], by simp [failInit, raiseError, deliverValue, hr], h.m, h.p⟩
  cases v <;> exact Sess.done hs rfl rfl rfl rfl

theorem Flt.notSeq {s : State} (h : Flt s) (k : isSequence (flow s) = false) : settled s.fsm = true := by
  have := h.seq
  rw [k] at this
  simpa using this

theorem Flt.notReady {s : State} (h : Flt s) (k : isSequence (flow s) = true) : s.ready = false ∧ settled s.fsm = false := by
  have h2 := h.seq.1 k
  refine ⟨?_, h2⟩
  cases hr : s.ready
  · rfl
  · have := h.sess.r.1 hr; rw [this] at h2; cases h2
/-- moving fsm to another intermediate state -/
theorem Flt.move {s t : State} (h : Flt s) (k : isSequence (flow s) = true) (e : (t.cfg, t.ready, t.sectorCount, t.busy, t.running, t.mem) = (s.cfg, s.ready, s.sectorCount, s.busy, s.running, s.mem))
    (f : settled t.fsm = false) : Flt t := by
  simp only [Prod.mk.injEq] at e
  obtain ⟨e1, e2, e3, e4, e5, e6⟩ := e
  have hr := (h.notReady k).1
  refine ⟨⟨?_, ?_, by rw [e6]; exact h.sess.m, by rw [e1]; exact h.sess.p⟩, e4.trans h.busy, ?_⟩
  · rw [e2, hr]; simp; intro hx; rw [hx] at f; cases f
  · rw [e2, hr]; simp
  · rw [flow_congr e5, k, f]; simp

theorem issue_inv {s : State} (h : Flt s) (o : U6) (a : U32) (p : phaseFits (flow s) .frame = true) (q : InSequence s .frame) :
    (issue o a s).Inv :=
  (h.congr (t := issue o a s) rfl h.sess.m rfl rfl).inv p q

theorem frame_seq {f : Flow} (k : isSequence f = true) : phaseFits f .frame = true ∧ phaseFits f .r7Drain = true := by
  cases f <;> simp_all [isSequence, phaseFits]

theorem startAttempt_inv {s : State} (h : Flt s) (k : isSequence (flow s) = true) (q : s.fsm = .applicationInit) :
    (startAttempt s).Inv :=
  issue_inv (s := nextAttempt s) (h.congr rfl h.sess.m rfl rfl) _ _ (frame_seq k).1
    (inSequence_at (s := nextAttempt s) q rfl)

theorem afterIfCond_inv {s : State} (h : Flt s) (k : isSequence (flow s) = true) (v : Bool) (r : Byte) : (afterIfCond v r s).Inv := by
  unfold afterIfCond
  dsimp only
  split
  · exact done_fail (s := deselect s) (h.sess.congr rfl h.sess.m) (h.notReady k).1 _ _ _
  · exact startAttempt_inv (s := { deselect s with fsm := .applicationInit, retrycnt := 0 }) (h.move k rfl rfl) k rfl

theorem afterInit_inv {s : State} (h : Flt s) (k : isSequence (flow s) = true) (p : phaseFits (flow s) s.phase = true)
    (q : InSequence s s.phase) (v : Bool) (r : Byte) : (afterInitResponse v r s).Inv := by
  have hn := (h.notReady k).1
  have fail : ∀ st, (failInit v st r (deselect s)).Inv := fun st => done_fail (s := deselect s) (h.sess.congr rfl h.sess.m) hn _ _ _
  unfold afterInitResponse
  split
  · split
    · exact issue_inv (s := { deselect s with fsm := .checkInterfaceCondition }) (h.move k rfl rfl) _ _ (frame_seq k).1 (fun _ => rfl)
    · exact fail _
  · rename_i hf
    split
    · exact (h.congr (t := { startLoop s with phase := .r7Drain }) rfl h.sess.m rfl rfl).inv (frame_seq k).2
        (inSequence_at (s := { startLoop s with phase := .r7Drain }) hf rfl)
    · exact afterIfCond_inv h k v r
  · rename_i hf
    split
    · exact issue_inv (s := noteAppCmd false (deselect s)) (h.congr rfl h.sess.m rfl rfl) _ _ (frame_seq k).1
        (inSequence_at (s := noteAppCmd false (deselect s)) hf rfl)
    · unfold afterAttempt
      dsimp only
      split
      · split
        · exact startAttempt_inv (s := sleep (deselect s)) (h.congr rfl h.sess.m rfl rfl) k hf
        · exact done_fail (s := sleep (deselect s)) (h.sess.congr rfl h.sess.m) hn _ _ _
      · exact issue_inv (s := { deselect s with fsm := .setBlockLength }) (h.move k rfl rfl) _ _ (frame_seq k).1 (fun _ => rfl)
  · split
    · have : Sess (fixCapacity (deselect s)) := ⟨by simp [fixCapacity], by simp [fixCapacity], h.sess.m, h.sess.p⟩
      exact done_ok this rfl _
    · exact fail _
  all_goals exact h.inv p q

theorem failSector_inv {s : State} (h : Flt s) (k : isSequence (flow s) = false) (e : Result) (he : ∀ a b, e ≠ .initFailure a b) : (failSector e s).Inv :=
  done_raise h.sess (h.notSeq k) _ _ he

theorem endSector_inv {s : State} (h : Flt s) (p : phaseFits (flow s) s.phase = true) (q : InSequence s s.phase) :
    (endSector s).Inv := by
  unfold endSector
  split
  · rename_i w a b c hf
    have k : isSequence (flow s) = false := by rw [hf]; rfl
    split
    · have f : phaseFits (flow s) .frame = true := by rw [hf]; cases w <;> rfl
      exact issue_inv (s := attachBuffer (bufferAt c (s.sectno + 1)) (atSector (s.sectno + 1) s)) (h.congr rfl h.sess.m rfl rfl) _ _ f
        (inSequence_of k _)
    · exact done_ok h.sess (h.notSeq k) _
  · rename_i w hf
    exact done_ok h.sess (h.notSeq (by rw [hf]; rfl)) _
  all_goals exact h.inv p q

theorem afterSectorResponse_inv {s : State} (h : Flt s) (w : Bool) (r : Byte) (hf : flow s = .sector w ∨ ∃ a b c, flow s = .sectors w a b c) :
    (afterSectorResponse w r s).Inv := by
  have k : isSequence (flow s) = false := by rcases hf with hf | ⟨a, b, c, hf⟩ <;> rw [hf] <;> rfl
  unfold afterSectorResponse
  split
  · split
    · rename_i hw
      refine (h.congr (t := { s with phase := .wrToken }) rfl h.sess.m rfl rfl).inv ?_ (inSequence_of k _)
      show phaseFits (flow s) .wrToken = true
      rcases hf with hf | ⟨a, b, c, hf⟩ <;> rw [hf, hw] <;> rfl
    · rename_i hw
      simp only [Bool.not_eq_true] at hw
      refine (h.congr (t := { s with pollcnt := 0, phase := .tokenPoll }) rfl h.sess.m rfl rfl).inv ?_ (inSequence_of k _)
      show phaseFits (flow s) .tokenPoll = true
      rcases hf with hf | ⟨a, b, c, hf⟩ <;> rw [hf, hw] <;> rfl
  · exact failSector_inv h k _ (by simp)

theorem afterResponse_inv {s : State} (h : Flt s) (p : phaseFits (flow s) s.phase = true) (q : InSequence s s.phase) (r : Byte) :
    (afterResponse r s).Inv := by
  unfold afterResponse
  split
  · rename_i b hf
    have k := h.notSeq (by rw [hf]; rfl)
    cases b
    · exact done_value (s := s) h.sess k _
    · exact done_value (s := deselect s) (h.sess.congr rfl h.sess.m) k _
  · rename_i hf
    have k := h.notSeq (by rw [hf]; rfl)
    split
    · refine (h.congr (t := { startLoop s with phase := .r7Drain }) rfl h.sess.m rfl rfl).inv ?_ (inSequence_of (by show isSequence (flow s) = false; rw [hf]; rfl) _)
      show phaseFits (flow s) .r7Drain = true
      rw [hf]; rfl
    · exact done_value (s := deselect s) (h.sess.congr rfl h.sess.m) k _
  · rename_i v hf
    exact afterInit_inv h (by rw [hf]; rfl) p q v r
  · rename_i w hf
    exact afterSectorResponse_inv h w r (.inl hf)
  · rename_i w a b c hf
    exact afterSectorResponse_inv h w r (.inr ⟨a, b, c, hf⟩)
  all_goals exact h.inv p q

theorem afterDrain_inv {s : State} (h : Flt s) (p : phaseFits (flow s) s.phase = true) (q : InSequence s s.phase) :
    (afterDrain s).Inv := by
  unfold afterDrain
  split
  · rename_i hf
    exact done_value (s := deselect s) (h.sess.congr rfl h.sess.m) (h.notSeq (by rw [hf]; rfl)) _
  · rename_i v hf
    exact afterIfCond_inv h (by rw [hf]; rfl) v _
  all_goals exact h.inv p q

theorem Inv_flt {s : State} (h : s.Inv) (hb : s.busy = true) : Flt s := ⟨⟨h.readyIff, h.capacity, h.memory, h.params⟩, hb, (h.flight hb).2⟩

theorem notSeq_of {f : Flow} {p : Phase} (h : phaseFits f p = true) (hp : p ≠ .frame ∧ p ≠ .respPoll ∧ p ≠ .r7Drain ∧ p ≠ .resetIdle) : isSequence f = false := by
  cases f <;> simp_all [phaseFits, isSequence]

theorem fit_next {f : Flow} {p q : Phase} (h : phaseFits f p = true)
    (hq : (p = .tokenPoll ∧ q = .rdPayload) ∨ (p = .rdPayload ∧ q = .rdCrc) ∨ (p = .wrToken ∧ q = .wrPayload) ∨ (p = .wrPayload ∧ q = .wrCrc) ∨ (p = .wrCrc ∧ q = .wrResp) ∨ (p = .wrResp ∧ q = .busyPoll)) : phaseFits f q = true := by
  rcases f with _ | b | _ | v | (_ | _) | ⟨(_ | _), a, b, c⟩ | ⟨a, b, c⟩ <;> rcases hq with ⟨rfl, rfl⟩ | ⟨rfl, rfl⟩ | ⟨rfl, rfl⟩ | ⟨rfl, rfl⟩ | ⟨rfl, rfl⟩ | ⟨rfl, rfl⟩ <;> simp_all [phaseFits]

theorem react_inv (b : Byte) (s : State) (h : s.Inv) (hb : s.busy = true) : (react b s).Inv := by
  have f := Inv_flt h hb
  have p := (h.flight hb).1
  have q : InSequence s s.phase := h.sequence hb
  have keep : ∀ t : State, (t.cfg, t.ready, t.fsm, t.sectorCount) = (s.cfg, s.ready, s.fsm, s.sectorCount) → t.mem.wf → t.busy = s.busy → t.running = s.running → t.phase = s.phase → t.Inv := by
    intro t e1 e2 e3 e4 e5
    simp only [Prod.mk.injEq] at e1
    exact (f.congr (by simp only [Prod.mk.injEq]; exact e1) e2 e3 e4).inv (by rw [flow_congr e4, e5]; exact p) (by unfold InSequence; rw [flow_congr e4, e5, e1.2.2.1]; exact q)
  unfold react
  split
  · exact h
  · rename_i hp
    dsimp only
    split
    · exact keep _ rfl f.sess.m rfl rfl rfl
    · have k : isSequence (flow s) = true := by
        rw [hp] at p; clear keep; generalize flow s = f at p ⊢; rcases f with _ | b | _ | v | (_ | _) | ⟨(_ | _), a, b, c⟩ | ⟨a, b, c⟩ <;> simp_all [phaseFits, isSequence]
      exact issue_inv (s := { s with loopidx := s.loopidx + 1, fsm := .goIdle }) (f.move k rfl rfl) _ _ (frame_seq k).1 (fun _ => rfl)
  · rename_i hp
    dsimp only
    split
    · exact keep _ rfl f.sess.m rfl rfl rfl
    · have q2 : InSequence s .respPoll := by
        intro e
        have := q e
        rw [hp] at this
        revert this
        cases s.fsm <;> simp [sequenceFits]
      refine (f.congr (t := { s with framei := s.framei + 1, pollcnt := 0, phase := .respPoll }) rfl f.sess.m rfl rfl).inv ?_ q2
      show phaseFits (flow s) .respPoll = true
      rw [hp] at p; clear keep; generalize flow s = f at p ⊢; rcases f with _ | b | _ | v | (_ | _) | ⟨(_ | _), a, b, c⟩ | ⟨a, b, c⟩ <;> simp_all [phaseFits]
  · rename_i hp
    dsimp only
    split
    · rename_i bd pr o hf
      split
      · exact done_value (s := { s with pollcnt := s.pollcnt + 1 }) (f.sess.congr rfl f.sess.m) (f.notSeq (by have hf : flow s = .polling bd pr o := hf; rw [hf]; rfl)) _
      · exact keep _ rfl f.sess.m rfl rfl rfl
    · split
      · refine afterResponse_inv (s := { s with pollcnt := s.pollcnt + 1, r1 := b }) (f.congr rfl f.sess.m rfl rfl) ?_ q b
        exact p
      · exact keep _ rfl f.sess.m rfl rfl rfl
  · dsimp only
    split
    · exact keep _ rfl f.sess.m rfl rfl rfl
    · exact afterDrain_inv (s := { s with r7tail := tailWith s.r7tail s.loopidx b, loopidx := s.loopidx + 1 }) (f.congr rfl f.sess.m rfl rfl) p q
  · rename_i hp
    have k := notSeq_of p (by simp [hp])
    dsimp only
    split
    · refine (f.congr (t := { startPayload { s with pollcnt := s.pollcnt + 1, tok := b } with phase := .rdPayload }) rfl f.sess.m rfl rfl).inv ?_ (inSequence_of (notSeq_of p (by simp [hp])) _)
      exact fit_next p (.inl ⟨hp, rfl⟩)
    split
    · exact keep _ rfl f.sess.m rfl rfl rfl
    · exact failSector_inv (s := { s with pollcnt := s.pollcnt + 1, tok := b }) (f.congr rfl f.sess.m rfl rfl) k _ (by simp)
  · rename_i hp
    dsimp only
    have m := memWrite_wf f.sess.m (s.bufp + s.byteidx) b
    split
    · exact keep _ rfl m rfl rfl rfl
    · refine (f.congr (t := { startLoop { bufWrite s.byteidx b s with byteidx := s.byteidx + 1 } with phase := .rdCrc }) rfl m rfl rfl).inv ?_ (inSequence_of (notSeq_of p (by simp [hp])) _)
      exact fit_next p (.inr (.inl ⟨hp, rfl⟩))
  · dsimp only
    split
    · exact keep _ rfl f.sess.m rfl rfl rfl
    · exact endSector_inv (s := deselect { s with loopidx := s.loopidx + 1 }) (f.congr rfl f.sess.m rfl rfl) p q
  · rename_i hp
    refine (f.congr (t := { startPayload s with phase := .wrPayload }) rfl f.sess.m rfl rfl).inv ?_ (inSequence_of (notSeq_of p (by simp [hp])) _)
    exact fit_next p (.inr (.inr (.inl ⟨hp, rfl⟩)))
  · rename_i hp
    dsimp only
    split
    · exact keep _ rfl f.sess.m rfl rfl rfl
    · refine (f.congr (t := { startLoop { s with byteidx := s.byteidx + 1 } with phase := .wrCrc }) rfl f.sess.m rfl rfl).inv ?_ (inSequence_of (notSeq_of p (by simp [hp])) _)
      exact fit_next p (.inr (.inr (.inr (.inl ⟨hp, rfl⟩))))
  · rename_i hp
    dsimp only
    split
    · exact keep _ rfl f.sess.m rfl rfl rfl
    · refine (f.congr (t := { s with loopidx := s.loopidx + 1, phase := .wrResp }) rfl f.sess.m rfl rfl).inv ?_ (inSequence_of (notSeq_of p (by simp [hp])) _)
      exact fit_next p (.inr (.inr (.inr (.inr (.inl ⟨hp, rfl⟩)))))
  · rename_i hp
    have k := notSeq_of p (by simp [hp])
    dsimp only
    split
    · refine (f.congr (t := { s with dresp := b, pollcnt := 0, phase := .busyPoll }) rfl f.sess.m rfl rfl).inv ?_ (inSequence_of (notSeq_of p (by simp [hp])) _)
      exact fit_next p (.inr (.inr (.inr (.inr (.inr ⟨hp, rfl⟩)))))
    · exact failSector_inv (s := { s with dresp := b }) (f.congr rfl f.sess.m rfl rfl) k _ (by simp)
  · rename_i hp
    have k := notSeq_of p (by simp [hp])
    dsimp only
    split
    · exact endSector_inv (s := deselect { s with pollcnt := s.pollcnt + 1, busyb := b }) (f.congr rfl f.sess.m rfl rfl) p q
    split
    · exact keep _ rfl f.sess.m rfl rfl rfl
    · exact failSector_inv (s := { s with pollcnt := s.pollcnt + 1, busyb := b }) (f.congr rfl f.sess.m rfl rfl) k _ (by simp)

end Sys2Proof.Machine
end

