-- ==== Sys2Proof/Laws/Counters.lean ====
section
/-!
SUPPORT. `pollcnt` and the sector counters of an operation in flight stay in the ranges of 10_state.md R29, one definition of the
tables R189, R211 and R254 at a time.
-/

namespace Sys2Proof.Machine

theorem polls_idle {s : State} (h : s.busy = false) : s.PollsInRange where
  pollcnt e := by rw [h] at e; cases e
  respPollNext e := by rw [h] at e; cases e
  transferPollNext e := by rw [h] at e; cases e
  sector e := by rw [h] at e; cases e

/-- A request in flight is at a sector below its count. -/
def OnSector (s : State) : Prop :=
  ∀ isWrite first count buf, flow s = .sectors isWrite first count buf → s.sectno < count ∧ s.sectidx = BitVec.ofNat 32 s.sectno

/-- In a phase that polls nothing. -/
theorem polls_quiet {s : State} (n : isPolling (flow s) = false → s.pollcnt ≤ 1000) (a : s.phase ≠ .respPoll) (b : s.phase ≠ .tokenPoll)
    (c : s.phase ≠ .busyPoll) (d : OnSector s) : s.PollsInRange where
  pollcnt _ := n
  respPollNext _ e := absurd e a
  transferPollNext _ e := e.elim (absurd · b) (absurd · c)
  sector _ := d

/-- A poll about to begin. -/
theorem polls_fresh {s : State} (n : s.pollcnt = 0) (d : OnSector s) : s.PollsInRange where
  pollcnt _ _ := by rw [n]; exact Nat.zero_le _
  respPollNext _ _ := by
    rw [n]
    cases flow s <;> simp [responseBound]
  transferPollNext _ _ := by rw [n]; decide
  sector _ := d

theorem polls_issue {s : State} (d : OnSector s) (o : U6) (a : U32) : (issue o a s).PollsInRange := polls_fresh rfl d

theorem polls_failInit (v : Bool) (st : InitStep) (r : Byte) (s : State) : (failInit v st r s).PollsInRange := by
  refine polls_idle ?_
  cases v <;> rfl

theorem polls_failSector (e : Result) (s : State) : (failSector e s).PollsInRange := polls_idle (raiseError_busy _ _ _)

theorem onSector_sequence {s : State} (k : isSequence (flow s) = true) : OnSector s := fun w f c b e => by rw [e] at k; cases k

theorem polls_afterIfCond {s : State} (k : isSequence (flow s) = true) (v : Bool) (r : Byte) : (afterIfCond v r s).PollsInRange := by
  unfold afterIfCond
  dsimp only
  split
  · exact polls_failInit _ _ _ _
  · exact polls_fresh rfl (onSector_sequence k)

theorem polls_afterInit {s : State} (k : isSequence (flow s) = true) (n : s.pollcnt ≤ 1000) (p : s.phase = .respPoll)
    (q : InSequence s s.phase) (v : Bool) (r : Byte) : (afterInitResponse v r s).PollsInRange := by
  have f := q k
  rw [p] at f
  have d := onSector_sequence k
  unfold afterInitResponse
  split
  · split
    · exact polls_fresh rfl d
    · exact polls_failInit _ _ _ _
  · split
    · exact polls_quiet (s := { startLoop s with phase := .r7Drain }) (fun _ => n) (by simp) (by simp) (by simp) d
    · exact polls_afterIfCond k _ _
  · split
    · exact polls_fresh rfl d
    · unfold afterAttempt
      dsimp only
      split
      · split
        · exact polls_fresh rfl d
        · exact polls_failInit _ _ _ _
      · exact polls_fresh rfl d
  · split
    · exact polls_idle rfl
    · exact polls_failInit _ _ _ _
  all_goals
    rename_i e
    rw [e] at f
    cases f

/-- The flows a sector can end in, in the phases a sector ends in. -/
theorem polls_endSector {s : State} (p : phaseFits (flow s) s.phase = true) (h : s.phase = .rdCrc ∨ s.phase = .busyPoll) :
    (endSector s).PollsInRange := by
  unfold endSector
  split
  · rename_i w a n c hf
    split
    · rename_i hl
      refine polls_fresh rfl ?_
      intro w2 a2 n2 c2 e
      have e : flow s = .sectors w2 a2 n2 c2 := e
      rw [hf] at e
      cases e
      exact ⟨hl, rfl⟩
    · exact polls_idle rfl
  · exact polls_idle rfl
  all_goals
    rename_i hf
    rw [hf] at p
    rcases h with h | h <;> rw [h] at p <;> cases p

theorem polls_afterSectorResponse {s : State} (n : s.pollcnt ≤ 1000) (d : OnSector s) (w : Bool) (r : Byte) :
    (afterSectorResponse w r s).PollsInRange := by
  unfold afterSectorResponse
  split
  · split
    · exact polls_quiet (s := { s with phase := .wrToken }) (fun _ => n) (by simp) (by simp) (by simp) d
    · exact polls_fresh rfl d
  · exact polls_failSector _ _

theorem polls_afterResponse {s : State} (n : s.pollcnt ≤ 1000) (d : OnSector s) (p : phaseFits (flow s) s.phase = true)
    (h : s.phase = .respPoll) (k : isPolling (flow s) = false) (q : InSequence s s.phase) (r : Byte) : (afterResponse r s).PollsInRange := by
  unfold afterResponse
  split
  · exact polls_idle rfl
  · split
    · exact polls_quiet (s := { startLoop s with phase := .r7Drain }) (fun _ => n) (by simp) (by simp) (by simp) d
    · exact polls_idle rfl
  · rename_i v hf
    exact polls_afterInit (by rw [hf]; rfl) n h q v r
  · exact polls_afterSectorResponse n d _ _
  · exact polls_afterSectorResponse n d _ _
  · rename_i hf
    rw [hf] at p; cases p
  · rename_i hf
    rw [hf] at k; cases k

theorem polls_afterDrain {s : State} (p : phaseFits (flow s) s.phase = true) (h : s.phase = .r7Drain) : (afterDrain s).PollsInRange := by
  unfold afterDrain
  split
  · exact polls_idle rfl
  · rename_i v hf
    exact polls_afterIfCond (by rw [hf]; rfl) v _
  all_goals
    rename_i hf
    rw [hf, h] at p
    first
      | cases p
      | (rename_i w _ _ _; cases w <;> cases p)
      | (rename_i w; cases w <;> cases p)

theorem polls_react (b : Byte) {s : State} (i : s.Inv) (hb : s.busy = true) (h : s.PollsInRange) : (react b s).PollsInRange := by
  have p := (i.flight hb).1
  have q : InSequence s s.phase := i.sequence hb
  have d : OnSector s := h.sector hb
  have n := h.pollcnt hb
  unfold react
  split
  · exact h
  · rename_i hp
    dsimp only
    split
    · exact polls_quiet (s := { s with loopidx := s.loopidx + 1 }) n (by simp [hp]) (by simp [hp]) (by simp [hp]) d
    · exact polls_fresh rfl d
  · rename_i hp
    dsimp only
    split
    · exact polls_quiet (s := { s with framei := s.framei + 1 }) n (by simp [hp]) (by simp [hp]) (by simp [hp]) d
    · exact polls_fresh rfl d
  · rename_i hp
    have m := h.respPollNext hb hp
    dsimp only
    split
    · rename_i bd pr o hf
      have hf : flow s = .polling bd pr o := hf
      split
      · exact polls_idle rfl
      · rename_i hc
        simp only [Bool.or_eq_true, decide_eq_true_eq, not_or, not_le] at hc
        refine ⟨fun _ e => ?_, fun _ _ => ?_, fun _ e => ?_, fun _ => d⟩
        · have e : isPolling (flow s) = false := e
          rw [hf] at e; cases e
        · show s.pollcnt + 1 < responseBound (flow s)
          rw [hf]
          exact hc.2.trans_le (le_max_right _ _)
        · have e : s.phase = .tokenPoll ∨ s.phase = .busyPoll := e
          simp [hp] at e
    · rename_i hn
      have k : isPolling (flow s) = false := by
        cases e : flow s
        case polling => exact absurd e (hn _ _ _)
        all_goals rfl
      have r : responseBound (flow s) = 10 := by
        cases e : flow s
        case polling => exact absurd e (hn _ _ _)
        all_goals rfl
      rw [r] at m
      have m2 : s.pollcnt + 1 ≤ 1000 := by omega
      split
      · exact polls_afterResponse (s := { s with pollcnt := s.pollcnt + 1, r1 := b }) m2 d p hp k q b
      · rename_i hc
        simp only [Bool.or_eq_true, decide_eq_true_eq, not_or, not_le] at hc
        refine ⟨fun _ _ => m2, fun _ _ => ?_, fun _ e => ?_, fun _ => d⟩
        · show s.pollcnt + 1 < responseBound (flow s)
          rw [r]; exact hc.2
        · have e : s.phase = .tokenPoll ∨ s.phase = .busyPoll := e
          simp [hp] at e
  · rename_i hp
    dsimp only
    split
    · exact polls_quiet (s := { s with r7tail := tailWith s.r7tail s.loopidx b, loopidx := s.loopidx + 1 }) n (by simp [hp]) (by simp [hp]) (by simp [hp]) d
    · exact polls_afterDrain (s := { s with r7tail := tailWith s.r7tail s.loopidx b, loopidx := s.loopidx + 1 }) p hp
  · rename_i hp
    have m := h.transferPollNext hb (.inl hp)
    dsimp only
    split
    · exact polls_quiet (s := { startPayload { s with pollcnt := s.pollcnt + 1, tok := b } with phase := .rdPayload }) (fun _ => m) (by simp) (by simp) (by simp) d
    split
    · rename_i hc
      refine ⟨fun _ _ => m, fun _ e => ?_, fun _ _ => hc, fun _ => d⟩
      have e : s.phase = .respPoll := e
      rw [hp] at e; cases e
    · exact polls_failSector _ _
  · rename_i hp
    dsimp only
    split
    · exact polls_quiet (s := { bufWrite s.byteidx b s with byteidx := s.byteidx + 1 }) n (by simp [hp]) (by simp [hp]) (by simp [hp]) d
    · exact polls_quiet (s := { startLoop { bufWrite s.byteidx b s with byteidx := s.byteidx + 1 } with phase := .rdCrc }) n (by simp) (by simp) (by simp) d
  · rename_i hp
    dsimp only
    split
    · exact polls_quiet (s := { s with loopidx := s.loopidx + 1 }) n (by simp [hp]) (by simp [hp]) (by simp [hp]) d
    · exact polls_endSector (s := deselect { s with loopidx := s.loopidx + 1 }) p (.inl hp)
  · exact polls_quiet (s := { startPayload s with phase := .wrPayload }) n (by simp) (by simp) (by simp) d
  · rename_i hp
    dsimp only
    split
    · exact polls_quiet (s := { s with byteidx := s.byteidx + 1 }) n (by simp [hp]) (by simp [hp]) (by simp [hp]) d
    · exact polls_quiet (s := { startLoop { s with byteidx := s.byteidx + 1 } with phase := .wrCrc }) n (by simp) (by simp) (by simp) d
  · rename_i hp
    dsimp only
    split
    · exact polls_quiet (s := { s with loopidx := s.loopidx + 1 }) n (by simp [hp]) (by simp [hp]) (by simp [hp]) d
    · exact polls_quiet (s := { s with loopidx := s.loopidx + 1, phase := .wrResp }) n (by simp) (by simp) (by simp) d
  · dsimp only
    split
    · exact polls_fresh rfl d
    · exact polls_failSector _ _
  · rename_i hp
    have m := h.transferPollNext hb (.inr hp)
    dsimp only
    split
    · exact polls_endSector (s := deselect { s with pollcnt := s.pollcnt + 1, busyb := b }) p (.inr hp)
    split
    · rename_i hc
      refine ⟨fun _ _ => m, fun _ e => ?_, fun _ _ => hc, fun _ => d⟩
      have e : s.phase = .respPoll := e
      rw [hp] at e; cases e
    · exact polls_failSector _ _

end Sys2Proof.Machine
end

