-- ==== Sys2Proof/Laws/Crc.lean ====
section
/-!
SUPPORT. The steps of the checksum (41_crc7.md R160).
-/

namespace Sys2Proof.Machine

/-- One data bit is a linear step (R160). -/
theorem crcBit_xor (c d : U7) (x y : Bool) : crcBit (c ^^^ d) (Bool.xor x y) = crcBit c x ^^^ crcBit d y := by
  have e : ∀ (c : U7) (x : Bool), crcBit c x = (c <<< 1) ^^^ (if Bool.xor (c.getLsbD 6) x then 0x09#7 else 0#7) := by
    intro c x
    unfold crcBit
    split <;> simp
  have ac : ∀ a b c : U7, a ^^^ (b ^^^ c) = b ^^^ (a ^^^ c) := by
    intro a b c; rw [← BitVec.xor_assoc, BitVec.xor_comm a, BitVec.xor_assoc]
  rw [e, e, e, BitVec.getLsbD_xor, BitVec.shiftLeft_xor_distrib]
  generalize c.getLsbD 6 = p; generalize d.getLsbD 6 = q
  generalize c <<< 1 = u; generalize d <<< 1 = v
  cases p <;> cases q <;> cases x <;> cases y <;> simp [BitVec.xor_assoc, BitVec.xor_comm, ac]

/-- One byte is a linear step (R160). -/
theorem crcOfByte_xor (c d : U7) (x y : Byte) : crcOfByte (c ^^^ d) (x ^^^ y) = crcOfByte c x ^^^ crcOfByte d y := by
  simp only [crcOfByte, bitsOfByte, List.foldl, BitVec.getLsbD_xor, crcBit_xor]

/-- One data bit, bit by bit: a shift, and the feedback at x^0 and x^3 (R160). -/
theorem crcBit_bits : ∀ (c : U7) (d : Bool), (crcBit c d).getLsbD 0 = (Bool.xor (c.getLsbD 6) d) ∧ (crcBit c d).getLsbD 1 = c.getLsbD 0 ∧
   (crcBit c d).getLsbD 2 = c.getLsbD 1 ∧ (crcBit c d).getLsbD 3 = Bool.xor (c.getLsbD 2) (Bool.xor (c.getLsbD 6) d) ∧ (crcBit c d).getLsbD 4 = c.getLsbD 3 ∧ (crcBit c d).getLsbD 5 = c.getLsbD 4 ∧ (crcBit c d).getLsbD 6 = c.getLsbD 5 := by decide +kernel

/-- The checksum of bytes is the checksum of their bits, first bit first (R160). -/
theorem crc_bits (l : List Byte) (c : U7) : l.foldl crcOfByte c = (l.flatMap bitsOfByte).foldl crcBit c := by
  induction l generalizing c with
  | nil => rfl
  | cons b l ih => simp only [List.foldl_cons, List.flatMap_cons, List.foldl_append, ih]; rfl

end Sys2Proof.Machine
end

