-- ==== Sys2Proof/Laws/Encoding.lean ====
section
/-!
SUPPORT. Each reader of the decoder and the writer it undoes, in both directions (30_encoding.md R90 to R102, R110).
-/

namespace Sys2Proof

/-- The `j` low bytes depend on the number modulo `256 ^ j`. -/
theorem bytesOfNat_mod (j w v : Nat) (hw : w % 256^j = v % 256^j) : bytesOfNat j w = bytesOfNat j v := by
  induction j with
  | zero => rfl
  | succ j jh =>
    simp only [bytesOfNat]
    have h1 : w % 256 ^ j = v % 256 ^ j := by
      have := congrArg (· % 256 ^ j) hw
      simpa [Nat.mod_mod_of_dvd _ (pow_dvd_pow 256 (Nat.le_succ j))] using this
    have h2 : (w / 256 ^ j) % 256 = (v / 256 ^ j) % 256 := by
      have a1 : w % (256 ^ j * 256) / 256 ^ j = (w / 256 ^ j) % 256 := Nat.mod_mul_right_div_self ..
      have a2 : v % (256 ^ j * 256) / 256 ^ j = (v / 256 ^ j) % 256 := Nat.mod_mul_right_div_self ..
      rw [← a1, ← a2, ← pow_succ, hw]
    rw [jh h1]
    congr 1
    apply BitVec.eq_of_toNat_eq
    simpa using h2

/-- A number is read back from its bytes. -/
theorem takeNat_bytes (k v acc : Nat) (rest : List Byte) (h : v < 256 ^ k) :
    takeNat k acc (bytesOfNat k v ++ rest) = .ok (acc * 256 ^ k + v, rest) := by
  induction k generalizing v acc with
  | zero => simp at h; simp [takeNat, bytesOfNat, h]
  | succ k ih =>
    simp only [bytesOfNat, List.cons_append, takeNat]
    have hd : v / 256 ^ k < 256 := by rw [Nat.div_lt_iff_lt_mul (by positivity)]; rw [pow_succ] at h; linarith
    have hb' := bytesOfNat_mod k (v % 256 ^ k) v (by simp)
    rw [← hb', ih (v % 256^k) _ (Nat.mod_lt _ (by positivity))]
    congr 2
    simp only [BitVec.toNat_ofNat]
    rw [Nat.mod_eq_of_lt (by simpa using hd)]
    have := Nat.div_add_mod v (256 ^ k)
    rw [pow_succ]
    nlinarith

/-- A natural-number operand is read back. -/
theorem takePort_bytes (n : Nat) (rest : List Byte) (h : fitsPort n = true) : takePort (portBytes n ++ rest) = .ok (n, rest) := by
  unfold takePort portBytes
  rw [takeNat_bytes 4 n 0 rest (by simpa [fitsPort] using h)]
  simp

/-- A `u32` operand is read back. -/
theorem takeU32_bytes (w : U32) (rest : List Byte) : takeU32 (u32Bytes w ++ rest) = .ok (w, rest) := by
  unfold takeU32 u32Bytes
  rw [takeNat_bytes 4 w.toNat 0 rest (by simpa using w.isLt)]
  simp [bind, Except.bind, pure, Except.pure]

/-- The table of a `POLL` is read back. -/
theorem takeTable_bytes (w : BitVec 256) (rest : List Byte) : takeNat 32 0 (bytesOfNat 32 w.toNat ++ rest) = .ok (w.toNat, rest) := by
  rw [takeNat_bytes 32 w.toNat 0 rest (by simpa using w.isLt)]
  simp

/-- The first byte of a frame is 01xxxxxx (R91). -/
theorem commandByte_high : ∀ o : U6, (commandByte o).extractLsb' 6 2 = 0b01#2 := by decide

/-- The opcode stands in its low six bits (R92). -/
theorem commandByte_low : ∀ o : U6, (commandByte o).extractLsb' 0 6 = o := by decide

/-- The end bit is 1 (R91). -/
theorem checkByte_end : ∀ c : U7, (checkByte c).getLsbD 0 = true := by decide

/-- The checksum stands in bits 7:1 (R91). -/
theorem checkByte_high : ∀ c : U7, (checkByte c).extractLsb' 1 7 = c := by decide

/-- The argument is its four bytes (R93). -/
theorem argument_join (a : U32) : a.extractLsb' 24 8 ++ a.extractLsb' 16 8 ++ a.extractLsb' 8 8 ++ a.extractLsb' 0 8 = a := by
  apply BitVec.eq_of_getLsbD_eq
  intro i hi
  simp only [BitVec.getLsbD_append, BitVec.getLsbD_extractLsb']
  interval_cases i <;> simp

/-- A frame is read as the row of its opcode (R95). -/
theorem decode_frame (o : U6) (a : U32) (c : U7) (rest : List Byte) :
    decode (frameBytes o a c ++ rest) = .ok (frameRow o a c, rest) := by
  simp only [frameBytes, argBytes, List.cons_append, List.nil_append, decode]
  rw [if_pos (commandByte_high o)]
  simp only [decodeFrame]
  rw [if_pos (checkByte_end c), commandByte_low, checkByte_high, argument_join]

/-- A tagged byte is read as its row. -/
theorem decode_tagged (tag : Nat) (b : Byte) (i : Instr) (rest : List Byte) (ht : tag < 11) (h : byteRow tag b = some i) :
    decode (tagged tag b ++ rest) = .ok (i, rest) := by
  have h1 : ∀ t < 11, (BitVec.ofNat 8 (byteTagBase + t)).extractLsb' 6 2 ≠ 0b01#2 ∧ (BitVec.ofNat 8 (byteTagBase + t)).toNat = byteTagBase + t := by decide
  simp only [tagged, List.cons_append, List.nil_append, decode]
  rw [if_neg (h1 tag ht).1, (h1 tag ht).2, if_pos (by simp [byteTagCount, ht])]
  simp [decodeByteRow, takeByte, bind, Except.bind, h, pure, Except.pure]

/-- Any other first byte is a selector (R110). -/
theorem decode_hostOp (sel : Byte) (bs : List Byte) (h : sel.extractLsb' 6 2 ≠ 0b01#2) (k : ¬ (byteTagBase ≤ sel.toNat ∧ sel.toNat < byteTagBase + byteTagCount)) :
    decode (sel :: bs) = decodeHostOp sel bs := by
  simp only [decode]
  rw [if_neg h, if_neg k]

/-- A number read comes from its own bytes. -/
theorem takeNat_inv (k acc : Nat) (bs : List Byte) (n : Nat) (rest : List Byte) (h : takeNat k acc bs = .ok (n, rest)) :
    ∃ v, v < 256 ^ k ∧ n = acc * 256 ^ k + v ∧ bs = bytesOfNat k v ++ rest := by
  induction k generalizing acc bs with
  | zero => simp [takeNat] at h; exact ⟨0, by simp, by simp [h.1], by simp [bytesOfNat, h.2]⟩
  | succ k ih =>
    cases bs with
    | nil => simp [takeNat] at h
    | cons b bs =>
      simp only [takeNat] at h
      obtain ⟨v, hv, hn, hb⟩ := ih _ _ h
      have hb8 : b.toNat < 256 := b.isLt
      refine ⟨b.toNat * 256 ^ k + v, ?_, ?_, ?_⟩
      · rw [pow_succ]; nlinarith
      · rw [hn, pow_succ]; ring
      · have h1 : (b.toNat * 256 ^ k + v) / 256 ^ k = b.toNat := by
          rw [Nat.mul_comm, Nat.mul_add_div (by positivity), Nat.div_eq_of_lt hv]; simp
        simp only [bytesOfNat, h1, List.cons_append]
        rw [bytesOfNat_mod k (b.toNat * 256 ^ k + v) v (by simp), ← hb]
        simp

/-- A natural-number operand read fits the port and comes from its own bytes. -/
theorem takePort_inv {bs : List Byte} {r : Nat × List Byte} (h : takePort bs = .ok r) : fitsPort r.1 = true ∧ bs = portBytes r.1 ++ r.2 := by
  obtain ⟨v, hv, hn, hb⟩ := takeNat_inv 4 0 bs r.1 r.2 h
  have : r.1 = v := by omega
  subst this
  exact ⟨by simp [fitsPort]; omega, hb⟩

/-- A `u32` operand read comes from its own bytes. -/
theorem takeU32_inv {bs : List Byte} {r : U32 × List Byte} (h : takeU32 bs = .ok r) : bs = u32Bytes r.1 ++ r.2 := by
  unfold takeU32 at h
  cases h1 : takeNat 4 0 bs with
  | error e => simp [h1, bind, Except.bind] at h
  | ok q =>
    simp [h1, bind, Except.bind, pure, Except.pure] at h
    obtain ⟨v, hv, hn, hb⟩ := takeNat_inv 4 0 bs q.1 q.2 h1
    have : q.1 = v := by omega
    subst this h
    simp only [u32Bytes]
    rw [BitVec.toNat_ofNat, Nat.mod_eq_of_lt (by simpa using hv)]
    exact hb

/-- A byte operand read is the first byte. -/
theorem takeByte_inv {bs : List Byte} {r : Byte × List Byte} (h : takeByte bs = .ok r) : bs = r.1 :: r.2 := by
  cases bs with
  | nil => simp [takeByte] at h
  | cons b bs => simp [takeByte] at h; subst h; rfl

/-- A reader that succeeds did so in each of its parts. -/
theorem bind_ok {α β : Type} {x : Except DecodeError α} {f : α → Except DecodeError β} {y : β} (h : (x >>= f) = .ok y) : ∃ a, x = .ok a ∧ f a = .ok y := by
  cases x with
  | error e => simp [bind, Except.bind] at h
  | ok a => exact ⟨a, rfl, h⟩

/-- A BYTE row read is well-formed and has the bytes it was read from. -/
theorem byteRow_inv : ∀ t < 11, ∀ b : Byte, ∀ i, byteRow t b = some i → i.wf = true ∧ encode i = tagged t b := by
  have aux : ∀ t < 11, ∀ b : Byte, (match byteRow t b with | some i => i.wf && encode i == tagged t b | none => true) = true := by decide +kernel
  intro t ht b i hi
  have := aux t ht b
  rw [hi] at this
  simpa using this

/-- A frame row is well-formed and has the bytes of its fields. -/
theorem frameRow_inv (o : U6) (a : U32) (c : U7) : (frameRow o a c).wf = true ∧ encode (frameRow o a c) = frameBytes o a c := by
  unfold frameRow
  split; · subst_vars; exact ⟨rfl, rfl⟩
  split; · subst_vars; exact ⟨rfl, rfl⟩
  split; · subst_vars; exact ⟨rfl, rfl⟩
  split; · subst_vars; exact ⟨rfl, rfl⟩
  split; · subst_vars; exact ⟨rfl, rfl⟩
  split; · subst_vars; exact ⟨rfl, rfl⟩
  split; · subst_vars; exact ⟨rfl, rfl⟩
  refine ⟨?_, rfl⟩
  simp_all [Instr.wf, namedOpcodes]

/-- The bytes of four joined bytes. -/
theorem extract_join (a b c d : Byte) : (a ++ b ++ c ++ d : BitVec 32).extractLsb' 24 8 = a ∧ (a ++ b ++ c ++ d : BitVec 32).extractLsb' 16 8 = b ∧ (a ++ b ++ c ++ d : BitVec 32).extractLsb' 8 8 = c ∧ (a ++ b ++ c ++ d : BitVec 32).extractLsb' 0 8 = d := by
  refine ⟨?_, ?_, ?_, ?_⟩ <;> apply BitVec.eq_of_getLsbD_eq <;> intro i hi <;> simp only [BitVec.getLsbD_append, BitVec.getLsbD_extractLsb'] <;> interval_cases i <;> simp

end Sys2Proof
end

