-- ==== Sys2Proof/Laws/Overlay.lean ====
section
/-!
SUPPORT. What whole runs do not read: the granularity, `busy`, the latched operation, the sector counters and `phase` (a whole run is one
step, so no table is consulted), and the ports it only writes at its end, `RES` and the value delivered. A run on a state with
these fields laid over gives the same with them laid over, or, if it ends the operation, with an idle block's laid over.
-/

namespace Sys2Proof.Machine

/-- The fields a whole run does not read. -/
structure Overlay where
  stepwise : Bool
  busy : Bool
  running : Option Instr
  sectidx : U32
  sectno : Nat
  phase : Phase
  res : Result
  out : Delivered

/-- Its sector counters. -/
def Overlay.sectors (lay : Overlay) : U32 × Nat := (lay.sectidx, lay.sectno)

/-- `s` with the fields laid over. -/
def Overlay.on (lay : Overlay) (s : State) : State :=
  { s with
    cfg := { s.cfg with stepwise := lay.stepwise }
    busy := lay.busy
    running := lay.running
    sectidx := lay.sectidx
    sectno := lay.sectno
    phase := lay.phase
    res := lay.res
    out := lay.out }

/-- The overlay once the operation has ended with the result `e` (60_exceptions.md R318 step 4). -/
def Overlay.ended (lay : Overlay) (e : Result) : Overlay :=
  { lay with busy := false, running := none, phase := .idle, res := e, out := .nothing }

/-- A state's own fields. -/
def State.overlay (s : State) : Overlay := ⟨s.cfg.stepwise, s.busy, s.running, s.sectidx, s.sectno, s.phase, s.res, s.out⟩

@[simp] theorem overlay_on_self (s : State) : s.overlay.on s = s := rfl

/-- The later overlay wins. -/
@[simp] theorem on_on (lay under : Overlay) (s : State) : lay.on (under.on s) = lay.on s := rfl

variable (lay : Overlay)

theorem draw_on (s : State) : draw (lay.on s) = ((draw s).1, lay.on (draw s).2) := by
  unfold draw; cases h : s.card <;> simp [Overlay.on, h]

theorem exchange_on (o : Byte) (s : State) : exchange o (lay.on s) = ((exchange o s).1, lay.on (exchange o s).2) := by
  unfold exchange; rw [draw_on]; rfl

theorem clockFill_on (n : Nat) (s : State) : clockFill n (lay.on s) = lay.on (clockFill n s) := by
  induction n generalizing s with
  | zero => rfl
  | succ n ih =>
    simp only [clockFill]
    rw [show (lay.on s).cfg.fill = s.cfg.fill from rfl, exchange_on]
    exact ih { (exchange s.cfg.fill s).2 with loopidx := (exchange s.cfg.fill s).2.loopidx + 1 }

theorem drainTail_on (n : Nat) (s : State) : drainTail n (lay.on s) = lay.on (drainTail n s) := by
  induction n generalizing s with
  | zero => rfl
  | succ n ih =>
    simp only [drainTail]
    rw [show (lay.on s).cfg.fill = s.cfg.fill from rfl, exchange_on]
    exact ih { (exchange s.cfg.fill s).2 with r7tail := tailWith (exchange s.cfg.fill s).2.r7tail (exchange s.cfg.fill s).2.loopidx (exchange s.cfg.fill s).1, loopidx := (exchange s.cfg.fill s).2.loopidx + 1 }

theorem receivePayload_on (n : Nat) (s : State) : receivePayload n (lay.on s) = lay.on (receivePayload n s) := by
  induction n generalizing s with
  | zero => rfl
  | succ n ih =>
    simp only [receivePayload]
    rw [show (lay.on s).cfg.fill = s.cfg.fill from rfl, exchange_on]
    exact ih { bufWrite (exchange s.cfg.fill s).2.byteidx (exchange s.cfg.fill s).1 (exchange s.cfg.fill s).2 with byteidx := (exchange s.cfg.fill s).2.byteidx + 1 }

theorem sendPayload_on (n : Nat) (s : State) : sendPayload n (lay.on s) = lay.on (sendPayload n s) := by
  induction n generalizing s with
  | zero => rfl
  | succ n ih =>
    simp only [sendPayload]
    rw [show bufRead (lay.on s) (lay.on s).byteidx = bufRead s s.byteidx from rfl, exchange_on]
    exact ih { (exchange (bufRead s s.byteidx) s).2 with byteidx := (exchange (bufRead s s.byteidx) s).2.byteidx + 1 }

theorem sendFrame_on (n : Nat) (s : State) : sendFrame n (lay.on s) = lay.on (sendFrame n s) := by
  induction n generalizing s with
  | zero => rfl
  | succ n ih =>
    simp only [sendFrame]
    rw [show frameByte (lay.on s).frame (lay.on s).framei = frameByte s.frame s.framei from rfl, exchange_on]
    exact ih { (exchange (frameByte s.frame s.framei) s).2 with framei := (exchange (frameByte s.frame s.framei) s).2.framei + 1 }

theorem pollLoop_on (pr : Byte → Bool) (o : Byte) (n : Nat) (l : Byte) (s : State) :
    pollLoop pr o n l (lay.on s) = ((pollLoop pr o n l s).1, lay.on (pollLoop pr o n l s).2) := by
  induction n generalizing s l with
  | zero => rfl
  | succ n ih =>
    simp only [pollLoop]
    rw [exchange_on]
    by_cases h : pr (exchange o s).1 = true
    · simp only [h, if_true]; rfl
    · simp only [h]
      exact ih _ { (exchange o s).2 with pollcnt := (exchange o s).2.pollcnt + 1 }

theorem poll_on (bd : Nat) (pr : Byte → Bool) (o : Byte) (s : State) :
    poll bd pr o (lay.on s) = ((poll bd pr o s).1, lay.on (poll bd pr o s).2) := by
  cases bd with
  | zero => rfl
  | succ n => exact pollLoop_on lay pr o (n+1) s.rxb { s with pollcnt := 0 }

theorem sendLatched_on (s : State) : sendLatched (lay.on s) = ((sendLatched s).1, lay.on (sendLatched s).2) := by
  unfold sendLatched
  rw [sendFrame_on]
  simp only [poll_on]
  rfl

theorem latchCommand_on (o : U6) (a : U32) (s : State) : latchCommand o a (lay.on s) = lay.on (latchCommand o a s) := rfl

theorem deliverOk_on (s : State) :
    deliverOk .nothing (lay.on s) = (.ok, (lay.ended .ok).on (deliverOk .nothing s).2) := rfl

theorem raiseError_on (c : Bool) (e : Result) (s : State) :
    raiseError c e (lay.on s) = (e, (lay.ended e).on (raiseError c e s).2) := by
  cases c <;> cases e <;> rfl

theorem readData_on (s : State) : readData (lay.on s) = ((readData s).1, (lay.ended (readData s).1).on (readData s).2) := by
  unfold readData
  rw [show (lay.on s).cfg.fill = s.cfg.fill from rfl, poll_on]
  generalize poll Config.tokenPollBound isStartToken s.cfg.fill s = q
  dsimp only
  rw [show ∀ x, { lay.on q.2 with tok := x } = lay.on { q.2 with tok := x } from fun _ => rfl]
  by_cases h : q.1.hit = true
  · rw [if_pos h, if_pos h]
    rw [show ∀ u, startPayload (lay.on u) = lay.on (startPayload u) from fun _ => rfl, receivePayload_on,
      show ∀ u, startLoop (lay.on u) = lay.on (startLoop u) from fun _ => rfl, clockFill_on,
      show ∀ u, deselect (lay.on u) = lay.on (deselect u) from fun _ => rfl, deliverOk_on]
    rfl
  · rw [if_neg h, if_neg h, raiseError_on]; rfl

theorem readLatched_on (s : State) : readLatched (lay.on s) = ((readLatched s).1, (lay.ended (readLatched s).1).on (readLatched s).2) := by
  unfold readLatched
  rw [sendLatched_on]
  generalize sendLatched s = q
  dsimp only
  by_cases h : r1AllClear q.1 = true
  · rw [if_pos h, if_pos h, readData_on]
  · rw [if_neg h, if_neg h, raiseError_on]; rfl

theorem awaitWritten_on (s : State) : awaitWritten (lay.on s) = ((awaitWritten s).1, (lay.ended (awaitWritten s).1).on (awaitWritten s).2) := by
  unfold awaitWritten
  rw [show (lay.on s).cfg.fill = s.cfg.fill from rfl, poll_on]
  generalize poll Config.busyPollBound notBusy s.cfg.fill s = q
  dsimp only
  rw [show ∀ x, { lay.on q.2 with busyb := x } = lay.on { q.2 with busyb := x } from fun _ => rfl]
  by_cases h : q.1.hit = true
  · rw [if_pos h, if_pos h, show ∀ u, deselect (lay.on u) = lay.on (deselect u) from fun _ => rfl, deliverOk_on]; rfl
  · rw [if_neg h, if_neg h, raiseError_on]; rfl

theorem writeData_on (s : State) : writeData (lay.on s) = ((writeData s).1, (lay.ended (writeData s).1).on (writeData s).2) := by
  unfold writeData
  generalize Config.blockSize = size
  dsimp only
  rw [exchange_on]
  dsimp only
  rw [show ∀ u, startPayload (lay.on u) = lay.on (startPayload u) from fun _ => rfl, sendPayload_on,
      show ∀ u, startLoop (lay.on u) = lay.on (startLoop u) from fun _ => rfl, clockFill_on]
  generalize clockFill _ _ = v
  rw [show (lay.on v).cfg.fill = v.cfg.fill from rfl, exchange_on]
  generalize exchange v.cfg.fill v = d
  dsimp only
  rw [show ∀ x, { lay.on d.2 with dresp := x } = lay.on { d.2 with dresp := x } from fun _ => rfl]
  by_cases h : writeAccepted d.1 = true
  · rw [if_pos h, if_pos h, awaitWritten_on]
  · rw [if_neg h, if_neg h, raiseError_on]; rfl

theorem writeLatched_on (s : State) : writeLatched (lay.on s) = ((writeLatched s).1, (lay.ended (writeLatched s).1).on (writeLatched s).2) := by
  unfold writeLatched
  rw [sendLatched_on]
  generalize sendLatched s = q
  dsimp only
  by_cases h : r1AllClear q.1 = true
  · rw [if_pos h, if_pos h, writeData_on]
  · rw [if_neg h, if_neg h, raiseError_on]; rfl

theorem readSector_on (i : U32) (a : Nat) (s : State) :
    readSector i a (lay.on s) = ((readSector i a s).1, (lay.ended (readSector i a s).1).on (readSector i a s).2) := by
  unfold readSector
  by_cases h : s.ready = true
  · rw [if_pos (show (lay.on s).ready = true from h), if_pos h]
    exact readLatched_on lay (latchCommand Config.opReadSingleBlock i (select (attachBuffer a s)))
  · rw [if_neg (show ¬ (lay.on s).ready = true from h), if_neg h, raiseError_on]; rfl

theorem writeSector_on (i : U32) (a : Nat) (s : State) :
    writeSector i a (lay.on s) = ((writeSector i a s).1, (lay.ended (writeSector i a s).1).on (writeSector i a s).2) := by
  unfold writeSector
  by_cases h : s.ready = true
  · rw [if_pos (show (lay.on s).ready = true from h), if_pos h]
    exact writeLatched_on lay (latchCommand Config.opWriteBlock i (select (attachBuffer a s)))
  · rw [if_neg (show ¬ (lay.on s).ready = true from h), if_neg h, raiseError_on]; rfl

theorem bracketCommand_on (o : U6) (a : U32) (s : State) :
    bracketCommand o a (lay.on s) = ((bracketCommand o a s).1, lay.on (bracketCommand o a s).2) := by
  unfold bracketCommand sendCommand
  rw [show latchCommand o a (select (lay.on s)) = lay.on (latchCommand o a (select s)) from rfl, sendLatched_on]
  rfl

theorem initAttempts_on (n : Nat) (c : Byte) (s : State) :
    initAttempts n c (lay.on s) = ((initAttempts n c s).1, lay.on (initAttempts n c s).2) := by
  induction n generalizing s c with
  | zero => rfl
  | succ n ih =>
    have e : ∀ u, initAttempt (lay.on u) = ((initAttempt u).1, lay.on (initAttempt u).2) := by
      intro u
      unfold initAttempt
      rw [show nextAttempt (lay.on u) = lay.on (nextAttempt u) from rfl, bracketCommand_on]
      dsimp only
      rw [show ∀ w, noteAppCmd false (lay.on w) = lay.on (noteAppCmd false w) from fun _ => rfl, bracketCommand_on]
    unfold initAttempts
    rw [e]
    generalize initAttempt s = a
    dsimp only
    by_cases h : r1IdleFlag a.1 = true
    · rw [if_pos h, if_pos h]; exact ih a.1 (sleep a.2)
    · rw [if_neg h, if_neg h]

theorem initFromBlockLength_on (s : State) :
    initFromBlockLength (lay.on s) = ((initFromBlockLength s).1, (lay.ended (initFromBlockLength s).1).on (initFromBlockLength s).2) := by
  unfold initFromBlockLength initBlockLength
  rw [show { lay.on s with fsm := .setBlockLength } = lay.on { s with fsm := .setBlockLength } from rfl, bracketCommand_on]
  generalize bracketCommand _ _ _ = q
  dsimp only
  by_cases h : r1AllClear q.1 = true
  · rw [if_pos h, if_pos h, show fixCapacity (lay.on q.2) = lay.on (fixCapacity q.2) from rfl, deliverOk_on]; rfl
  · rw [if_neg h, if_neg h, raiseError_on]; rfl

theorem initFromApplication_on (s : State) :
    initFromApplication (lay.on s) = ((initFromApplication s).1, (lay.ended (initFromApplication s).1).on (initFromApplication s).2) := by
  unfold initFromApplication initApplication
  rw [show { lay.on s with fsm := .applicationInit, retrycnt := 0 } = lay.on { s with fsm := .applicationInit, retrycnt := 0 } from rfl,
    show (lay.on s).r1 = s.r1 from rfl, initAttempts_on]
  generalize initAttempts _ _ _ = q
  dsimp only
  by_cases h : q.1.1 = true
  · rw [if_pos h, if_pos h, initFromBlockLength_on]
  · rw [if_neg h, if_neg h, raiseError_on]; rfl

theorem initFromIfCond_on (s : State) :
    initFromIfCond (lay.on s) = ((initFromIfCond s).1, (lay.ended (initFromIfCond s).1).on (initFromIfCond s).2) := by
  have e : initIfCond (lay.on s) = ((initIfCond s).1, lay.on (initIfCond s).2) := by
    unfold initIfCond sendCommand
    rw [show latchCommand Config.opSendIfCond Config.argIfCond (select { lay.on s with fsm := .checkInterfaceCondition }) = lay.on (latchCommand Config.opSendIfCond Config.argIfCond (select { s with fsm := .checkInterfaceCondition })) from rfl, sendLatched_on]
    generalize sendLatched _ = q
    dsimp only
    by_cases h : r1ExactlyIdle q.1 = true
    · rw [if_pos h, if_pos h, show startLoop (lay.on q.2) = lay.on (startLoop q.2) from rfl, drainTail_on]; rfl
    · rw [if_neg h, if_neg h]; rfl
  unfold initFromIfCond
  rw [e]
  generalize initIfCond s = q
  dsimp only
  rw [show (lay.on q.2).cfg.ifcondTimeoutFatal = q.2.cfg.ifcondTimeoutFatal from rfl]
  by_cases h : (q.2.cfg.ifcondTimeoutFatal && !isResponse q.1) = true
  · rw [if_pos h, if_pos h, raiseError_on]; rfl
  · rw [if_neg h, if_neg h, initFromApplication_on]

theorem initCard_on (s : State) :
    initCard (lay.on s) = ((initCard s).1, (lay.ended (initCard s).1).on (initCard s).2) := by
  unfold initCard initGoIdle initBusReset
  dsimp only
  rw [show startLoop (enterInit (lay.on s)) = lay.on (startLoop (enterInit s)) from rfl,
    show (enterInit (lay.on s)).cfg.resetIdleBytes = (enterInit s).cfg.resetIdleBytes from rfl, clockFill_on]
  generalize clockFill _ _ = v
  rw [show { lay.on v with fsm := .goIdle } = lay.on { v with fsm := .goIdle } from rfl, bracketCommand_on]
  generalize bracketCommand _ _ _ = q
  dsimp only
  by_cases h : r1ExactlyIdle q.1 = true
  · rw [if_pos h, if_pos h, initFromIfCond_on]
  · rw [if_neg h, if_neg h, raiseError_on]; rfl

/-! The end of an operation. -/

/-- How an operation of tier 2 or 3 ends (R318 step 4): its result in `RES`, an idle block. -/
structure Ended (q : Result × State) : Prop where
  res : q.2.res = q.1
  out : q.2.out = .nothing
  busy : q.2.busy = false
  phase : q.2.phase = .idle
  running : q.2.running = none


theorem ended_ok (s : State) : Ended (deliverOk .nothing s) := ⟨rfl, rfl, rfl, rfl, rfl⟩

theorem ended_raise (c : Bool) (e : Result) (s : State) : Ended (raiseError c e s) := by
  cases c <;> cases e <;> exact ⟨rfl, rfl, rfl, rfl, rfl⟩

theorem ended_ite {c : Prop} [Decidable c] {a b : Result × State} (h : Ended a) (k : Ended b) : Ended (if c then a else b) := by
  split <;> assumption

theorem ended_initCard (s : State) : Ended (initCard s) := by
  unfold initCard initFromIfCond initFromApplication initFromBlockLength
  dsimp only
  repeat' (first | with_reducible apply ended_ite | with_reducible exact ended_ok _ | with_reducible exact ended_raise _ _ _)

theorem ended_readLatched (s : State) : Ended (readLatched s) := by
  unfold readLatched readData
  dsimp only
  repeat' (first | with_reducible apply ended_ite | with_reducible exact ended_ok _ | with_reducible exact ended_raise _ _ _)

theorem ended_readSector (i : U32) (b : Nat) (s : State) : Ended (readSector i b s) := by
  unfold readSector
  exact ended_ite (ended_readLatched _) (ended_raise _ _ _)

theorem ended_writeLatched (s : State) : Ended (writeLatched s) := by
  unfold writeLatched writeData awaitWritten
  dsimp only
  repeat' (first | with_reducible apply ended_ite | with_reducible exact ended_ok _ | with_reducible exact ended_raise _ _ _)

theorem ended_writeSector (i : U32) (b : Nat) (s : State) : Ended (writeSector i b s) := by
  unfold writeSector
  exact ended_ite (ended_writeLatched _) (ended_raise _ _ _)

end Sys2Proof.Machine
end

