-- ==== Sys2Proof/Laws/Init.lean ====
section
/-!
SUPPORT. What the parts of the initialisation sequence do (43_init_sequencer.md R200 to R211): their bus events, their result, and what
they leave as it was.
-/

namespace Sys2Proof.Machine

/-- What no bracket of the sequence writes. -/
def quiet (s : State) := (s.cfg, s.ready, s.sectorCount, s.busy, s.tok, s.dresp, s.busyb, s.phase, s.byteidx, s.sectidx, s.sectno, s.running, s.res, s.out, s.mem, s.bufp, s.port, s.rst)

theorem exchange_quiet (o : Byte) (s : State) : quiet (exchange o s).2 = quiet s := by
  rw [exchange_withBus]; rfl

theorem bracket_quiet (o : U6) (a : U32) (s : State) :
    ∃ evs r, Bracket s.cfg o a evs r ∧ Emitted s (bracketCommand o a s).2 evs ∧ (bracketCommand o a s).1 = r ∧
      quiet (bracketCommand o a s).2 = quiet s ∧ (bracketCommand o a s).2.fsm = s.fsm ∧ (bracketCommand o a s).2.sel = false ∧ (bracketCommand o a s).2.framei = 6 ∧
      (bracketCommand o a s).2.retrycnt = s.retrycnt ∧ (bracketCommand o a s).2.r1 = r ∧ (bracketCommand o a s).2.r7tail = s.r7tail := by
  obtain ⟨evs, r, n, h1, h2, h3, h4, h5⟩ := bracketCommand_spec o a s
  refine ⟨evs, r, h3, h4, congrArg Prod.fst h5, ?_, ?_, ?_, ?_, ?_, ?_, ?_⟩
  · exact (congrArg (fun q => quiet q.2) h5).trans rfl
  · exact (congrArg (fun q => q.2.fsm) h5).trans rfl
  · exact (congrArg (fun q => q.2.sel) h5).trans rfl
  · exact (congrArg (fun q => q.2.framei) h5).trans rfl
  · exact (congrArg (fun q => q.2.retrycnt) h5).trans rfl
  · exact (congrArg (fun q => q.2.r1) h5).trans rfl
  · exact (congrArg (fun q => q.2.r7tail) h5).trans rfl

theorem quiet_cfg {s t : State} (h : quiet t = quiet s) : t.cfg = s.cfg := congrArg (fun x => x.1) h

theorem attempt_quiet (s : State) :
    ∃ evs r, Attempt s.cfg evs r ∧ Emitted s (initAttempt s).2 evs ∧ (initAttempt s).1 = r ∧
      quiet (initAttempt s).2 = quiet s ∧ (initAttempt s).2.fsm = s.fsm ∧ (initAttempt s).2.sel = false ∧ (initAttempt s).2.framei = 6 ∧
      (initAttempt s).2.retrycnt = s.retrycnt + 1 ∧ (initAttempt s).2.r1 = r ∧ (initAttempt s).2.r7tail = s.r7tail := by
  obtain ⟨e1, r1, a1, a2, a3, a4, a5, a6, a7, a8, a10, a11⟩ := bracket_quiet Config.opAppCmd Config.argZero (nextAttempt s)
  obtain ⟨e2, r2, b1, b2, b3, b4, b5, b6, b7, b8, b10, b11⟩ := bracket_quiet Config.opSendOpCond Config.argOpCond (noteAppCmd false (bracketCommand Config.opAppCmd Config.argZero (nextAttempt s)).2)
  have b1 := (quiet_cfg a4 : (noteAppCmd false (bracketCommand Config.opAppCmd Config.argZero (nextAttempt s)).2).cfg = s.cfg) ▸ b1
  refine ⟨e1 ++ e2, r2, ⟨e1, e2, r1, a1, b1, rfl⟩, ?_, b3, b4.trans a4, b5.trans a5, b6, b7, b8.trans a8, b10, b11.trans a11⟩
  exact (⟨a2.trace, a2.count, a2.heard⟩ : Emitted s _ _).trans ⟨b2.trace, b2.count, b2.heard⟩

theorem attempts_quiet (n : Nat) (c : Byte) (s : State) (hn : n ≠ 0) :
    quiet (initAttempts n c s).2 = quiet s ∧ (initAttempts n c s).2.fsm = s.fsm ∧ (initAttempts n c s).2.sel = false ∧ (initAttempts n c s).2.framei = 6 ∧
    (initAttempts n c s).2.retrycnt ≤ s.retrycnt + n ∧ (initAttempts n c s).2.r1 = (initAttempts n c s).1.2 ∧
    (initAttempts n c s).2.r7tail = s.r7tail ∧
    ((∃ w r, StillIdle s.cfg n w r ∧ Emitted s (initAttempts n c s).2 w ∧ (initAttempts n c s).1 = (false, r)) ∨
     (∃ k w r0 a ra, k < n ∧ StillIdle s.cfg k w r0 ∧ Attempt s.cfg a ra ∧ r1IdleFlag ra = false ∧ Emitted s (initAttempts n c s).2 (w ++ a) ∧
       (initAttempts n c s).1 = (true, ra))) := by
  have shift : ∀ (p : Params) (k : Nat) (w : List Event) (r : Byte) (a : List Event) (ra : Byte), Attempt p a ra → r1IdleFlag ra = true → StillIdle p k w r →
      StillIdle p (k+1) (a ++ [.slept] ++ w) (if k = 0 then ra else r) := by
    intro p k
    induction k with
    | zero => intro w r a ra h1 h2 h3; exact ⟨[], 0#8, a, rfl, h1, h2, by have h3 : w = [] := h3; simp [h3]⟩
    | succ k ih =>
      intro w r a ra h1 h2 ⟨be, r0, a', h3, h4, h5, h6⟩
      exact ⟨_, _, a', ih be r0 a ra h1 h2 h3, h4, h5, by simp [h6]⟩
  induction n generalizing s c with
  | zero => exact absurd rfl hn
  | succ n ih =>
    obtain ⟨e1, r1, a1, a2, a3, a4, a5, a6, a7, a8, a9, a10⟩ := attempt_quiet s
    unfold initAttempts
    dsimp only
    rw [a3]
    generalize (initAttempt s).2 = u at a2 a4 a5 a6 a7 a8 a9 a10 ⊢
    by_cases h : r1IdleFlag r1 = true
    · rw [if_pos h]
      have es : Emitted s (sleep u) (e1 ++ [.slept]) := a2.trans (sleep_emits u)
      by_cases hz : n = 0
      · subst hz
        refine ⟨a4, a5, a6, a7, by simp [initAttempts, sleep, a8], a9, a10, .inl ⟨_, _, shift s.cfg 0 [] 0#8 e1 r1 a1 h rfl, ?_, rfl⟩⟩
        exact es.cast (by simp)
      · have hc : (sleep u).cfg = s.cfg := quiet_cfg a4
        obtain ⟨i1, i2, i3, i4, i5, i7, i8, i6⟩ := ih r1 (sleep u) hz
        rw [hc] at i6
        refine ⟨i1.trans a4, i2.trans a5, i3, i4, ?_, i7, i8.trans a10, ?_⟩
        · have : (sleep u).retrycnt = s.retrycnt + 1 := a8
          omega
        rcases i6 with ⟨w, r, j1, j2, j3⟩ | ⟨k, w, r0, a, ra, j1, j2, j3, j4, j5, j6⟩
        · refine .inl ⟨_, r, ?_, es.trans j2, j3⟩
          have := shift s.cfg n w r e1 r1 a1 h j1
          rwa [if_neg hz] at this
        · exact .inr ⟨k + 1, _, _, a, ra, by omega, shift s.cfg k w r0 e1 r1 a1 h j2, j3, j4, (es.trans j5).cast (by simp), j6⟩
    · rw [if_neg h]
      exact ⟨a4, a5, a6, a7, by simp [a8], a9, a10, .inr ⟨0, [], 0#8, e1, r1, by omega, rfl, a1, by simpa using h, a2.cast (by simp), rfl⟩⟩

/-- What a part of INIT from `s` to the end answers. -/
structure InitEnd (s : State) (q : Result × State) : Prop where
  cfg : q.2.cfg = s.cfg
  other : (q.2.tok, q.2.dresp, q.2.busyb, q.2.byteidx, q.2.sectidx, q.2.sectno, q.2.mem, q.2.bufp, q.2.port, q.2.rst) = (s.tok, s.dresp, s.busyb, s.byteidx, s.sectidx, s.sectno, s.mem, s.bufp, s.port, s.rst)
  ended : Ended q
  ready : q.2.ready = (decide (q.1 = .ok) || s.ready)
  fsm : q.2.fsm = if q.1 = .ok then .ready else .failed
  count : q.2.sectorCount = if q.1 = .ok then s.cfg.sectorCountFixed else s.sectorCount
  sel : q.2.sel = false
  framei : q.2.framei = 6
  retrycnt : q.2.retrycnt ≤ max s.retrycnt Config.acmd41Bound

theorem initEnd_raise (s t : State) (st : InitStep) (r : Byte) (h : quiet t = quiet s) (hs : t.sel = false) (hf : t.framei = 6)
    (hc : t.retrycnt ≤ max s.retrycnt Config.acmd41Bound) : InitEnd s (raiseError false (.initFailure st r) t) := by
  simp only [quiet, Prod.mk.injEq] at h
  obtain ⟨h1, h2, h3, h4, h5, h6, h7, h8, h9, h10, h11, h12, h13, h14, h15, h16, h17⟩ := h
  constructor <;> simp_all [raiseError, deliverValue]
  exact ⟨rfl, rfl, rfl, rfl, rfl⟩

theorem initEnd_ok (s t : State) (h : quiet t = quiet s) (hs : t.sel = false) (hf : t.framei = 6)
    (hc : t.retrycnt ≤ max s.retrycnt Config.acmd41Bound) : InitEnd s (deliverOk .nothing (fixCapacity t)) := by
  simp only [quiet, Prod.mk.injEq] at h
  obtain ⟨h1, h2, h3, h4, h5, h6, h7, h8, h9, h10, h11, h12, h13, h14, h15, h16, h17⟩ := h
  constructor <;> simp_all [deliverOk, deliverValue, fixCapacity]
  exact ⟨rfl, rfl, rfl, rfl, rfl⟩

theorem InitEnd.pre {s t : State} {q : Result × State} (h : InitEnd t q) (k : quiet t = quiet s)
    (hc : t.retrycnt ≤ max s.retrycnt Config.acmd41Bound) : InitEnd s q := by
  simp only [quiet, Prod.mk.injEq] at k
  obtain ⟨h1, h2, h3, h4, h5, h6, h7, h8, h9, h10, h11, h12, h13, h14, h15, h16, h17⟩ := k
  obtain ⟨g1, g2, g3, g4, g5, g6, g7, g8, g9⟩ := h
  refine ⟨?_, ?_, g3, ?_, ?_, ?_, g7, g8, g9.trans (max_le hc (le_max_right _ _))⟩ <;> simp_all

theorem blockLength_spec (s : State) : ∃ l r, (initFromBlockLength s).2.r1 = r ∧ (initFromBlockLength s).2.r7tail = s.r7tail ∧ Bracket s.cfg Config.opSetBlocklen Config.argBlocklen l r ∧
    Emitted s (initFromBlockLength s).2 l ∧ InitEnd s (initFromBlockLength s) ∧
    (initFromBlockLength s).1 = (if r = 0#8 then .ok else .initFailure .setBlockLength r) := by
  obtain ⟨evs, r, h1, h2, h3, h4, h5, h6, h7, h8, h9, h10⟩ := bracket_quiet Config.opSetBlocklen Config.argBlocklen { s with fsm := .setBlockLength }
  refine ⟨evs, r, ?_, ?_, h1, ?_, ?_, ?_⟩
  all_goals
    unfold initFromBlockLength initBlockLength
    generalize bracketCommand _ _ _ = q at *
    dsimp only
    rw [h3]
    by_cases hr : r = 0#8
  · rw [if_pos (by simp [r1AllClear, hr])]; exact h9
  · rw [if_neg (by simp [r1AllClear, hr])]; exact h9
  · rw [if_pos (by simp [r1AllClear, hr])]; exact h10
  · rw [if_neg (by simp [r1AllClear, hr])]; exact h10
  · rw [if_pos (by simp [r1AllClear, hr])]; exact ⟨h2.trace, h2.count, h2.heard⟩
  · rw [if_neg (by simp [r1AllClear, hr])]; exact ⟨h2.trace, h2.count, h2.heard⟩
  · rw [if_pos (by simp [r1AllClear, hr])]; exact initEnd_ok s q.2 h4 h6 h7 (h8.trans_le (le_max_left _ _))
  · rw [if_neg (by simp [r1AllClear, hr])]; exact initEnd_raise s q.2 _ _ h4 h6 h7 (h8.trans_le (le_max_left _ _))
  · rw [if_pos (by simp [r1AllClear, hr]), if_pos hr]; rfl
  · rw [if_neg (by simp [r1AllClear, hr]), if_neg hr]; rfl

/-- The part of a run from `ApplicationInit` on: its events, its result and the last response. -/
def AppRun (p : Params) (evs : List Event) (res : Result) (last : Byte) : Prop :=
  (StillIdle p 1000 evs last ∧ res = .initFailure .applicationInit last) ∨
  (∃ w a l r0 ra k, k < 1000 ∧ StillIdle p k w r0 ∧ Attempt p a ra ∧ r1IdleFlag ra = false ∧
    Bracket p 16#6 0x00000200#32 l last ∧ evs = w ++ a ++ l ∧ res = (if last = 0#8 then .ok else .initFailure .setBlockLength last))

theorem application_spec (s : State) : ∃ evs, AppRun s.cfg evs (initFromApplication s).1 (initFromApplication s).2.r1 ∧
    Emitted s (initFromApplication s).2 evs ∧ InitEnd s (initFromApplication s) ∧ (initFromApplication s).2.r7tail = s.r7tail := by
  obtain ⟨h1, h2, h3, h4, hr, h6, h7, h5⟩ := attempts_quiet Config.acmd41Bound s.r1 { s with fsm := .applicationInit, retrycnt := 0 } (by decide)
  replace hr : _ ≤ Config.acmd41Bound := hr.trans (Nat.zero_add _).le
  have hc := hr.trans (le_max_right s.retrycnt _)
  unfold initFromApplication initApplication
  generalize initAttempts Config.acmd41Bound s.r1 { s with fsm := .applicationInit, retrycnt := 0 } = q at *
  dsimp only
  rcases h5 with ⟨w, r, j1, j2, j3⟩ | ⟨k, w, r0, a, ra, j1, j2, j3, j4, j5, j6⟩
  · rw [if_neg (by simp [j3]), raiseError_r1, raiseError_r7tail, h6, j3]
    exact ⟨w, .inl ⟨j1, rfl⟩, ⟨j2.trace, j2.count, j2.heard⟩, initEnd_raise s q.2 _ _ h1 h3 h4 hc, h7⟩
  · rw [if_pos (by simp [j6])]
    obtain ⟨l, r, c1, c2, b1, b2, b3, b4⟩ := blockLength_spec q.2
    rw [show q.2.cfg = s.cfg from quiet_cfg h1] at b1
    rw [c1]
    refine ⟨w ++ a ++ l, .inr ⟨w, a, l, r0, ra, k, j1, j2, j3, j4, b1, rfl, b4⟩, ?_, b3.pre h1 hc, c2.trans h7⟩
    exact (⟨j5.trace, j5.count, j5.heard⟩ : Emitted s q.2 _).trans b2

theorem ifCond_spec (s : State) : ∃ c r tail, IfCondBracket s.cfg c r tail ∧ (tail ≠ [] → r = 0x01#8) ∧
    (initIfCond s).2.r7tail = tailAfter s.r7tail tail ∧ (initIfCond s).2.r1 = r ∧ Emitted s (initIfCond s).2 c ∧ (initIfCond s).1 = r ∧
    quiet (initIfCond s).2 = quiet s ∧ (initIfCond s).2.sel = false ∧ (initIfCond s).2.framei = 6 ∧
      (initIfCond s).2.retrycnt = s.retrycnt := by
  obtain ⟨heard, got, r, ha, he, hw⟩ := sendCommand_spec Config.opSendIfCond Config.argIfCond (select { s with fsm := .checkInterfaceCondition })
  unfold initIfCond
  generalize sendCommand _ _ _ = q at *
  have h1 : q.1 = r := congrArg Prod.fst hw
  have h2 := congrArg Prod.snd hw
  simp only at h2
  dsimp only
  rw [h1]
  have e1 : Emitted s q.2 (.sel :: commandEvents true (commandFrame s.cfg 8#6 0x000001AA#32) heard got) :=
    (select_emits s).trans (⟨he.trace, he.count, he.heard⟩ : Emitted (select s) q.2 _)
  have qs : q.2.sel = true := (congrArg State.sel h2).trans rfl
  have qc : q.2.cfg = s.cfg := (congrArg State.cfg h2).trans rfl
  have qf : q.2.framei = 6 := (congrArg State.framei h2).trans rfl
  have qr : quiet q.2 = quiet s := (congrArg quiet h2).trans rfl
  have qn : q.2.retrycnt = s.retrycnt := (congrArg State.retrycnt h2).trans rfl
  have q1 : q.2.r1 = r := (congrArg State.r1 h2).trans rfl
  have q7 : q.2.r7tail = s.r7tail := (congrArg State.r7tail h2).trans rfl
  by_cases hr : r = Config.r1Idle
  · rw [if_pos (by simp [r1ExactlyIdle, hr])]
    obtain ⟨x0, x1, x2, x3, de, dw⟩ := drainTail_four (startLoop q.2) rfl
    refine ⟨_, r, [x0, x1, x2, x3], ⟨_, ⟨by simp [hr, Config.r1Idle], heard, got, ha, rfl⟩, rfl⟩, fun _ => hr, ?_, ?_, ?_, rfl, ?_, rfl, ?_, ?_⟩
    · exact (congrArg State.r7tail dw).trans rfl
    · exact ((congrArg State.r1 dw).trans rfl).trans q1
    · generalize drainTail Config.r7TailLen (startLoop q.2) = w at de
      have e2 : Emitted q.2 w (listenEvents true s.cfg.fill [x0, x1, x2, x3]) :=
        (⟨de.trace, de.count, de.heard⟩ : Emitted q.2 w _).cast (by simp [startLoop, qs, qc])
      have e3 := ((e1.trans e2).trans (deselect_emits w))
      exact ⟨by simpa using e3.trace, by simpa using e3.count, by simpa using e3.heard⟩
    · exact ((congrArg quiet dw).trans rfl).trans qr
    · exact ((congrArg State.framei dw).trans rfl).trans qf
    · exact ((congrArg State.retrycnt dw).trans rfl).trans qn
  · rw [if_neg (by simp [r1ExactlyIdle, hr])]
    refine ⟨_, r, [], ⟨_, ⟨by rw [if_neg (by exact hr)]; rfl, heard, got, ha, rfl⟩, rfl⟩, fun h => absurd rfl h, q7, q1, ?_, rfl, qr, rfl, qf, qn⟩
    have e3 := e1.trans (deselect_emits q.2)
    exact ⟨by simpa using e3.trace, by simpa using e3.count, by simpa using e3.heard⟩

theorem init_spec (s : State) : ∃ evs tail, InitRun s.cfg evs ⟨(initCard s).1, (initCard s).2.r1, tail⟩ ∧
    (initCard s).2.r7tail = tailAfter s.r7tail tail ∧ Emitted s (initCard s).2 evs ∧ InitEnd { s with ready := false } (initCard s) := by
  obtain ⟨idle, hn, ie, iw⟩ := clockFill_spec s.cfg.resetIdleBytes (startLoop (enterInit s))
  unfold initCard initGoIdle
  have : initBusReset s = clockFill s.cfg.resetIdleBytes (startLoop (enterInit s)) := rfl
  rw [this]
  generalize clockFill s.cfg.resetIdleBytes (startLoop (enterInit s)) = v at *
  have ev : Emitted s v (busResetEvents s.cfg idle) :=
    (⟨(deselect_emits s).trace, (deselect_emits s).count, (deselect_emits s).heard⟩ : Emitted s (startLoop (enterInit s)) _).trans ie
  have vr : quiet v = quiet { s with ready := false } := (congrArg quiet iw).trans rfl
  have vc : v.cfg = s.cfg := (congrArg (fun x => x.1) vr).trans rfl
  obtain ⟨g, rg, b1, b2, b3, b4, b5, b6, b7, b8, b9, b10⟩ := bracket_quiet Config.opGoIdle Config.argZero { v with fsm := .goIdle }
  have b1' : Bracket s.cfg Config.opGoIdle Config.argZero g rg := vc ▸ b1
  generalize bracketCommand Config.opGoIdle Config.argZero { v with fsm := .goIdle } = q at *
  have eg : Emitted s q.2 (busResetEvents s.cfg idle ++ g) := ev.trans ⟨b2.trace, b2.count, b2.heard⟩
  have qr : quiet q.2 = quiet { s with ready := false } := b4.trans vr
  have v7 : v.r7tail = s.r7tail := (congrArg State.r7tail iw).trans rfl
  have vn : v.retrycnt = s.retrycnt := (congrArg State.retrycnt iw).trans rfl
  have qn : q.2.retrycnt ≤ max s.retrycnt Config.acmd41Bound := (b8.trans vn).trans_le (le_max_left _ _)
  dsimp only
  rw [b3]
  by_cases hr : rg = 0x01#8
  · rw [if_pos (by simp [r1ExactlyIdle, Config.r1Idle, hr])]
    subst hr
    obtain ⟨c, rc, tail, c1, c8, c9, c10, c2, c3, c4, c5, c6, c7⟩ := ifCond_spec q.2
    rw [b10.trans v7] at c9
    have qc : q.2.cfg = s.cfg := (congrArg (fun x => x.1) qr).trans rfl
    rw [qc] at c1
    unfold initFromIfCond
    generalize initIfCond q.2 = z at *
    dsimp only
    have zr := c4.trans qr
    have zn : z.2.retrycnt ≤ max s.retrycnt Config.acmd41Bound := c7.trans_le qn
    have zc : z.2.cfg = s.cfg := (congrArg (fun x => x.1) zr).trans rfl
    have ez := eg.trans c2
    rw [c3, zc]
    by_cases hf : (s.cfg.ifcondTimeoutFatal && !isResponse rc) = true
    · rw [if_pos hf]
      simp only [Bool.and_eq_true, Bool.not_eq_true'] at hf
      have tn : tail = [] := by
        by_contra h
        rw [c8 h] at hf
        exact absurd hf.2 (by decide)
      subst tn
      refine ⟨_, [], ?_, (raiseError_r7tail _ _ _).trans c9, ⟨ez.trace, ez.count, ez.heard⟩, initEnd_raise _ z.2 _ _ zr c5 c6 zn⟩
      rw [raiseError_r1, c10]
      exact .ifCond idle g c rc hn b1' c1 hf.1 hf.2
    · rw [if_neg hf]
      have pass : s.cfg.ifcondTimeoutFatal = true → isResponse rc = true := by
        intro h; simpa [h] using hf
      obtain ⟨evs, a1, a2, a3, a4⟩ := application_spec z.2
      rw [c9] at a4
      rw [zc] at a1
      have ea := ez.trans a2
      generalize initFromApplication z.2 = y at *
      rcases a1 with ⟨d1, d2⟩ | ⟨w, a, l, r0, ra, k, d1, d2, d3, d4, d5, d6, d7⟩
      · refine ⟨_, tail, ?_, a4, ea, a3.pre zr zn⟩
        rw [d2]
        exact .application idle g c evs rc _ tail hn b1' c1 pass d1
      · refine ⟨_, tail, ?_, a4, ea, a3.pre zr zn⟩
        rw [d7, d6]
        have := InitRun.blockLength (p := s.cfg) idle g c w a l rc r0 ra _ tail k hn b1' c1 pass d1 d2 d3 d4 d5
        simpa [List.append_assoc] using this
  · rw [if_neg (by simp [r1ExactlyIdle, Config.r1Idle, hr])]
    refine ⟨_, [], ?_, (raiseError_r7tail _ _ _).trans (b10.trans v7), ⟨eg.trace, eg.count, eg.heard⟩, initEnd_raise _ q.2 _ _ qr b6 b7 qn⟩
    rw [raiseError_r1, b9]
    exact .goIdle idle g rg hn b1' hr

end Sys2Proof.Machine
end

