-- ==== Sys2Proof/Laws/Reaction.lean ====
section
/-!
SUPPORT. What a reaction to a received byte can do (the tables R189, R211 and R254), one definition of the tables at a time: what
it keeps, the counters, the select latch at the end of an operation, and the Session.
-/

namespace Sys2Proof.Machine

/-- What every part of a step keeps: the parameters (R43), the canonical form of host memory, and the accounting of the ghosts
(R41, R42). -/
structure Kept (s t : State) : Prop where
  cfg : t.cfg = s.cfg
  mem : s.mem.wf → t.mem.wf
  account : ∃ evs, t.trace = s.trace ++ evs ∧ t.xcount = s.xcount + xferCount evs

theorem Kept.trans {s t u : State} (h : Kept s t) (k : Kept t u) : Kept s u := by
  obtain ⟨a, a1, a2⟩ := h.account
  obtain ⟨b, b1, b2⟩ := k.account
  exact ⟨k.cfg.trans h.cfg, fun w => k.mem (h.mem w), a ++ b, by rw [b1, a1, List.append_assoc], by
    rw [b2, a2, xferCount_append, Nat.add_assoc]⟩

/-- Nothing on the bus, host memory as it was. -/
theorem Kept.same {s t : State} (c : t.cfg = s.cfg) (m : t.mem = s.mem) (e : t.trace = s.trace) (x : t.xcount = s.xcount) :
    Kept s t :=
  ⟨c, fun w => by rw [m]; exact w, [], by simp [e], by simp [x]⟩

/-- The bus events `evs`, host memory as it was. -/
theorem Kept.emits {s t : State} {evs : List Event} (c : t.cfg = s.cfg) (m : t.mem = s.mem) (e : Emitted s t evs) : Kept s t :=
  ⟨c, fun w => by rw [m]; exact w, evs, e.trace, e.count⟩

theorem kept_select (s : State) : Kept s (select s) := .emits rfl rfl (select_emits s)

theorem kept_deselect (s : State) : Kept s (deselect s) := .emits rfl rfl (deselect_emits s)

theorem kept_sleep (s : State) : Kept s (sleep s) := .emits rfl rfl (sleep_emits s)

theorem kept_value (v : Delivered) (s : State) : Kept s (deliverValue v s) := .same rfl rfl rfl rfl

theorem kept_ok (v : Delivered) (s : State) : Kept s (deliverOk v s).2 := .same rfl rfl rfl rfl

theorem kept_raise (c : Bool) (e : Result) (s : State) : Kept s (raiseError c e s).2 := by
  cases c
  · cases e <;> exact .same rfl rfl rfl rfl
  · refine (kept_deselect s).trans ?_
    cases e <;> exact .same rfl rfl rfl rfl

theorem kept_issue (o : U6) (a : U32) (s : State) : Kept s (issue o a s) :=
  (kept_select s).trans (.same rfl rfl rfl rfl)

theorem kept_draw (s : State) : Kept s (draw s).2 := by unfold draw; split <;> exact .same rfl rfl rfl rfl

theorem kept_transfer (o i : Byte) (s : State) : Kept s (transfer o i s) :=
  ⟨rfl, id, [.xfer s.sel o i], rfl, rfl⟩

/-! Reactions. -/

theorem kept_failInit (v : Bool) (st : InitStep) (r : Byte) (s : State) : Kept s (failInit v st r s) := by
  unfold failInit
  dsimp only
  split
  · exact (kept_raise _ _ _).trans (kept_raise _ _ _)
  · exact kept_raise _ _ _

theorem kept_afterIfCond (v : Bool) (r : Byte) (s : State) : Kept s (afterIfCond v r s) := by
  unfold afterIfCond
  refine (kept_deselect s).trans ?_
  dsimp only
  split
  · exact kept_failInit _ _ _ _
  · exact Kept.trans (t := nextAttempt { deselect s with fsm := .applicationInit, retrycnt := 0 }) (.same rfl rfl rfl rfl) (kept_issue _ _ _)

theorem kept_afterInit (v : Bool) (r : Byte) (s : State) : Kept s (afterInitResponse v r s) := by
  unfold afterInitResponse
  split
  · refine (kept_deselect s).trans ?_
    split
    · exact Kept.trans (t := { deselect s with fsm := .checkInterfaceCondition }) (.same rfl rfl rfl rfl) (kept_issue _ _ _)
    · exact kept_failInit _ _ _ _
  · split
    · exact .same rfl rfl rfl rfl
    · exact kept_afterIfCond _ _ _
  · refine (kept_deselect s).trans ?_
    split
    · exact Kept.trans (t := noteAppCmd false (deselect s)) (.same rfl rfl rfl rfl) (kept_issue _ _ _)
    · unfold afterAttempt
      dsimp only
      split
      · refine (kept_sleep _).trans ?_
        split
        · exact Kept.trans (t := nextAttempt (sleep (deselect s))) (.same rfl rfl rfl rfl) (kept_issue _ _ _)
        · exact kept_failInit _ _ _ _
      · exact Kept.trans (t := { deselect s with fsm := .setBlockLength }) (.same rfl rfl rfl rfl) (kept_issue _ _ _)
  · refine (kept_deselect s).trans ?_
    split
    · exact .same rfl rfl rfl rfl
    · exact kept_failInit _ _ _ _
  all_goals exact .same rfl rfl rfl rfl

theorem kept_endSector (s : State) : Kept s (endSector s) := by
  unfold endSector
  split
  · split
    · exact Kept.trans (t := attachBuffer _ (atSector (s.sectno + 1) s)) (.same rfl rfl rfl rfl) (kept_issue _ _ _)
    · exact kept_ok _ _
  · exact kept_ok _ _
  all_goals exact .same rfl rfl rfl rfl

theorem kept_afterSectorResponse (w : Bool) (r : Byte) (s : State) : Kept s (afterSectorResponse w r s) := by
  unfold afterSectorResponse
  split
  · split <;> exact .same rfl rfl rfl rfl
  · exact kept_raise _ _ _

theorem kept_afterResponse (r : Byte) (s : State) : Kept s (afterResponse r s) := by
  unfold afterResponse
  split
  · split
    · exact (kept_deselect s).trans (kept_value _ _)
    · exact kept_value _ _
  · split
    · exact .same rfl rfl rfl rfl
    · exact (kept_deselect s).trans (kept_value _ _)
  · exact kept_afterInit _ _ _
  · exact kept_afterSectorResponse _ _ _
  · exact kept_afterSectorResponse _ _ _
  all_goals exact .same rfl rfl rfl rfl

theorem kept_afterDrain (s : State) : Kept s (afterDrain s) := by
  unfold afterDrain
  split
  · exact (kept_deselect s).trans (kept_value _ _)
  · exact kept_afterIfCond _ _ _
  all_goals exact .same rfl rfl rfl rfl

theorem kept_react (b : Byte) (s : State) : Kept s (react b s) := by
  unfold react
  split
  · exact .same rfl rfl rfl rfl
  · dsimp only
    split
    · exact .same rfl rfl rfl rfl
    · exact Kept.trans (t := { s with loopidx := s.loopidx + 1, fsm := .goIdle }) (.same rfl rfl rfl rfl) (kept_issue _ _ _)
  · dsimp only
    split <;> exact .same rfl rfl rfl rfl
  · dsimp only
    split
    · split <;> exact .same rfl rfl rfl rfl
    · refine Kept.trans (t := { s with pollcnt := s.pollcnt + 1, r1 := b }) (.same rfl rfl rfl rfl) ?_
      split
      · exact kept_afterResponse _ _
      · exact .same rfl rfl rfl rfl
  · dsimp only
    refine Kept.trans (t := { s with r7tail := tailWith s.r7tail s.loopidx b, loopidx := s.loopidx + 1 }) (.same rfl rfl rfl rfl) ?_
    split
    · exact .same rfl rfl rfl rfl
    · exact kept_afterDrain _
  · dsimp only
    refine Kept.trans (t := { s with pollcnt := s.pollcnt + 1, tok := b }) (.same rfl rfl rfl rfl) ?_
    split
    · exact .same rfl rfl rfl rfl
    split
    · exact .same rfl rfl rfl rfl
    · exact kept_raise _ _ _
  · dsimp only
    split <;> exact ⟨rfl, fun m => memWrite_wf m _ b, [], by simp [bufWrite, startLoop], by simp [bufWrite, startLoop]⟩
  · dsimp only
    refine Kept.trans (t := { s with loopidx := s.loopidx + 1 }) (.same rfl rfl rfl rfl) ?_
    split
    · exact .same rfl rfl rfl rfl
    · exact (kept_deselect _).trans (kept_endSector _)
  · exact .same rfl rfl rfl rfl
  · dsimp only
    split <;> exact .same rfl rfl rfl rfl
  · dsimp only
    split <;> exact .same rfl rfl rfl rfl
  · dsimp only
    refine Kept.trans (t := { s with dresp := b }) (.same rfl rfl rfl rfl) ?_
    split
    · exact .same rfl rfl rfl rfl
    · exact kept_raise _ _ _
  · dsimp only
    refine Kept.trans (t := { s with pollcnt := s.pollcnt + 1, busyb := b }) (.same rfl rfl rfl rfl) ?_
    split
    · exact (kept_deselect _).trans (kept_endSector _)
    split
    · exact .same rfl rfl rfl rfl
    · exact kept_raise _ _ _

theorem kept_advance (b : Byte) (s : State) : Kept s (advance b s) := by
  unfold advance
  split
  · exact .same rfl rfl rfl rfl
  · exact (kept_transfer _ _ _).trans (kept_react _ _)

theorem kept_crank (s : State) : Kept s (crank s) := by
  unfold crank
  split
  · exact .same rfl rfl rfl rfl
  · exact (kept_draw s).trans (kept_advance _ _)

/-! The counters. -/

/-- The bounds that do not depend on the phase. -/
structure Bounded (s : State) : Prop where
  framei : s.framei ≤ Config.frameLen
  byteidx : s.byteidx ≤ Config.blockSize
  retrycnt : s.retrycnt ≤ Config.acmd41Bound

theorem LoopsInRange.bounded {s : State} (h : s.LoopsInRange) : Bounded s := ⟨h.framei, h.byteidx, h.retrycnt⟩

/-- In a phase that counts neither frame nor payload bytes the bounds are all. -/
theorem Bounded.counters {s : State} (h : Bounded s) (a : s.phase ≠ .frame) (b : s.phase ≠ .rdPayload) (c : s.phase ≠ .wrPayload) :
    s.LoopsInRange :=
  ⟨h.framei, fun e => absurd e a, h.byteidx, fun e => e.elim (absurd · b) (absurd · c), h.retrycnt⟩

theorem counters_issue {s : State} (h : Bounded s) (o : U6) (a : U32) : (issue o a s).LoopsInRange :=
  ⟨Nat.zero_le _, fun _ => by show 0 < Config.frameLen; decide, h.byteidx, fun e => (by rcases e with e | e <;> cases e), h.retrycnt⟩

theorem counters_value {s : State} (h : Bounded s) (v : Delivered) : (deliverValue v s).LoopsInRange :=
  Bounded.counters (s := deliverValue v s) ⟨h.framei, h.byteidx, h.retrycnt⟩ (by simp [deliverValue]) (by simp [deliverValue]) (by simp [deliverValue])

theorem counters_ok {s : State} (h : Bounded s) (v : Delivered) : (deliverOk v s).2.LoopsInRange :=
  Bounded.counters (s := (deliverOk v s).2) ⟨h.framei, h.byteidx, h.retrycnt⟩ (by simp [deliverOk, deliverValue]) (by simp [deliverOk, deliverValue]) (by simp [deliverOk, deliverValue])

theorem bounded_raise {s : State} (h : Bounded s) (c : Bool) (e : Result) : Bounded (raiseError c e s).2 := by
  cases c <;> cases e <;> exact ⟨h.framei, h.byteidx, h.retrycnt⟩

theorem counters_raise {s : State} (h : Bounded s) (c : Bool) (e : Result) : (raiseError c e s).2.LoopsInRange :=
  (bounded_raise h c e).counters (by simp) (by simp) (by simp)

theorem counters_failInit {s : State} (h : Bounded s) (v : Bool) (st : InitStep) (r : Byte) : (failInit v st r s).LoopsInRange := by
  unfold failInit
  dsimp only
  split
  · exact counters_raise (bounded_raise h _ _) _ _
  · exact counters_raise h _ _

theorem counters_afterIfCond {s : State} (h : Bounded s) (v : Bool) (r : Byte) : (afterIfCond v r s).LoopsInRange := by
  unfold afterIfCond
  dsimp only
  split
  · exact counters_failInit (s := deselect s) ⟨h.framei, h.byteidx, h.retrycnt⟩ _ _ _
  · exact counters_issue (s := nextAttempt { deselect s with fsm := .applicationInit, retrycnt := 0 }) ⟨h.framei, h.byteidx, by show 0 + 1 ≤ Config.acmd41Bound; decide⟩ _ _

theorem counters_afterInit {s : State} (h : Bounded s) (c : s.LoopsInRange) (v : Bool) (r : Byte) : (afterInitResponse v r s).LoopsInRange := by
  have d : Bounded (deselect s) := ⟨h.framei, h.byteidx, h.retrycnt⟩
  unfold afterInitResponse
  split
  · split
    · exact counters_issue (s := { deselect s with fsm := .checkInterfaceCondition }) ⟨h.framei, h.byteidx, h.retrycnt⟩ _ _
    · exact counters_failInit d _ _ _
  · split
    · exact Bounded.counters (s := { startLoop s with phase := .r7Drain }) ⟨h.framei, h.byteidx, h.retrycnt⟩ (by simp) (by simp) (by simp)
    · exact counters_afterIfCond h _ _
  · split
    · exact counters_issue (s := noteAppCmd false (deselect s)) ⟨h.framei, h.byteidx, h.retrycnt⟩ _ _
    · unfold afterAttempt
      dsimp only
      split
      · split
        · rename_i hl
          exact counters_issue (s := nextAttempt (sleep (deselect s))) ⟨h.framei, h.byteidx, hl⟩ _ _
        · exact counters_failInit (s := sleep (deselect s)) ⟨h.framei, h.byteidx, h.retrycnt⟩ _ _ _
      · exact counters_issue (s := { deselect s with fsm := .setBlockLength }) ⟨h.framei, h.byteidx, h.retrycnt⟩ _ _
  · split
    · exact counters_ok (s := fixCapacity (deselect s)) ⟨h.framei, h.byteidx, h.retrycnt⟩ _
    · exact counters_failInit d _ _ _
  all_goals exact c

theorem counters_endSector {s : State} (h : Bounded s) (c : s.LoopsInRange) : (endSector s).LoopsInRange := by
  unfold endSector
  split
  · split
    · exact counters_issue (s := attachBuffer _ (atSector (s.sectno + 1) s)) ⟨h.framei, h.byteidx, h.retrycnt⟩ _ _
    · exact counters_ok h _
  · exact counters_ok h _
  all_goals exact c

theorem counters_afterSectorResponse {s : State} (h : Bounded s) (w : Bool) (r : Byte) : (afterSectorResponse w r s).LoopsInRange := by
  unfold afterSectorResponse
  split
  · split
    · exact Bounded.counters (s := { s with phase := .wrToken }) ⟨h.framei, h.byteidx, h.retrycnt⟩ (by simp) (by simp) (by simp)
    · exact Bounded.counters (s := { s with pollcnt := 0, phase := .tokenPoll }) ⟨h.framei, h.byteidx, h.retrycnt⟩ (by simp) (by simp) (by simp)
  · exact counters_raise h _ _

theorem counters_afterResponse {s : State} (h : Bounded s) (c : s.LoopsInRange) (r : Byte) : (afterResponse r s).LoopsInRange := by
  have d : Bounded (deselect s) := ⟨h.framei, h.byteidx, h.retrycnt⟩
  unfold afterResponse
  split
  · split
    · exact counters_value d _
    · exact counters_value h _
  · split
    · exact Bounded.counters (s := { startLoop s with phase := .r7Drain }) ⟨h.framei, h.byteidx, h.retrycnt⟩ (by simp) (by simp) (by simp)
    · exact counters_value d _
  · exact counters_afterInit h c _ _
  · exact counters_afterSectorResponse h _ _
  · exact counters_afterSectorResponse h _ _
  all_goals exact c

theorem counters_afterDrain {s : State} (h : Bounded s) (c : s.LoopsInRange) : (afterDrain s).LoopsInRange := by
  unfold afterDrain
  split
  · exact counters_value (s := deselect s) ⟨h.framei, h.byteidx, h.retrycnt⟩ _
  · exact counters_afterIfCond h _ _
  all_goals exact c

theorem counters_react {s : State} (c : s.LoopsInRange) (b : Byte) : (react b s).LoopsInRange := by
  have h := LoopsInRange.bounded c
  unfold react
  split
  · exact c
  · rename_i hp
    dsimp only
    split
    · exact Bounded.counters (s := { s with loopidx := s.loopidx + 1 }) ⟨h.framei, h.byteidx, h.retrycnt⟩ (by simp [hp]) (by simp [hp]) (by simp [hp])
    · exact counters_issue (s := { s with loopidx := s.loopidx + 1, fsm := .goIdle }) ⟨h.framei, h.byteidx, h.retrycnt⟩ _ _
  · rename_i hp
    have hl := c.frameiNext hp
    dsimp only
    split
    · rename_i hn
      exact ⟨hl, fun _ => hn, h.byteidx, fun e => by simp [hp] at e, h.retrycnt⟩
    · exact Bounded.counters (s := { s with framei := s.framei + 1, pollcnt := 0, phase := .respPoll }) ⟨hl, h.byteidx, h.retrycnt⟩ (by simp) (by simp) (by simp)
  · rename_i hp
    dsimp only
    split
    · split
      · exact counters_value (s := { s with pollcnt := s.pollcnt + 1 }) ⟨h.framei, h.byteidx, h.retrycnt⟩ _
      · exact Bounded.counters (s := { s with pollcnt := s.pollcnt + 1 }) ⟨h.framei, h.byteidx, h.retrycnt⟩ (by simp [hp]) (by simp [hp]) (by simp [hp])
    · have hc : State.LoopsInRange { s with pollcnt := s.pollcnt + 1, r1 := b } :=
        Bounded.counters (s := { s with pollcnt := s.pollcnt + 1, r1 := b }) ⟨h.framei, h.byteidx, h.retrycnt⟩ (by simp [hp]) (by simp [hp]) (by simp [hp])
      split
      · exact counters_afterResponse (LoopsInRange.bounded hc) hc _
      · exact hc
  · rename_i hp
    dsimp only
    have hc : State.LoopsInRange { s with r7tail := tailWith s.r7tail s.loopidx b, loopidx := s.loopidx + 1 } :=
      Bounded.counters (s := { s with r7tail := tailWith s.r7tail s.loopidx b, loopidx := s.loopidx + 1 }) ⟨h.framei, h.byteidx, h.retrycnt⟩ (by simp [hp]) (by simp [hp]) (by simp [hp])
    split
    · exact hc
    · exact counters_afterDrain (LoopsInRange.bounded hc) hc
  · rename_i hp
    dsimp only
    split
    · exact ⟨h.framei, fun e => by simp at e, Nat.zero_le _, fun _ => by show 0 < Config.blockSize; decide, h.retrycnt⟩
    split
    · exact Bounded.counters (s := { s with pollcnt := s.pollcnt + 1, tok := b }) ⟨h.framei, h.byteidx, h.retrycnt⟩ (by simp [hp]) (by simp [hp]) (by simp [hp])
    · exact counters_raise (s := { s with pollcnt := s.pollcnt + 1, tok := b }) ⟨h.framei, h.byteidx, h.retrycnt⟩ _ _
  · rename_i hp
    have hl := c.byteidxNext (.inl hp)
    dsimp only
    split
    · rename_i hn
      exact ⟨h.framei, fun e => by simp [bufWrite, hp] at e, hl, fun _ => hn, h.retrycnt⟩
    · exact Bounded.counters (s := { startLoop { bufWrite s.byteidx b s with byteidx := s.byteidx + 1 } with phase := .rdCrc }) ⟨h.framei, hl, h.retrycnt⟩ (by simp) (by simp) (by simp)
  · rename_i hp
    dsimp only
    have hc : State.LoopsInRange (deselect { s with loopidx := s.loopidx + 1 }) :=
      Bounded.counters (s := deselect { s with loopidx := s.loopidx + 1 }) ⟨h.framei, h.byteidx, h.retrycnt⟩ (by simp [hp]) (by simp [hp]) (by simp [hp])
    split
    · exact Bounded.counters (s := { s with loopidx := s.loopidx + 1 }) ⟨h.framei, h.byteidx, h.retrycnt⟩ (by simp [hp]) (by simp [hp]) (by simp [hp])
    · exact counters_endSector (LoopsInRange.bounded hc) hc
  · exact ⟨h.framei, fun e => by simp at e, Nat.zero_le _, fun _ => by show 0 < Config.blockSize; decide, h.retrycnt⟩
  · rename_i hp
    have hl := c.byteidxNext (.inr hp)
    dsimp only
    split
    · rename_i hn
      exact ⟨h.framei, fun e => by simp [hp] at e, hl, fun _ => hn, h.retrycnt⟩
    · exact Bounded.counters (s := { startLoop { s with byteidx := s.byteidx + 1 } with phase := .wrCrc }) ⟨h.framei, hl, h.retrycnt⟩ (by simp) (by simp) (by simp)
  · rename_i hp
    dsimp only
    split
    · exact Bounded.counters (s := { s with loopidx := s.loopidx + 1 }) ⟨h.framei, h.byteidx, h.retrycnt⟩ (by simp [hp]) (by simp [hp]) (by simp [hp])
    · exact Bounded.counters (s := { s with loopidx := s.loopidx + 1, phase := .wrResp }) ⟨h.framei, h.byteidx, h.retrycnt⟩ (by simp) (by simp) (by simp)
  · dsimp only
    split
    · exact Bounded.counters (s := { s with dresp := b, pollcnt := 0, phase := .busyPoll }) ⟨h.framei, h.byteidx, h.retrycnt⟩ (by simp) (by simp) (by simp)
    · exact counters_raise (s := { s with dresp := b }) ⟨h.framei, h.byteidx, h.retrycnt⟩ _ _
  · rename_i hp
    dsimp only
    have hc : State.LoopsInRange (deselect { s with pollcnt := s.pollcnt + 1, busyb := b }) :=
      Bounded.counters (s := deselect { s with pollcnt := s.pollcnt + 1, busyb := b }) ⟨h.framei, h.byteidx, h.retrycnt⟩ (by simp [hp]) (by simp [hp]) (by simp [hp])
    split
    · exact counters_endSector (LoopsInRange.bounded hc) hc
    split
    · exact Bounded.counters (s := { s with pollcnt := s.pollcnt + 1, busyb := b }) ⟨h.framei, h.byteidx, h.retrycnt⟩ (by simp [hp]) (by simp [hp]) (by simp [hp])
    · exact counters_raise (s := { s with pollcnt := s.pollcnt + 1, busyb := b }) ⟨h.framei, h.byteidx, h.retrycnt⟩ _ _

/-! The select latch. -/

/-- If the operation ends, the card is deselected. -/
def Closes (s : State) : Prop := s.busy = false → s.sel = false

theorem closes_running {s : State} (h : s.busy = true) : Closes s := fun k => by rw [h] at k; cases k

theorem closes_off {s : State} (h : s.sel = false) : Closes s := fun _ => h

theorem closes_raise (e : Result) (s : State) : Closes (raiseError true e s).2 := closes_off (by cases e <;> rfl)

theorem closes_failInit (v : Bool) (st : InitStep) (r : Byte) {s : State} (h : s.sel = false) : Closes (failInit v st r s) :=
  closes_off (by unfold failInit; cases v <;> exact h)

theorem closes_afterIfCond {s : State} (h : s.busy = true) (v : Bool) (r : Byte) : Closes (afterIfCond v r s) := by
  unfold afterIfCond
  dsimp only
  split
  · exact closes_failInit _ _ _ rfl
  · exact closes_running h

theorem closes_afterInit {s : State} (h : s.busy = true) (v : Bool) (r : Byte) : Closes (afterInitResponse v r s) := by
  unfold afterInitResponse
  split
  · split
    · exact closes_running h
    · exact closes_failInit _ _ _ rfl
  · split
    · exact closes_running h
    · exact closes_afterIfCond h _ _
  · split
    · exact closes_running h
    · unfold afterAttempt
      dsimp only
      split
      · split
        · exact closes_running h
        · exact closes_failInit _ _ _ rfl
      · exact closes_running h
  · split
    · exact closes_off rfl
    · exact closes_failInit _ _ _ rfl
  all_goals exact closes_running h

theorem closes_endSector {s : State} (h : s.busy = true) (k : s.sel = false) : Closes (endSector s) := by
  unfold endSector
  split
  · split
    · exact closes_running h
    · exact closes_off k
  · exact closes_off k
  all_goals exact closes_running h

theorem closes_afterResponse {s : State} (h : s.busy = true) (k : flow s ≠ .command false) (r : Byte) : Closes (afterResponse r s) := by
  have sector : ∀ w, Closes (afterSectorResponse w r s) := by
    intro w
    unfold afterSectorResponse
    split
    · split <;> exact closes_running h
    · exact closes_raise _ _
  unfold afterResponse
  split
  · rename_i b hb
    cases b
    · exact absurd hb k
    · exact closes_off rfl
  · split
    · exact closes_running h
    · exact closes_off rfl
  · exact closes_afterInit h _ _
  · exact sector _
  · exact sector _
  all_goals exact closes_running h

theorem closes_react {s : State} (h : s.busy = true) (k : flow s ≠ .command false) (q : ∀ bound pred out, flow s ≠ .polling bound pred out)
    (b : Byte) : Closes (react b s) := by
  unfold react
  split
  · exact closes_running h
  · dsimp only
    split <;> exact closes_running h
  · dsimp only
    split <;> exact closes_running h
  · dsimp only
    split
    · rename_i bd pr o hf
      exact absurd hf (q bd pr o)
    · split
      · exact closes_afterResponse (s := { s with pollcnt := s.pollcnt + 1, r1 := b }) h k _
      · exact closes_running h
  · dsimp only
    split
    · exact closes_running h
    · unfold afterDrain
      split
      · exact closes_off rfl
      · exact closes_afterIfCond (s := { s with r7tail := tailWith s.r7tail s.loopidx b, loopidx := s.loopidx + 1 }) h _ _
      all_goals exact closes_running h
  · dsimp only
    split
    · exact closes_running h
    split
    · exact closes_running h
    · exact closes_raise _ _
  · dsimp only
    split <;> exact closes_running h
  · dsimp only
    split
    · exact closes_running h
    · exact closes_endSector (s := deselect { s with loopidx := s.loopidx + 1 }) h rfl
  · exact closes_running h
  · dsimp only
    split <;> exact closes_running h
  · dsimp only
    split <;> exact closes_running h
  · dsimp only
    split
    · exact closes_running h
    · exact closes_raise _ _
  · dsimp only
    split
    · exact closes_endSector (s := deselect { s with pollcnt := s.pollcnt + 1, busyb := b }) h rfl
    split
    · exact closes_running h
    · exact closes_raise _ _

/-! The Session. -/

theorem session_raise (c : Bool) {e : Result} (he : ∀ a b, e ≠ .initFailure a b) (s : State) : session (raiseError c e s).2 = session s := by
  cases c <;> cases e
  all_goals first
    | exact absurd rfl (he _ _)
    | rfl

theorem session_endSector (s : State) : session (endSector s) = session s := by
  unfold endSector
  split
  · split <;> rfl
  all_goals rfl

theorem session_afterSectorResponse (w : Bool) (r : Byte) (s : State) : session (afterSectorResponse w r s) = session s := by
  unfold afterSectorResponse
  split
  · split <;> rfl
  · exact session_raise _ (by simp) _

theorem session_react (b : Byte) (s : State) (k : isSequence (flow s) = false) (p : s.phase ≠ .resetIdle) :
    session (react b s) = session s := by
  have nv : ∀ v, flow s ≠ .sequence v := fun v h => by rw [h] at k; cases k
  unfold react
  split
  · rfl
  · exact absurd ‹_› p
  · dsimp only
    split <;> rfl
  · dsimp only
    split
    · split <;> rfl
    · split
      · unfold afterResponse
        split
        · split <;> rfl
        · split <;> rfl
        · rename_i v hv
          exact absurd hv (nv v)
        · exact session_afterSectorResponse _ _ { s with pollcnt := s.pollcnt + 1, r1 := b }
        · exact session_afterSectorResponse _ _ { s with pollcnt := s.pollcnt + 1, r1 := b }
        all_goals rfl
      · rfl
  · dsimp only
    split
    · rfl
    · unfold afterDrain
      split
      · rfl
      · rename_i v hv
        exact absurd hv (nv v)
      all_goals rfl
  · dsimp only
    split
    · rfl
    split
    · rfl
    · exact session_raise _ (by simp) _
  · dsimp only
    split <;> rfl
  · dsimp only
    split
    · rfl
    · exact session_endSector (deselect { s with loopidx := s.loopidx + 1 })
  · rfl
  · dsimp only
    split <;> rfl
  · dsimp only
    split <;> rfl
  · dsimp only
    split
    · rfl
    · exact session_raise _ (by simp) _
  · dsimp only
    split
    · exact session_endSector (deselect { s with pollcnt := s.pollcnt + 1, busyb := b })
    split
    · rfl
    · exact session_raise _ (by simp) _

end Sys2Proof.Machine
end

