-- ==== Sys2Proof/Laws/Sector.lean ====
section
/-!
SUPPORT. What a whole sector transaction does (44_block_io.md R241, R246), from its latched frame to its `Desel`.
-/

namespace Sys2Proof.Machine

theorem isStartToken_eq {b : Byte} : isStartToken b = true ↔ b = 0xFE#8 := by
  simp [isStartToken, Config.dataStartToken]

theorem notBusy_eq {b : Byte} : notBusy b = true ↔ b ≠ 0#8 := by simp [notBusy]

theorem r1AllClear_eq {b : Byte} : r1AllClear b = true ↔ b = 0#8 := by simp [r1AllClear]

theorem listenEvents_append (b : Bool) (o : Byte) (xs ys : List Byte) :
    listenEvents b o (xs ++ ys) = listenEvents b o xs ++ listenEvents b o ys := by
  induction xs with
  | nil => rfl
  | cons x xs ih => simp [ih]

/-- Everything the transaction of opcode 17 does once selected and latched. -/
theorem readLatched_spec (s : State) (hs : s.sel = true) (hf : s.framei = 0) :
    ∃ evs e, ReadRun s.cfg s.frame evs e ∧ Emitted s (readLatched s).2 evs ∧
      readLatched s =
        (e.res, { withBus (readLatched s).2 s with
          framei := Config.frameLen
          pollcnt := (readLatched s).2.pollcnt
          byteidx := (readLatched s).2.byteidx
          loopidx := (readLatched s).2.loopidx
          r1 := e.r1
          tok := e.tok.getD s.tok
          mem := memWriteAll s.mem s.bufp e.data
          sel := false
          out := .nothing
          busy := false
          phase := .idle
          running := none
          res := e.res }) := by
  obtain ⟨heard, got, r, ha, he, hw⟩ := sendLatched_spec s hf
  have h1 : (sendLatched s).1 = r := congrArg Prod.fst hw
  have h2 := congrArg Prod.snd hw
  simp only at h2
  unfold readLatched
  simp only [h1]
  generalize (sendLatched s).2 = u at he h2 ⊢
  have usel : u.sel = s.sel := (congrArg State.sel h2).trans rfl
  have ucfg : u.cfg = s.cfg := (congrArg State.cfg h2).trans rfl
  by_cases hr : r = 0#8
  · subst hr
    simp only [r1AllClear, beq_self_eq_true, if_true]
    unfold readData
    obtain ⟨toks, last, hp, hpe, hpw⟩ := poll_spec Config.tokenPollBound (by decide) isStartToken u.cfg.fill u
    generalize poll Config.tokenPollBound isStartToken u.cfg.fill u = p at hpe hpw ⊢
    have p1 : p.1 = ⟨isStartToken last, last, toks.length⟩ := by rw [hpw]
    have p2 : p.2 = { withBus p.2 u with pollcnt := toks.length } := congrArg Prod.snd hpw
    simp only [p1]
    generalize p.2 = q at hpe p2
    have q2 : q = { withBus q s with framei := Config.frameLen, pollcnt := toks.length, r1 := 0#8 } := by
      refine p2.trans ?_
      rw [h2]
      rfl
    have qsel : q.sel = s.sel := ((congrArg State.sel p2).trans rfl).trans usel
    have qcfg : q.cfg = s.cfg := ((congrArg State.cfg p2).trans rfl).trans ucfg
    by_cases hl : last = 0xFE#8
    · subst hl
      simp only [show isStartToken 0xFE#8 = true from rfl, if_true]
      obtain ⟨data, hn, hde, hdw⟩ := receivePayload_spec Config.blockSize (startPayload { q with tok := 0xFE#8 })
      generalize receivePayload Config.blockSize (startPayload { q with tok := 0xFE#8 }) = v at hde hdw ⊢
      have vsel : v.sel = s.sel := ((congrArg State.sel hdw).trans rfl).trans qsel
      have vcfg : v.cfg = s.cfg := ((congrArg State.cfg hdw).trans rfl).trans qcfg
      obtain ⟨crc, hk, hce, hcw⟩ := clockFill_spec Config.dataCrcLen (startLoop v)
      generalize clockFill Config.dataCrcLen (startLoop v) = w at hce hcw ⊢
      refine ⟨_, _, .done heard got toks data crc ha hp hn hk, ?_, ?_⟩
      · have e1 : Emitted q v (listenEvents s.sel s.cfg.fill data) :=
          (⟨hde.trace, hde.count, hde.heard⟩ : Emitted q v _).cast (by simp [startPayload, qsel, qcfg])
        have e2 : Emitted v w (listenEvents s.sel s.cfg.fill crc) :=
          (⟨hce.trace, hce.count, hce.heard⟩ : Emitted v w _).cast (by simp [startLoop, vsel, vcfg])
        have e3 := (((he.trans hpe).trans e1).trans e2).trans (deselect_emits w)
        have e4 := e3.cast (b := commandEvents true s.frame heard got ++
            listenEvents true s.cfg.fill (toks ++ data ++ crc) ++ [.desel])
          (by simp [listenEvents_append, usel, ucfg, hs])
        exact ⟨e4.trace, e4.count, e4.heard⟩
      · refine Prod.ext rfl ?_
        simp only [deliverOk]
        have v2 : v = { withBus v s with
            framei := Config.frameLen, pollcnt := v.pollcnt, byteidx := v.byteidx, r1 := 0#8, tok := 0xFE#8,
            mem := memWriteAll s.mem s.bufp data } := by
          have vp : v.pollcnt = toks.length := ((congrArg State.pollcnt hdw).trans rfl).trans
            ((congrArg State.pollcnt p2).trans rfl)
          have vb : v.byteidx = 0 + Config.blockSize := (congrArg State.byteidx hdw).trans rfl
          rw [vp, vb]
          refine hdw.trans ?_
          generalize Config.blockSize = n1
          rw [q2]
          rfl
        have w2 : w = { withBus w s with
            framei := Config.frameLen, pollcnt := w.pollcnt, byteidx := w.byteidx, loopidx := w.loopidx, r1 := 0#8,
            tok := 0xFE#8, mem := memWriteAll s.mem s.bufp data } := by
          have wp : w.pollcnt = v.pollcnt := (congrArg State.pollcnt hcw).trans rfl
          have wb : w.byteidx = v.byteidx := (congrArg State.byteidx hcw).trans rfl
          have wl : w.loopidx = 0 + Config.dataCrcLen := (congrArg State.loopidx hcw).trans rfl
          rw [wp, wb, wl]
          refine hcw.trans ?_
          generalize v.pollcnt = a at v2 ⊢
          generalize v.byteidx = b at v2 ⊢
          rw [v2]
          rfl
        exact congrArg (fun x => (deliverOk .nothing (deselect x)).2) w2
    · have hm : isStartToken last = false := by
        rw [← Bool.not_eq_true, isStartToken_eq]; exact hl
      simp only [hm, Bool.false_eq_true, if_false]
      refine ⟨_, _, .timeout heard got toks last ha hp hl, ?_, ?_⟩
      · have e3 := (he.trans hpe).trans (deselect_emits q)
        have e4 := e3.cast (b := commandEvents true s.frame heard got ++ listenEvents true s.cfg.fill toks ++ [.desel])
          (by simp [usel, ucfg, hs])
        exact ⟨e4.trace, e4.count, e4.heard⟩
      · refine Prod.ext rfl ?_
        simp only [raiseError, if_true]
        rw [q2]
        rfl
  · have hm : r1AllClear r = false := by
      rw [← Bool.not_eq_true, r1AllClear_eq]; exact hr
    simp only [hm, Bool.false_eq_true, if_false]
    refine ⟨_, _, .rejected heard got r ha hr, ?_, ?_⟩
    · have e3 := he.trans (deselect_emits u)
      have e4 := e3.cast (b := commandEvents true s.frame heard got ++ [.desel]) (by simp [hs])
      exact ⟨e4.trace, e4.count, e4.heard⟩
    · refine Prod.ext rfl ?_
      simp only [raiseError, if_true]
      rw [h2]
      rfl

/-- Everything the transaction of opcode 24 does once selected and latched. -/
theorem writeLatched_spec (s : State) (hs : s.sel = true) (hf : s.framei = 0) :
    ∃ evs e, WriteRun s.cfg s.frame (bufBytes s 0 Config.blockSize) evs e ∧ Emitted s (writeLatched s).2 evs ∧
      writeLatched s =
        (e.res, { withBus (writeLatched s).2 s with
          framei := Config.frameLen
          pollcnt := (writeLatched s).2.pollcnt
          byteidx := (writeLatched s).2.byteidx
          loopidx := (writeLatched s).2.loopidx
          r1 := e.r1
          dresp := e.dresp.getD s.dresp
          busyb := e.busyb.getD s.busyb
          sel := false
          out := .nothing
          busy := false
          phase := .idle
          running := none
          res := e.res }) := by
  obtain ⟨heard, got, r, ha, he, hw⟩ := sendLatched_spec s hf
  have h1 : (sendLatched s).1 = r := congrArg Prod.fst hw
  have h2 := congrArg Prod.snd hw
  simp only at h2
  unfold writeLatched
  simp only [h1]
  generalize (sendLatched s).2 = u at he h2 ⊢
  have usel : u.sel = s.sel := (congrArg State.sel h2).trans rfl
  have ucfg : u.cfg = s.cfg := (congrArg State.cfg h2).trans rfl
  have umem : u.mem = s.mem := (congrArg State.mem h2).trans rfl
  have ubuf : u.bufp = s.bufp := (congrArg State.bufp h2).trans rfl
  by_cases hr : r = 0#8
  · subst hr
    simp only [r1AllClear, beq_self_eq_true, if_true]
    unfold writeData
    generalize Config.blockSize = size
    dsimp only
    have ke := exchange_emits Config.dataStartToken u
    have kw := exchange_withBus Config.dataStartToken u
    generalize (draw u).1 = kb at ke
    generalize (exchange Config.dataStartToken u).2 = k at ke kw ⊢
    have ksel : k.sel = s.sel := ((congrArg State.sel kw).trans rfl).trans usel
    have kcfg : k.cfg = s.cfg := ((congrArg State.cfg kw).trans rfl).trans ucfg
    have kmem : k.mem = s.mem := ((congrArg State.mem kw).trans rfl).trans umem
    have kbuf : k.bufp = s.bufp := ((congrArg State.bufp kw).trans rfl).trans ubuf
    obtain ⟨mid, hn, hde, hdw⟩ := sendPayload_spec size (startPayload k)
    rw [bufBytes_congr (s := s) (t := startPayload k) kmem kbuf] at hde
    generalize sendPayload size (startPayload k) = v at hde hdw ⊢
    have vsel : v.sel = s.sel := ((congrArg State.sel hdw).trans rfl).trans ksel
    have vcfg : v.cfg = s.cfg := ((congrArg State.cfg hdw).trans rfl).trans kcfg
    obtain ⟨crc, hk, hce, hcw⟩ := clockFill_spec Config.dataCrcLen (startLoop v)
    generalize clockFill Config.dataCrcLen (startLoop v) = w at hce hcw ⊢
    have wsel : w.sel = s.sel := ((congrArg State.sel hcw).trans rfl).trans vsel
    have wcfg : w.cfg = s.cfg := ((congrArg State.cfg hcw).trans rfl).trans vcfg
    have xe := exchange_emits w.cfg.fill w
    have xw := exchange_withBus w.cfg.fill w
    rw [show (exchange w.cfg.fill w).1 = (draw w).1 from rfl]
    generalize (draw w).1 = d at xe ⊢
    generalize (exchange w.cfg.fill w).2 = x at xe xw ⊢
    have xsel : x.sel = s.sel := ((congrArg State.sel xw).trans rfl).trans wsel
    have xcfg : x.cfg = s.cfg := ((congrArg State.cfg xw).trans rfl).trans wcfg
    obtain ⟨c0, c1, rfl⟩ : ∃ c0 c1, crc = [c0, c1] := by
      match crc, hk with
      | [c0, c1], _ => exact ⟨c0, c1, rfl⟩
    have e1 : Emitted k v (xfers s.sel (bufBytes s 0 size) mid) :=
      (⟨hde.trace, hde.count, hde.heard⟩ : Emitted k v _).cast (by simp [startPayload, ksel])
    have e2 : Emitted v w (listenEvents s.sel s.cfg.fill [c0, c1]) :=
      (⟨hce.trace, hce.count, hce.heard⟩ : Emitted v w _).cast (by simp [startLoop, vsel, vcfg])
    have hmore : (kb :: mid ++ [c0, c1]).length = (bufBytes s 0 size).length + 3 := by
      simp [hn]
    have e3 : Emitted s x
        (commandEvents true s.frame heard got ++
          packetEvents s.cfg (bufBytes s 0 size) (kb :: mid ++ [c0, c1]) d) := by
      refine (((((he.trans ke).trans e1).trans e2).trans xe)).cast ?_
      have hl : (bufBytes s 0 size).length = mid.length := by simp [hn]
      simp only [packetEvents, usel, wsel, wcfg, hs, Config.dataStartToken, List.cons_append, List.append_assoc,
        xfers_cons, List.nil_append, xfers_append true hl, listenEvents_cons, listenEvents_nil, xfers_nil]
    clear e1 e2 xe hce hde ke he
    have x2 : x = { withBus x s with
        framei := Config.frameLen, pollcnt := x.pollcnt, byteidx := x.byteidx, loopidx := x.loopidx, r1 := 0#8 } := by
      have kp : k.pollcnt = got.length := ((congrArg State.pollcnt kw).trans rfl).trans ((congrArg State.pollcnt h2).trans rfl)
      have k2 : k = { withBus k s with framei := Config.frameLen, pollcnt := k.pollcnt, r1 := 0#8 } := by
        rw [kp]
        refine kw.trans ?_
        rw [h2]
        rfl
      have v2 : v = { withBus v s with
          framei := Config.frameLen, pollcnt := v.pollcnt, byteidx := v.byteidx, r1 := 0#8 } := by
        have vp : v.pollcnt = k.pollcnt := (congrArg State.pollcnt hdw).trans rfl
        have vb : v.byteidx = 0 + size := (congrArg State.byteidx hdw).trans rfl
        rw [vp, vb]
        refine hdw.trans ?_
        generalize k.pollcnt = a at k2 ⊢
        rw [k2]
        rfl
      have w2 : w = { withBus w s with
          framei := Config.frameLen, pollcnt := w.pollcnt, byteidx := w.byteidx, loopidx := w.loopidx, r1 := 0#8 } := by
        have wp : w.pollcnt = v.pollcnt := (congrArg State.pollcnt hcw).trans rfl
        have wb : w.byteidx = v.byteidx := (congrArg State.byteidx hcw).trans rfl
        have wl : w.loopidx = 0 + Config.dataCrcLen := (congrArg State.loopidx hcw).trans rfl
        rw [wp, wb, wl]
        refine hcw.trans ?_
        generalize v.pollcnt = a at v2 ⊢
        generalize v.byteidx = b at v2 ⊢
        rw [v2]
        rfl
      have xp : x.pollcnt = w.pollcnt := (congrArg State.pollcnt xw).trans rfl
      have xb : x.byteidx = w.byteidx := (congrArg State.byteidx xw).trans rfl
      have xl : x.loopidx = w.loopidx := (congrArg State.loopidx xw).trans rfl
      rw [xp, xb, xl]
      refine xw.trans ?_
      generalize w.pollcnt = a at w2 ⊢
      generalize w.byteidx = b at w2 ⊢
      generalize w.loopidx = c at w2 ⊢
      rw [w2]
      rfl
    by_cases hd : writeAccepted d = true
    · simp only [hd, if_true]
      unfold awaitWritten
      obtain ⟨bs, last, hp, hpe, hpw⟩ :=
        poll_spec Config.busyPollBound (by decide) notBusy x.cfg.fill { x with dresp := d }
      dsimp only
      generalize poll Config.busyPollBound notBusy x.cfg.fill { x with dresp := d } = p at hpe hpw ⊢
      have p1 : p.1 = ⟨notBusy last, last, bs.length⟩ := by rw [hpw]
      have p2 : p.2 = { withBus p.2 { x with dresp := d } with pollcnt := bs.length } := congrArg Prod.snd hpw
      simp only [p1]
      generalize p.2 = q at hpe p2
      have q2 : q = { withBus q s with
          framei := Config.frameLen, pollcnt := q.pollcnt, byteidx := q.byteidx, loopidx := q.loopidx, r1 := 0#8,
          dresp := d, busyb := q.busyb } := by
        have qp : q.pollcnt = bs.length := (congrArg State.pollcnt p2).trans rfl
        have qb : q.byteidx = x.byteidx := (congrArg State.byteidx p2).trans rfl
        have ql : q.loopidx = x.loopidx := (congrArg State.loopidx p2).trans rfl
        have qy : q.busyb = x.busyb := (congrArg State.busyb p2).trans rfl
        rw [qp, qb, ql, qy]
        refine p2.trans ?_
        generalize x.byteidx = b at x2 ⊢
        generalize x.loopidx = c at x2 ⊢
        generalize x.pollcnt = a at x2
        rw [x2]
        rfl
      have e4 : Emitted x q (listenEvents true s.cfg.fill bs) :=
        (⟨hpe.trace, hpe.count, hpe.heard⟩ : Emitted x q _).cast (by simp [xsel, xcfg, hs])
      refine ⟨_, _, .accepted heard got (kb :: mid ++ [c0, c1]) bs d last ha hmore hd hp, ?_, ?_⟩
      · have e5 := (e3.trans e4).trans (deselect_emits q)
        by_cases hl : notBusy last = true
        · simp only [hl, if_true]; exact ⟨e5.trace, e5.count, e5.heard⟩
        · simp only [hl, Bool.false_eq_true, if_false]; exact ⟨e5.trace, e5.count, e5.heard⟩
      · by_cases hl : last = 0#8
        · subst hl
          simp only [show notBusy 0#8 = false from rfl, Bool.false_eq_true, if_false, if_true]
          refine Prod.ext rfl ?_
          exact congrArg (fun y => (raiseError true (.transferTimeout .busy) { y with busyb := 0#8 }).2) q2
        · have hb : notBusy last = true := notBusy_eq.2 hl
          simp only [hb, if_true, if_neg hl]
          refine Prod.ext rfl ?_
          exact congrArg (fun y => (deliverOk .nothing (deselect { y with busyb := last })).2) q2
    · have hd' : writeAccepted d = false := by simpa using hd
      simp only [hd', Bool.false_eq_true, if_false]
      refine ⟨_, _, .rejected heard got (kb :: mid ++ [c0, c1]) d ha hmore hd', ?_, ?_⟩
      · have e5 := e3.trans (deselect_emits x)
        exact ⟨e5.trace, e5.count, e5.heard⟩
      · refine Prod.ext rfl ?_
        exact congrArg
          (fun y => (raiseError true (.writeRejected (rejectReason d) d) { y with dresp := d }).2) x2
  · have hm : r1AllClear r = false := by
      rw [← Bool.not_eq_true, r1AllClear_eq]; exact hr
    simp only [hm, Bool.false_eq_true, if_false]
    refine ⟨_, _, .commandRejected heard got r ha hr, ?_, ?_⟩
    · have e3 := he.trans (deselect_emits u)
      have e4 := e3.cast (b := commandEvents true s.frame heard got ++ [.desel]) (by simp [hs])
      exact ⟨e4.trace, e4.count, e4.heard⟩
    · refine Prod.ext rfl ?_
      simp only [raiseError, if_true]
      rw [h2]
      rfl

end Sys2Proof.Machine
end

