-- ==== Sys2Proof/Laws/Whole.lean ====
section
/-!
SUPPORT. What the whole runs keep, apart from the initialisation sequence (Laws/Init.lean).
-/

namespace Sys2Proof.Machine

/-- What a whole run outside the initialisation sequence keeps. -/
structure Ran (s t : State) : Prop where
  kept : Kept s t
  bounds : Bounded s → Bounded t
  sel : s.sel = false → t.sel = false
  session : session t = session s

theorem Ran.trans {s t u : State} (h : Ran s t) (k : Ran t u) : Ran s u :=
  ⟨h.kept.trans k.kept, fun b => k.bounds (h.bounds b), fun b => k.sel (h.sel b), k.session.trans h.session⟩

theorem ran_started (i : Instr) (s : State) : Ran s (started i s) := ⟨.same rfl rfl rfl rfl, fun b => ⟨b.1, b.2, b.3⟩, id, rfl⟩

theorem ran_value (v : Delivered) (s : State) : Ran s (deliverValue v s) := ⟨kept_value v s, fun b => ⟨b.1, b.2, b.3⟩, id, rfl⟩

theorem ran_ok (v : Delivered) (s : State) : Ran s (deliverOk v s).2 := ⟨kept_ok v s, fun b => ⟨b.1, b.2, b.3⟩, id, rfl⟩

theorem ran_raise {e : Result} (he : ∀ a b, e ≠ .initFailure a b) (s : State) : Ran s (raiseError false e s).2 := by
  refine ⟨kept_raise _ _ s, fun b => bounded_raise b _ _, fun b => ?_, session_raise _ he s⟩
  cases e <;> exact b

theorem ran_exchange (o : Byte) (s : State) : Ran s (exchange o s).2 := by
  have w := exchange_withBus o s
  have e := exchange_emits o s
  generalize (exchange o s).2 = t at w e ⊢
  refine ⟨.emits ((congrArg State.cfg w).trans rfl) ((congrArg State.mem w).trans rfl) e, fun b => ?_, fun b => ?_, ?_⟩
  · exact ⟨(congrArg State.framei w).trans_le b.1, (congrArg State.byteidx w).trans_le b.2, (congrArg State.retrycnt w).trans_le b.3⟩
  · exact (congrArg State.sel w).trans b
  · exact (congrArg session w).trans rfl

theorem ran_sendCommand (o : U6) (a : U32) (s : State) : Ran s (sendCommand o a s).2 := by
  obtain ⟨heard, got, r, -, e, w⟩ := sendCommand_spec o a s
  replace w := congrArg Prod.snd w
  dsimp only at w
  generalize (sendCommand o a s).2 = t at w e ⊢
  refine ⟨.emits ((congrArg State.cfg w).trans rfl) ((congrArg State.mem w).trans rfl) e, fun b => ?_, fun b => ?_, ?_⟩
  · exact ⟨(congrArg State.framei w).trans_le (Nat.le_refl _), (congrArg State.byteidx w).trans_le b.2, (congrArg State.retrycnt w).trans_le b.3⟩
  · exact (congrArg State.sel w).trans b
  · exact (congrArg session w).trans rfl

theorem ran_poll (bound : Nat) (pred : Byte → Bool) (out : Byte) (s : State) : Ran s (poll bound pred out s).2 := by
  by_cases h : bound = 0
  · subst h; exact ⟨.same rfl rfl rfl rfl, fun b => ⟨b.1, b.2, b.3⟩, id, rfl⟩
  · obtain ⟨got, l, -, e, w⟩ := poll_spec bound (by omega) pred out s
    replace w := congrArg Prod.snd w
    dsimp only at w
    generalize (poll bound pred out s).2 = t at w e ⊢
    refine ⟨.emits ((congrArg State.cfg w).trans rfl) ((congrArg State.mem w).trans rfl) e, fun b => ?_, fun b => ?_, ?_⟩
    · exact ⟨(congrArg State.framei w).trans_le b.1, (congrArg State.byteidx w).trans_le b.2, (congrArg State.retrycnt w).trans_le b.3⟩
    · exact (congrArg State.sel w).trans b
    · exact (congrArg session w).trans rfl

/-- A wire command up to its response, its bracket open. -/
theorem ran_wire (o : U6) (a : U32) (c : U7) (s : State) :
    Kept s (sendLatched (latchWire o a c s)).2 ∧ (Bounded s → Bounded (sendLatched (latchWire o a c s)).2) ∧
      session (sendLatched (latchWire o a c s)).2 = session s := by
  obtain ⟨heard, got, r, -, e, w⟩ := sendLatched_spec (latchWire o a c s) rfl
  replace w := congrArg Prod.snd w
  dsimp only at w
  generalize (sendLatched (latchWire o a c s)).2 = t at w e ⊢
  refine ⟨(kept_select s).trans (.emits (evs := commandEvents (select s).sel (wireFrame o a c) heard got) ((congrArg State.cfg w).trans rfl) ((congrArg State.mem w).trans rfl) ⟨e.trace, e.count, e.heard⟩), fun b => ?_, ?_⟩
  · exact ⟨(congrArg State.framei w).trans_le (Nat.le_refl _), (congrArg State.byteidx w).trans_le b.2, (congrArg State.retrycnt w).trans_le b.3⟩
  · exact (congrArg session w).trans rfl

theorem ran_wireCommand (o : U6) (a : U32) (c : U7) (s : State) : Ran s (wireCommand o a c s) := by
  obtain ⟨k, b, n⟩ := ran_wire o a c s
  unfold wireCommand
  generalize sendLatched (latchWire o a c s) = q at *
  exact ⟨(k.trans (kept_deselect _)).trans (kept_value _ _), fun h => ⟨(b h).1, (b h).2, (b h).3⟩, fun _ => rfl, n⟩

theorem ran_wireIfCond (a : U32) (c : U7) (s : State) : Ran s (wireIfCond a c s) := by
  obtain ⟨k, b, n⟩ := ran_wire Config.opSendIfCond a c s
  unfold wireIfCond
  generalize sendLatched (latchWire Config.opSendIfCond a c s) = q at *
  dsimp only
  split
  · obtain ⟨got, -, e, w⟩ := drainTail_spec Config.r7TailLen (startLoop q.2)
    generalize drainTail Config.r7TailLen (startLoop q.2) = t at w e ⊢
    have m : Kept q.2 t := .emits (s := q.2) ((congrArg State.cfg w).trans rfl) ((congrArg State.mem w).trans rfl) ⟨e.trace, e.count, e.heard⟩
    refine ⟨((k.trans m).trans (kept_deselect _)).trans (kept_value _ _), fun h => ?_, fun _ => rfl, ?_⟩
    · exact ⟨(congrArg State.framei w).trans_le (b h).1, (congrArg State.byteidx w).trans_le (b h).2, (congrArg State.retrycnt w).trans_le (b h).3⟩
    · exact ((congrArg session w).trans rfl).trans n
  · exact ⟨(k.trans (kept_deselect _)).trans (kept_value _ _), fun h => ⟨(b h).1, (b h).2, (b h).3⟩, fun _ => rfl, n⟩

/-- An exchange loop leaves `byteidx` as the loop counts it. -/
theorem byteidx_of {s t : State} {n : Nat} (w : t = { withBus t s with byteidx := n }) : t.byteidx = n := congrArg State.byteidx w

theorem byteidx_clockFill (n : Nat) (s : State) : (clockFill n s).byteidx = s.byteidx := by
  obtain ⟨got, -, -, w⟩ := clockFill_spec n s
  exact (congrArg State.byteidx w).trans rfl

theorem byteidx_poll (bound : Nat) (pred : Byte → Bool) (out : Byte) (s : State) : (poll bound pred out s).2.byteidx = s.byteidx := by
  by_cases h : bound = 0
  · subst h; rfl
  · obtain ⟨got, l, -, -, w⟩ := poll_spec bound (by omega) pred out s
    exact (congrArg (fun q => q.2.byteidx) w).trans rfl

theorem byteidx_receivePayload (n : Nat) (s : State) : (receivePayload n s).byteidx = s.byteidx + n := by
  obtain ⟨got, -, -, w⟩ := receivePayload_spec n s
  exact (congrArg State.byteidx w).trans rfl

theorem byteidx_sendPayload (n : Nat) (s : State) : (sendPayload n s).byteidx = s.byteidx + n := by
  obtain ⟨got, -, -, w⟩ := sendPayload_spec n s
  exact (congrArg State.byteidx w).trans rfl

theorem byteidx_exchange (o : Byte) (s : State) : (exchange o s).2.byteidx = s.byteidx := by
  rw [exchange_withBus]; rfl

theorem byteidx_sendLatched (s : State) : (sendLatched s).2.byteidx = s.byteidx := by
  obtain ⟨got, -, -, w⟩ := sendFrame_spec Config.frameLen s
  exact (byteidx_poll _ _ _ _).trans ((congrArg State.byteidx w).trans rfl)

theorem byteidx_raise (c : Bool) (e : Result) (s : State) : (raiseError c e s).2.byteidx = s.byteidx := by
  cases c <;> cases e <;> rfl

theorem byteidx_readLatched (s : State) : (readLatched s).2.byteidx = s.byteidx ∨ (readLatched s).2.byteidx = Config.blockSize := by
  have h := byteidx_sendLatched s
  unfold readLatched
  generalize sendLatched s = q at h ⊢
  dsimp only
  split
  · unfold readData
    have h2 := byteidx_poll Config.tokenPollBound isStartToken q.2.cfg.fill q.2
    generalize poll Config.tokenPollBound isStartToken q.2.cfg.fill q.2 = p at h2 ⊢
    dsimp only
    split
    · right
      have h3 := byteidx_receivePayload Config.blockSize (startPayload { p.2 with tok := p.1.last })
      generalize receivePayload Config.blockSize _ = u at h3 ⊢
      refine (byteidx_clockFill Config.dataCrcLen (startLoop u)).trans (h3.trans ?_)
      exact Nat.zero_add _
    · left
      exact (byteidx_raise _ _ _).trans (h2.trans h)
  · left
    exact (byteidx_raise _ _ _).trans h

theorem byteidx_writeLatched (s : State) : (writeLatched s).2.byteidx = s.byteidx ∨ (writeLatched s).2.byteidx = Config.blockSize := by
  have h := byteidx_sendLatched s
  unfold writeLatched
  generalize sendLatched s = q at h ⊢
  dsimp only
  split
  · right
    unfold writeData
    dsimp only
    have h3 := byteidx_sendPayload Config.blockSize (startPayload (exchange Config.dataStartToken q.2).2)
    generalize sendPayload Config.blockSize _ = u at h3 ⊢
    have h4 := byteidx_clockFill Config.dataCrcLen (startLoop u)
    generalize clockFill Config.dataCrcLen _ = v at h4 ⊢
    have h5 := byteidx_exchange v.cfg.fill v
    generalize exchange v.cfg.fill v = d at h5 ⊢
    have h6 : d.2.byteidx = Config.blockSize := h5.trans (h4.trans (h3.trans (Nat.zero_add _)))
    split
    · unfold awaitWritten
      dsimp only
      have h7 := byteidx_poll Config.busyPollBound notBusy d.2.cfg.fill { d.2 with dresp := d.1 }
      generalize poll Config.busyPollBound notBusy _ _ = p at h7 ⊢
      split
      · exact h7.trans h6
      · exact (byteidx_raise _ _ _).trans (h7.trans h6)
    · exact (byteidx_raise _ _ _).trans h6
  · left
    exact (byteidx_raise _ _ _).trans h

/-- The transaction of opcode 17, from a bracket just opened. -/
theorem ran_readLatched (s : State) (hs : s.sel = true) (hf : s.framei = 0) :
    Kept s (readLatched s).2 ∧ (Bounded s → Bounded (readLatched s).2) ∧ (readLatched s).2.sel = false ∧
      session (readLatched s).2 = session s := by
  obtain ⟨evs, e, -, em, w⟩ := readLatched_spec s hs hf
  have bi := byteidx_readLatched s
  replace w := congrArg Prod.snd w
  dsimp only at w
  generalize (readLatched s).2 = t at w em bi ⊢
  refine ⟨⟨(congrArg State.cfg w).trans rfl, fun m => ?_, evs, em.trace, em.count⟩, fun b => ⟨?_, ?_, ?_⟩, (congrArg State.sel w).trans rfl, (congrArg session w).trans rfl⟩
  · rw [(congrArg State.mem w).trans rfl]; exact memWriteAll_wf m _ _
  · exact (congrArg State.framei w).trans_le (Nat.le_refl _)
  · rcases bi with h | h
    · rw [h]; exact b.2
    · rw [h]
  · exact (congrArg State.retrycnt w).trans_le b.3

/-- The transaction of opcode 24, from a bracket just opened. -/
theorem ran_writeLatched (s : State) (hs : s.sel = true) (hf : s.framei = 0) :
    Kept s (writeLatched s).2 ∧ (Bounded s → Bounded (writeLatched s).2) ∧ (writeLatched s).2.sel = false ∧
      session (writeLatched s).2 = session s := by
  obtain ⟨evs, e, -, em, w⟩ := writeLatched_spec s hs hf
  have bi := byteidx_writeLatched s
  replace w := congrArg Prod.snd w
  dsimp only at w
  generalize (writeLatched s).2 = t at w em bi ⊢
  refine ⟨.emits ((congrArg State.cfg w).trans rfl) ((congrArg State.mem w).trans rfl) em, fun b => ⟨?_, ?_, ?_⟩, (congrArg State.sel w).trans rfl, (congrArg session w).trans rfl⟩
  · exact (congrArg State.framei w).trans_le (Nat.le_refl _)
  · rcases bi with h | h
    · rw [h]; exact b.2
    · rw [h]
  · exact (congrArg State.retrycnt w).trans_le b.3

theorem ran_wireRead (a : U32) (c : U7) (s : State) : Ran s (wireRead a c s) := by
  obtain ⟨k, b, e, n⟩ := ran_readLatched (latchWire Config.opReadSingleBlock a c s) rfl rfl
  exact ⟨Kept.trans (t := latchWire Config.opReadSingleBlock a c s) ⟨rfl, id, [.sel], rfl, rfl⟩ k,
    fun h => b ⟨Nat.zero_le _, h.2, h.3⟩, fun _ => e, n⟩

theorem ran_wireWrite (a : U32) (c : U7) (s : State) : Ran s (wireWrite a c s) := by
  obtain ⟨k, b, e, n⟩ := ran_writeLatched (latchWire Config.opWriteBlock a c s) rfl rfl
  exact ⟨Kept.trans (t := latchWire Config.opWriteBlock a c s) ⟨rfl, id, [.sel], rfl, rfl⟩ k,
    fun h => b ⟨Nat.zero_le _, h.2, h.3⟩, fun _ => e, n⟩

theorem ran_readSector (i : U32) (b : Nat) (s : State) : Ran s (readSector i b s).2 := by
  unfold readSector
  split
  · obtain ⟨k, h, e, n⟩ := ran_readLatched (latchCommand Config.opReadSingleBlock i (select (attachBuffer b s))) rfl rfl
    exact ⟨Kept.trans (t := latchCommand Config.opReadSingleBlock i (select (attachBuffer b s))) ⟨rfl, id, [.sel], rfl, rfl⟩ k,
      fun w => h ⟨Nat.zero_le _, w.2, w.3⟩, fun _ => e, n⟩
  · exact ran_raise (by simp) s

theorem ran_writeSector (i : U32) (b : Nat) (s : State) : Ran s (writeSector i b s).2 := by
  unfold writeSector
  split
  · obtain ⟨k, h, e, n⟩ := ran_writeLatched (latchCommand Config.opWriteBlock i (select (attachBuffer b s))) rfl rfl
    exact ⟨Kept.trans (t := latchCommand Config.opWriteBlock i (select (attachBuffer b s))) ⟨rfl, id, [.sel], rfl, rfl⟩ k,
      fun w => h ⟨Nat.zero_le _, w.2, w.3⟩, fun _ => e, n⟩
  · exact ran_raise (by simp) s

theorem ran_readSectors (x : U32) (b n k : Nat) (s : State) : Ran s (readSectors x b n k s).2 := by
  induction n generalizing k s with
  | zero => exact ran_ok _ s
  | succ n ih =>
    have h : Ran s (readSector (sectorAt x k) (bufferAt b k) (atSector k s)).2 :=
      Ran.trans (t := atSector k s) ⟨.same rfl rfl rfl rfl, fun b => ⟨b.1, b.2, b.3⟩, id, rfl⟩ (ran_readSector _ _ _)
    unfold readSectors
    dsimp only
    split
    · exact h.trans (ih _ _)
    · exact h

theorem ran_writeSectors (x : U32) (b n k : Nat) (s : State) : Ran s (writeSectors x b n k s).2 := by
  induction n generalizing k s with
  | zero => exact ran_ok _ s
  | succ n ih =>
    have h : Ran s (writeSector (sectorAt x k) (bufferAt b k) (atSector k s)).2 :=
      Ran.trans (t := atSector k s) ⟨.same rfl rfl rfl rfl, fun b => ⟨b.1, b.2, b.3⟩, id, rfl⟩ (ran_writeSector _ _ _)
    unfold writeSectors
    dsimp only
    split
    · exact h.trans (ih _ _)
    · exact h

theorem ran_behindGate (d : Nat) {work : State → State} {s : State} (h : Ran s (work s)) : Ran s (behindGate d work s) := by
  unfold behindGate gate
  split
  · rename_i e he
    refine ran_raise ?_ s
    split at he
    · split at he <;> (cases he; try simp)
    · cases he; simp
  · exact h

end Sys2Proof.Machine
end

