-- ==== Sys2Proof/Laws/Exec.lean ====
section
/-!
SUPPORT. What an instruction and a step can do, said once: `exec_next` and `step_next`. A claim about every step follows from them
by cases.
-/

namespace Sys2Proof.Machine

/-- An idle block. -/
def Idle (s : State) : Prop := s.busy = false ∧ s.phase = .idle ∧ s.running = none

theorem idle_value (v : Delivered) (s : State) : Idle (deliverValue v s) := ⟨rfl, rfl, rfl⟩

theorem Ended.isIdle {q : Result × State} (h : Ended q) : Idle q.2 := ⟨h.busy, h.phase, h.running⟩

theorem ended_readSectors (x : U32) (b n k : Nat) (s : State) : Ended (readSectors x b n k s) := by
  induction n generalizing k s with
  | zero => exact ended_ok s
  | succ n ih =>
    unfold readSectors
    exact ended_ite (ih _ _) (ended_readSector _ _ _)

theorem ended_writeSectors (x : U32) (b n k : Nat) (s : State) : Ended (writeSectors x b n k s) := by
  induction n generalizing k s with
  | zero => exact ended_ok s
  | succ n ih =>
    unfold writeSectors
    exact ended_ite (ih _ _) (ended_writeSector _ _ _)

theorem idle_behindGate (d : Nat) {work : State → State} {s : State} (h : Idle (work s)) : Idle (behindGate d work s) := by
  unfold behindGate
  split
  · exact (ended_raise _ _ _).isIdle
  · exact h

/-- What a whole run of `i` from an idle block comes to. -/
structure Completed (i : Instr) (s t : State) : Prop where
  kept : Kept s t
  bounds : Bounded s → Bounded t
  idle : Idle t
  sel : i ≠ .select → s.sel = false → t.sel = false
  same : writesSession i = false → session t = session s
  sequence : session t = session s ∨ (t.ready = true ∧ t.fsm = .ready ∧ t.sectorCount = s.cfg.sectorCountFixed) ∨
    (t.ready = false ∧ t.fsm = .failed)

/-- What the start of `i` in a machine stepped one exchange at a time comes to, if it does not end `i` at once. -/
structure Begun (i : Instr) (s t : State) : Prop where
  kept : Kept s t
  counters : Bounded s → t.LoopsInRange
  busy : t.busy = true
  running : t.running = some i
  fits : phaseFits (flowOf i) t.phase = true
  same : writesSession i = false → session t = session s
  sequence : isSequence (flowOf i) = true → t.ready = false ∧ t.fsm = .busReset ∧ t.phase = .resetIdle
  polls : t.PollsInRange

theorem Ran.completed {i : Instr} {s t : State} (h : Ran (started i s) t) (k : Idle t) : Completed i s t :=
  have g := (ran_started i s).trans h
  ⟨g.kept, g.bounds, k, fun _ => g.sel, fun _ => g.session, .inl g.session⟩

theorem startOp_next {i : Instr} {f w : State → State} {s t : State} (h : startOp i f w s = .next t) :
    s.busy = false ∧ (t = f (started i s) ∨ t = w (started i s)) := by
  unfold startOp at h
  split at h
  · cases h
  · rename_i hb
    refine ⟨by simpa using hb, ?_⟩
    dsimp only at h
    split at h
    · exact .inl (Host.Outcome.next.inj h).symm
    · exact .inr (Host.Outcome.next.inj h).symm

theorem begun_wire {i : Instr} (o : U6) (a : U32) (c : U7) (s : State) (h : phaseFits (flowOf i) .frame = true)
    (n : isSequence (flowOf i) = false) (d : ∀ w x n b, flowOf i ≠ .sectors w x n b) : Begun i s (issueWire o a c (started i s)) where
  kept := ⟨rfl, id, [.sel], rfl, rfl⟩
  counters b := ⟨Nat.zero_le _, fun _ => by show 0 < Config.frameLen; decide, b.2, fun e => (by rcases e with e | e <;> cases e), b.3⟩
  busy := rfl
  running := rfl
  fits := h
  same _ := rfl
  sequence e := by rw [n] at e; cases e
  polls := polls_fresh rfl (fun w x n b e => absurd e (d w x n b))

theorem begun_sector {i : Instr} (w : Bool) (x : U32) (b : Nat) (s u : State) (hk : Kept s u) (hb : Bounded s → Bounded u)
    (hr : u.busy = true ∧ u.running = some i) (hs : session u = session s) (h : phaseFits (flowOf i) .frame = true)
    (n : isSequence (flowOf i) = false) (d : OnSector u) : Begun i s (issueSector w x b u) where
  kept := hk.trans (Kept.trans (t := attachBuffer b u) (.same rfl rfl rfl rfl) (kept_issue _ _ _))
  counters e := counters_issue (s := attachBuffer b u) ⟨(hb e).1, (hb e).2, (hb e).3⟩ _ _
  busy := hr.1
  running := hr.2
  fits := h
  same _ := hs
  sequence e := by rw [n] at e; cases e
  polls := polls_fresh rfl d

theorem begun_busReset {i : Instr} (s : State) (h : phaseFits (flowOf i) .resetIdle = true) (k : writesSession i = true)
    (n : isSequence (flowOf i) = true) :
    Begun i s (enterBusReset (started i s)) where
  kept := ⟨rfl, id, [.desel], rfl, rfl⟩
  counters b := Bounded.counters (s := enterBusReset (started i s)) ⟨b.1, b.2, b.3⟩ (by simp [enterBusReset]) (by simp [enterBusReset]) (by simp [enterBusReset])
  busy := rfl
  running := rfl
  fits := h
  same e := by rw [k] at e; cases e
  sequence _ := ⟨rfl, rfl, rfl⟩
  polls := polls_fresh rfl (onSector_sequence n)

theorem completed_raise {e : Result} (he : ∀ a b, e ≠ .initFailure a b) (i : Instr) (s : State) : Completed i s (raiseError false e (started i s)).2 :=
  (ran_raise he _).completed (ended_raise _ _ _).isIdle

theorem initEnd_completed {i : Instr} {s t : State} {q : Result × State} {evs : List Event} (h : InitEnd { started i s with ready := false } q)
    (em : Emitted (started i s) q.2 evs) (k : writesSession i = true)
    (ht : (t.cfg, t.trace, t.xcount, t.mem, t.framei, t.byteidx, t.retrycnt, t.sel, t.ready, t.fsm, t.sectorCount, t.busy, t.phase, t.running) =
      (q.2.cfg, q.2.trace, q.2.xcount, q.2.mem, q.2.framei, q.2.byteidx, q.2.retrycnt, q.2.sel, q.2.ready, q.2.fsm, q.2.sectorCount, false, Phase.idle, none)) :
    Completed i s t := by
  obtain ⟨g1, g2, g3, g4, g5, g6, g7, g8, g9⟩ := h
  simp only [Prod.mk.injEq] at ht g2
  obtain ⟨e1, e2, e3, e4, e5, e6, e7, e8, e9, e10, e11, e12, e13, e14⟩ := ht
  obtain ⟨f1, f2, f3, f4, f5, f6, f7, f8, f9, f10⟩ := g2
  refine ⟨⟨e1.trans g1, fun m => ?_, evs, e2.trans em.trace, e3.trans em.count⟩, fun b => ⟨?_, ?_, ?_⟩, ⟨e12, e13, e14⟩, fun _ _ => e8.trans g7, fun e => ?_, ?_⟩
  · rw [e4, f7]; exact m
  · rw [e5, g8]; decide
  · rw [e6, f4]; exact b.2
  · rw [e7]; exact g9.trans (max_le b.3 (Nat.le_refl _))
  · rw [k] at e; cases e
  · right
    by_cases hq : q.1 = .ok
    · left
      exact ⟨e9.trans (by rw [g4, hq]; rfl), e10.trans (by rw [g5, if_pos hq]), e11.trans (by rw [g6, if_pos hq]; rfl)⟩
    · right
      exact ⟨e9.trans (by rw [g4]; simp [hq]), e10.trans (by rw [g5, if_neg hq])⟩

theorem begun_or_gate {i : Instr} (d : Nat) (w : Bool) (x : U32) (n b : Nat) (s : State) (h : phaseFits (flowOf i) .frame = true)
    (m : isSequence (flowOf i) = false) (f : flowOf i = .sectors w x n b) :
    Begun i s (behindGate d (firstSectors w x n b) (started i s)) ∨ Completed i s (behindGate d (firstSectors w x n b) (started i s)) := by
  unfold behindGate gate
  split
  · rename_i e he
    refine .inr (completed_raise ?_ i s)
    split at he
    · split at he <;> (cases he; try simp)
    · cases he; simp
  · unfold firstSectors
    split
    · exact .inr ((ran_ok _ _).completed (ended_ok _).isIdle)
    · refine .inl (begun_sector w _ _ s (atSector 0 (started i s)) (.same rfl rfl rfl rfl) (fun b => ⟨b.1, b.2, b.3⟩) ⟨rfl, rfl⟩ rfl h m ?_)
      intro w2 x2 n2 b2 e
      have e : flowOf i = .sectors w2 x2 n2 b2 := e
      rw [f] at e
      cases e
      exact ⟨Nat.pos_of_ne_zero (by assumption), rfl⟩

theorem completed_initialize (d : Nat) (s : State) : Completed (.initializeDrive d) s (runInitialize d (started (.initializeDrive d) s)) := by
  unfold runInitialize
  split
  · obtain ⟨evs, -, -, -, em, h⟩ := init_spec (started (.initializeDrive d) s)
    dsimp only
    split
    · exact initEnd_completed h em rfl rfl
    · exact initEnd_completed h em rfl rfl
  · exact completed_raise (by simp) _ s

/-- What an instruction that is no byte on the wire does: it starts from an idle block, and runs to its end or begins. -/
theorem exec_next {i : Instr} {s t : State} (h : exec i s = .next t) :
    (s.busy = true ∧ isByteRow i = true ∧ (t = crank s ∨ ∃ b, t = advance b s)) ∨
    (s.busy = false ∧ (Begun i s t ∨ Completed i s t)) := by
  have byte : ∀ {i : Instr} {out b : Byte}, isByteRow i = true → i ≠ .select → receiveByte out b s = .next t →
      (s.busy = true ∧ isByteRow i = true ∧ (t = crank s ∨ ∃ b, t = advance b s)) ∨ (s.busy = false ∧ (Begun i s t ∨ Completed i s t)) := by
    intro i out b hi hn h
    unfold receiveByte at h
    have h := (Host.Outcome.next.inj h).symm
    cases hb : s.busy
    · rw [hb] at h
      rw [h]
      have r : Ran s (deliverValue (.byte b) (transfer out b s)) :=
        Ran.trans (t := transfer out b s) ⟨kept_transfer _ _ _, fun b => ⟨b.1, b.2, b.3⟩, id, rfl⟩ (ran_value _ _)
      exact .inr ⟨rfl, .inr ⟨r.kept, r.bounds, idle_value _ _, fun _ => r.sel, fun _ => r.session, .inl r.session⟩⟩
    · rw [hb] at h
      exact .inl ⟨rfl, hi, .inr ⟨b, h⟩⟩
  have bare : ∀ {i : Instr} (out : Byte), Completed i s (runExchange out s) := by
    intro i out
    have r : Ran s (runExchange out s) := (ran_exchange out s).trans (ran_value _ _)
    exact ⟨r.kept, r.bounds, idle_value _ _, fun _ => r.sel, fun _ => r.session, .inl r.session⟩
  have one : ∀ {j : Instr} {w : State → State}, (∀ u, Ran u (w u) ∧ Idle (w u)) → startWhole j w s = .next t →
      (s.busy = true ∧ isByteRow j = true ∧ (t = crank s ∨ ∃ b, t = advance b s)) ∨ (s.busy = false ∧ (Begun j s t ∨ Completed j s t)) := by
    intro j w hw h
    obtain ⟨hb, ht | ht⟩ := startOp_next h <;> exact .inr ⟨hb, .inr (ht ▸ (hw _).1.completed (hw _).2)⟩
  have two : ∀ {j : Instr} {f w : State → State}, startOp j f w s = .next t →
      (Begun j s (f (started j s)) ∨ Completed j s (f (started j s))) → (Begun j s (w (started j s)) ∨ Completed j s (w (started j s))) →
      (s.busy = true ∧ isByteRow j = true ∧ (t = crank s ∨ ∃ b, t = advance b s)) ∨ (s.busy = false ∧ (Begun j s t ∨ Completed j s t)) := by
    intro j f w h a b
    obtain ⟨hb, rfl | rfl⟩ := startOp_next h
    · exact .inr ⟨hb, a⟩
    · exact .inr ⟨hb, b⟩
  cases i with
  | cmdFrame o a c => exact two h (.inl (begun_wire _ _ _ s rfl rfl (by simp [flowOf]))) (.inr ((ran_wireCommand _ _ _ _).completed (idle_value _ _)))
  | cmd0 a c => exact two h (.inl (begun_wire _ _ _ s rfl rfl (by simp [flowOf]))) (.inr ((ran_wireCommand _ _ _ _).completed (idle_value _ _)))
  | cmd8 a c => exact two h (.inl (begun_wire _ _ _ s rfl rfl (by simp [flowOf]))) (.inr ((ran_wireIfCond _ _ _).completed (idle_value _ _)))
  | cmd16 a c => exact two h (.inl (begun_wire _ _ _ s rfl rfl (by simp [flowOf]))) (.inr ((ran_wireCommand _ _ _ _).completed (idle_value _ _)))
  | cmd17 a c => exact two h (.inl (begun_wire _ _ _ s rfl rfl (by simp [flowOf]))) (.inr ((ran_wireRead _ _ _).completed (ended_readLatched _).isIdle))
  | cmd24 a c => exact two h (.inl (begun_wire _ _ _ s rfl rfl (by simp [flowOf]))) (.inr ((ran_wireWrite _ _ _).completed (ended_writeLatched _).isIdle))
  | acmd41 a c => exact two h (.inl (begun_wire _ _ _ s rfl rfl (by simp [flowOf]))) (.inr ((ran_wireCommand _ _ _ _).completed (idle_value _ _)))
  | cmd55 a c => exact two h (.inl (begun_wire _ _ _ s rfl rfl (by simp [flowOf]))) (.inr ((ran_wireCommand _ _ _ _).completed (idle_value _ _)))
  | dataStartToken =>
    simp only [exec, execDataStartToken] at h
    split at h
    · rename_i hb
      have h := (Host.Outcome.next.inj h).symm
      refine .inl ⟨hb, rfl, ?_⟩
      split at h
      · exact .inl h
      · exact .inr ⟨_, h⟩
    · rename_i hb
      have h := (Host.Outcome.next.inj h).symm
      exact .inr ⟨by simpa using hb, .inr (h ▸ bare _)⟩
  | r1Valid _ => exact byte rfl (by simp) h
  | r1NotYet _ => exact byte rfl (by simp) h
  | r1IdleExact => exact byte rfl (by simp) h
  | r1ReadyExact => exact byte rfl (by simp) h
  | drespAccepted _ => exact byte rfl (by simp) h
  | drespCrcError _ => exact byte rfl (by simp) h
  | drespWriteError _ => exact byte rfl (by simp) h
  | drespOther _ _ => exact byte rfl (by simp) h
  | busyByte => exact byte rfl (by simp) h
  | fillByte =>
    simp only [exec, execFillByte] at h
    split at h
    · rename_i hb
      split at h
      · exact .inl ⟨hb, rfl, .inl (Host.Outcome.next.inj h).symm⟩
      · cases h
    · rename_i hb
      have h := (Host.Outcome.next.inj h).symm
      exact .inr ⟨by simpa using hb, .inr (h ▸ bare _)⟩
  | exchange o => exact one (fun u => ⟨(ran_exchange o u).trans (ran_value _ _), idle_value _ _⟩) h
  | select =>
    obtain ⟨hb, ht | ht⟩ := startOp_next h <;> subst ht <;>
      exact .inr ⟨hb, .inr ⟨⟨rfl, id, [.sel], rfl, rfl⟩, fun b => ⟨b.1, b.2, b.3⟩, ⟨rfl, rfl, rfl⟩, fun e => absurd rfl e, fun _ => rfl, .inl rfl⟩⟩
  | deselect => exact one (w := runDeselect) (fun u => ⟨⟨⟨rfl, id, [.desel], rfl, rfl⟩, fun b => ⟨b.1, b.2, b.3⟩, fun _ => rfl, rfl⟩, ⟨rfl, rfl, rfl⟩⟩) h
  | sendCommand o a =>
    refine two h (.inl ?_) (.inr (((ran_sendCommand _ _ _).trans (ran_value _ _)).completed (idle_value _ _)))
    exact ⟨.same rfl rfl rfl rfl, fun b => ⟨Nat.zero_le _, fun _ => (by show 0 < Config.frameLen; decide), b.2, fun e => (by rcases e with e | e <;> cases e), b.3⟩, rfl, rfl, rfl, fun _ => rfl, fun e => (by cases e), polls_fresh rfl (fun w x n b e => by cases e)⟩
  | poll bd p o =>
    have w : Completed (.poll bd p o) s (runPoll bd p o (started (.poll bd p o) s)) :=
      ((ran_poll _ _ _ _).trans (ran_value _ _)).completed (idle_value _ _)
    refine two h ?_ (.inr w)
    unfold firstPoll
    split
    · exact .inr w
    · refine .inl ⟨.same rfl rfl rfl rfl, fun b => ?_, rfl, rfl, rfl, fun _ => rfl, fun e => (by cases e), polls_fresh rfl (fun w x n b e => by cases e)⟩
      exact Bounded.counters (s := { started (.poll bd p o) s with pollcnt := 0, phase := .respPoll }) ⟨b.1, b.2, b.3⟩ (by simp) (by simp) (by simp)
  | init =>
    refine two (f := enterBusReset) (w := fun t => (initCard t).2) h (.inl (begun_busReset s rfl rfl rfl)) (.inr ?_)
    obtain ⟨evs, -, -, -, em, h⟩ := init_spec (started .init s)
    exact initEnd_completed h em rfl (by rw [h.ended.busy, h.ended.phase, h.ended.running])
  | readSector x b =>
    refine two (f := firstSector false x b) (w := fun t => (readSector x b t).2) h ?_ (.inr ((ran_readSector _ _ _).completed (ended_readSector _ _ _).isIdle))
    unfold firstSector
    split
    · exact .inl (begun_sector false x b s _ (.same rfl rfl rfl rfl) (fun b => ⟨b.1, b.2, b.3⟩) ⟨rfl, rfl⟩ rfl rfl rfl (fun w x n b e => by cases e))
    · exact .inr (completed_raise (by simp) _ s)
  | writeSector x b =>
    refine two (f := firstSector true x b) (w := fun t => (writeSector x b t).2) h ?_ (.inr ((ran_writeSector _ _ _).completed (ended_writeSector _ _ _).isIdle))
    unfold firstSector
    split
    · exact .inl (begun_sector true x b s _ (.same rfl rfl rfl rfl) (fun b => ⟨b.1, b.2, b.3⟩) ⟨rfl, rfl⟩ rfl rfl rfl (fun w x n b e => by cases e))
    · exact .inr (completed_raise (by simp) _ s)
  | status d => exact one (fun u => ⟨ran_value _ _, idle_value _ _⟩) h
  | initializeDrive d =>
    refine two h ?_ (.inr (completed_initialize d s))
    unfold firstInitialize
    split
    · exact .inl (begun_busReset s rfl rfl rfl)
    · exact .inr (completed_raise (by simp) _ s)
  | read d x n b =>
    exact two h (begun_or_gate d false x n b s rfl rfl rfl)
      (.inr ((ran_behindGate d (work := fun t => (readSectors x b n 0 t).2) (ran_readSectors _ _ _ _ _)).completed
        (idle_behindGate d (work := fun t => (readSectors x b n 0 t).2) (ended_readSectors _ _ _ _ _).isIdle)))
  | write d x n b =>
    exact two h (begun_or_gate d true x n b s rfl rfl rfl)
      (.inr ((ran_behindGate d (work := fun t => (writeSectors x b n 0 t).2) (ran_writeSectors _ _ _ _ _)).completed
        (idle_behindGate d (work := fun t => (writeSectors x b n 0 t).2) (ended_writeSectors _ _ _ _ _).isIdle)))
  | testUnitReady => exact one (fun u => ⟨ran_value _ _, idle_value _ _⟩) h
  | capacity =>
    refine one (fun u => ?_) h
    unfold runCapacity
    split
    · exact ⟨ran_value _ _, idle_value _ _⟩
    · exact ⟨⟨.same rfl rfl rfl rfl, fun b => ⟨b.1, b.2, b.3⟩, id, rfl⟩, idle_value _ _⟩
  | read10 l o b n =>
    simp only [exec, execRead10] at h
    split at h
    · exact two h (begun_or_gate _ false _ _ b s rfl rfl rfl)
        (.inr ((ran_behindGate _ (work := fun t => (readSectors _ b _ 0 t).2) (ran_readSectors _ _ _ _ _)).completed
          (idle_behindGate _ (work := fun t => (readSectors _ b _ 0 t).2) (ended_readSectors _ _ _ _ _).isIdle)))
    · cases h
  | write10 l o b n =>
    simp only [exec, execWrite10] at h
    split at h
    · exact two h (begun_or_gate _ true _ _ b s rfl rfl rfl)
        (.inr ((ran_behindGate _ (work := fun t => (writeSectors _ b _ 0 t).2) (ran_writeSectors _ _ _ _ _)).completed
          (idle_behindGate _ (work := fun t => (writeSectors _ b _ 0 t).2) (ended_writeSectors _ _ _ _ _).isIdle)))
    · cases h
  | ioctlSync d => exact one (w := runIoctlSync d) (fun u => ⟨ran_behindGate d (work := fun t => (deliverOk .nothing t).2) (ran_ok _ _), idle_behindGate d (work := fun t => (deliverOk .nothing t).2) (ended_ok _).isIdle⟩) h
  | ioctlGetSectorCount d => exact one (fun u => ⟨ran_behindGate d (work := fun t => (deliverOk (.number t.sectorCount.toNat) t).2) (ran_ok _ _), idle_behindGate d (work := fun t => (deliverOk (.number t.sectorCount.toNat) t).2) ⟨rfl, rfl, rfl⟩⟩) h
  | ioctlGetSectorSize d =>
    refine one (fun u => ?_) h
    unfold runIoctlSectorSize
    split
    · exact ⟨ran_ok _ _, ⟨rfl, rfl, rfl⟩⟩
    · exact ⟨ran_raise (by simp) _, (ended_raise _ _ _).isIdle⟩
  | ioctlGetBlockSize d => exact one (fun u => ⟨ran_behindGate d (work := fun t => (deliverOk (.number Config.eraseGranularity) t).2) (ran_ok _ _), idle_behindGate d (work := fun t => (deliverOk (.number Config.eraseGranularity) t).2) ⟨rfl, rfl, rfl⟩⟩) h
  | ioctlUnknown d n => exact one (fun u => ⟨ran_raise (by simp) _, (ended_raise _ _ _).isIdle⟩) h

/-- What a step can be: a reset, nothing, the next exchange, bytes taken away, or the instruction presented. -/
theorem step_next {s t : State} (h : step s = .next t) :
    (s.rst = true ∧ s.busy = false ∧ t = resetBlock s) ∨
    (s.rst = false ∧ ((t = s) ∨ (s.busy = true ∧ t = crank s) ∨ (t = { s with port := [] }) ∨
      ∃ i rest, decode s.port = .ok (i, rest) ∧ exec i { s with port := rest } = .next t)) := by
  unfold step at h
  split at h
  · rename_i hr
    unfold hostReset at h
    split at h
    · cases h
    · rename_i hb
      exact .inl ⟨hr, by simpa using hb, (Host.Outcome.next.inj h).symm⟩
  · rename_i hr
    refine .inr ⟨by simpa using hr, ?_⟩
    split at h
    · have h := (Host.Outcome.next.inj h).symm
      split at h
      · exact .inr (.inl ⟨‹_›, h⟩)
      · exact .inl h
    · rename_i b bs hp
      split at h
      · rename_i r hd
        exact .inr (.inr (.inr ⟨r.1, r.2, by rw [hp]; exact hd, h⟩))
      · exact .inr (.inr (.inl (Host.Outcome.next.inj h).symm))

end Sys2Proof.Machine
end

