-- ==== Sys2Proof/Laws/PerInstr.lean ====
section
/-!
SUPPORT. One lemma for each instruction: its bytes are of exactly one format of 30_encoding.md R90.
-/

namespace Sys2Proof.Laws.Framing

/-- The bytes of a FRAME48 row: six, the first 01xxxxxx, the end bit set (R91). -/
def IsFrame (bs : List Byte) : Prop :=
  ∃ first mid last, bs = first :: mid ++ [last] ∧ mid.length = 4 ∧ first.extractLsb' 6 2 = 0b01#2 ∧ last.getLsbD 0 = true

/-- The bytes of a BYTE row: a tag and one byte (log 2). -/
def IsTagged (bs : List Byte) : Prop :=
  ∃ tag b, bs = [tag, b] ∧ byteTagBase ≤ tag.toNat ∧ tag.toNat < byteTagBase + byteTagCount

/-- The bytes of a HOSTOP row: a selector of R110, then at most 37 operand bytes (log 1). -/
def IsHostOp (bs : List Byte) : Prop :=
  ∃ sel operands, bs = sel :: operands ∧ selectors.contains sel.toNat = true ∧ operands.length ≤ 37

/-- An instruction's bytes are of one of the three formats. -/
def Statement (i : Instr) : Prop := IsFrame (encode i) ∨ IsTagged (encode i) ∨ IsHostOp (encode i)

@[simp] theorem length_bytesOfNat (k v : Nat) : (bytesOfNat k v).length = k := by
  induction k with
  | zero => rfl
  | succ k ih => simp [bytesOfNat, ih]

@[simp] theorem length_portBytes (n : Nat) : (portBytes n).length = 4 := length_bytesOfNat 4 n

@[simp] theorem length_u32Bytes (w : U32) : (u32Bytes w).length = 4 := length_bytesOfNat 4 w.toNat

theorem isFrame_frameBytes (opcode : U6) (arg : U32) (crc7 : U7) : IsFrame (frameBytes opcode arg crc7) := by
  refine ⟨commandByte opcode, argBytes arg, checkByte crc7, rfl, rfl, ?_, ?_⟩
  · simp only [commandByte]
    exact BitVec.extractLsb'_append_eq_left
  · rw [checkByte, BitVec.getLsbD_append]; rfl

theorem cmdFrame (opcode : U6) (arg : U32) (crc7 : U7) : Statement (.cmdFrame opcode arg crc7) :=
  .inl (isFrame_frameBytes _ _ _)

theorem cmd0 (arg : U32) (crc7 : U7) : Statement (.cmd0 arg crc7) :=
  .inl (isFrame_frameBytes _ _ _)

theorem cmd8 (arg : U32) (crc7 : U7) : Statement (.cmd8 arg crc7) :=
  .inl (isFrame_frameBytes _ _ _)

theorem cmd16 (arg : U32) (crc7 : U7) : Statement (.cmd16 arg crc7) :=
  .inl (isFrame_frameBytes _ _ _)

theorem cmd17 (arg : U32) (crc7 : U7) : Statement (.cmd17 arg crc7) :=
  .inl (isFrame_frameBytes _ _ _)

theorem cmd24 (arg : U32) (crc7 : U7) : Statement (.cmd24 arg crc7) :=
  .inl (isFrame_frameBytes _ _ _)

theorem acmd41 (arg : U32) (crc7 : U7) : Statement (.acmd41 arg crc7) :=
  .inl (isFrame_frameBytes _ _ _)

theorem cmd55 (arg : U32) (crc7 : U7) : Statement (.cmd55 arg crc7) :=
  .inl (isFrame_frameBytes _ _ _)

theorem dataStartToken : Statement (.dataStartToken) :=
  .inr (.inl ⟨_, _, rfl, by decide, by decide⟩)

theorem r1Valid (flags : U7) : Statement (.r1Valid flags) :=
  .inr (.inl ⟨_, _, rfl, by decide, by decide⟩)

theorem r1NotYet (low : U7) : Statement (.r1NotYet low) :=
  .inr (.inl ⟨_, _, rfl, by decide, by decide⟩)

theorem r1IdleExact : Statement (.r1IdleExact) :=
  .inr (.inl ⟨_, _, rfl, by decide, by decide⟩)

theorem r1ReadyExact : Statement (.r1ReadyExact) :=
  .inr (.inl ⟨_, _, rfl, by decide, by decide⟩)

theorem drespAccepted (ignored : BitVec 3) : Statement (.drespAccepted ignored) :=
  .inr (.inl ⟨_, _, rfl, by decide, by decide⟩)

theorem drespCrcError (ignored : BitVec 3) : Statement (.drespCrcError ignored) :=
  .inr (.inl ⟨_, _, rfl, by decide, by decide⟩)

theorem drespWriteError (ignored : BitVec 3) : Statement (.drespWriteError ignored) :=
  .inr (.inl ⟨_, _, rfl, by decide, by decide⟩)

theorem drespOther (ignored : BitVec 3) (r : BitVec 5) : Statement (.drespOther ignored r) :=
  .inr (.inl ⟨_, _, rfl, by decide, by decide⟩)

theorem busyByte : Statement (.busyByte) :=
  .inr (.inl ⟨_, _, rfl, by decide, by decide⟩)

theorem fillByte : Statement (.fillByte) :=
  .inr (.inl ⟨_, _, rfl, by decide, by decide⟩)

theorem exchange (out : Byte) : Statement (.exchange out) := by
  refine .inr (.inr ⟨_, _, rfl, by decide, ?_⟩)
  simp

theorem select : Statement (.select) := by
  refine .inr (.inr ⟨_, _, rfl, by decide, ?_⟩)
  simp

theorem deselect : Statement (.deselect) := by
  refine .inr (.inr ⟨_, _, rfl, by decide, ?_⟩)
  simp

theorem sendCommand (opcode : U6) (arg : U32) : Statement (.sendCommand opcode arg) := by
  refine .inr (.inr ⟨_, _, rfl, by decide, ?_⟩)
  simp

theorem poll (bound : Nat) (pred : BytePred) (out : Byte) : Statement (.poll bound pred out) := by
  refine .inr (.inr ⟨_, _, rfl, by decide, ?_⟩)
  simp

theorem init : Statement (.init) := by
  refine .inr (.inr ⟨_, _, rfl, by decide, ?_⟩)
  simp

theorem readSector (index : U32) (buf : Nat) : Statement (.readSector index buf) := by
  refine .inr (.inr ⟨_, _, rfl, by decide, ?_⟩)
  simp

theorem writeSector (index : U32) (buf : Nat) : Statement (.writeSector index buf) := by
  refine .inr (.inr ⟨_, _, rfl, by decide, ?_⟩)
  simp

theorem status (drive : Nat) : Statement (.status drive) := by
  refine .inr (.inr ⟨_, _, rfl, by decide, ?_⟩)
  simp

theorem initializeDrive (drive : Nat) : Statement (.initializeDrive drive) := by
  refine .inr (.inr ⟨_, _, rfl, by decide, ?_⟩)
  simp

theorem read (drive : Nat) (sector : U32) (count : Nat) (buf : Nat) : Statement (.read drive sector count buf) := by
  refine .inr (.inr ⟨_, _, rfl, by decide, ?_⟩)
  simp

theorem write (drive : Nat) (sector : U32) (count : Nat) (buf : Nat) : Statement (.write drive sector count buf) := by
  refine .inr (.inr ⟨_, _, rfl, by decide, ?_⟩)
  simp

theorem testUnitReady : Statement (.testUnitReady) := by
  refine .inr (.inr ⟨_, _, rfl, by decide, ?_⟩)
  simp

theorem capacity : Statement (.capacity) := by
  refine .inr (.inr ⟨_, _, rfl, by decide, ?_⟩)
  simp

theorem read10 (lba : U32) (byteOffset : Nat) (buffer : Nat) (length : Nat) : Statement (.read10 lba byteOffset buffer length) := by
  refine .inr (.inr ⟨_, _, rfl, by decide, ?_⟩)
  simp

theorem write10 (lba : U32) (byteOffset : Nat) (buffer : Nat) (length : Nat) : Statement (.write10 lba byteOffset buffer length) := by
  refine .inr (.inr ⟨_, _, rfl, by decide, ?_⟩)
  simp

theorem ioctlSync (drive : Nat) : Statement (.ioctlSync drive) := by
  refine .inr (.inr ⟨_, _, rfl, by decide, ?_⟩)
  simp

theorem ioctlGetSectorCount (drive : Nat) : Statement (.ioctlGetSectorCount drive) := by
  refine .inr (.inr ⟨_, _, rfl, by decide, ?_⟩)
  simp

theorem ioctlGetSectorSize (drive : Nat) : Statement (.ioctlGetSectorSize drive) := by
  refine .inr (.inr ⟨_, _, rfl, by decide, ?_⟩)
  simp

theorem ioctlGetBlockSize (drive : Nat) : Statement (.ioctlGetBlockSize drive) := by
  refine .inr (.inr ⟨_, _, rfl, by decide, ?_⟩)
  simp

theorem ioctlUnknown (drive : Nat) (sub : Nat) : Statement (.ioctlUnknown drive sub) := by
  refine .inr (.inr ⟨_, _, rfl, by decide, ?_⟩)
  simp

end Sys2Proof.Laws.Framing
end

