-- ==== Sys2Proof/Laws/Segments.lean ====
section
/-!
SUPPORT. The block stepped one exchange at a time, phase by phase: each segment of the tables R189, R211 and R254 leads, in as many
exchanges as the whole loop makes, to the next phase with the whole loop's own effect.
-/

namespace Sys2Proof.Machine

/-- `n` exchanges of the operation in flight lead from `u` to `w`, and the call counter counts them. -/
def Reaches (u w : State) : Prop := ∃ n, crankMany n u = w ∧ w.xcount = u.xcount + n

theorem Reaches.refl (u : State) : Reaches u u := ⟨0, rfl, rfl⟩

theorem crankMany_add (m n : Nat) (u : State) : crankMany (m + n) u = crankMany n (crankMany m u) := by
  induction m generalizing u with
  | zero => simp [crankMany]
  | succ m ih => rw [Nat.succ_add]; exact ih (crank u)

theorem Reaches.trans {u v w : State} (h : Reaches u v) (k : Reaches v w) : Reaches u w := by
  obtain ⟨m, rfl, hm⟩ := h
  obtain ⟨n, rfl, hn⟩ := k
  exact ⟨m + n, crankMany_add m n u, by rw [hn, hm, Nat.add_assoc]⟩

/-- The next exchange of the operation in flight. -/
def nextExchange (u : State) : Byte × State := exchange (nextOut u) u

/-- A step of an operation in flight is the reaction to its next exchange. -/
theorem crank_exchange {u : State} (h : u.phase ≠ .idle) : crank u = react (nextExchange u).1 (nextExchange u).2 := by
  have d : (draw u).2 = { u with card := (draw u).2.card, draws := (draw u).2.draws } := by unfold draw; split <;> rfl
  have n : nextOut (draw u).2 = nextOut u := by rw [d]; rfl
  have p : (draw u).2.phase = u.phase := by rw [d]
  unfold crank
  rw [if_neg h]
  dsimp only
  unfold advance
  rw [if_neg (by rw [p]; exact h), n]
  rfl

/-- One exchange, provided the reaction makes none. -/
theorem Reaches.one {u w : State} (h : u.phase ≠ .idle) (e : react (nextExchange u).1 (nextExchange u).2 = w)
    (x : w.xcount = (nextExchange u).2.xcount) : Reaches u w :=
  ⟨1, (crank_exchange h).trans e, x.trans (exchange_emits _ u).count⟩

/-- A counted loop: `Left n u` says that `n` rounds are left at `u`; each round is one exchange and `body`; after the last one
the table goes on with `next`. -/
theorem reaches_loop {Left : Nat → State → Prop} {body : Byte → State → State} {whole : Nat → State → State} {next : State → State}
    (w0 : ∀ u, whole 0 u = u)
    (w1 : ∀ n u, Left (n + 1) u → whole (n + 1) u = whole n (body (nextExchange u).1 (nextExchange u).2))
    (hb : ∀ b v, (body b v).xcount = v.xcount) (hn : ∀ v, (next v).xcount = v.xcount)
    (hp : ∀ n u, Left (n + 1) u → u.phase ≠ .idle)
    (hl : ∀ n u, Left (n + 2) u → Left (n + 1) (body (nextExchange u).1 (nextExchange u).2))
    (step : ∀ n u, Left (n + 2) u → react (nextExchange u).1 (nextExchange u).2 = body (nextExchange u).1 (nextExchange u).2)
    (last : ∀ u, Left 1 u → react (nextExchange u).1 (nextExchange u).2 = next (body (nextExchange u).1 (nextExchange u).2))
    (k : Nat) (u : State) (h : Left (k + 1) u) : Reaches u (next (whole (k + 1) u)) := by
  induction k generalizing u with
  | zero => exact .one (hp _ _ h) (by rw [last u h, w1 _ _ h, w0]) (by rw [w1 _ _ h, w0, hn, hb])
  | succ k ih =>
    rw [w1 _ _ h]
    exact .trans (.one (hp _ _ h) (step k u h) (hb _ _)) (ih _ (hl k u h))

/-! The segments of the tables: each leads from a phase to the next one with the whole loop's own effect. -/

/-- The frame (R189). -/
theorem reaches_frame (u : State) (hp : u.phase = .frame) (hf : u.framei = 0) :
    Reaches u { sendFrame Config.frameLen u with pollcnt := 0, phase := .respPoll } := by
  refine reaches_loop (Left := fun n v => v.phase = .frame ∧ v.framei + n = Config.frameLen)
    (body := fun _ v => { v with framei := v.framei + 1 }) (whole := sendFrame)
    (next := fun v => { v with pollcnt := 0, phase := .respPoll }) (fun _ => rfl) ?_ (fun _ _ => rfl) (fun _ => rfl) ?_ ?_ ?_ ?_ 5 u ⟨hp, by rw [hf]; rfl⟩
  · intro n v h
    have : nextOut v = frameByte v.frame v.framei := by unfold nextOut; rw [h.1]
    unfold nextExchange
    rw [this]; rfl
  · intro n v h; simp [h.1]
  · intro n v h
    exact ⟨by simp [nextExchange, h.1], by simp only [nextExchange, exchange_framei]; omega⟩
  · intro n v h
    have p : (nextExchange v).2.phase = .frame := by simp [nextExchange, h.1]
    unfold react
    rw [p]
    dsimp only
    rw [if_pos (by simp only [nextExchange, exchange_framei]; omega)]
  · intro v h
    have p : (nextExchange v).2.phase = .frame := by simp [nextExchange, h.1]
    unfold react
    rw [p]
    dsimp only
    rw [if_neg (by simp only [nextExchange, exchange_framei]; omega)]
/-- A mark of the byte received last (`R1`, `TOK` or `BUSYB`), which no exchange reads. -/
structure Marks (mark : Byte → State → State) : Prop where
  swap : ∀ x o v, exchange o (mark x v) = ((exchange o v).1, mark x (exchange o v).2)
  again : ∀ x y n v, mark y { mark x v with pollcnt := n } = mark y { v with pollcnt := n }
  pollcnt : ∀ x v, (mark x v).pollcnt = v.pollcnt
  xcount : ∀ x v, (mark x v).xcount = v.xcount

/-- A bounded poll (R180) as the tables make it: `Here` is being in its phase. -/
theorem reaches_poll {Here : State → Prop} {mark : Byte → State → State} (m : Marks mark) {pred : Byte → Bool} {out : Byte} {bound : Nat}
    {hit miss : Byte → State → State}
    (h0 : ∀ v, Here v → v.phase ≠ .idle ∧ nextOut v = out)
    (h1 : ∀ v o, Here v → Here (exchange o v).2)
    (h2 : ∀ v n b, Here v → Here (mark b { v with pollcnt := n }))
    (hx : ∀ b v, (hit b v).xcount = v.xcount ∧ (miss b v).xcount = v.xcount)
    (hr : ∀ b v, Here v → react b v =
      if pred b then hit b (mark b { v with pollcnt := v.pollcnt + 1 })
      else if v.pollcnt + 1 < bound then mark b { v with pollcnt := v.pollcnt + 1 }
      else miss b (mark b { v with pollcnt := v.pollcnt + 1 }))
    (k : Nat) (last x : Byte) (u : State) (hu : Here (mark x u)) (hk : u.pollcnt + (k + 1) = bound) :
    Reaches (mark x u)
      (let p := pollLoop pred out (k + 1) last u
       if p.1.hit then hit p.1.last (mark p.1.last p.2) else miss p.1.last (mark p.1.last p.2)) := by
  induction k generalizing last x u with
  | zero =>
    have e := (h0 _ hu).2
    have c : (exchange out u).2.pollcnt = u.pollcnt := exchange_pollcnt _ _
    have r := hr (exchange out (mark x u)).1 (exchange out (mark x u)).2 (h1 _ _ hu)
    have pc : (mark x (exchange out u).2).pollcnt = u.pollcnt := (m.pollcnt _ _).trans c
    rw [m.swap] at r
    dsimp only at r
    rw [m.again, pc] at r
    have w : react (nextExchange (mark x u)).1 (nextExchange (mark x u)).2 =
        (let p := pollLoop pred out 1 last u
         if p.1.hit then hit p.1.last (mark p.1.last p.2) else miss p.1.last (mark p.1.last p.2)) := by
      unfold nextExchange
      rw [e, m.swap]
      dsimp only
      rw [r]
      simp only [pollLoop, c]
      by_cases q : pred (exchange out u).1 = true
      · rw [if_pos q, if_pos q]; rfl
      · rw [if_neg q, if_neg q, if_neg (by omega)]; rfl
    refine .one (h0 _ hu).1 w ?_
    rw [← w]
    unfold nextExchange
    rw [e, m.swap]
    dsimp only
    rw [r]
    split
    · rw [(hx _ _).1, m.xcount, m.xcount]
    · rw [if_neg (by omega), (hx _ _).2, m.xcount, m.xcount]
  | succ k ih =>
    have e := (h0 _ hu).2
    have c : (exchange out u).2.pollcnt = u.pollcnt := exchange_pollcnt _ _
    have r := hr (exchange out (mark x u)).1 (exchange out (mark x u)).2 (h1 _ _ hu)
    have pc : (mark x (exchange out u).2).pollcnt = u.pollcnt := (m.pollcnt _ _).trans c
    rw [m.swap] at r
    dsimp only at r
    rw [m.again, pc] at r
    by_cases q : pred (exchange out u).1 = true
    · rw [if_pos q] at r
      have w : react (nextExchange (mark x u)).1 (nextExchange (mark x u)).2 =
          (let p := pollLoop pred out (k + 1 + 1) last u
           if p.1.hit then hit p.1.last (mark p.1.last p.2) else miss p.1.last (mark p.1.last p.2)) := by
        unfold nextExchange
        rw [e, m.swap]
        dsimp only
        rw [r]
        simp only [pollLoop, c, if_pos q]
        rfl
      refine .one (h0 _ hu).1 w ?_
      rw [← w]
      unfold nextExchange
      rw [e, m.swap]
      dsimp only
      rw [r, (hx _ _).1, m.xcount, m.xcount]
    · rw [if_neg q, if_pos (by omega)] at r
      have w : react (nextExchange (mark x u)).1 (nextExchange (mark x u)).2 = mark (exchange out u).1 { (exchange out u).2 with pollcnt := u.pollcnt + 1 } := by
        unfold nextExchange
        rw [e, m.swap]
        exact r
      have hh : Here (mark (exchange out u).1 { (exchange out u).2 with pollcnt := u.pollcnt + 1 }) := by
        have := h2 _ (u.pollcnt + 1) (exchange out u).1 (h1 _ out hu)
        rw [m.swap, m.again] at this
        exact this
      refine Reaches.trans (.one (h0 _ hu).1 w ?_) ?_
      · unfold nextExchange
        rw [e, m.swap, m.xcount, m.xcount]
      · have := ih (exchange out u).1 (exchange out u).1 { (exchange out u).2 with pollcnt := u.pollcnt + 1 } hh (by show u.pollcnt + 1 + (k + 1) = bound; omega)
        have pe : pollLoop pred out (k + 1 + 1) last u = pollLoop pred out (k + 1) (exchange out u).1 { (exchange out u).2 with pollcnt := u.pollcnt + 1 } := by
          rw [pollLoop]
          dsimp only
          rw [if_neg q, c]
        rw [pe]
        exact this

theorem marks_r1 : Marks (fun b v => { v with r1 := b }) :=
  ⟨fun x o v => by unfold exchange draw; cases h : v.card <;> rfl, fun _ _ _ _ => rfl, fun _ _ => rfl, fun _ _ => rfl⟩

theorem marks_tok : Marks (fun b v => { v with tok := b }) :=
  ⟨fun x o v => by unfold exchange draw; cases h : v.card <;> rfl, fun _ _ _ _ => rfl, fun _ _ => rfl, fun _ _ => rfl⟩

theorem marks_busyb : Marks (fun b v => { v with busyb := b }) :=
  ⟨fun x o v => by unfold exchange draw; cases h : v.card <;> rfl, fun _ _ _ _ => rfl, fun _ _ => rfl, fun _ _ => rfl⟩

theorem marks_none : Marks (fun _ v => v) := ⟨fun _ _ _ => rfl, fun _ _ _ _ => rfl, fun _ _ => rfl, fun _ _ => rfl⟩

/-! A reaction makes no exchange. -/

theorem xcount_raise (c : Bool) (e : Result) (s : State) : (raiseError c e s).2.xcount = s.xcount := by
  cases c <;> cases e <;> rfl

theorem xcount_failInit (v : Bool) (st : InitStep) (r : Byte) (s : State) : (failInit v st r s).xcount = s.xcount := by
  cases v <;> rfl

theorem xcount_afterIfCond (v : Bool) (r : Byte) (s : State) : (afterIfCond v r s).xcount = s.xcount := by
  unfold afterIfCond
  dsimp only
  split
  · exact xcount_failInit _ _ _ _
  · rfl

theorem xcount_afterInit (v : Bool) (r : Byte) (s : State) : (afterInitResponse v r s).xcount = s.xcount := by
  unfold afterInitResponse
  split
  · split
    · rfl
    · exact xcount_failInit _ _ _ _
  · split
    · rfl
    · exact xcount_afterIfCond _ _ _
  · split
    · rfl
    · unfold afterAttempt
      dsimp only
      split
      · split
        · rfl
        · exact xcount_failInit _ _ _ _
      · rfl
  · split
    · rfl
    · exact xcount_failInit _ _ _ _
  all_goals rfl

theorem xcount_endSector (s : State) : (endSector s).xcount = s.xcount := by
  unfold endSector
  split
  · split <;> rfl
  all_goals rfl

theorem xcount_afterSectorResponse (w : Bool) (r : Byte) (s : State) : (afterSectorResponse w r s).xcount = s.xcount := by
  unfold afterSectorResponse
  split
  · split <;> rfl
  · exact xcount_raise _ _ _

theorem xcount_afterResponse (r : Byte) (s : State) : (afterResponse r s).xcount = s.xcount := by
  unfold afterResponse
  split
  · split <;> rfl
  · split <;> rfl
  · exact xcount_afterInit _ _ _
  · exact xcount_afterSectorResponse _ _ _
  · exact xcount_afterSectorResponse _ _ _
  all_goals rfl

theorem xcount_afterDrain (s : State) : (afterDrain s).xcount = s.xcount := by
  unfold afterDrain
  split
  · rfl
  · exact xcount_afterIfCond _ _ _
  all_goals rfl

/-! The polls of the tables. -/

/-- Being in phase `p` of the operation and with the parameters of `u`. -/
def InPhase (p : Phase) (u v : State) : Prop := v.phase = p ∧ v.running = u.running ∧ v.cfg = u.cfg

theorem InPhase.flow {p : Phase} {u v : State} (h : InPhase p u v) : Machine.flow v = Machine.flow u := by
  unfold Machine.flow; rw [h.2.1]

/-- The response poll (R189), of an operation that is no `POLL`. -/
theorem reaches_response (u : State) (hp : u.phase = .respPoll) (hc : u.pollcnt = 0) (hf : ∀ bound pred out, flow u ≠ .polling bound pred out) :
    Reaches u
      (let p := poll Config.respPollBound isResponse Config.pollByte u
       afterResponse p.1.last { p.2 with r1 := p.1.last }) := by
  have := reaches_poll (Here := InPhase .respPoll u) marks_r1 (pred := isResponse) (out := Config.pollByte) (bound := Config.respPollBound)
    (hit := afterResponse) (miss := afterResponse) ?_ ?_ ?_ (fun b v => ⟨xcount_afterResponse b v, xcount_afterResponse b v⟩) ?_ 9 u.rxb u.r1 u ⟨hp, rfl, rfl⟩ (by rw [hc]; rfl)
  · have e : poll Config.respPollBound isResponse Config.pollByte u = pollLoop isResponse Config.pollByte 10 u.rxb u := by
      show pollLoop isResponse Config.pollByte 10 u.rxb { u with pollcnt := 0 } = _
      rw [← hc]
    rw [e]
    simp only [ite_self] at this
    exact this
  · intro v h
    refine ⟨by simp [h.1], ?_⟩
    unfold nextOut
    rw [h.1]
    dsimp only
    rw [h.flow]
    split
    · exact absurd ‹_› (hf _ _ _)
    · rfl
  · intro v o h
    exact ⟨(exchange_phase o v).trans h.1, (exchange_running o v).trans h.2.1, (exchange_cfg o v).trans h.2.2⟩
  · intro v n b h
    exact h
  · intro b v h
    have fl := h.flow
    unfold react
    rw [h.1]
    dsimp only
    split
    · rename_i b1 p1 o1 hx
      exact absurd (fl.symm.trans hx) (hf b1 p1 o1)
    · by_cases q : isResponse b = true
      · rw [q, Bool.true_or, if_pos rfl, if_pos rfl]
      · rw [if_neg q]
        by_cases l : v.pollcnt + 1 < Config.respPollBound
        · rw [if_neg (by simp [q]; omega), if_pos l]
        · rw [if_pos (by simp; omega), if_neg l]

/-- A tier-1 `POLL` (R180). -/
theorem reaches_polling (u : State) (bound : Nat) (pred : BytePred) (out : Byte) (hp : u.phase = .respPoll) (hc : u.pollcnt = 0)
    (hf : flow u = .polling (bound + 1) pred out) :
    Reaches u
      (let p := poll (bound + 1) pred.holds out u
       deliverValue (.poll p.1.hit p.1.last p.1.n) p.2) := by
  have := reaches_poll (Here := InPhase .respPoll u) marks_none (pred := pred.holds) (out := out) (bound := bound + 1)
    (hit := fun b t => deliverValue (.poll true b t.pollcnt) t) (miss := fun b t => deliverValue (.poll false b t.pollcnt) t)
    ?_ ?_ ?_ (fun b v => ⟨rfl, rfl⟩) ?_ bound u.rxb u.r1 u ⟨hp, rfl, rfl⟩ (by rw [hc]; omega)
  · have e : poll (bound + 1) pred.holds out u = pollLoop pred.holds out (bound + 1) u.rxb u := by
      show pollLoop pred.holds out (bound + 1) u.rxb { u with pollcnt := 0 } = _
      rw [← hc]
    rw [e]
    obtain ⟨got, l, hq, -, w⟩ := pollLoop_spec pred.holds out bound u.rxb u
    have n1 := congrArg (fun q => q.1.n) w
    have n2 := congrArg (fun q => q.2.pollcnt) w
    dsimp only at n1 n2 this ⊢
    rw [n2, ← n1] at this
    generalize pollLoop pred.holds out (bound + 1) u.rxb u = p at this ⊢
    cases h : p.1.hit
    · rw [h] at this; exact this
    · rw [h] at this; exact this
  · intro v h
    refine ⟨by simp [h.1], ?_⟩
    unfold nextOut
    rw [h.1]
    dsimp only
    rw [h.flow, hf]
  · intro v o h
    exact ⟨(exchange_phase o v).trans h.1, (exchange_running o v).trans h.2.1, (exchange_cfg o v).trans h.2.2⟩
  · intro v n b h
    exact h
  · intro b v h
    have fl : flow v = .polling (bound + 1) pred out := h.flow.trans hf
    unfold react
    rw [h.1]
    dsimp only
    rw [fl]
    dsimp only
    by_cases q : pred.holds b = true
    · rw [q, Bool.true_or, if_pos rfl, if_pos rfl]
    · rw [if_neg q]
      by_cases l : v.pollcnt + 1 < bound + 1
      · rw [if_neg (by simp [q]; omega), if_pos l]
      · rw [if_pos (by simp; omega), if_neg l]
        simp [q]

/-- The token poll (R242). -/
theorem reaches_token (u : State) (hp : u.phase = .tokenPoll) (hc : u.pollcnt = 0) :
    Reaches u
      (let p := poll Config.tokenPollBound isStartToken u.cfg.fill u
       let t := { p.2 with tok := p.1.last }
       if p.1.hit then { startPayload t with phase := .rdPayload } else failSector (.transferTimeout .token) t) := by
  have := reaches_poll (Here := InPhase .tokenPoll u) marks_tok (pred := isStartToken) (out := u.cfg.fill) (bound := Config.tokenPollBound)
    (hit := fun _ t => { startPayload t with phase := .rdPayload }) (miss := fun _ t => failSector (.transferTimeout .token) t)
    ?_ ?_ ?_ (fun b v => ⟨rfl, rfl⟩) ?_ 999 u.rxb u.tok u ⟨hp, rfl, rfl⟩ (by rw [hc]; rfl)
  · have e : poll Config.tokenPollBound isStartToken u.cfg.fill u = pollLoop isStartToken u.cfg.fill 1000 u.rxb u := by
      show pollLoop isStartToken u.cfg.fill 1000 u.rxb { u with pollcnt := 0 } = _
      rw [← hc]
    rw [e]
    exact this
  · intro v h
    refine ⟨by simp [h.1], ?_⟩
    unfold nextOut
    rw [h.1, h.2.2]
  · intro v o h
    exact ⟨(exchange_phase o v).trans h.1, (exchange_running o v).trans h.2.1, (exchange_cfg o v).trans h.2.2⟩
  · intro v n b h
    exact h
  · intro b v h
    unfold react
    rw [h.1]

/-- The busy poll (R250). -/
theorem reaches_busy (u : State) (hp : u.phase = .busyPoll) (hc : u.pollcnt = 0) :
    Reaches u
      (let p := poll Config.busyPollBound notBusy u.cfg.fill u
       let t := { p.2 with busyb := p.1.last }
       if p.1.hit then endSector (deselect t) else failSector (.transferTimeout .busy) t) := by
  have := reaches_poll (Here := InPhase .busyPoll u) marks_busyb (pred := notBusy) (out := u.cfg.fill) (bound := Config.busyPollBound)
    (hit := fun _ t => endSector (deselect t)) (miss := fun _ t => failSector (.transferTimeout .busy) t)
    ?_ ?_ ?_ (fun b v => ⟨xcount_endSector _, rfl⟩) ?_ 999 u.rxb u.busyb u ⟨hp, rfl, rfl⟩ (by rw [hc]; rfl)
  · have e : poll Config.busyPollBound notBusy u.cfg.fill u = pollLoop notBusy u.cfg.fill 1000 u.rxb u := by
      show pollLoop notBusy u.cfg.fill 1000 u.rxb { u with pollcnt := 0 } = _
      rw [← hc]
    rw [e]
    exact this
  · intro v h
    refine ⟨by simp [h.1], ?_⟩
    unfold nextOut
    rw [h.1, h.2.2]
  · intro v o h
    exact ⟨(exchange_phase o v).trans h.1, (exchange_running o v).trans h.2.1, (exchange_cfg o v).trans h.2.2⟩
  · intro v n b h
    exact h
  · intro b v h
    unfold react
    rw [h.1]

/-- A command whose frame is next (R189): the frame, the response poll, the reaction to the response. -/
theorem reaches_command (u : State) (hp : u.phase = .frame) (hf : u.framei = 0) (hn : ∀ bound pred out, flow u ≠ .polling bound pred out) :
    Reaches u (afterResponse (sendLatched u).1 { (sendLatched u).2 with phase := .respPoll }) := by
  obtain ⟨heard, -, -, w⟩ := sendFrame_spec Config.frameLen u
  have hr : (sendFrame Config.frameLen u).running = u.running := (congrArg State.running w).trans rfl
  have := reaches_response { sendFrame Config.frameLen u with pollcnt := 0, phase := .respPoll } rfl rfl (by
    intro b p o e
    refine hn b p o ?_
    rw [← e]
    unfold flow
    rw [hr])
  refine (reaches_frame u hp hf).trans ?_
  have e : ∀ v : State, poll Config.respPollBound isResponse Config.pollByte { v with pollcnt := 0, phase := .respPoll } =
      ((poll Config.respPollBound isResponse Config.pollByte v).1, { (poll Config.respPollBound isResponse Config.pollByte v).2 with phase := .respPoll }) := by
    intro v
    have := poll_on ⟨v.cfg.stepwise, v.busy, v.running, v.sectidx, v.sectno, .respPoll, v.res, v.out⟩ Config.respPollBound isResponse Config.pollByte v
    obtain ⟨got, l, -, -, k⟩ := poll_spec Config.respPollBound (by decide) isResponse Config.pollByte v
    replace k := congrArg Prod.snd k
    dsimp only at k
    have k1 : (poll Config.respPollBound isResponse Config.pollByte v).2.cfg = v.cfg := (congrArg State.cfg k).trans rfl
    have k2 : (poll Config.respPollBound isResponse Config.pollByte v).2.busy = v.busy := (congrArg State.busy k).trans rfl
    have k3 : (poll Config.respPollBound isResponse Config.pollByte v).2.running = v.running := (congrArg State.running k).trans rfl
    have k4 : (poll Config.respPollBound isResponse Config.pollByte v).2.sectidx = v.sectidx := (congrArg State.sectidx k).trans rfl
    have k7 : (poll Config.respPollBound isResponse Config.pollByte v).2.sectno = v.sectno := (congrArg State.sectno k).trans rfl
    have k5 : (poll Config.respPollBound isResponse Config.pollByte v).2.res = v.res := (congrArg State.res k).trans rfl
    have k6 : (poll Config.respPollBound isResponse Config.pollByte v).2.out = v.out := (congrArg State.out k).trans rfl
    have a : poll Config.respPollBound isResponse Config.pollByte { v with pollcnt := 0, phase := .respPoll } =
      poll Config.respPollBound isResponse Config.pollByte { v with phase := .respPoll } := rfl
    rw [a]
    refine this.trans (Prod.ext rfl ?_)
    generalize (poll Config.respPollBound isResponse Config.pollByte v).2 = q at *
    simp only [Overlay.on, ← k1, ← k2, ← k3, ← k4, ← k5, ← k6, ← k7]
  rw [e] at this
  exact this

/-- The bytes of `BusReset` (R202). -/
theorem reaches_busReset (u : State) (hp : u.phase = .resetIdle) (hl : u.loopidx = 0) (hc : u.cfg.resetIdleBytes ≠ 0) :
    Reaches u (enterGoIdle (clockFill u.cfg.resetIdleBytes u)) := by
  obtain ⟨k, hk⟩ := Nat.exists_eq_succ_of_ne_zero hc
  rw [hk]
  refine reaches_loop (Left := fun n v => v.phase = .resetIdle ∧ v.cfg = u.cfg ∧ v.loopidx + n = u.cfg.resetIdleBytes)
    (body := fun _ v => { v with loopidx := v.loopidx + 1 }) (whole := clockFill) (next := enterGoIdle)
    (fun _ => rfl) ?_ (fun _ _ => rfl) (fun _ => rfl) ?_ ?_ ?_ ?_ k u ⟨hp, rfl, by rw [hl, hk]; simp⟩
  · intro n v h
    have : nextOut v = v.cfg.fill := by unfold nextOut; rw [h.1]
    unfold nextExchange
    rw [this]; rfl
  · intro n v h; simp [h.1]
  · intro n v h
    exact ⟨by simp [nextExchange, h.1], by simp [nextExchange, h.2.1], by simp only [nextExchange, exchange_loopidx]; omega⟩
  · intro n v h
    have p : (nextExchange v).2.phase = .resetIdle := by simp [nextExchange, h.1]
    unfold react
    rw [p]
    dsimp only
    rw [if_pos (by simp only [nextExchange, exchange_loopidx, exchange_cfg, h.2.1]; omega)]
  · intro v h
    have p : (nextExchange v).2.phase = .resetIdle := by simp [nextExchange, h.1]
    unfold react
    rw [p]
    dsimp only
    rw [if_neg (by simp only [nextExchange, exchange_loopidx, exchange_cfg, h.2.1]; omega)]

/-- The trailing bytes of opcode 8 (R204). -/
theorem reaches_drain (u : State) (hp : u.phase = .r7Drain) (hl : u.loopidx = 0) :
    Reaches u (afterDrain (drainTail Config.r7TailLen u)) := by
  refine reaches_loop (Left := fun n v => v.phase = .r7Drain ∧ v.loopidx + n = Config.r7TailLen)
    (body := fun b v => { v with r7tail := tailWith v.r7tail v.loopidx b, loopidx := v.loopidx + 1 }) (whole := drainTail) (next := afterDrain)
    (fun _ => rfl) ?_ (fun _ _ => rfl) (fun _ => xcount_afterDrain _) ?_ ?_ ?_ ?_ 3 u ⟨hp, by rw [hl]; rfl⟩
  · intro n v h
    have : nextOut v = v.cfg.fill := by unfold nextOut; rw [h.1]
    unfold nextExchange
    rw [this]; rfl
  · intro n v h; simp [h.1]
  · intro n v h
    exact ⟨by simp [nextExchange, h.1], by simp only [nextExchange, exchange_loopidx]; omega⟩
  · intro n v h
    have p : (nextExchange v).2.phase = .r7Drain := by simp [nextExchange, h.1]
    unfold react
    rw [p]
    dsimp only
    rw [if_pos (by simp only [nextExchange, exchange_loopidx]; omega)]
  · intro v h
    have p : (nextExchange v).2.phase = .r7Drain := by simp [nextExchange, h.1]
    unfold react
    rw [p]
    dsimp only
    rw [if_neg (by simp only [nextExchange, exchange_loopidx]; omega)]

/-- The payload of a read (R243). -/
theorem reaches_received (u : State) (hp : u.phase = .rdPayload) (hl : u.byteidx = 0) :
    Reaches u { startLoop (receivePayload Config.blockSize u) with phase := .rdCrc } := by
  refine reaches_loop (Left := fun n v => v.phase = .rdPayload ∧ v.byteidx + n = Config.blockSize)
    (body := fun b v => { bufWrite v.byteidx b v with byteidx := v.byteidx + 1 }) (whole := receivePayload) (next := fun v => { startLoop v with phase := .rdCrc })
    (fun _ => rfl) ?_ (fun _ _ => rfl) (fun _ => rfl) ?_ ?_ ?_ ?_ 511 u ⟨hp, by rw [hl]; rfl⟩
  · intro n v h
    have : nextOut v = v.cfg.fill := by unfold nextOut; rw [h.1]
    unfold nextExchange
    rw [this]; rfl
  · intro n v h; simp [h.1]
  · intro n v h
    exact ⟨by simp [nextExchange, bufWrite, h.1], by simp only [nextExchange, exchange_byteidx]; omega⟩
  · intro n v h
    have p : (nextExchange v).2.phase = .rdPayload := by simp [nextExchange, h.1]
    unfold react
    rw [p]
    dsimp only
    rw [if_pos (by simp only [nextExchange, exchange_byteidx]; omega)]
  · intro v h
    have p : (nextExchange v).2.phase = .rdPayload := by simp [nextExchange, h.1]
    unfold react
    rw [p]
    dsimp only
    rw [if_neg (by simp only [nextExchange, exchange_byteidx]; omega)]

/-- The CRC bytes of a read, and the end of its sector (R243). -/
theorem reaches_readCrc (u : State) (hp : u.phase = .rdCrc) (hl : u.loopidx = 0) :
    Reaches u (endSector (deselect (clockFill Config.dataCrcLen u))) := by
  refine reaches_loop (Left := fun n v => v.phase = .rdCrc ∧ v.loopidx + n = Config.dataCrcLen)
    (body := fun _ v => { v with loopidx := v.loopidx + 1 }) (whole := clockFill) (next := fun v => endSector (deselect v))
    (fun _ => rfl) ?_ (fun _ _ => rfl) (fun _ => xcount_endSector _) ?_ ?_ ?_ ?_ 1 u ⟨hp, by rw [hl]; rfl⟩
  · intro n v h
    have : nextOut v = v.cfg.fill := by unfold nextOut; rw [h.1]
    unfold nextExchange
    rw [this]; rfl
  · intro n v h; simp [h.1]
  · intro n v h
    exact ⟨by simp [nextExchange, h.1], by simp only [nextExchange, exchange_loopidx]; omega⟩
  · intro n v h
    have p : (nextExchange v).2.phase = .rdCrc := by simp [nextExchange, h.1]
    unfold react
    rw [p]
    dsimp only
    rw [if_pos (by simp only [nextExchange, exchange_loopidx]; omega)]
  · intro v h
    have p : (nextExchange v).2.phase = .rdCrc := by simp [nextExchange, h.1]
    unfold react
    rw [p]
    dsimp only
    rw [if_neg (by simp only [nextExchange, exchange_loopidx]; omega)]

/-- The start token of a write (R247). -/
theorem reaches_sentToken (u : State) (hp : u.phase = .wrToken) :
    Reaches u { startPayload (exchange Config.dataStartToken u).2 with phase := .wrPayload } := by
  have n : nextOut u = Config.dataStartToken := by unfold nextOut; rw [hp]
  refine .one (by simp [hp]) ?_ (by unfold nextExchange; rw [n]; rfl)
  unfold react nextExchange
  rw [exchange_phase, hp, n]

/-- The payload of a write (R247). -/
theorem reaches_sent (u : State) (hp : u.phase = .wrPayload) (hl : u.byteidx = 0) :
    Reaches u { startLoop (sendPayload Config.blockSize u) with phase := .wrCrc } := by
  refine reaches_loop (Left := fun n v => v.phase = .wrPayload ∧ v.byteidx + n = Config.blockSize)
    (body := fun _ v => { v with byteidx := v.byteidx + 1 }) (whole := sendPayload) (next := fun v => { startLoop v with phase := .wrCrc })
    (fun _ => rfl) ?_ (fun _ _ => rfl) (fun _ => rfl) ?_ ?_ ?_ ?_ 511 u ⟨hp, by rw [hl]; rfl⟩
  · intro n v h
    have : nextOut v = bufRead v v.byteidx := by unfold nextOut; rw [h.1]
    unfold nextExchange
    rw [this]; rfl
  · intro n v h; simp [h.1]
  · intro n v h
    exact ⟨by simp [nextExchange, h.1], by simp only [nextExchange, exchange_byteidx]; omega⟩
  · intro n v h
    have p : (nextExchange v).2.phase = .wrPayload := by simp [nextExchange, h.1]
    unfold react
    rw [p]
    dsimp only
    rw [if_pos (by simp only [nextExchange, exchange_byteidx]; omega)]
  · intro v h
    have p : (nextExchange v).2.phase = .wrPayload := by simp [nextExchange, h.1]
    unfold react
    rw [p]
    dsimp only
    rw [if_neg (by simp only [nextExchange, exchange_byteidx]; omega)]

/-- The CRC bytes of a write (R247). -/
theorem reaches_writeCrc (u : State) (hp : u.phase = .wrCrc) (hl : u.loopidx = 0) :
    Reaches u { clockFill Config.dataCrcLen u with phase := .wrResp } := by
  refine reaches_loop (Left := fun n v => v.phase = .wrCrc ∧ v.loopidx + n = Config.dataCrcLen)
    (body := fun _ v => { v with loopidx := v.loopidx + 1 }) (whole := clockFill) (next := fun v => { v with phase := .wrResp })
    (fun _ => rfl) ?_ (fun _ _ => rfl) (fun _ => rfl) ?_ ?_ ?_ ?_ 1 u ⟨hp, by rw [hl]; rfl⟩
  · intro n v h
    have : nextOut v = v.cfg.fill := by unfold nextOut; rw [h.1]
    unfold nextExchange
    rw [this]; rfl
  · intro n v h; simp [h.1]
  · intro n v h
    exact ⟨by simp [nextExchange, h.1], by simp only [nextExchange, exchange_loopidx]; omega⟩
  · intro n v h
    have p : (nextExchange v).2.phase = .wrCrc := by simp [nextExchange, h.1]
    unfold react
    rw [p]
    dsimp only
    rw [if_pos (by simp only [nextExchange, exchange_loopidx]; omega)]
  · intro v h
    have p : (nextExchange v).2.phase = .wrCrc := by simp [nextExchange, h.1]
    unfold react
    rw [p]
    dsimp only
    rw [if_neg (by simp only [nextExchange, exchange_loopidx]; omega)]

/-- The data response of a write (R248, R249). -/
theorem reaches_dataResponse (u : State) (hp : u.phase = .wrResp) :
    Reaches u
      (let d := exchange u.cfg.fill u
       let t := { d.2 with dresp := d.1 }
       if writeAccepted d.1 then { t with pollcnt := 0, phase := .busyPoll }
       else failSector (.writeRejected (rejectReason d.1) d.1) t) := by
  have n : nextOut u = u.cfg.fill := by unfold nextOut; rw [hp]
  have e : react (nextExchange u).1 (nextExchange u).2 = (let d := exchange u.cfg.fill u
       let t := { d.2 with dresp := d.1 }
       if writeAccepted d.1 then { t with pollcnt := 0, phase := .busyPoll }
       else failSector (.writeRejected (rejectReason d.1) d.1) t) := by
    unfold react nextExchange
    rw [exchange_phase, hp, n]
    rfl
  refine .one (by simp [hp]) e ?_
  unfold nextExchange
  rw [n]
  dsimp only
  split <;> rfl

end Sys2Proof.Machine
end

