-- ==== Sys2Proof/Laws/Stepwise.lean ====
section
/-!
SUPPORT. The transactions and sequences of the block stepped one exchange at a time: from their first frame on they reach the state
the whole run comes to.
-/

namespace Sys2Proof.Machine

/-! What a run that commutes with overlays keeps. -/

@[simp] theorem overlay_on (lay : Overlay) (s : State) : (lay.on s).overlay = lay := rfl

/-- `s` in phase `p`. -/
def atPhase (p : Phase) (s : State) : State := { s with phase := p }

theorem atPhase_on (p : Phase) (s : State) : atPhase p s = ({ s.overlay with phase := p } : Overlay).on s := rfl

theorem overlay_keep {f : State → State} (h : ∀ (lay : Overlay) s, f (lay.on s) = lay.on (f s)) (s : State) : (f s).overlay = s.overlay := by
  have := h s.overlay s
  rw [overlay_on_self] at this
  rw [this]; rfl

theorem atPhase_comm {f : State → State} (h : ∀ (lay : Overlay) s, f (lay.on s) = lay.on (f s)) (p : Phase) (s : State) :
    f (atPhase p s) = atPhase p (f s) := by
  rw [atPhase_on, h, atPhase_on, overlay_keep h]

/-- The same for runs with an answer. -/
theorem overlay_keep_pair {α : Type} {f : State → α × State} (h : ∀ (lay : Overlay) s, f (lay.on s) = ((f s).1, lay.on (f s).2)) (s : State) :
    (f s).2.overlay = s.overlay :=
  overlay_keep (f := fun s => (f s).2) (fun lay s => congrArg Prod.snd (h lay s)) s

theorem atPhase_comm_pair {α : Type} {f : State → α × State} (h : ∀ (lay : Overlay) s, f (lay.on s) = ((f s).1, lay.on (f s).2))
    (p : Phase) (s : State) : f (atPhase p s) = ((f s).1, atPhase p (f s).2) :=
  Prod.ext (by rw [atPhase_on, h]) (atPhase_comm (f := fun s => (f s).2) (fun lay s => congrArg Prod.snd (h lay s)) p s)

/-- A run that ends its operation does not read the overlay, but for the granularity and the sector counters. -/
theorem ended_overlay {f : State → Result × State} (h : ∀ (lay : Overlay) s, f (lay.on s) = ((f s).1, (lay.ended (f s).1).on (f s).2))
    {lay : Overlay} {s : State} (g : lay.stepwise = s.cfg.stepwise) (k : lay.sectors = s.overlay.sectors) : f (lay.on s) = f s := by
  have a := h lay s
  have b := h s.overlay s
  rw [overlay_on_self] at b
  rw [a]
  refine Eq.trans ?_ b.symm
  have : lay.ended (f s).1 = s.overlay.ended (f s).1 := by
    have k1 := congrArg Prod.fst k
    have k2 := congrArg Prod.snd k
    simp only [Overlay.sectors] at k1 k2
    simp only [Overlay.ended, g, k1, k2]; rfl
  rw [this]

theorem raise_atPhase (c : Bool) (e : Result) (p : Phase) (s : State) : raiseError c e (atPhase p s) = raiseError c e s := by
  cases c <;> cases e <;> rfl

theorem flow_overlay {s t : State} (h : t.overlay = s.overlay) : flow t = flow s := by
  have : t.running = s.running := congrArg Overlay.running h
  unfold flow; rw [this]

/-- An operation on sectors. -/
def OnSectors (isWrite : Bool) (u : State) : Prop := flow u = .sector isWrite ∨ ∃ first count buf, flow u = .sectors isWrite first count buf

theorem OnSectors.notPolling {w : Bool} {u : State} (h : OnSectors w u) (bound : Nat) (pred : BytePred) (out : Byte) : flow u ≠ .polling bound pred out := by
  rcases h with h | ⟨a, b, c, h⟩ <;> rw [h] <;> simp

theorem OnSectors.response {w : Bool} {u : State} (h : OnSectors w u) (r : Byte) : afterResponse r u = afterSectorResponse w r u := by
  unfold afterResponse
  rcases h with h | ⟨a, b, c, h⟩ <;> rw [h]

/-- `v` is the state in which a sector ended well: `q` is the whole run's answer, `u` the state it began in. -/
structure SectorEnd (u v : State) (q : Result × State) : Prop where
  ended : q.2 = (deliverOk .nothing v).2
  running : v.running = u.running
  busy : v.busy = u.busy
  sectors : (v.sectidx, v.sectno) = (u.sectidx, u.sectno)
  cfg : v.cfg = u.cfg

theorem cfg_poll (bound : Nat) (pred : Byte → Bool) (out : Byte) (s : State) : (poll bound pred out s).2.cfg = s.cfg := by
  by_cases h : bound = 0
  · subst h; rfl
  · obtain ⟨got, l, -, -, w⟩ := poll_spec bound (by omega) pred out s
    exact (congrArg (fun q => q.2.cfg) w).trans rfl

theorem cfg_clockFill (n : Nat) (s : State) : (clockFill n s).cfg = s.cfg := by
  obtain ⟨got, -, -, w⟩ := clockFill_spec n s
  exact (congrArg State.cfg w).trans rfl

theorem cfg_receivePayload (n : Nat) (s : State) : (receivePayload n s).cfg = s.cfg := by
  obtain ⟨got, -, -, w⟩ := receivePayload_spec n s
  exact (congrArg State.cfg w).trans rfl

theorem cfg_sendPayload (n : Nat) (s : State) : (sendPayload n s).cfg = s.cfg := by
  obtain ⟨got, -, -, w⟩ := sendPayload_spec n s
  exact (congrArg State.cfg w).trans rfl

theorem cfg_sendLatched (s : State) : (sendLatched s).2.cfg = s.cfg := by
  obtain ⟨got, -, -, w⟩ := sendFrame_spec Config.frameLen s
  exact (cfg_poll _ _ _ _).trans ((congrArg State.cfg w).trans rfl)

/-- A poll counts from 0 whatever `pollcnt` held. -/
theorem poll_recount (bound n : Nat) (h : bound ≠ 0) (pred : Byte → Bool) (out : Byte) (s : State) :
    poll bound pred out { s with pollcnt := n } = poll bound pred out s := by
  cases bound with
  | zero => exact absurd rfl h
  | succ k => rfl

/-- A loop counted in `loopidx`, started in another phase. -/
theorem clockFill_rephase (n : Nat) (p q : Phase) (s : State) :
    clockFill n { startLoop (atPhase p s) with phase := q } = atPhase q (clockFill n (startLoop s)) :=
  atPhase_comm (f := clockFill n) (fun lay s => clockFill_on lay _ s) q (startLoop s)

/-- A sector read, from its frame on (R254). -/
theorem reaches_read (u : State) (hp : u.phase = .frame) (hf : u.framei = 0) (h : OnSectors false u) :
    ∃ v, Reaches u (if (readLatched u).1 = .ok then endSector v else (readLatched u).2) ∧
      ((readLatched u).1 = .ok → SectorEnd u v (readLatched u)) := by
  have c := reaches_command u hp hf h.notPolling
  have ov := overlay_keep_pair (f := sendLatched) sendLatched_on u
  have oc := cfg_sendLatched u
  have os : OnSectors false { (sendLatched u).2 with phase := .respPoll } := by
    have : flow { (sendLatched u).2 with phase := .respPoll } = flow u := flow_overlay (s := u) (t := (sendLatched u).2) ov
    unfold OnSectors; rw [this]; exact h
  rw [os.response] at c
  unfold readLatched
  generalize sendLatched u = q at c ov oc
  unfold afterSectorResponse at c
  dsimp only at c ⊢
  by_cases hr : r1AllClear q.1 = true
  · rw [if_pos hr, if_neg (by simp)] at c
    rw [if_pos hr]
    have k := reaches_token { q.2 with pollcnt := 0, phase := .tokenPoll } rfl rfl
    have e : poll Config.tokenPollBound isStartToken q.2.cfg.fill { q.2 with pollcnt := 0, phase := .tokenPoll } =
        ((poll Config.tokenPollBound isStartToken q.2.cfg.fill q.2).1, atPhase .tokenPoll (poll Config.tokenPollBound isStartToken q.2.cfg.fill q.2).2) :=
      (poll_recount Config.tokenPollBound 0 (by decide) isStartToken q.2.cfg.fill (atPhase .tokenPoll q.2)).trans <| atPhase_comm_pair (f := poll Config.tokenPollBound isStartToken q.2.cfg.fill) (fun lay s => poll_on lay _ _ _ s) .tokenPoll q.2
    have ov2 := overlay_keep_pair (f := poll Config.tokenPollBound isStartToken q.2.cfg.fill) (fun lay s => poll_on lay _ _ _ s) q.2
    have oc2 := cfg_poll Config.tokenPollBound isStartToken q.2.cfg.fill q.2
    dsimp only at k e ⊢
    rw [e] at k
    unfold readData
    generalize poll Config.tokenPollBound isStartToken q.2.cfg.fill q.2 = p at k ov2 oc2 ⊢
    dsimp only at k ⊢
    have ck := c.trans k
    by_cases hh : p.1.hit = true
    · rw [if_pos hh] at ck
      rw [if_pos hh]
      have a := reaches_received _ (show ({ startPayload { atPhase .tokenPoll p.2 with tok := p.1.last } with phase := .rdPayload } : State).phase = .rdPayload from rfl) rfl
      have e2 : ∀ n, receivePayload n { startPayload { atPhase .tokenPoll p.2 with tok := p.1.last } with phase := .rdPayload } =
          atPhase .rdPayload (receivePayload n (startPayload { p.2 with tok := p.1.last })) := fun n =>
        atPhase_comm (f := receivePayload n) (fun lay s => receivePayload_on lay _ s) .rdPayload (startPayload { p.2 with tok := p.1.last })
      have ov3 := overlay_keep (f := receivePayload Config.blockSize) (fun lay s => receivePayload_on lay _ s) (startPayload { p.2 with tok := p.1.last })
      have oc3 := cfg_receivePayload Config.blockSize (startPayload { p.2 with tok := p.1.last })
      rw [e2] at a
      generalize receivePayload Config.blockSize (startPayload { p.2 with tok := p.1.last }) = x at a ov3 oc3 ⊢
      have b := reaches_readCrc _ (show ({ startLoop (atPhase .rdPayload x) with phase := .rdCrc } : State).phase = .rdCrc from rfl) rfl
      have ov4 := overlay_keep (f := clockFill Config.dataCrcLen) (fun lay s => clockFill_on lay _ s) (startLoop x)
      have oc4 := cfg_clockFill Config.dataCrcLen (startLoop x)
      rw [clockFill_rephase] at b
      generalize clockFill Config.dataCrcLen (startLoop x) = y at b ov4 oc4 ⊢
      refine ⟨deselect (atPhase .rdCrc y), ?_, fun _ => ⟨rfl, ?_, ?_, ?_, ?_⟩⟩
      · exact (ck.trans a).trans b
      · exact (congrArg Overlay.running ov4).trans ((congrArg Overlay.running ov3).trans ((congrArg Overlay.running ov2).trans (congrArg Overlay.running ov)))
      · exact (congrArg Overlay.busy ov4).trans ((congrArg Overlay.busy ov3).trans ((congrArg Overlay.busy ov2).trans (congrArg Overlay.busy ov)))
      · exact (congrArg Overlay.sectors ov4).trans ((congrArg Overlay.sectors ov3).trans ((congrArg Overlay.sectors ov2).trans (congrArg Overlay.sectors ov)))
      · exact oc4.trans (oc3.trans (oc2.trans oc))
    · rw [if_neg hh] at ck
      rw [if_neg hh]
      refine ⟨u, ?_, fun e => by cases e⟩
      rw [if_neg (by simp [raiseError])]
      exact ck
  · rw [if_neg hr] at c
    rw [if_neg hr]
    refine ⟨u, ?_, fun e => by cases e⟩
    rw [if_neg (by simp [raiseError])]
    exact c

/-- The end of a write, from its data response on (R248 to R250). -/
def writeTail (s : State) : Result × State :=
  let d := exchange s.cfg.fill s
  let t := { d.2 with dresp := d.1 }
  if writeAccepted d.1 then awaitWritten t else raiseError true (.writeRejected (rejectReason d.1) d.1) t

theorem writeData_tail (s : State) :
    writeData s =
      writeTail (clockFill Config.dataCrcLen (startLoop (sendPayload Config.blockSize (startPayload (exchange Config.dataStartToken s).2)))) := rfl

theorem writeTail_on (lay : Overlay) (s : State) : writeTail (lay.on s) = ((writeTail s).1, (lay.ended (writeTail s).1).on (writeTail s).2) := by
  unfold writeTail
  rw [show (lay.on s).cfg.fill = s.cfg.fill from rfl, exchange_on]
  generalize exchange s.cfg.fill s = d
  dsimp only
  rw [show ∀ x, { lay.on d.2 with dresp := x } = lay.on { d.2 with dresp := x } from fun _ => rfl]
  by_cases h : writeAccepted d.1 = true
  · rw [if_pos h, if_pos h, awaitWritten_on]
  · rw [if_neg h, if_neg h, raiseError_on]; rfl

theorem reaches_writeTail (u : State) (hp : u.phase = .wrResp) :
    ∃ v, Reaches u (if (writeTail u).1 = .ok then endSector v else (writeTail u).2) ∧
      ((writeTail u).1 = .ok → SectorEnd u v (writeTail u)) := by
  have g := reaches_dataResponse u hp
  have ov := overlay_keep_pair (f := exchange u.cfg.fill) (fun lay s => exchange_on lay _ s) u
  have oc : (exchange u.cfg.fill u).2.cfg = u.cfg := exchange_cfg _ _
  unfold writeTail
  generalize exchange u.cfg.fill u = z at g ov oc ⊢
  dsimp only at g ⊢
  by_cases hh : writeAccepted z.1 = true
  · rw [if_pos hh] at g
    rw [if_pos hh]
    unfold awaitWritten
    have m := reaches_busy { z.2 with dresp := z.1, pollcnt := 0, phase := .busyPoll } rfl rfl
    have e5 : poll Config.busyPollBound notBusy z.2.cfg.fill { z.2 with dresp := z.1, pollcnt := 0, phase := .busyPoll } =
        ((poll Config.busyPollBound notBusy z.2.cfg.fill { z.2 with dresp := z.1 }).1,
          atPhase .busyPoll (poll Config.busyPollBound notBusy z.2.cfg.fill { z.2 with dresp := z.1 }).2) :=
      (poll_recount Config.busyPollBound 0 (by decide) notBusy z.2.cfg.fill (atPhase .busyPoll { z.2 with dresp := z.1 })).trans <| atPhase_comm_pair (f := poll Config.busyPollBound notBusy z.2.cfg.fill) (fun lay s => poll_on lay _ _ _ s) .busyPoll { z.2 with dresp := z.1 }
    have ov5 := overlay_keep_pair (f := poll Config.busyPollBound notBusy z.2.cfg.fill) (fun lay s => poll_on lay _ _ _ s) { z.2 with dresp := z.1 }
    have oc5 := cfg_poll Config.busyPollBound notBusy z.2.cfg.fill { z.2 with dresp := z.1 }
    dsimp only at m e5 ⊢
    rw [e5] at m
    generalize poll Config.busyPollBound notBusy z.2.cfg.fill { z.2 with dresp := z.1 } = p at m ov5 oc5 ⊢
    dsimp only at m ⊢
    have whole := g.trans m
    by_cases hb : p.1.hit = true
    · rw [if_pos hb] at whole
      rw [if_pos hb]
      refine ⟨_, whole, fun _ => ⟨rfl, ?_, ?_, ?_, ?_⟩⟩
      · exact (congrArg Overlay.running ov5).trans (congrArg Overlay.running ov)
      · exact (congrArg Overlay.busy ov5).trans (congrArg Overlay.busy ov)
      · exact (congrArg Overlay.sectors ov5).trans (congrArg Overlay.sectors ov)
      · exact oc5.trans oc
    · rw [if_neg hb] at whole
      rw [if_neg hb]
      refine ⟨u, ?_, fun e => by cases e⟩
      rw [if_neg (by simp [raiseError])]
      exact whole
  · rw [if_neg hh] at g
    rw [if_neg hh]
    refine ⟨u, ?_, fun e => by cases e⟩
    rw [if_neg (by simp [raiseError])]
    exact g

/-- A sector written, from its frame on (R254). -/
theorem reaches_write (u : State) (hp : u.phase = .frame) (hf : u.framei = 0) (h : OnSectors true u) :
    ∃ v, Reaches u (if (writeLatched u).1 = .ok then endSector v else (writeLatched u).2) ∧
      ((writeLatched u).1 = .ok → SectorEnd u v (writeLatched u)) := by
  have c := reaches_command u hp hf h.notPolling
  have ov := overlay_keep_pair (f := sendLatched) sendLatched_on u
  have oc := cfg_sendLatched u
  have os : OnSectors true { (sendLatched u).2 with phase := .respPoll } := by
    have : flow { (sendLatched u).2 with phase := .respPoll } = flow u := flow_overlay (s := u) (t := (sendLatched u).2) ov
    unfold OnSectors; rw [this]; exact h
  rw [os.response] at c
  unfold writeLatched
  generalize sendLatched u = q at c ov oc
  unfold afterSectorResponse at c
  dsimp only at c ⊢
  by_cases hr : r1AllClear q.1 = true
  · rw [if_pos hr, if_pos rfl] at c
    rw [if_pos hr, writeData_tail]
    -- the token
    have a := reaches_sentToken { q.2 with phase := .wrToken } rfl
    have e1 : (exchange Config.dataStartToken { q.2 with phase := .wrToken }).2 = atPhase .wrToken (exchange Config.dataStartToken q.2).2 :=
      congrArg Prod.snd (atPhase_comm_pair (f := exchange Config.dataStartToken) (fun lay s => exchange_on lay _ s) .wrToken q.2)
    have ov1 := overlay_keep_pair (f := exchange Config.dataStartToken) (fun lay s => exchange_on lay _ s) q.2
    have oc1 : (exchange Config.dataStartToken q.2).2.cfg = q.2.cfg := exchange_cfg _ _
    rw [e1] at a
    have ca := c.trans a
    generalize (exchange Config.dataStartToken q.2).2 = k at ca ov1 oc1 ⊢
    -- the payload
    have b := reaches_sent _ (show ({ startPayload (atPhase .wrToken k) with phase := .wrPayload } : State).phase = .wrPayload from rfl) rfl
    have e2 : ∀ n, sendPayload n { startPayload (atPhase .wrToken k) with phase := .wrPayload } = atPhase .wrPayload (sendPayload n (startPayload k)) := fun n =>
      atPhase_comm (f := sendPayload n) (fun lay s => sendPayload_on lay _ s) .wrPayload (startPayload k)
    have ov2 := overlay_keep (f := sendPayload Config.blockSize) (fun lay s => sendPayload_on lay _ s) (startPayload k)
    have oc2 := cfg_sendPayload Config.blockSize (startPayload k)
    rw [e2] at b
    generalize sendPayload Config.blockSize (startPayload k) = x at b ov2 oc2 ⊢
    -- the CRC bytes
    have d := reaches_writeCrc _ (show ({ startLoop (atPhase .wrPayload x) with phase := .wrCrc } : State).phase = .wrCrc from rfl) rfl
    have ov3 := overlay_keep (f := clockFill Config.dataCrcLen) (fun lay s => clockFill_on lay _ s) (startLoop x)
    have oc3 := cfg_clockFill Config.dataCrcLen (startLoop x)
    rw [clockFill_rephase] at d
    generalize clockFill Config.dataCrcLen (startLoop x) = y at d ov3 oc3 ⊢
    -- the data response and what follows it
    obtain ⟨v, g, w⟩ := reaches_writeTail (atPhase .wrResp y) rfl
    have e4 : writeTail (atPhase .wrResp y) = writeTail y := by
      rw [atPhase_on]
      exact ended_overlay writeTail_on rfl rfl
    rw [e4] at g w
    have ro := ov3.trans (ov2.trans (ov1.trans ov))
    refine ⟨v, ((ca.trans b).trans d).trans g, fun e => ⟨(w e).ended, ?_, ?_, ?_, ?_⟩⟩
    · exact (w e).running.trans (congrArg Overlay.running ro)
    · exact (w e).busy.trans (congrArg Overlay.busy ro)
    · exact (w e).sectors.trans (congrArg Overlay.sectors ro)
    · exact (w e).cfg.trans (oc3.trans (oc2.trans (oc1.trans oc)))
  · rw [if_neg hr] at c
    rw [if_neg hr]
    refine ⟨u, ?_, fun e => by cases e⟩
    rw [if_neg (by simp [raiseError])]
    exact c

theorem granularity_on (g : Bool) (s : State) : withGranularity g s = ({ s.overlay with stepwise := g } : Overlay).on s := rfl

theorem granularity_ended {f : State → Result × State} (h : ∀ (lay : Overlay) s, f (lay.on s) = ((f s).1, (lay.ended (f s).1).on (f s).2))
    (g : Bool) (s : State) : (f (withGranularity g s)).1 = (f s).1 ∧ (f (withGranularity g s)).2 = withGranularity g (f s).2 := by
  have b := h s.overlay s
  rw [overlay_on_self] at b
  have o : (f s).2.overlay = s.overlay.ended (f s).1 := by
    have := congrArg (fun q => q.2.overlay) b
    exact this
  rw [granularity_on, h, granularity_on, o]
  exact ⟨rfl, rfl⟩

theorem granularity_pair {α : Type} {f : State → α × State} (h : ∀ (lay : Overlay) s, f (lay.on s) = ((f s).1, lay.on (f s).2))
    (g : Bool) (s : State) : f (withGranularity g s) = ((f s).1, withGranularity g (f s).2) := by
  rw [granularity_on, h, granularity_on, overlay_keep_pair h]

theorem granularity_comm {f : State → State} (h : ∀ (lay : Overlay) s, f (lay.on s) = lay.on (f s))
    (g : Bool) (s : State) : f (withGranularity g s) = withGranularity g (f s) := by
  rw [granularity_on, h, granularity_on, overlay_keep h]

/-- The two granularities agree when the start reaches the whole run. -/
theorem agrees {i : Instr} {f w : State → State} {s : State} (hb : s.busy = false)
    (he : ∀ u, exec i u = startOp i f w u)
    (h : Reaches (f (started i (withGranularity true s))) (w (started i (withGranularity true s))))
    (hx : (f (started i (withGranularity true s))).xcount = s.xcount)
    (hw : w (started i (withGranularity true s)) = withGranularity true (w (started i (withGranularity false s)))) :
    StepwiseAgrees i s := by
  obtain ⟨n, h1, h2⟩ := h
  refine ⟨n, w (started i (withGranularity false s)), f (started i (withGranularity true s)), ?_, ?_, h1.trans hw, ?_⟩
  · rw [he]; simp only [startOp, withGranularity, hb]; rfl
  · rw [he]; simp only [startOp, withGranularity, hb]; rfl
  · rw [← hx, ← h2, hw]; rfl

theorem sendLatched_atPhase (p : Phase) (s : State) : sendLatched (atPhase p s) = ((sendLatched s).1, atPhase p (sendLatched s).2) :=
  atPhase_comm_pair sendLatched_on p s

/-- A command that ends with its response, from its frame on. -/
theorem reaches_plain (bracketed : Bool) (s : State) (hf : s.framei = 0) (h : flow s = .command bracketed) :
    Reaches (atPhase .frame s) (deliverValue (.byte (sendLatched s).1) (if bracketed then deselect (sendLatched s).2 else (sendLatched s).2)) := by
  have hfl : flow (atPhase .frame s) = .command bracketed := h
  have c := reaches_command (atPhase .frame s) rfl hf (by rw [hfl]; simp)
  rw [sendLatched_atPhase] at c
  have ov := overlay_keep_pair sendLatched_on s
  have fl : flow (atPhase .respPoll (sendLatched s).2) = .command bracketed := (flow_overlay (s := s) (t := (sendLatched s).2) ov).trans h
  have c2 : Reaches (atPhase .frame s) (afterResponse (sendLatched s).1 (atPhase .respPoll (sendLatched s).2)) := c
  unfold afterResponse at c2
  rw [fl] at c2
  cases bracketed <;> exact c2

theorem wire_granularity (o : U6) (a : U32) (c : U7) (i : Instr) (s : State) :
    wireCommand o a c (started i (withGranularity true s)) = withGranularity true (wireCommand o a c (started i (withGranularity false s))) := by
  unfold wireCommand
  rw [show latchWire o a c (started i (withGranularity true s)) = withGranularity true (latchWire o a c (started i (withGranularity false s))) from rfl,
    granularity_pair sendLatched_on]
  rfl

theorem agrees_wire (o : U6) (a : U32) (c : U7) (i : Instr) (s : State) (hb : s.busy = false)
    (he : ∀ u, exec i u = startOp i (issueWire o a c) (wireCommand o a c) u) (hf : flowOf i = .command true) : StepwiseAgrees i s := by
  refine agrees hb he ?_ rfl (wire_granularity o a c i s)
  exact reaches_plain true (latchWire o a c (started i (withGranularity true s))) rfl hf

theorem reaches_ifCond (s : State) (hf : s.framei = 0) (h : flow s = .ifCond) :
    Reaches (atPhase .frame s)
      (let c := sendLatched s
       let t := if r1ExactlyIdle c.1 then drainTail Config.r7TailLen (startLoop c.2) else c.2
       deliverValue (.byte c.1) (deselect t)) := by
  have hfl : flow (atPhase .frame s) = .ifCond := h
  have c := reaches_command (atPhase .frame s) rfl hf (by rw [hfl]; simp)
  rw [sendLatched_atPhase] at c
  have ov := overlay_keep_pair sendLatched_on s
  have hr : (sendLatched s).2.r1 = (sendLatched s).1 := rfl
  have fl : flow (atPhase .respPoll (sendLatched s).2) = .ifCond := (flow_overlay (s := s) (t := (sendLatched s).2) ov).trans h
  have c2 : Reaches (atPhase .frame s) (afterResponse (sendLatched s).1 (atPhase .respPoll (sendLatched s).2)) := c
  unfold afterResponse at c2
  rw [fl] at c2
  generalize sendLatched s = q at c2 ov fl hr ⊢
  dsimp only at c2 ⊢
  by_cases hi : r1ExactlyIdle q.1 = true
  · rw [if_pos hi] at c2
    rw [if_pos hi]
    have d := reaches_drain { startLoop (atPhase .respPoll q.2) with phase := .r7Drain } rfl rfl
    have e : drainTail Config.r7TailLen { startLoop (atPhase .respPoll q.2) with phase := .r7Drain } = atPhase .r7Drain (drainTail Config.r7TailLen (startLoop q.2)) :=
      atPhase_comm (f := drainTail Config.r7TailLen) (fun lay s => drainTail_on lay _ s) .r7Drain (startLoop q.2)
    have ov2 := overlay_keep (f := drainTail Config.r7TailLen) (fun lay s => drainTail_on lay _ s) (startLoop q.2)
    have r1 : (drainTail Config.r7TailLen (startLoop q.2)).r1 = q.1 := by
      obtain ⟨got, -, -, w⟩ := drainTail_spec Config.r7TailLen (startLoop q.2)
      exact ((congrArg State.r1 w).trans rfl).trans hr
    rw [e] at d
    generalize drainTail Config.r7TailLen (startLoop q.2) = y at d ov2 r1 ⊢
    have fl2 : flow (atPhase .r7Drain y) = .ifCond := (flow_overlay (s := startLoop q.2) (t := y) ov2).trans fl
    unfold afterDrain at d
    rw [fl2] at d
    dsimp only at d
    rw [show (atPhase .r7Drain y).r1 = q.1 from r1] at d
    exact c2.trans d
  · rw [if_neg hi] at c2
    rw [if_neg hi]
    exact c2

/-- A sector operation of one sector. -/
theorem reaches_oneRead (s : State) (hf : s.framei = 0) (h : flow s = .sector false) : Reaches (atPhase .frame s) (readLatched s).2 := by
  have e : readLatched (atPhase .frame s) = readLatched s := by rw [atPhase_on]; exact ended_overlay readLatched_on rfl rfl
  obtain ⟨v, r, w⟩ := reaches_read (atPhase .frame s) rfl hf (.inl h)
  rw [e] at r w
  by_cases ok : (readLatched s).1 = .ok
  · rw [if_pos ok] at r
    have f : flow v = .sector false := by unfold flow; rw [(w ok).running]; exact h
    unfold endSector at r
    rw [f] at r
    rw [(w ok).ended]
    exact r
  · rw [if_neg ok] at r; exact r

theorem reaches_oneWrite (s : State) (hf : s.framei = 0) (h : flow s = .sector true) : Reaches (atPhase .frame s) (writeLatched s).2 := by
  have e : writeLatched (atPhase .frame s) = writeLatched s := by rw [atPhase_on]; exact ended_overlay writeLatched_on rfl rfl
  obtain ⟨v, r, w⟩ := reaches_write (atPhase .frame s) rfl hf (.inl h)
  rw [e] at r w
  by_cases ok : (writeLatched s).1 = .ok
  · rw [if_pos ok] at r
    have f : flow v = .sector true := by unfold flow; rw [(w ok).running]; exact h
    unfold endSector at r
    rw [f] at r
    rw [(w ok).ended]
    exact r
  · rw [if_neg ok] at r; exact r

/-- The next sector's start. -/
def sectorStart (w : Bool) (x : U32) (b k : Nat) (s : State) : State := issueSector w (sectorAt x k) (bufferAt b k) (atSector k s)

theorem ready_of_run {u v : State} {q : Result × State} (w : SectorEnd u v q) (h : q.2.ready = true) : v.ready = true := by
  rw [w.ended] at h; exact h

theorem readLatched_ready (s : State) (hs : s.sel = true) (hf : s.framei = 0) : (readLatched s).2.ready = s.ready := by
  obtain ⟨_, _, _, _, h⟩ := readLatched_spec s hs hf
  exact (congrArg (fun q => q.2.ready) h).trans rfl

theorem writeLatched_ready (s : State) (hs : s.sel = true) (hf : s.framei = 0) : (writeLatched s).2.ready = s.ready := by
  obtain ⟨_, _, _, _, h⟩ := writeLatched_spec s hs hf
  exact (congrArg (fun q => q.2.ready) h).trans rfl

/-- The state a whole run hands to its next sector, seen from the stepwise run. -/
theorem readSectors_resume (x : U32) (b n k : Nat) (v : State) :
    readSectors x b (n + 1) k (deliverOk .nothing v).2 = readSectors x b (n + 1) k v := by
  unfold readSectors
  have : readSector (sectorAt x k) (bufferAt b k) (atSector k (deliverOk .nothing v).2) = readSector (sectorAt x k) (bufferAt b k) (atSector k v) :=
    ended_overlay (f := readSector (sectorAt x k) (bufferAt b k)) (fun lay s => readSector_on lay _ _ s)
      (lay := ⟨v.cfg.stepwise, false, none, BitVec.ofNat 32 k, k, .idle, .ok, .nothing⟩) (s := (atSector k v)) rfl rfl
  rw [this]

theorem writeSectors_resume (x : U32) (b n k : Nat) (v : State) :
    writeSectors x b (n + 1) k (deliverOk .nothing v).2 = writeSectors x b (n + 1) k v := by
  unfold writeSectors
  have : writeSector (sectorAt x k) (bufferAt b k) (atSector k (deliverOk .nothing v).2) = writeSector (sectorAt x k) (bufferAt b k) (atSector k v) :=
    ended_overlay (f := writeSector (sectorAt x k) (bufferAt b k)) (fun lay s => writeSector_on lay _ _ s)
      (lay := ⟨v.cfg.stepwise, false, none, BitVec.ofNat 32 k, k, .idle, .ok, .nothing⟩) (s := (atSector k v)) rfl rfl
  rw [this]

theorem reaches_readSectors (x : U32) (count b n k : Nat) (s : State) (hk : k + (n + 1) = count) (hr : s.ready = true)
    (h : flow s = .sectors false x count b) : Reaches (sectorStart false x b k s) (readSectors x b (n + 1) k s).2 := by
  induction n generalizing k s with
  | zero =>
    let y := latchCommand Config.opReadSingleBlock (sectorAt x k) (select (attachBuffer (bufferAt b k) (atSector k s)))
    have e : readLatched (atPhase .frame y) = readLatched y := by rw [atPhase_on]; exact ended_overlay readLatched_on rfl rfl
    have rs : readSector (sectorAt x k) (bufferAt b k) (atSector k s) = readLatched y := by unfold readSector; rw [if_pos (by exact hr)]
    obtain ⟨v, r, w⟩ := reaches_read (atPhase .frame y) rfl rfl (.inr ⟨x, count, b, h⟩)
    rw [e] at r w
    unfold readSectors
    rw [rs]
    dsimp only
    by_cases ok : (readLatched y).1 = .ok
    · rw [if_pos ok] at r ⊢
      have f : flow v = .sectors false x count b := by unfold flow; rw [(w ok).running]; exact h
      have si : v.sectno = k := congrArg Prod.snd (w ok).sectors
      unfold endSector at r
      rw [f] at r
      dsimp only at r
      rw [if_neg (by omega)] at r
      rw [(w ok).ended]
      exact r
    · rw [if_neg ok] at r ⊢; exact r
  | succ n ih =>
    let y := latchCommand Config.opReadSingleBlock (sectorAt x k) (select (attachBuffer (bufferAt b k) (atSector k s)))
    have e : readLatched (atPhase .frame y) = readLatched y := by rw [atPhase_on]; exact ended_overlay readLatched_on rfl rfl
    have rs : readSector (sectorAt x k) (bufferAt b k) (atSector k s) = readLatched y := by unfold readSector; rw [if_pos (by exact hr)]
    obtain ⟨v, r, w⟩ := reaches_read (atPhase .frame y) rfl rfl (.inr ⟨x, count, b, h⟩)
    rw [e] at r w
    rw [readSectors, rs]
    by_cases ok : (readLatched y).1 = .ok
    · rw [if_pos ok] at r ⊢
      have f : flow v = .sectors false x count b := by unfold flow; rw [(w ok).running]; exact h
      have si : v.sectno = k := congrArg Prod.snd (w ok).sectors
      unfold endSector at r
      rw [f] at r
      dsimp only at r
      rw [if_pos (by omega), si] at r
      rw [(w ok).ended, readSectors_resume]
      refine r.trans (ih (k + 1) v (by omega) ?_ f)
      exact ready_of_run (w ok) ((readLatched_ready y rfl rfl).trans hr)
    · rw [if_neg ok] at r ⊢; exact r

theorem reaches_writeSectors (x : U32) (count b n k : Nat) (s : State) (hk : k + (n + 1) = count) (hr : s.ready = true)
    (h : flow s = .sectors true x count b) : Reaches (sectorStart true x b k s) (writeSectors x b (n + 1) k s).2 := by
  induction n generalizing k s with
  | zero =>
    let y := latchCommand Config.opWriteBlock (sectorAt x k) (select (attachBuffer (bufferAt b k) (atSector k s)))
    have e : writeLatched (atPhase .frame y) = writeLatched y := by rw [atPhase_on]; exact ended_overlay writeLatched_on rfl rfl
    have rs : writeSector (sectorAt x k) (bufferAt b k) (atSector k s) = writeLatched y := by unfold writeSector; rw [if_pos (by exact hr)]
    obtain ⟨v, r, w⟩ := reaches_write (atPhase .frame y) rfl rfl (.inr ⟨x, count, b, h⟩)
    rw [e] at r w
    unfold writeSectors
    rw [rs]
    dsimp only
    by_cases ok : (writeLatched y).1 = .ok
    · rw [if_pos ok] at r ⊢
      have f : flow v = .sectors true x count b := by unfold flow; rw [(w ok).running]; exact h
      have si : v.sectno = k := congrArg Prod.snd (w ok).sectors
      unfold endSector at r
      rw [f] at r
      dsimp only at r
      rw [if_neg (by omega)] at r
      rw [(w ok).ended]
      exact r
    · rw [if_neg ok] at r ⊢; exact r
  | succ n ih =>
    let y := latchCommand Config.opWriteBlock (sectorAt x k) (select (attachBuffer (bufferAt b k) (atSector k s)))
    have e : writeLatched (atPhase .frame y) = writeLatched y := by rw [atPhase_on]; exact ended_overlay writeLatched_on rfl rfl
    have rs : writeSector (sectorAt x k) (bufferAt b k) (atSector k s) = writeLatched y := by unfold writeSector; rw [if_pos (by exact hr)]
    obtain ⟨v, r, w⟩ := reaches_write (atPhase .frame y) rfl rfl (.inr ⟨x, count, b, h⟩)
    rw [e] at r w
    rw [writeSectors, rs]
    by_cases ok : (writeLatched y).1 = .ok
    · rw [if_pos ok] at r ⊢
      have f : flow v = .sectors true x count b := by unfold flow; rw [(w ok).running]; exact h
      have si : v.sectno = k := congrArg Prod.snd (w ok).sectors
      unfold endSector at r
      rw [f] at r
      dsimp only at r
      rw [if_pos (by omega), si] at r
      rw [(w ok).ended, writeSectors_resume]
      refine r.trans (ih (k + 1) v (by omega) ?_ f)
      exact ready_of_run (w ok) ((writeLatched_ready y rfl rfl).trans hr)
    · rw [if_neg ok] at r ⊢; exact r

theorem ended_sectors_on {lay : Overlay} (x : U32) (b n k : Nat) (s : State) (g : lay.stepwise = s.cfg.stepwise) :
    readSectors x b (n + 1) k (lay.on s) = readSectors x b (n + 1) k s := by
  unfold readSectors
  have : readSector (sectorAt x k) (bufferAt b k) (atSector k (lay.on s)) = readSector (sectorAt x k) (bufferAt b k) (atSector k s) :=
    ended_overlay (f := readSector (sectorAt x k) (bufferAt b k)) (fun lay s => readSector_on lay _ _ s)
      (lay := { lay with sectidx := BitVec.ofNat 32 k, sectno := k }) (s := (atSector k s)) g rfl
  rw [this]

/-- Sectors one by one under another granularity. -/
theorem readSectors_granularity (g : Bool) (x : U32) (b n k : Nat) (s : State) :
    readSectors x b n k (withGranularity g s) = ((readSectors x b n k s).1, withGranularity g (readSectors x b n k s).2) := by
  induction n generalizing k s with
  | zero => rfl
  | succ n ih =>
    unfold readSectors
    have := granularity_ended (f := readSector (sectorAt x k) (bufferAt b k)) (fun lay s => readSector_on lay _ _ s) g (atSector k s)
    have h : readSector (sectorAt x k) (bufferAt b k) (atSector k (withGranularity g s)) =
        ((readSector (sectorAt x k) (bufferAt b k) (atSector k s)).1, withGranularity g (readSector (sectorAt x k) (bufferAt b k) (atSector k s)).2) :=
      Prod.ext this.1 this.2
    rw [h]
    generalize readSector (sectorAt x k) (bufferAt b k) (atSector k s) = q
    dsimp only
    by_cases ok : q.1 = .ok
    · rw [if_pos ok, if_pos ok]; exact ih _ _
    · rw [if_neg ok, if_neg ok]

theorem writeSectors_granularity (g : Bool) (x : U32) (b n k : Nat) (s : State) :
    writeSectors x b n k (withGranularity g s) = ((writeSectors x b n k s).1, withGranularity g (writeSectors x b n k s).2) := by
  induction n generalizing k s with
  | zero => rfl
  | succ n ih =>
    unfold writeSectors
    have := granularity_ended (f := writeSector (sectorAt x k) (bufferAt b k)) (fun lay s => writeSector_on lay _ _ s) g (atSector k s)
    have h : writeSector (sectorAt x k) (bufferAt b k) (atSector k (withGranularity g s)) =
        ((writeSector (sectorAt x k) (bufferAt b k) (atSector k s)).1, withGranularity g (writeSector (sectorAt x k) (bufferAt b k) (atSector k s)).2) :=
      Prod.ext this.1 this.2
    rw [h]
    generalize writeSector (sectorAt x k) (bufferAt b k) (atSector k s) = q
    dsimp only
    by_cases ok : q.1 = .ok
    · rw [if_pos ok, if_pos ok]; exact ih _ _
    · rw [if_neg ok, if_neg ok]

/-- How the sequence reports its result: `INIT` as it is, `initialize` a failure as `NotReady` (R283). -/
def report (viaAdapter : Bool) (q : Result × State) : State :=
  if viaAdapter then (if q.1 = .ok then (deliverOk .nothing q.2).2 else (raiseError false .notReady q.2).2) else q.2

theorem report_fail (v : Bool) (st : InitStep) (r : Byte) (s : State) : report v (raiseError false (.initFailure st r) s) = failInit v st r s := by
  cases v <;> rfl

theorem report_ok (v : Bool) (s : State) : report v (deliverOk .nothing s) = (deliverOk .nothing s).2 := by cases v <;> rfl

theorem issue_atPhase (o : U6) (a : U32) (s : State) : issue o a s = atPhase .frame (latchCommand o a (select s)) := rfl

/-- A command of the sequence, from its frame to the move of `fsm` on its response (R211). -/
theorem reaches_sequence (v : Bool) (o : U6) (a : U32) (s : State) (h : flow s = .sequence v) :
    Reaches (issue o a s) (afterInitResponse v (sendCommand o a (select s)).1 (atPhase .respPoll (sendCommand o a (select s)).2)) ∧
      (sendCommand o a (select s)).2.overlay = s.overlay ∧ (sendCommand o a (select s)).2.fsm = s.fsm ∧
      (sendCommand o a (select s)).2.appcmd = s.appcmd ∧ (sendCommand o a (select s)).2.retrycnt = s.retrycnt ∧
      (sendCommand o a (select s)).2.r1 = (sendCommand o a (select s)).1 := by
  obtain ⟨heard, got, r, -, -, w⟩ := sendCommand_spec o a (select s)
  have w2 := congrArg Prod.snd w
  dsimp only at w2
  have ov : (sendCommand o a (select s)).2.overlay = s.overlay := (overlay_keep_pair sendLatched_on (latchCommand o a (select s))).trans rfl
  refine ⟨?_, ov, (congrArg State.fsm w2).trans rfl, (congrArg State.appcmd w2).trans rfl, (congrArg State.retrycnt w2).trans rfl, rfl⟩
  have hfl : flow (issue o a s) = .sequence v := h
  have c := reaches_command (issue o a s) rfl rfl (by rw [hfl]; simp)
  rw [issue_atPhase, sendLatched_atPhase] at c
  have fl : flow (atPhase .respPoll (sendCommand o a (select s)).2) = .sequence v := (flow_overlay (s := s) (t := (sendCommand o a (select s)).2) ov).trans h
  have c2 : Reaches (issue o a s) (afterResponse (sendCommand o a (select s)).1 (atPhase .respPoll (sendCommand o a (select s)).2)) := c
  unfold afterResponse at c2
  rw [fl] at c2
  exact c2

theorem reaches_blockLength (v : Bool) (s : State) (h : flow s = .sequence v) : Reaches (enterSetBlockLength s) (report v (initFromBlockLength s)) := by
  obtain ⟨c, -, f, -, -, -⟩ := reaches_sequence v Config.opSetBlocklen Config.argBlocklen { s with fsm := .setBlockLength } h
  refine Reaches.trans (u := enterSetBlockLength s) c ?_
  unfold initFromBlockLength initBlockLength bracketCommand
  generalize sendCommand Config.opSetBlocklen Config.argBlocklen (select { s with fsm := .setBlockLength }) = q at f ⊢
  unfold afterInitResponse
  have f2 : (atPhase .respPoll q.2).fsm = .setBlockLength := f
  rw [f2]
  dsimp only
  by_cases hr : r1AllClear q.1 = true
  · rw [if_pos hr, if_pos hr, report_ok]; exact .refl _
  · rw [if_neg hr, if_neg hr, report_fail]
    have : ∀ r, failInit v .setBlockLength r (deselect (atPhase .respPoll q.2)) = failInit v .setBlockLength r (deselect q.2) := by intro r; cases v <;> rfl
    rw [this]; exact .refl _

/-- What follows the ACMD41 loop (R206). -/
def afterAttempts (a : (Bool × Byte) × State) : Result × State :=
  if a.1.1 then initFromBlockLength a.2 else raiseError false (.initFailure .applicationInit a.1.2) a.2

theorem reaches_attempt (v : Bool) (s : State) (h : flow s = .sequence v) (hf : s.fsm = .applicationInit) :
    Reaches (startAttempt s) (afterAttempt v (initAttempt s).1 (atPhase .respPoll (initAttempt s).2)) ∧
      (initAttempt s).2.overlay = s.overlay ∧ (initAttempt s).2.fsm = .applicationInit ∧ (initAttempt s).2.retrycnt = s.retrycnt + 1 := by
  obtain ⟨c, o, f, p, n, -⟩ := reaches_sequence v Config.opAppCmd Config.argZero (nextAttempt s) h
  unfold initAttempt bracketCommand
  generalize sendCommand Config.opAppCmd Config.argZero (select (nextAttempt s)) = q at *
  have fq : (atPhase .respPoll q.2).fsm = .applicationInit := f.trans hf
  have pq : (atPhase .respPoll q.2).appcmd = true := p
  unfold afterInitResponse at c
  rw [fq] at c
  dsimp only at c
  rw [if_pos pq] at c
  have flq : flow (noteAppCmd false (deselect q.2)) = .sequence v := (flow_overlay (s := s) (t := q.2) o).trans h
  obtain ⟨c2, o2, f2, p2, n2, -⟩ := reaches_sequence v Config.opSendOpCond Config.argOpCond (noteAppCmd false (deselect q.2)) flq
  dsimp only
  generalize sendCommand Config.opSendOpCond Config.argOpCond (select (noteAppCmd false (deselect q.2))) = q2 at *
  have fq2 : (atPhase .respPoll q2.2).fsm = .applicationInit := f2.trans fq
  have pq2 : ¬ (atPhase .respPoll q2.2).appcmd = true := by rw [show (atPhase .respPoll q2.2).appcmd = false from p2]; decide
  unfold afterInitResponse at c2
  rw [fq2] at c2
  dsimp only at c2
  rw [if_neg pq2] at c2
  refine ⟨Reaches.trans c (Reaches.trans (u := issue Config.opSendOpCond Config.argOpCond (noteAppCmd false (deselect (atPhase .respPoll q.2)))) c2 (.refl _)), o2.trans o, fq2, n2.trans n⟩

theorem reaches_attempts (v : Bool) (n : Nat) (x : Byte) (s : State) (h : flow s = .sequence v) (hf : s.fsm = .applicationInit)
    (hn : s.retrycnt + (n + 1) = Config.acmd41Bound) :
    Reaches (startAttempt s) (report v (afterAttempts (initAttempts (n + 1) x s))) := by
  induction n generalizing x s with
  | zero =>
    obtain ⟨c, o, f, k⟩ := reaches_attempt v s h hf
    refine c.trans ?_
    unfold initAttempts
    generalize initAttempt s = a at o f k ⊢
    unfold afterAttempt
    dsimp only
    by_cases hi : r1IdleFlag a.1 = true
    · rw [if_pos hi, if_pos hi]
      have : ¬ (sleep (atPhase .respPoll a.2)).retrycnt < Config.acmd41Bound := by
        have : (sleep (atPhase .respPoll a.2)).retrycnt = s.retrycnt + 1 := k
        omega
      rw [if_neg this]
      unfold initAttempts afterAttempts
      dsimp only
      rw [if_neg (by simp), report_fail]
      have e : failInit v .applicationInit a.1 (sleep (atPhase .respPoll a.2)) = failInit v .applicationInit a.1 (sleep a.2) := by cases v <;> rfl
      rw [e]; exact .refl _
    · rw [if_neg hi, if_neg hi]
      unfold afterAttempts
      rw [if_pos rfl]
      exact reaches_blockLength v a.2 ((flow_overlay (s := s) (t := a.2) o).trans h)
  | succ n ih =>
    obtain ⟨c, o, f, k⟩ := reaches_attempt v s h hf
    refine c.trans ?_
    rw [initAttempts]
    generalize initAttempt s = a at o f k ⊢
    unfold afterAttempt
    dsimp only
    by_cases hi : r1IdleFlag a.1 = true
    · rw [if_pos hi, if_pos hi]
      have : (sleep (atPhase .respPoll a.2)).retrycnt < Config.acmd41Bound := by
        have : (sleep (atPhase .respPoll a.2)).retrycnt = s.retrycnt + 1 := k
        omega
      rw [if_pos this]
      refine ih a.1 (sleep a.2) ((flow_overlay (s := s) (t := a.2) o).trans h) f ?_
      have : (sleep a.2).retrycnt = s.retrycnt + 1 := k
      omega
    · rw [if_neg hi, if_neg hi]
      unfold afterAttempts
      rw [if_pos rfl]
      exact reaches_blockLength v a.2 ((flow_overlay (s := s) (t := a.2) o).trans h)

theorem reaches_application (v : Bool) (s : State) (h : flow s = .sequence v) : Reaches (enterApplicationInit s) (report v (initFromApplication s)) := by
  have e : 999 + 1 = Config.acmd41Bound := rfl
  have r := reaches_attempts v 999 s.r1 { s with fsm := .applicationInit, retrycnt := 0 } h rfl ((Nat.zero_add _).trans e)
  rw [e] at r
  exact r

/-- What follows the bracket of opcode 8 (R204). -/
def afterIfCondWhole (c : Byte × State) : Result × State :=
  if c.2.cfg.ifcondTimeoutFatal && !isResponse c.1 then raiseError false (.initFailure .checkInterfaceCondition c.1) c.2
  else initFromApplication c.2

theorem reaches_afterIfCond (v : Bool) (r : Byte) (p : Phase) (s : State) (h : flow s = .sequence v) :
    Reaches (afterIfCond v r (atPhase p s)) (report v (afterIfCondWhole (r, deselect s))) := by
  unfold afterIfCond afterIfCondWhole
  dsimp only
  have e : (deselect (atPhase p s)).cfg = (deselect s).cfg := rfl
  rw [e]
  by_cases hh : ((deselect s).cfg.ifcondTimeoutFatal && !isResponse r) = true
  · rw [if_pos hh, if_pos hh, report_fail]
    have : failInit v .checkInterfaceCondition r (deselect (atPhase p s)) = failInit v .checkInterfaceCondition r (deselect s) := by cases v <;> rfl
    rw [this]; exact .refl _
  · rw [if_neg hh, if_neg hh]
    exact reaches_application v (deselect s) h

theorem reaches_checkIfCond (v : Bool) (s : State) (h : flow s = .sequence v) : Reaches (enterIfCond s) (report v (initFromIfCond s)) := by
  obtain ⟨c, o, f, -, -, r1⟩ := reaches_sequence v Config.opSendIfCond Config.argIfCond { s with fsm := .checkInterfaceCondition } h
  refine Reaches.trans (u := enterIfCond s) c ?_
  show Reaches _ (report v (afterIfCondWhole (initIfCond s)))
  unfold initIfCond
  generalize sendCommand Config.opSendIfCond Config.argIfCond (select { s with fsm := .checkInterfaceCondition }) = q at o f r1 ⊢
  unfold afterInitResponse
  have f2 : (atPhase .respPoll q.2).fsm = .checkInterfaceCondition := f
  rw [f2]
  dsimp only
  have flq : flow q.2 = .sequence v := (flow_overlay (s := s) (t := q.2) o).trans h
  by_cases hi : r1ExactlyIdle q.1 = true
  · rw [if_pos hi, if_pos hi]
    have d := reaches_drain { startLoop (atPhase .respPoll q.2) with phase := .r7Drain } rfl rfl
    have e : drainTail Config.r7TailLen { startLoop (atPhase .respPoll q.2) with phase := .r7Drain } = atPhase .r7Drain (drainTail Config.r7TailLen (startLoop q.2)) :=
      atPhase_comm (f := drainTail Config.r7TailLen) (fun lay s => drainTail_on lay _ s) .r7Drain (startLoop q.2)
    have ov2 := overlay_keep (f := drainTail Config.r7TailLen) (fun lay s => drainTail_on lay _ s) (startLoop q.2)
    have r2 : (drainTail Config.r7TailLen (startLoop q.2)).r1 = q.1 := by
      obtain ⟨got, -, -, w⟩ := drainTail_spec Config.r7TailLen (startLoop q.2)
      exact ((congrArg State.r1 w).trans rfl).trans r1
    rw [e] at d
    generalize drainTail Config.r7TailLen (startLoop q.2) = y at d ov2 r2 ⊢
    have fl2 : flow (atPhase .r7Drain y) = .sequence v := (flow_overlay (s := startLoop q.2) (t := y) ov2).trans flq
    unfold afterDrain at d
    rw [fl2] at d
    dsimp only at d
    rw [show (atPhase .r7Drain y).r1 = q.1 from r2] at d
    exact d.trans (reaches_afterIfCond v q.1 .r7Drain y fl2)
  · rw [if_neg hi, if_neg hi]
    exact reaches_afterIfCond v q.1 .respPoll q.2 flq

theorem reaches_init (v : Bool) (s : State) (h : flow s = .sequence v) (hc : s.cfg.resetIdleBytes ≠ 0) :
    Reaches (enterBusReset s) (report v (initCard s)) := by
  have b := reaches_busReset (enterBusReset s) rfl rfl hc
  have e : clockFill (enterBusReset s).cfg.resetIdleBytes (enterBusReset s) = atPhase .resetIdle (initBusReset s) :=
    atPhase_comm (f := clockFill s.cfg.resetIdleBytes) (fun lay s => clockFill_on lay _ s) .resetIdle (startLoop (enterInit s))
  rw [e] at b
  refine b.trans ?_
  have ov : (initBusReset s).overlay = s.overlay :=
    overlay_keep (f := clockFill s.cfg.resetIdleBytes) (fun lay s => clockFill_on lay _ s) (startLoop (enterInit s))
  unfold initCard
  generalize initBusReset s = t at ov ⊢
  have flt : flow t = .sequence v := (flow_overlay ov).trans h
  obtain ⟨c, o, f, -, -, -⟩ := reaches_sequence v Config.opGoIdle Config.argZero { t with fsm := .goIdle } flt
  refine Reaches.trans (u := enterGoIdle (atPhase .resetIdle t)) c ?_
  unfold initGoIdle bracketCommand
  generalize sendCommand Config.opGoIdle Config.argZero (select { t with fsm := .goIdle }) = q at o f ⊢
  unfold afterInitResponse
  have f2 : (atPhase .respPoll q.2).fsm = .goIdle := f
  rw [f2]
  dsimp only
  by_cases hi : r1ExactlyIdle q.1 = true
  · rw [if_pos hi, if_pos hi]
    exact reaches_checkIfCond v (deselect q.2) ((flow_overlay (s := t) (t := q.2) o).trans flt)
  · rw [if_neg hi, if_neg hi, report_fail]
    have : failInit v .goIdle q.1 (deselect (atPhase .respPoll q.2)) = failInit v .goIdle q.1 (deselect q.2) := by cases v <;> rfl
    rw [this]; exact .refl _

end Sys2Proof.Machine
end

