-- ==== Sys2Proof/Tests/Slice0.lean ====
section
/-!
SUPPORT. Tests of the model on fixed values, and a witness for every statement that has hypotheses. Expected results are those
of spec/95_test_vectors.md, named by vector, or of the encodings of spec/30_encoding.md written out by hand; a test of a
convention of the model names its log entry.
-/

namespace Sys2Proof.Tests

open Sys2Proof Sys2Proof.Machine

/-! Helpers. -/

/-- `n` bytes of 0xFF. -/
def ones (n : Nat) : List Byte := List.replicate n 0xFF#8

/-- What a silent card answers while a frame is sent. -/
def six : List Byte := ones 6

/-- The state after reset with a card that will answer `card`. -/
def fresh (card : List Byte) : State := { State.reset with card := card }

/-- A ready Session with a card that will answer `card`. -/
def ready (card : List Byte) : State :=
  { State.reset with ready := true, fsm := .ready, sectorCount := State.reset.cfg.sectorCountFixed, card := card }

/-- The operation `i` in flight in the phase `p`, selected. -/
def inFlight (i : Instr) (p : Phase) (card : List Byte) : State :=
  { ready card with busy := true, running := some i, phase := p, sel := true }

/-- Whether `i` runs at `s` to a state that passes the test. -/
def runs (i : Instr) (s : State) (check : State → Bool) : Bool :=
  match exec i s with
  | .next t => check t
  | .fault _ => false
  | .refused _ => false

theorem of_runs {i : Instr} {s : State} {check : State → Bool} (h : runs i s check = true) :
    ∃ t, exec i s = .next t ∧ check t = true := by
  unfold runs at h
  split at h
  case h_1 t e => exact ⟨t, e, h⟩
  case h_2 => exact absurd h (by simp)
  case h_3 => exact absurd h (by simp)

/-- The refusal of `i` at `s`, if it is one. -/
def refusal (i : Instr) (s : State) : Option Refusal :=
  match exec i s with
  | .refused r => some r
  | .next _ => none
  | .fault _ => none

/-- The bytes sent in the events. -/
def sent (evs : List Event) : List Byte :=
  evs.filterMap (fun e => match e with | .xfer _ out _ => some out | .sel | .desel | .slept => none)

/-! Well-formedness: each check refuses a term. -/

theorem test_wf_refuses_named_opcode : (Instr.cmdFrame 17#6 0#32 0#7).wf = false := by decide
theorem test_wf_refuses_named_response : (Instr.drespOther 7#3 0b01011#5).wf = false := by decide
theorem test_wf_refuses_wide_bound : (Instr.poll (2 ^ 32) ⟨0#256⟩ 0#8).wf = false := by decide
theorem test_wf_refuses_wide_read_buffer : (Instr.readSector 0#32 (2 ^ 32)).wf = false := by decide
theorem test_wf_refuses_wide_write_buffer : (Instr.writeSector 0#32 (2 ^ 32)).wf = false := by decide
theorem test_wf_refuses_wide_drive :
    (Instr.status (2 ^ 32)).wf = false ∧ (Instr.initializeDrive (2 ^ 32)).wf = false ∧
      (Instr.ioctlSync (2 ^ 32)).wf = false ∧ (Instr.ioctlGetSectorCount (2 ^ 32)).wf = false ∧
      (Instr.ioctlGetSectorSize (2 ^ 32)).wf = false ∧ (Instr.ioctlGetBlockSize (2 ^ 32)).wf = false := by decide
theorem test_wf_refuses_wide_request :
    (Instr.read (2 ^ 32) 0#32 0 0).wf = false ∧ (Instr.read 0 0#32 (2 ^ 32) 0).wf = false ∧
      (Instr.read 0 0#32 0 (2 ^ 32)).wf = false ∧ (Instr.write (2 ^ 32) 0#32 0 0).wf = false ∧
      (Instr.write 0 0#32 (2 ^ 32) 0).wf = false ∧ (Instr.write 0 0#32 0 (2 ^ 32)).wf = false := by decide
theorem test_wf_refuses_wide_exporter_operand :
    (Instr.read10 0#32 (2 ^ 32) 0 0).wf = false ∧ (Instr.read10 0#32 0 (2 ^ 32) 0).wf = false ∧
      (Instr.read10 0#32 0 0 (2 ^ 32)).wf = false ∧ (Instr.write10 0#32 (2 ^ 32) 0 0).wf = false ∧
      (Instr.write10 0#32 0 (2 ^ 32) 0).wf = false ∧ (Instr.write10 0#32 0 0 (2 ^ 32)).wf = false := by decide
theorem test_wf_refuses_known_ioctl :
    (Instr.ioctlUnknown 0 3).wf = false ∧ (Instr.ioctlUnknown (2 ^ 32) 4).wf = false ∧
      (Instr.ioctlUnknown 0 (2 ^ 32)).wf = false := by decide

/-! Decoding. FRAME48: the frames of 95_test_vectors.md section 2.2. -/

theorem test_decode_cmdFrame : decode [0x7F#8, 0xFF#8, 0xFF#8, 0xFF#8, 0xFF#8, 0x19#8] =
    .ok (.cmdFrame 63#6 0xFFFFFFFF#32 0x0C#7, []) := by decide
theorem test_decode_cmd0 : decode [0x40#8, 0x00#8, 0x00#8, 0x00#8, 0x00#8, 0x95#8] = .ok (.cmd0 0#32 0x4A#7, []) := by decide
theorem test_decode_cmd8 : decode [0x48#8, 0x00#8, 0x00#8, 0x01#8, 0xAA#8, 0x87#8] = .ok (.cmd8 0x000001AA#32 0x43#7, []) := by
  decide
theorem test_decode_cmd16 : decode [0x50#8, 0x00#8, 0x00#8, 0x02#8, 0x00#8, 0x15#8] = .ok (.cmd16 512#32 0x0A#7, []) := by decide
theorem test_decode_cmd17 : decode [0x51#8, 0x12#8, 0x34#8, 0x56#8, 0x78#8, 0x5D#8] =
    .ok (.cmd17 0x12345678#32 0x2E#7, []) := by decide
theorem test_decode_cmd24 : decode [0x58#8, 0x00#8, 0x00#8, 0x00#8, 0x01#8, 0x7D#8, 0xAB#8] =
    .ok (.cmd24 1#32 0x3E#7, [0xAB#8]) := by decide
theorem test_decode_acmd41 : decode [0x69#8, 0x40#8, 0x00#8, 0x00#8, 0x00#8, 0x77#8] =
    .ok (.acmd41 0x40000000#32 0x3B#7, []) := by decide
theorem test_decode_cmd55 : decode [0x77#8, 0x00#8, 0x00#8, 0x00#8, 0x00#8, 0x65#8] = .ok (.cmd55 0#32 0x32#7, []) := by decide
/-- R91: the end bit is 1. -/
theorem test_decode_end_bit : decode [0x40#8, 0#8, 0#8, 0#8, 0#8, 0x94#8] = .error .endBitClear := by decide
theorem test_decode_short_frame : decode [0x40#8, 0#8, 0#8, 0#8, 0#8] = .error .truncated := by decide

/-! BYTE rows, behind their tags (R96 to R102; log 2). -/

theorem test_decode_dataStartToken : decode [0x20#8, 0xFE#8] = .ok (.dataStartToken, []) := by decide
theorem test_decode_r1Valid : decode [0x21#8, 0x45#8] = .ok (.r1Valid 0x45#7, []) := by decide
theorem test_decode_r1NotYet : decode [0x22#8, 0xC1#8] = .ok (.r1NotYet 0x41#7, []) := by decide
theorem test_decode_r1IdleExact : decode [0x23#8, 0x01#8] = .ok (.r1IdleExact, []) := by decide
theorem test_decode_r1ReadyExact : decode [0x24#8, 0x00#8] = .ok (.r1ReadyExact, []) := by decide
theorem test_decode_drespAccepted : decode [0x25#8, 0xA5#8] = .ok (.drespAccepted 0b101#3, []) := by decide
theorem test_decode_drespCrcError : decode [0x26#8, 0x0B#8] = .ok (.drespCrcError 0#3, []) := by decide
theorem test_decode_drespWriteError : decode [0x27#8, 0xED#8] = .ok (.drespWriteError 0b111#3, []) := by decide
theorem test_decode_drespOther : decode [0x28#8, 0x01#8] = .ok (.drespOther 0#3 0b00001#5, []) := by decide
theorem test_decode_busyByte : decode [0x29#8, 0x00#8] = .ok (.busyByte, []) := by decide
theorem test_decode_fillByte : decode [0x2A#8, 0xFF#8] = .ok (.fillByte, []) := by decide
theorem test_decode_pattern_mismatch : decode [0x28#8, 0xE5#8] = .error .patternMismatch := by decide

/-! HOSTOP rows: the selectors of R110, the operands of log 1. -/

theorem test_decode_exchange : decode [0x00#8, 0xA5#8] = .ok (.exchange 0xA5#8, []) := by decide
theorem test_decode_select : decode [0x01#8] = .ok (.select, []) := by decide
theorem test_decode_deselect : decode [0x02#8] = .ok (.deselect, []) := by decide
theorem test_decode_sendCommand : decode [0x03#8, 0x11#8, 0x12#8, 0x34#8, 0x56#8, 0x78#8] =
    .ok (.sendCommand 17#6 0x12345678#32, []) := by decide
theorem test_decode_poll : decode ([0x04#8, 0#8, 0#8, 0x03#8, 0xE8#8, 0xFF#8] ++ List.replicate 31 0#8 ++ [0x02#8]) =
    .ok (.poll 1000 ⟨2#256⟩ 0xFF#8, []) := by decide
theorem test_decode_init : decode [0x08#8] = .ok (.init, []) := by decide
theorem test_decode_readSector : decode [0x09#8, 0#8, 0#8, 0#8, 7#8, 0#8, 0#8, 2#8, 0#8] = .ok (.readSector 7#32 512, []) := by
  decide
theorem test_decode_writeSector : decode [0x0A#8, 0xFF#8, 0xFF#8, 0xFF#8, 0xFF#8, 0#8, 0#8, 0#8, 1#8] =
    .ok (.writeSector 0xFFFFFFFF#32 1, []) := by decide
theorem test_decode_status : decode [0x10#8, 0#8, 0#8, 0#8, 1#8] = .ok (.status 1, []) := by decide
theorem test_decode_initializeDrive : decode [0x11#8, 0#8, 0#8, 0#8, 0#8] = .ok (.initializeDrive 0, []) := by decide
theorem test_decode_read : decode [0x12#8, 0#8, 0#8, 0#8, 0#8, 0#8, 0#8, 0#8, 5#8, 0#8, 0#8, 0#8, 2#8, 0#8, 0#8, 0#8, 9#8] =
    .ok (.read 0 5#32 2 9, []) := by decide
theorem test_decode_write : decode [0x13#8, 0#8, 0#8, 0#8, 1#8, 0#8, 0#8, 0#8, 5#8, 0#8, 0#8, 0#8, 3#8, 0#8, 0#8, 0#8, 9#8] =
    .ok (.write 1 5#32 3 9, []) := by decide
theorem test_decode_testUnitReady : decode [0x18#8] = .ok (.testUnitReady, []) := by decide
theorem test_decode_capacity : decode [0x19#8] = .ok (.capacity, []) := by decide
theorem test_decode_read10 : decode [0x1A#8, 0#8, 0#8, 0#8, 4#8, 0#8, 0#8, 4#8, 0#8, 0#8, 0#8, 0#8, 9#8, 0#8, 0#8, 4#8, 0#8] =
    .ok (.read10 4#32 1024 9 1024, []) := by decide
theorem test_decode_write10 : decode [0x1B#8, 0#8, 0#8, 0#8, 4#8, 0#8, 0#8, 0#8, 0#8, 0#8, 0#8, 0#8, 9#8, 0#8, 0#8, 2#8, 0#8] =
    .ok (.write10 4#32 0 9 512, []) := by decide
theorem test_decode_ioctlSync : decode [0x14#8, 0#8, 0#8, 0#8, 2#8, 0#8, 0#8, 0#8, 0#8] = .ok (.ioctlSync 2, []) := by decide +kernel
theorem test_decode_ioctlGetSectorCount : decode [0x14#8, 0#8, 0#8, 0#8, 0#8, 0#8, 0#8, 0#8, 1#8] =
    .ok (.ioctlGetSectorCount 0, []) := by decide +kernel
theorem test_decode_ioctlGetSectorSize : decode [0x14#8, 0#8, 0#8, 0#8, 0#8, 0#8, 0#8, 0#8, 2#8] =
    .ok (.ioctlGetSectorSize 0, []) := by decide +kernel
theorem test_decode_ioctlGetBlockSize : decode [0x14#8, 0#8, 0#8, 0#8, 0#8, 0#8, 0#8, 0#8, 3#8] =
    .ok (.ioctlGetBlockSize 0, []) := by decide +kernel
theorem test_decode_ioctlUnknown : decode [0x14#8, 0#8, 0#8, 0#8, 0#8, 0#8, 0#8, 0#8, 7#8] = .ok (.ioctlUnknown 0 7, []) := by
  decide +kernel
/-- R104: a selector outside the table; R92: an opcode of 64. -/
theorem test_decode_unknown_selector : decode [0x05#8] = .error .unknownSelector ∧ decode [0x1C#8] = .error .unknownSelector ∧
    decode [0x03#8, 0x40#8, 0#8, 0#8, 0#8, 0#8] = .error .opcodeTooWide := by decide

/-! The transport: vectors T1 to T6 of section 2.1. -/

/-- T1. -/
theorem test_exchange_deselected : runs (.exchange 0xFF#8) (fresh [0x3C#8]) (fun t =>
    t.out == .byte 0x3C#8 && t.rxb == 0x3C#8 && t.txb == 0xFF#8 && t.xcount == 1 &&
      t.trace == [.xfer false 0xFF#8 0x3C#8]) = true := by decide
/-- T2. -/
theorem test_exchange_selected : runs (.exchange 0x00#8) { fresh [0x00#8] with sel := true, xcount := 5 } (fun t =>
    t.out == .byte 0x00#8 && t.xcount == 6 && t.trace == [.xfer true 0x00#8 0x00#8]) = true := by decide
/-- T3, T4. -/
theorem test_select : [false, true].map (fun b => runs .select { fresh [] with sel := b } (fun t =>
    t.sel && t.xcount == 0 && t.trace == [.sel])) = [true, true] := by decide
/-- T5, T6. -/
theorem test_deselect : [false, true].map (fun b => runs .deselect { fresh [] with sel := b } (fun t =>
    !t.sel && t.xcount == 0 && t.trace == [.desel])) = [true, true] := by decide

/-! POLL and SEND_COMMAND: section 2.3. -/

/-- PL3: `b == 0xFE`. -/
theorem test_poll_hit : runs (.poll 1000 ⟨1#256 <<< 254⟩ 0xFF#8) (fresh [0x00#8, 0x01#8, 0xFE#8]) (fun t =>
    t.out == .poll true 0xFE#8 3 && t.xcount == 3) = true := by decide +kernel
/-- PL4: `b != 0`, and the bound is spent. -/
theorem test_poll_bound : runs (.poll 1 ⟨~~~1#256⟩ 0xFF#8) (fresh [0x00#8, 0x80#8]) (fun t =>
    t.out == .poll false 0x00#8 1 && t.xcount == 1 && t.card == [0x80#8]) = true := by decide +kernel
/-- SC1. -/
theorem test_sendCommand_computed : runs (.sendCommand 0#6 0#32) { fresh (six ++ [0x01#8]) with sel := true } (fun t =>
    t.out == .byte 0x01#8 && t.sel && t.crc == 0x4A#7 &&
      t.trace == xfers true [0x40#8, 0#8, 0#8, 0#8, 0#8, 0x95#8, 0xFF#8] (six ++ [0x01#8])) = true := by decide +kernel
/-- SC4: no response; the eleventh byte is never fetched. -/
theorem test_sendCommand_silent : runs (.sendCommand 24#6 0xFFFFFFFF#32) (fresh (ones 16 ++ [0x00#8])) (fun t =>
    t.out == .byte 0xFF#8 && t.r1 == 0xFF#8 && t.xcount == 16 && t.card == [0x00#8]) = true := by decide +kernel

/-! The wire commands (log 11): the frames of section 2.2, each in its bracket. -/

theorem test_cmdFrame : runs (.cmdFrame 63#6 0xA5A5A5A5#32 0x7F#7) (fresh (six ++ [0x04#8])) (fun t =>
    t.out == .byte 0x04#8 && t.trace == .sel ::
      xfers true [0x7F#8, 0xA5#8, 0xA5#8, 0xA5#8, 0xA5#8, 0xFF#8, 0xFF#8] (six ++ [0x04#8]) ++ [.desel]) = true := by
  decide +kernel
theorem test_cmd0 : runs (.cmd0 0#32 0x4A#7) (fresh (six ++ [0x01#8])) (fun t =>
    t.out == .byte 0x01#8 && sent t.trace == [0x40#8, 0#8, 0#8, 0#8, 0#8, 0x95#8, 0xFF#8] && !t.sel) = true := by
  decide +kernel
/-- The drain of I4: `01`, then `00 00 01 AA`. -/
theorem test_cmd8_tail : runs (.cmd8 0x1AA#32 0x43#7) (fresh (six ++ [0x01#8, 0x00#8, 0x00#8, 0x01#8, 0xAA#8])) (fun t =>
    t.out == .byte 0x01#8 && t.r7tail == ⟨0x00#8, 0x00#8, 0x01#8, 0xAA#8⟩ && t.xcount == 11) = true := by decide +kernel
/-- P1's variant: `05` is no 0x01, so nothing is drained. -/
theorem test_cmd8_no_tail : runs (.cmd8 0x1AA#32 0x43#7) (fresh (six ++ [0x05#8])) (fun t =>
    t.out == .byte 0x05#8 && t.xcount == 7 && t.r7tail == State.reset.r7tail) = true := by decide +kernel
theorem test_cmd16 : runs (.cmd16 512#32 0x7F#7) (fresh (six ++ [0x00#8])) (fun t =>
    t.r1 == 0x00#8 && sent t.trace == [0x50#8, 0#8, 0#8, 0x02#8, 0#8, 0xFF#8, 0xFF#8]) = true := by decide +kernel
theorem test_acmd41 : runs (.acmd41 0x40000000#32 0x7F#7) (fresh (six ++ [0x00#8])) (fun t =>
    t.r1 == 0x00#8 && sent t.trace == [0x69#8, 0x40#8, 0#8, 0#8, 0#8, 0xFF#8, 0xFF#8]) = true := by decide +kernel
/-- SC3: the response in the tenth poll still counts. -/
theorem test_cmd55 : runs (.cmd55 0#32 0x7F#7) (fresh (six ++ ones 9 ++ [0x05#8])) (fun t =>
    t.out == .byte 0x05#8 && t.xcount == 16) = true := by decide +kernel
/-- R3, through the wire command. -/
theorem test_cmd17_rejected : runs (.cmd17 7#32 0x7F#7) (ready (six ++ [0x04#8])) (fun t =>
    t.res == .commandRejected 0x04#8 && t.trace == .sel ::
      xfers true [0x51#8, 0#8, 0#8, 0#8, 7#8, 0xFF#8, 0xFF#8] (six ++ [0x04#8]) ++ [.desel]) = true := by decide +kernel
/-- R1: 522 exchanges. -/
theorem test_cmd17_ok : runs (.cmd17 0#32 0x7F#7)
    (ready (six ++ [0x00#8, 0xFE#8] ++ List.replicate 512 0xA5#8 ++ [0x12#8, 0x34#8])) (fun t =>
    t.res == .ok && t.xcount == 522 && t.tok == 0xFE#8) = true := by decide +kernel
/-- W11. -/
theorem test_cmd24_rejected : runs (.cmd24 0xFFFFFFFF#32 0x7F#7) (ready (six ++ [0x40#8])) (fun t =>
    t.res == .commandRejected 0x40#8 && sent t.trace == [0x58#8, 0xFF#8, 0xFF#8, 0xFF#8, 0xFF#8, 0xFF#8, 0xFF#8]) = true := by
  decide +kernel
/-- W1: 526 exchanges. -/
theorem test_cmd24_ok : runs (.cmd24 1#32 0x7F#7)
    (ready (six ++ [0x00#8] ++ ones 515 ++ [0xE5#8, 0x00#8, 0x00#8, 0xFF#8])) (fun t =>
    t.res == .ok && t.xcount == 526 && t.dresp == 0xE5#8 && t.busyb == 0xFF#8) = true := by decide +kernel

/-! The byte rows (log 13), in the phase where the operation in flight looks for them. -/

/-- R242: the token opens the payload. -/
theorem test_dataStartToken_received : runs .dataStartToken (inFlight (.readSector 0#32 0) .tokenPoll []) (fun t =>
    t.phase == .rdPayload && t.tok == 0xFE#8 && t.byteidx == 0 && t.trace == [.xfer true 0xFF#8 0xFE#8]) = true := by decide
/-- R247: the block sends it. -/
theorem test_dataStartToken_sent : runs .dataStartToken (inFlight (.writeSector 0#32 0) .wrToken [0x77#8]) (fun t =>
    t.phase == .wrPayload && t.trace == [.xfer true 0xFE#8 0x77#8]) = true := by decide
/-- R253: a non-zero response rejects the command. -/
theorem test_r1Valid : runs (.r1Valid 0x04#7) (inFlight (.readSector 0#32 0) .respPoll []) (fun t =>
    t.res == .commandRejected 0x04#8 && !t.busy && !t.sel) = true := by decide
/-- R97: not yet. -/
theorem test_r1NotYet : runs (.r1NotYet 0x41#7) (inFlight (.cmd0 0#32 0#7) .respPoll []) (fun t =>
    t.busy && t.pollcnt == 1 && t.trace == [.xfer true 0xFF#8 0xC1#8]) = true := by decide
/-- R204: 0x01 to opcode 8 opens the drain. -/
theorem test_r1IdleExact : runs .r1IdleExact (inFlight (.cmd8 0x1AA#32 0x43#7) .respPoll []) (fun t =>
    t.phase == .r7Drain && t.r1 == 0x01#8) = true := by decide
/-- R246: 0x00 to opcode 24 lets the packet follow. -/
theorem test_r1ReadyExact : runs .r1ReadyExact (inFlight (.writeSector 0#32 0) .respPoll []) (fun t =>
    t.phase == .wrToken && t.r1 == 0x00#8) = true := by decide
/-- R206: within an attempt, 0x00 to `APP_CMD` is followed by opcode 41, and 0x00 to opcode 41 by opcode 16. -/
theorem test_r1ReadyExact_attempt : [true, false].map (fun b =>
    runs .r1ReadyExact { inFlight .init .respPoll [] with fsm := .applicationInit, appcmd := b } (fun t =>
      t.phase == .frame && t.frame.b0 == (if b then 0x69#8 else 0x50#8) && !t.appcmd && t.trace.length == 3)) =
    [true, true] := by decide
/-- W8: `A5`. -/
theorem test_drespAccepted : runs (.drespAccepted 0b101#3) (inFlight (.writeSector 1#32 0) .wrResp []) (fun t =>
    t.phase == .busyPoll && t.dresp == 0xA5#8 && t.busy) = true := by decide
/-- W3: `0B`. -/
theorem test_drespCrcError : runs (.drespCrcError 0#3) (inFlight (.writeSector 1#32 0) .wrResp []) (fun t =>
    t.res == .writeRejected .crcError 0x0B#8 && !t.busy) = true := by decide
/-- W4: `0D`. -/
theorem test_drespWriteError : runs (.drespWriteError 0#3) (inFlight (.writeSector 1#32 0) .wrResp []) (fun t =>
    t.res == .writeRejected .writeError 0x0D#8 && !t.busy) = true := by decide
/-- W5: `01`; W6: `FF`. -/
theorem test_drespOther : [(0#3, 0b00001#5, 0x01#8), (7#3, 0b11111#5, 0xFF#8)].map (fun x =>
    runs (.drespOther x.1 x.2.1) (inFlight (.writeSector 1#32 0) .wrResp []) (fun t =>
      t.res == .writeRejected .other x.2.2 && !t.busy)) = [true, true] := by decide
/-- R250: the poll before the last, and the last (W9). -/
theorem test_busyByte :
    runs .busyByte { inFlight (.writeSector 1#32 0) .busyPoll [] with pollcnt := 998 } (fun t =>
      t.busy && t.phase == .busyPoll && t.pollcnt == 999) = true ∧
    runs .busyByte { inFlight (.writeSector 1#32 0) .busyPoll [] with pollcnt := 999 } (fun t =>
      !t.busy && t.res == .transferTimeout .busy && t.pollcnt == 1000 && !t.sel) = true := by decide
/-- R102: FILL is what a drain sends; it is not what a frame sends first (log 14). -/
theorem test_fillByte :
    runs .fillByte (inFlight (.cmd8 0#32 0#7) .r7Drain [0x55#8]) (fun t => t.r7tail.t0 == 0x55#8 && t.txb == 0xFF#8) = true ∧
    refusal .fillByte { inFlight (.cmd8 0#32 0#7) .frame [] with frame := wireFrame 8#6 0#32 0#7 } = some .fillNotNext := by
  decide

/-! INIT: section 2.4 and program P1. -/

/-- I2: a card already out of idle. -/
theorem test_init_wrong_first_response : runs .init (fresh (ones 10 ++ six ++ [0x00#8])) (fun t =>
    t.res == .initFailure .goIdle 0x00#8 && t.fsm == .failed && !t.ready && t.xcount == 17) = true := by decide +kernel
/-- P1. -/
theorem test_init_ok : runs .init (fresh (ones 10 ++ six ++ [0x01#8] ++ six ++ [0x01#8, 0x00#8, 0x00#8, 0x01#8, 0xAA#8] ++ six ++
    [0x01#8] ++ six ++ [0x00#8] ++ six ++ [0x00#8])) (fun t =>
    t.res == .ok && t.fsm == .ready && t.ready && t.xcount == 49 && t.r7tail == ⟨0x00#8, 0x00#8, 0x01#8, 0xAA#8⟩ &&
      !t.sel && t.trace.count .sel == 5 && t.trace.count .desel == 6 && t.trace.count .slept == 0) = true := by
  decide +kernel

/-! Sectors: sections 2.5 and 2.6. -/

/-- R1: fewest possible. -/
theorem test_readSector_ok : runs (.readSector 0#32 0)
    (ready (six ++ [0x00#8, 0xFE#8] ++ List.replicate 512 0xA5#8 ++ [0x12#8, 0x34#8])) (fun t =>
    t.res == .ok && t.xcount == 522 && t.rxb == 0x34#8) = true := by decide +kernel
/-- R6: no token in 1000 polls. -/
theorem test_readSector_timeout : runs (.readSector 7#32 0) (ready (six ++ [0x00#8] ++ ones 1000)) (fun t =>
    t.res == .transferTimeout .token && t.xcount == 1007 && t.mem == []) = true := by decide +kernel
/-- W2: fewest possible. -/
theorem test_writeSector_ok : runs (.writeSector 1#32 0) (ready (six ++ [0x00#8] ++ ones 515 ++ [0x05#8, 0x01#8])) (fun t =>
    t.res == .ok && t.xcount == 524) = true := by decide +kernel
/-- W5: no busy phase after a rejection. -/
theorem test_writeSector_rejected : runs (.writeSector 1#32 0) (ready (six ++ [0x00#8] ++ ones 515 ++ [0x01#8])) (fun t =>
    t.res == .writeRejected .other 0x01#8 && t.xcount == 523 && !t.sel) = true := by decide +kernel

/-! Adapter and exporter: section 2.7. -/

/-- A16. -/
theorem test_status : [(fresh [], 0), (ready [], 0), (ready [], 1)].map (fun x => runs (.status x.2) x.1 (fun t =>
    t.out == .status true)) = [false, true, false] := by decide
/-- A10: the card was pulled out. -/
theorem test_initializeDrive_no_card : runs (.initializeDrive 0) (ready (ones 26)) (fun t =>
    t.res == .notReady && t.xcount == 26 && !t.ready && t.fsm == .failed) = true := by decide +kernel
theorem test_initializeDrive_wrong_drive : runs (.initializeDrive 1) (ready []) (fun t =>
    t.res == .parameterError && t.xcount == 0 && t.ready) = true := by decide
/-- A1, A2. -/
theorem test_read_gate :
    runs (.read 0 0#32 1 0) (fresh []) (fun t => t.res == .notReady && t.trace == []) = true ∧
    runs (.read 1 0#32 1 0) (fresh []) (fun t => t.res == .parameterError && t.trace == []) = true := by decide
/-- A9: the second sector times out. -/
theorem test_read_partial : runs (.read 0 7#32 3 0) (ready (six ++ [0x00#8, 0xFE#8] ++ List.replicate 512 0xA1#8 ++
    [0x00#8, 0x00#8] ++ six ++ [0x00#8] ++ ones 1000)) (fun t =>
    t.res == .transferTimeout .token && t.xcount == 1529 && t.arg == 8#32) = true := by decide +kernel
/-- A6, as a write: no sector, no bus activity. -/
theorem test_write_none : runs (.write 0 5#32 0 0) (ready []) (fun t => t.res == .ok && t.trace == []) = true := by decide
/-- A8: the second sector is rejected, the third never sent. -/
theorem test_write_partial : runs (.write 0 0#32 3 0) (ready (six ++ [0x00#8] ++ ones 515 ++ [0xE5#8, 0x00#8, 0xFF#8] ++ six ++
    [0x00#8] ++ ones 515 ++ [0x0B#8])) (fun t =>
    t.res == .writeRejected .crcError 0x0B#8 && t.xcount == 1048 && t.arg == 1#32) = true := by decide +kernel
/-- A17. -/
theorem test_testUnitReady : runs .testUnitReady (ready []) (fun t => t.out == .flag true) = true ∧
    runs .testUnitReady (fresh []) (fun t => t.out == .flag false) = true := by decide
/-- A17. -/
theorem test_capacity : runs .capacity { ready [] with sectorCount := 5#32 } (fun t => t.out == .capacity 5#32 512) = true := by
  decide
/-- A18: as `read(0, 6, 2, buf)`, whose first command is for sector 6. -/
theorem test_read10 : runs (.read10 4#32 1024 0 1024) (ready (six ++ [0x04#8])) (fun t =>
    t.res == .commandRejected 0x04#8 && t.arg == 6#32 && t.opc == 17#6) = true := by decide +kernel
/-- A20. -/
theorem test_read10_ragged : refusal (.read10 0#32 100 0 512) (ready []) = some .raggedOffset := by decide
/-- A19: as `write(0, 0, 1, buf)`. -/
theorem test_write10 : runs (.write10 0#32 0 0 512) (ready (six ++ [0x04#8])) (fun t =>
    t.res == .commandRejected 0x04#8 && t.arg == 0#32 && t.opc == 24#6) = true := by decide +kernel
theorem test_write10_ragged : refusal (.write10 0#32 0 0 100) (ready []) = some .raggedOffset := by decide
/-- A13, A15. -/
theorem test_ioctlSync : runs (.ioctlSync 0) (fresh []) (fun t => t.res == .notReady) = true ∧
    runs (.ioctlSync 0) (ready []) (fun t => t.res == .ok && t.out == .nothing) = true := by decide
/-- A12, A15. -/
theorem test_ioctlGetSectorCount :
    runs (.ioctlGetSectorCount 0) (fresh []) (fun t => t.res == .notReady && t.out == .nothing) = true ∧
    runs (.ioctlGetSectorCount 0) { ready [] with sectorCount := 77#32 } (fun t => t.res == .ok && t.out == .number 77) = true := by
  decide
/-- A11, A14. -/
theorem test_ioctlGetSectorSize :
    runs (.ioctlGetSectorSize 0) (fresh []) (fun t => t.res == .ok && t.out == .number 512) = true ∧
    runs (.ioctlGetSectorSize 3) (fresh []) (fun t => t.res == .parameterError) = true := by decide
/-- A13, A15. -/
theorem test_ioctlGetBlockSize : runs (.ioctlGetBlockSize 0) (fresh []) (fun t => t.res == .notReady) = true ∧
    runs (.ioctlGetBlockSize 0) (ready []) (fun t => t.res == .ok && t.out == .number 1) = true := by decide
/-- A14. -/
theorem test_ioctlUnknown : runs (.ioctlUnknown 0 7) (fresh []) (fun t => t.res == .parameterError) = true := by decide

/-! Stepped one exchange at a time (log 7). -/

/-- SC1 in seven exchanges. -/
theorem test_stepwise_sendCommand : runs (.sendCommand 0#6 0#32) (withGranularity true { fresh (six ++ [0x01#8]) with sel := true })
    (fun u => u.busy && (crankMany 6 u).busy && !(crankMany 7 u).busy && (crankMany 7 u).out == .byte 0x01#8) = true := by
  decide +kernel

/-! Witnesses: for each statement with hypotheses, a state and operands that meet them, at a boundary where there is one. -/

theorem test_ready_whole (card : List Byte) : Whole (ready card) := ⟨rfl, rfl⟩

/-- A sector write that waits for its data response. -/
def awaiting : State := inFlight (.writeSector 1#32 0) .wrResp [0x01#8]

theorem test_awaiting_inv : awaiting.Inv where
  readyIff := by decide
  capacity _ := rfl
  idle := by decide
  flight := by decide
  sequence := by decide
  memory := by decide
  params := by decide

/-- An idle block at which the host presents `SELECT`, then `INIT`. -/
def presented : State := { ready [] with port := [0x01#8, 0x08#8] }

theorem test_witness_DecodeReadsBackEncode : (Instr.read 0 5#32 0xFFFFFFFF 9).wf = true ∧ (Instr.ioctlUnknown 0 4).wf = true ∧
    (Instr.cmdFrame 1#6 0#32 0#7).wf = true := by decide
theorem test_witness_DecodedBytesAreTheirEncoding : decode [0x08#8, 0xAB#8] = .ok (.init, [0xAB#8]) := by decide
theorem test_witness_FrameWordsDecodeByTheirFields :
    (0x7FFFFFFFFFFF#48).extractLsb' 46 2 = 0b01#2 ∧ (0x7FFFFFFFFFFF#48).getLsbD 0 = true := by decide
theorem test_witness_StepRunsTheDecodedInstruction :
    presented.rst = false ∧ decode presented.port = .ok (.select, [0x08#8]) := by decide
theorem test_witness_StepStartsNothingWithoutAnInstruction :
    (∃ s : State, s.rst = false ∧ s.port ≠ [] ∧ decode s.port = .error .unknownSelector) ∧
      ∃ s : State, s.rst = false ∧ s.port = [] ∧ s.busy = false :=
  ⟨⟨{ ready [] with port := [0x05#8] }, by decide⟩, ready [], by decide⟩
theorem test_witness_StepMakesTheNextExchange :
    awaiting.rst = false ∧ awaiting.port = [] ∧ awaiting.busy = true ∧ awaiting.phase ≠ .idle := by decide
theorem test_witness_ResetInputResetsAnIdleBlock :
    (∃ s : State, s.rst = true ∧ s.busy = false) ∧ ∃ s : State, s.rst = true ∧ s.busy = true :=
  ⟨⟨{ ready [] with rst := true }, rfl, rfl⟩, { awaiting with rst := true }, rfl, rfl⟩
theorem test_witness_StartWhileBusyIsRefused :
    awaiting.busy = true ∧ isByteRow .init = false ∧ isByteRow (.read10 0#32 100 0 512) = false ∧
      raggedCall (.read10 0#32 100 0 512) = true := by decide
theorem test_witness_EveryStepKeepsTheInvariant :
    (∃ t, presented.Inv ∧ step presented = .next t) ∧ ∃ t, awaiting.Inv ∧ step awaiting = .next t :=
  ⟨⟨_, ⟨by decide, fun _ => rfl, by decide, by decide, by decide, by decide, by decide⟩, rfl⟩, _, test_awaiting_inv, rfl⟩
/-- The last frame byte; the last exchange a token poll may make; the last sector of a request. -/
theorem test_witness_EveryStepKeepsTheCounters :
    (∃ s t : State, s.Inv ∧ s.CountersInRange ∧ s.framei = 5 ∧ step s = .next t) ∧
    (∃ s t : State, s.Inv ∧ s.CountersInRange ∧ s.phase = .tokenPoll ∧ s.pollcnt = 999 ∧ step s = .next t) ∧
    ∃ s t : State, s.Inv ∧ s.CountersInRange ∧ flow s = .sectors true 0#32 2 0 ∧ s.sectno = 1 ∧ step s = .next t := by
  refine ⟨⟨{ inFlight (.cmd0 0#32 0#7) .frame [0xFF#8] with framei := 5 }, _, ?_, ⟨?_, ?_⟩, rfl, rfl⟩,
    ⟨{ inFlight (.readSector 0#32 0) .tokenPoll [0xFF#8] with pollcnt := 999 }, _, ?_, ⟨?_, ?_⟩, rfl, rfl, rfl⟩,
    atSector 1 (inFlight (.write 0 0#32 2 0) .wrResp [0x01#8]), _, ?_, ⟨?_, ?_⟩, rfl, rfl, rfl⟩
  · exact ⟨by decide, fun _ => rfl, by decide, by decide, by decide, by decide, by decide⟩
  · exact ⟨by decide, by decide, by decide, by decide, by decide⟩
  · exact ⟨by decide, by decide, by decide, fun _ _ _ _ _ e => by cases e⟩
  · exact ⟨by decide, fun _ => rfl, by decide, by decide, by decide, by decide, by decide⟩
  · exact ⟨by decide, by decide, by decide, by decide, by decide⟩
  · exact ⟨by decide, by decide, by decide, fun _ _ _ _ _ e => by cases e⟩
  · exact ⟨by decide, fun _ => rfl, by decide, by decide, by decide, by decide, by decide⟩
  · exact ⟨by decide, by decide, by decide, by decide, by decide⟩
  · exact ⟨by decide, by decide, by decide, fun _ _ _ _ _ e => by cases e; exact ⟨by decide, rfl⟩⟩
theorem test_witness_NoStepWritesAParameter : ∃ t, step presented = .next t := ⟨_, rfl⟩
theorem test_witness_EveryStepAccountsForItsExchanges : ∃ t, awaiting.rst = false ∧ step awaiting = .next t := ⟨_, rfl, rfl⟩
theorem test_witness_OnlyTheSequenceWritesTheSession :
    ∃ t, presented.Inv ∧ presented.rst = false ∧ isSequence (flow presented) = false ∧
      (∀ i rest, decode presented.port = .ok (i, rest) → writesSession i = false) ∧ step presented = .next t := by
  refine ⟨_, ⟨by decide, fun _ => rfl, by decide, by decide, by decide, by decide, by decide⟩, rfl, rfl, ?_, rfl⟩
  intro i rest h
  have : decode presented.port = .ok (.select, [0x08#8]) := by decide
  rw [this] at h
  cases h
  rfl
theorem test_witness_EveryOperationLeavesTheCardDeselected :
    (∃ i s t, aboveTransport i = true ∧ s.sel = false ∧ exec i s = .next t ∧ (t.busy = false ∧ t.xcount = 7)) ∧
      ∃ t, awaiting.rst = false ∧ awaiting.busy = true ∧ flow awaiting ≠ .command false ∧
        (∀ bound pred out, flow awaiting ≠ .polling bound pred out) ∧ step awaiting = .next t ∧ t.busy = false := by
  refine ⟨⟨.readSector 7#32 0, ready (six ++ [0x04#8]), ?_⟩, _, rfl, rfl, by decide, by simp [flow, awaiting, inFlight, flowOf],
    rfl, by decide⟩
  obtain ⟨t, h, k⟩ := of_runs (show runs (.readSector 7#32 0) (ready (six ++ [0x04#8]))
    (fun t => decide (t.busy = false ∧ t.xcount = 7)) = true by decide +kernel)
  exact ⟨t, rfl, rfl, h, of_decide_eq_true k⟩
theorem test_witness_ExchangeMovesOneByteEachWay : (ready []).busy = false := rfl
theorem test_witness_SelectAndDeselectDriveTheLatch : (ready []).busy = false := rfl
theorem test_witness_CrcIsLinear : ([0x40#8, 0x01#8] : List Byte).length = [0xFF#8, 0x80#8].length := rfl
theorem test_witness_PollSendsUntilAByteHits : Whole (ready []) ∧ 1 ≤ 1 ∧ 0 = 0 := ⟨test_ready_whole _, Nat.le_refl _, rfl⟩
theorem test_witness_SendCommandFramesThenPolls : Whole (fresh []) := ⟨rfl, rfl⟩
theorem test_witness_OneByteCommandsRunTheirBracket : Whole (fresh []) ∧
    (∃ f : Frame, f = ⟨0x40#8 ||| (63#6).setWidth 8, 0#8, 0#8, 0#8, 7#8, ((0#7).setWidth 8 <<< 1) ||| 0x01#8⟩) ∧
    ∀ i ∈ [Instr.cmdFrame 63#6 7#32 0#7, .cmd0 7#32 0#7, .cmd16 7#32 0#7, .acmd41 7#32 0#7, .cmd55 7#32 0#7], ∃ opcode : U6,
      i = .cmdFrame opcode 7#32 0#7 ∨ (opcode = 0#6 ∧ i = .cmd0 7#32 0#7) ∨ (opcode = 16#6 ∧ i = .cmd16 7#32 0#7) ∨
        (opcode = 41#6 ∧ i = .acmd41 7#32 0#7) ∨ (opcode = 55#6 ∧ i = .cmd55 7#32 0#7) := by
  refine ⟨⟨rfl, rfl⟩, ⟨_, rfl⟩, ?_⟩
  simp only [List.forall_mem_cons, List.not_mem_nil, false_implies, implies_true, and_true]
  exact ⟨⟨63#6, by decide⟩, ⟨0#6, by decide⟩, ⟨16#6, by decide⟩, ⟨41#6, by decide⟩, 55#6, by decide⟩
theorem test_witness_Cmd8DrainsItsTrailingBytes : Whole (fresh []) ∧
    ∃ f : Frame, f = ⟨0x48#8, 0#8, 0#8, 0#8, 7#8, ((0#7).setWidth 8 <<< 1) ||| 0x01#8⟩ := ⟨⟨rfl, rfl⟩, _, rfl⟩
theorem test_witness_Cmd17ReadsABlock : Whole (fresh []) ∧ (fresh []).mem.wf ∧
    ∃ f : Frame, f = ⟨0x51#8, 0#8, 0#8, 0#8, 7#8, ((0#7).setWidth 8 <<< 1) ||| 0x01#8⟩ := ⟨⟨rfl, rfl⟩, by decide, _, rfl⟩
theorem test_witness_Cmd24WritesABlock : Whole (fresh []) ∧
    ∃ f : Frame, f = ⟨0x58#8, 0#8, 0#8, 0#8, 7#8, ((0#7).setWidth 8 <<< 1) ||| 0x01#8⟩ := ⟨⟨rfl, rfl⟩, _, rfl⟩
theorem test_witness_IdleByteRowsAreBareExchanges : (fresh []).busy = false := rfl
/-- Every kind of flow, at every number of exchanges made (8 and 9 among them) and of attempts made (999 and 1000). -/
theorem test_witness_ResponseBytesInTheResponsePoll :
    (∀ n k : Nat, ∀ i ∈ [Instr.poll 2 ⟨0#256⟩ 0#8, .cmd0 0#32 0#7, .sendCommand 0#6 0#32, .cmd8 0#32 0#7, .readSector 5#32 0,
        .writeSector 5#32 0, .read 0 5#32 2 0, .write 0 5#32 2 0, .init, .initializeDrive 0], ∀ b : Bool,
      ∀ f ∈ [Fsm.goIdle, .checkInterfaceCondition, .applicationInit, .setBlockLength],
      ∃ s : State, s.busy = true ∧ s.phase = .respPoll ∧ flow s = flowOf i ∧ s.pollcnt = n ∧ s.retrycnt = k ∧ s.appcmd = b ∧
        s.fsm = f) ∧
    [Instr.poll 2 ⟨0#256⟩ 0#8, .cmd0 0#32 0#7, .sendCommand 0#6 0#32, .cmd8 0#32 0#7, .readSector 5#32 0,
        .write 0 5#32 2 0, .init, .initializeDrive 0].map flowOf =
      [.polling 2 ⟨0#256⟩ 0#8, .command true, .command false, .ifCond, .sector false, .sectors true 5#32 2 0, .sequence false,
        .sequence true] ∧
    (∀ x ∈ [(Instr.r1Valid 0x7F#7, 0x7F#8), (.r1NotYet 0x7F#7, 0xFF#8), (.r1IdleExact, 0x01#8), (.r1ReadyExact, 0x00#8)],
      ResponseRow x.1 x.2) := by
  refine ⟨fun n k i _ b f _ =>
    ⟨{ inFlight i .respPoll [] with pollcnt := n, retrycnt := k, appcmd := b, fsm := f }, rfl, rfl, rfl, rfl, rfl, rfl, rfl⟩, rfl, ?_⟩
  simp only [List.forall_mem_cons, List.not_mem_nil, false_implies, implies_true, and_true]
  exact ⟨.inl ⟨_, rfl, by decide⟩, .inr (.inl ⟨_, rfl, by decide⟩), .inr (.inr (.inl ⟨rfl, rfl⟩)), .inr (.inr (.inr ⟨rfl, rfl⟩))⟩
/-- At every number of exchanges made: 998 and 999 among them. -/
theorem test_witness_StartTokenOpensThePayload :
    (∀ k : Nat, ∃ s : State, s.busy = true ∧ s.phase = .tokenPoll ∧ s.pollcnt = k) ∧
      (1#1 ++ 0x7F#7 : Byte) ≠ 0xFE#8 ∧ ∃ s : State, s.busy = true ∧ s.phase = .wrToken :=
  ⟨fun k => ⟨{ inFlight (.readSector 0#32 0) .tokenPoll [] with pollcnt := k }, rfl, rfl, rfl⟩, by decide,
    inFlight (.writeSector 0#32 0) .wrToken [], rfl, rfl⟩
/-- R6 at its 1000th token byte: `TransferTimeout(Token)`, deselected, with the byte 0x00 of R8 as the last. -/
theorem test_r1Valid_token_timeout :
    runs (.r1Valid 0#7) { inFlight (.readSector 0#32 0) .tokenPoll [] with pollcnt := 999, sel := true } (fun t =>
      t.res == .transferTimeout .token && !t.busy && !t.sel && t.tok == 0x00#8 && t.pollcnt == 1000) = true := by decide
/-- I1: 0x01 in `GoIdle` issues opcode 8. -/
theorem test_r1IdleExact_goIdle :
    runs .r1IdleExact { inFlight .init .respPoll [] with fsm := .goIdle } (fun t =>
      t.fsm == .checkInterfaceCondition && t.busy && t.sel && t.frame == ⟨0x48#8, 0x00#8, 0x00#8, 0x01#8, 0xAA#8, 0x87#8⟩) = true := by
  decide +kernel
theorem test_witness_DataResponseDecidesTheWrite :
    awaiting.busy = true ∧ awaiting.phase = .wrResp ∧
      ∀ i ∈ [Instr.drespCrcError 5#3, .drespWriteError 5#3, .drespOther 5#3 0#5], ∃ (status : BitVec 5) (reason : Reason),
        (i = .drespCrcError 5#3 ∧ status = 0b01011#5 ∧ reason = .crcError) ∨
        (i = .drespWriteError 5#3 ∧ status = 0b01101#5 ∧ reason = .writeError) ∨
        (i = .drespOther 5#3 status ∧ i.wf = true ∧ reason = .other) := by
  refine ⟨rfl, rfl, ?_⟩
  simp only [List.forall_mem_cons, List.not_mem_nil, false_implies, implies_true, and_true]
  exact ⟨⟨0b01011#5, .crcError, by decide⟩, ⟨0b01101#5, .writeError, by decide⟩, 0#5, .other, by decide⟩
theorem test_witness_BusyBytesKeepTheBusyPoll :
    ∃ s : State, s.busy = true ∧ s.phase = .busyPoll ∧ flow s = .sector true ∧ s.pollcnt + 1 = 1000 :=
  ⟨{ inFlight (.writeSector 0#32 0) .busyPoll [] with pollcnt := 999 }, rfl, rfl, rfl, rfl⟩
theorem test_witness_FillRowSendsTheFillByte :
    (awaiting.busy = true ∧ awaiting.phase ∈ [Phase.resetIdle, .r7Drain, .tokenPoll, .rdPayload, .rdCrc, .wrCrc, .wrResp, .busyPoll]) ∧
    (∃ s : State, s.busy = true ∧ s.phase = .frame ∧ s.framei = 5) ∧
    (∃ s : State, s.busy = true ∧ s.phase = .respPoll ∧ nextOut s = s.cfg.fill) ∧
    (∃ s : State, s.busy = true ∧ s.phase = .wrPayload ∧ nextOut s = s.cfg.fill) ∧
    ∃ s : State, s.busy = true ∧ s.phase = .wrToken ∧ nextOut s ≠ s.cfg.fill :=
  ⟨⟨rfl, by decide⟩, ⟨{ inFlight (.cmd0 0#32 0#7) .frame [] with framei := 5 }, rfl, rfl, rfl⟩,
    ⟨inFlight (.cmd0 0#32 0#7) .respPoll [], rfl, rfl, by decide⟩,
    ⟨{ inFlight (.writeSector 0#32 0) .wrPayload [] with mem := [(0, 0xFF#8)] }, rfl, rfl, by decide⟩,
    inFlight (.writeSector 0#32 0) .wrToken [], rfl, rfl, by decide⟩
theorem test_witness_InitRunsItsSequence : Whole (fresh []) := ⟨rfl, rfl⟩
/-- I7: 45 exchanges, a failure; I8: 45 exchanges, `Ok`; I2: 17. -/
theorem test_witness_InitStaysWithinItsBounds : Whole (fresh []) ∧ (fresh []).cfg.resetIdleBytes = 10 ∧
    [0x04#8, 0x00#8].map (fun r => runs .init (fresh (ones 10 ++ six ++ [0x01#8] ++ six ++ [0x05#8] ++ six ++ [0x01#8] ++ six ++
      [0x04#8] ++ six ++ [r])) (fun t => t.xcount == 45 && (t.res == .ok) == (r == 0x00#8))) = [true, true] ∧
    runs .init (fresh (ones 10 ++ six ++ [0x05#8])) (fun t => t.xcount == 17 && t.res == .initFailure .goIdle 0x05#8) = true := by
  decide +kernel
theorem test_witness_InitSendsOnlyItsFiveCommands : Whole (fresh []) := ⟨rfl, rfl⟩
/-- I2. -/
theorem test_witness_InitStopsAtAWrongFirstResponse :
    Whole (fresh (ones 10 ++ six ++ [0x00#8] ++ [])) ∧ (ones 10).length = (fresh []).cfg.resetIdleBytes ∧
      Answered six [0x00#8] 0x00#8 ∧ (0x00#8 : Byte) ≠ 0x01#8 :=
  ⟨⟨rfl, rfl⟩, rfl, ⟨rfl, polled_first (miss := []) (by simp) (by decide) (by decide)⟩, by decide⟩
theorem test_witness_SectorOperationsNeedAReadySession : (fresh []).busy = false ∧ (fresh []).ready = false := ⟨rfl, rfl⟩
theorem test_witness_ReadSectorRunsItsTransaction : Whole (ready []) ∧ (ready []).ready = true ∧ (ready []).mem.wf := by decide
theorem test_witness_WriteSectorRunsItsTransaction : Whole (ready []) ∧ (ready []).ready = true := by decide

/-- `i` runs at `s` to a state of the result `r`, by `n` exchanges. -/
def ends (i : Instr) (s : State) (r : Result) (n : Nat) : Prop := ∃ t, exec i s = .next t ∧ t.res = r ∧ t.xcount = s.xcount + n

theorem ends_of_runs {i : Instr} {s : State} {r : Result} {n : Nat}
    (h : runs i s (fun t => t.res == r && t.xcount == s.xcount + n) = true) : ends i s r n := by
  obtain ⟨t, e, k⟩ := of_runs h
  simp only [Bool.and_eq_true, beq_iff_eq] at k
  exact ⟨t, e, k⟩

/-- R1, and the most exchanges of R245. -/
theorem test_witness_SectorExchangeCounts_read_ok :
    ends (.readSector 0#32 0) (ready (six ++ [0x00#8, 0xFE#8] ++ ones 514)) .ok 522 ∧
    ends (.readSector 0#32 0) (ready (six ++ ones 9 ++ [0x00#8] ++ ones 999 ++ [0xFE#8] ++ List.replicate 514 0x00#8)) .ok 1530 :=
  ⟨ends_of_runs (by decide +kernel), ends_of_runs (by decide +kernel)⟩
/-- R3, R5, R6. -/
theorem test_witness_SectorExchangeCounts_read_failed :
    ends (.readSector 7#32 0) (ready (six ++ [0x04#8])) (.commandRejected 0x04#8) 7 ∧
    ends (.readSector 7#32 0) (ready (ones 16)) (.commandRejected 0xFF#8) 16 ∧
    ends (.readSector 7#32 0) (ready (six ++ [0x00#8] ++ ones 1000)) (.transferTimeout .token) 1007 :=
  ⟨ends_of_runs (by decide +kernel), ends_of_runs (by decide +kernel), ends_of_runs (by decide +kernel)⟩
/-- W2, W13. -/
theorem test_witness_SectorExchangeCounts_write_ok :
    ends (.writeSector 1#32 0) (ready (six ++ [0x00#8] ++ ones 515 ++ [0x05#8, 0x01#8])) .ok 524 ∧
    ends (.writeSector 1#32 0) (ready (six ++ ones 9 ++ [0x00#8] ++ ones 515 ++ [0xE5#8] ++ List.replicate 999 0x00#8 ++ [0xFF#8]))
      .ok 1532 :=
  ⟨ends_of_runs (by decide +kernel), ends_of_runs (by decide +kernel)⟩
/-- W11, W12, W9, W3. -/
theorem test_witness_SectorExchangeCounts_write_failed :
    ends (.writeSector 1#32 0) (ready (six ++ [0x40#8])) (.commandRejected 0x40#8) 7 ∧
    ends (.writeSector 1#32 0) (ready (ones 16)) (.commandRejected 0xFF#8) 16 ∧
    ends (.writeSector 1#32 0) (ready (six ++ [0x00#8] ++ ones 515 ++ [0xE5#8] ++ List.replicate 1000 0x00#8))
      (.transferTimeout .busy) 1523 ∧
    ends (.writeSector 1#32 0) (ready (six ++ [0x00#8] ++ ones 515 ++ [0x0B#8])) (.writeRejected .crcError 0x0B#8) 523 :=
  ⟨ends_of_runs (by decide +kernel), ends_of_runs (by decide +kernel), ends_of_runs (by decide +kernel),
    ends_of_runs (by decide +kernel)⟩
theorem test_witness_FailedReadLeavesTheBuffer :
    Whole (ready (six ++ [0x04#8])) ∧ ∃ t, exec (.readSector 7#32 0) (ready (six ++ [0x04#8])) = .next t ∧ t.res ≠ .ok :=
  ⟨test_ready_whole _, let ⟨t, h, k, _⟩ := test_witness_SectorExchangeCounts_read_failed.1; ⟨t, h, by rw [k]; decide⟩⟩
theorem test_witness_ReadRequestGoesSectorBySector : (∀ card, Whole (ready card)) ∧ 0 = (ready []).cfg.driveIndex ∧
    (∃ u, exec (.readSector 7#32 0) (ready (six ++ [0x04#8])) = .next u ∧ u.res ≠ .ok) ∧
    ∃ card u, exec (.readSector 0#32 0) (ready card) = .next u ∧ u.res = .ok :=
  ⟨test_ready_whole, rfl, test_witness_FailedReadLeavesTheBuffer.2,
    let ⟨t, h, k, _⟩ := test_witness_SectorExchangeCounts_read_ok.1; ⟨_, t, h, k⟩⟩
theorem test_witness_WriteRequestGoesSectorBySector : (∀ card, Whole (ready card)) ∧ 0 = (ready []).cfg.driveIndex ∧
    (∃ card u, exec (.writeSector 1#32 0) (ready card) = .next u ∧ u.res ≠ .ok) ∧
    ∃ card u, exec (.writeSector 1#32 0) (ready card) = .next u ∧ u.res = .ok :=
  ⟨test_ready_whole, rfl,
    let ⟨t, h, k, _⟩ := test_witness_SectorExchangeCounts_write_failed.1; ⟨_, t, h, by rw [k]; decide⟩,
    let ⟨t, h, k, _⟩ := test_witness_SectorExchangeCounts_write_ok.1; ⟨_, t, h, k⟩⟩
theorem test_witness_CallsBehindTheGateFailFast : (fresh []).busy = false ∧ (fresh []).ready = false ∧
    0 = (fresh []).cfg.driveIndex ∧ 1 ≠ (fresh []).cfg.driveIndex := by decide
theorem test_witness_StatusReportsTheSession : (ready []).busy = false := rfl
theorem test_witness_InitializeIsInitBehindTheDriveCheck :
    Whole (fresh []) ∧ 0 = (fresh []).cfg.driveIndex ∧ 1 ≠ (fresh []).cfg.driveIndex := by decide
theorem test_witness_IoctlDeliversByItsSubCommand : (ready []).busy = false ∧ (ready []).ready = true ∧
    (fresh []).busy = false ∧ (fresh []).ready = false ∧ 0 = (fresh []).cfg.driveIndex ∧ 0 = (ready []).cfg.driveIndex ∧ 1 ≠ (ready []).cfg.driveIndex := by decide
theorem test_witness_ExporterQueriesReadTheSession : (ready []).busy = false ∧ (ready []).ready = true ∧
    (fresh []).busy = false ∧ (fresh []).ready = false := by decide
theorem test_witness_ExporterTransfersAreAdapterTransfers : Whole (ready []) ∧ 1024 % 512 = 0 ∧ 512 % 512 = 0 := by decide
theorem test_witness_RaggedExporterCallsAreRefused : (100 % 512 ≠ 0 ∨ 512 % 512 ≠ 0) ∧ (0 % 512 ≠ 0 ∨ 511 % 512 ≠ 0) := by decide
theorem test_witness_StepwiseCommandsReachTheWholeRun : (fresh []).busy = false := rfl
theorem test_witness_StepwiseSectorsReachTheWholeRun : (ready []).busy = false := rfl
theorem test_witness_StepwiseInitReachesTheWholeRun : (fresh []).busy = false ∧ (fresh []).cfg.wf := by decide
theorem test_witness_StepwiseRequestsReachTheWholeRun : (ready []).busy = false ∧ 1024 % 512 = 0 ∧ 512 % 512 = 0 := by decide

/-- The fixture card, out of idle, with its default parameters. -/
def card : FixtureCard where
  tokDelay := 1
  busyN := 2
  v2 := true
  dataResponse := 0xE5#8
  idle := false
  acmd := false
  left := 0
  store := fun _ => List.replicate 512 0x00#8
  q := []
  frame := []
  rx := .inactive
  widx := 0#32

/-- What the fixture card answers to a write. -/
def writeAnswers : List Byte := six ++ [0x00#8] ++ ones 515 ++ [0xE5#8] ++ [0x00#8, 0x00#8, 0xFF#8]

/-- What the fixture card answers to a read of `data`. -/
def readAnswers (data : List Byte) : List Byte := six ++ [0x00#8] ++ [0xFF#8, 0xFE#8] ++ data ++ [0x00#8, 0x00#8]

/-- A ready Session whose buffer at 0 begins with 0x5A, and a card that will answer a write, then a read. -/
def roundTrip : State :=
  { ready [] with mem := [(0, 0x5A#8)], card := writeAnswers ++ readAnswers (hostBytes [(0, 0x5A#8)] 0 512) }

theorem six_response {heard got : List Byte} {r : Byte} (a : Answered heard got r) {x y : List Byte}
    (e : heard ++ (got ++ x) = six ++ ([0x00#8] ++ y)) : heard = six ∧ got = [0x00#8] ∧ r = 0x00#8 ∧ x = y := by
  obtain ⟨rfl, k⟩ := List.append_inj e (a.frame.trans rfl)
  obtain ⟨hg, rfl⟩ := a.response.unique (x := x) (g' := [0x00#8]) (x' := y)
    (polled_first (miss := []) (b := 0x00#8) (by simp) (by decide) (by decide)) k
  subst hg
  exact ⟨rfl, rfl, rfl, List.append_cancel_left k⟩

theorem stream {s t : State} {evs : List Event} {l : List Byte} (h : Emitted s t evs) (hl : s.card = l) :
    ∃ x y, received evs ++ x = l ++ y := by
  have e := congrArg Prod.fst h.heard
  simp only [hl] at e
  rcases takeAnswers_prefix (xferCount evs) l s.draws with ⟨z, hz⟩ | ⟨z, hz⟩
  · exact ⟨z, [], by rw [← e, hz, List.append_nil]⟩
  · exact ⟨[], z, by rw [← e, List.append_nil, hz]⟩

/-- The bus events of a write answered so. -/
def writeEvents (p : Params) (f : Frame) (data : List Byte) : List Event :=
  commandEvents true f six [0x00#8] ++ packetEvents p data (ones 515) 0xE5#8 ++
    listenEvents true p.fill [0x00#8, 0x00#8, 0xFF#8] ++ [.desel]

/-- The bus events of a read answered so. -/
def readEvents (p : Params) (f : Frame) (data : List Byte) : List Event :=
  commandEvents true f six [0x00#8] ++ listenEvents true p.fill ([0xFF#8, 0xFE#8] ++ data ++ [0x00#8, 0x00#8]) ++ [.desel]

theorem write_answered {s t : State} {p : Params} {f : Frame} {data more : List Byte} {evs : List Event} {e : WriteEnd}
    (hd : data.length = 512) (r : WriteRun p f data evs e) (h : Emitted s t (.sel :: evs))
    (hc : s.card = writeAnswers ++ more) : e.res = .ok ∧ evs = writeEvents p f data := by
  obtain ⟨x, y, hxy⟩ := stream h hc
  rw [received_sel] at hxy
  have cut : ∀ {heard : List Byte} {d : Byte} {z w : List Byte}, heard.length = data.length + 3 →
      heard ++ (d :: z) = ones 515 ++ (0xE5#8 :: w) → heard = ones 515 ∧ d = 0xE5#8 ∧ z = w := by
    intro heard d z w hl he
    obtain ⟨a, b⟩ := List.append_inj he (by rw [hl, hd, ones, List.length_replicate])
    rw [List.cons.injEq] at b
    exact ⟨a, b⟩
  cases r with
  | commandRejected heard got r a n =>
    simp only [received_append, received_command _ _ _ a.frame, writeAnswers, List.append_assoc] at hxy
    exact absurd (six_response a hxy).2.2.1 n
  | rejected heard got mid d a n k =>
    have hp : received (packetEvents p data mid d) = mid ++ [d] := received_xfers _ _ _ (by simp [n])
    simp only [received_append, received_command _ _ _ a.frame, hp, writeAnswers, List.append_assoc] at hxy
    obtain ⟨-, rfl, -⟩ := cut n (six_response a hxy).2.2.2
    exact absurd k (by decide)
  | accepted heard got mid busy d last a n k b =>
    have hp : received (packetEvents p data mid d) = mid ++ [d] := received_xfers _ _ _ (by simp [n])
    simp only [received_append, received_command _ _ _ a.frame, hp, received_listen, writeAnswers, List.append_assoc] at hxy
    obtain ⟨rfl, rfl, -, he⟩ := six_response a hxy
    obtain ⟨rfl, rfl, hb⟩ := cut n he
    obtain ⟨rfl, rfl⟩ := b.unique (g' := [0x00#8, 0x00#8, 0xFF#8]) (polled_first (miss := [0x00#8, 0x00#8]) (b := 0xFF#8)
      (by decide) (by decide) (by decide)) hb
    exact ⟨rfl, rfl⟩

theorem read_answered {s t : State} {p : Params} {f : Frame} {data : List Byte} {evs : List Event} {e : ReadEnd}
    (hd : data.length = 512) (r : ReadRun p f evs e) (h : Emitted s t (.sel :: evs)) (hc : s.card = readAnswers data) :
    e.res = .ok ∧ evs = readEvents p f data := by
  obtain ⟨x, y, hxy⟩ := stream h hc
  rw [received_sel] at hxy
  have token : ∀ {toks z w : List Byte} {last : Byte}, Polled Config.tokenPollBound isStartToken toks last →
      toks ++ z = [0xFF#8, 0xFE#8] ++ w → toks = [0xFF#8, 0xFE#8] ∧ last = 0xFE#8 ∧ z = w := by
    intro toks z w last b he
    obtain ⟨rfl, rfl⟩ := b.unique (g' := [0xFF#8, 0xFE#8]) (polled_first (miss := [0xFF#8]) (b := 0xFE#8)
      (by decide) (by decide) (by decide)) he
    exact ⟨rfl, rfl, List.append_cancel_left he⟩
  cases r with
  | rejected heard got r a n =>
    simp only [received_append, received_command _ _ _ a.frame, readAnswers, List.append_assoc] at hxy
    exact absurd (six_response a hxy).2.2.1 n
  | timeout heard got toks last a b n =>
    simp only [received_append, received_command _ _ _ a.frame, received_listen, readAnswers, List.append_assoc] at hxy
    exact absurd (token b (six_response a hxy).2.2.2).2.1 n
  | done heard got toks bytes crc a b n k =>
    simp only [received_append, received_command _ _ _ a.frame, received_listen, readAnswers, List.append_assoc] at hxy
    obtain ⟨rfl, rfl, -, he⟩ := six_response a hxy
    obtain ⟨rfl, -, hb⟩ := token b he
    obtain ⟨rfl, hk⟩ := List.append_inj hb (n.trans hd.symm)
    obtain ⟨rfl, -⟩ := List.append_inj hk (k.trans rfl)
    exact ⟨rfl, rfl⟩

theorem card_quiet : card.Quiet := ⟨rfl, rfl, rfl, rfl⟩

theorem card_takes_write (p : Params) (hp : p.fill = 0xFF#8) (data : List Byte) (hd : data.length = 512) :
    ∃ d, card.answers (.sel :: writeEvents p (commandFrame p Config.opWriteBlock 1#32) data) = some d ∧ d.Quiet ∧
      d.tokDelay = 1 ∧ d.store 1#32 = data := by
  have h1 := answers_command_clear (q := []) card_quiet (frame_tag p Config.opWriteBlock 1#32)
    (execute_write { card with frame := _ } p 1#32 rfl) rfl (.inl rfl)
  have h2 := fun c => answers_packet c p data (List.replicate 515 0xFF#8) 0xE5#8 hp hd List.length_replicate
  have h3 : ∀ c : FixtureCard, c.dataResponse = 0xE5#8 → afterPacket c data =
      { c with
        q := List.replicate c.busyN 0x00#8
        rx := .inactive
        store := fun i => if i = c.widx then data else c.store i } := by
    intro c h
    simp only [afterPacket, h, show writeAccepted 0xE5#8 = true by decide, if_true]
  refine ⟨{ card with store := fun i => if i = 1#32 then data else card.store i, widx := 1#32 }, ?_, ⟨rfl, rfl, rfl, rfl⟩, rfl,
    by simp⟩
  change card.answers (writeEvents _ _ _) = _
  simp only [writeEvents, answers_append, six, ones]
  rw [h1, Option.bind_some, h2 _ rfl rfl rfl, if_pos ⟨rfl, rfl⟩, Option.bind_some, hp]
  rw [h3 _ rfl]
  rw [answers_listen _ _ (.inr ⟨rfl, rfl⟩), if_pos (by rfl)]
  rfl

theorem card_takes_read (p : Params) (hp : p.fill = 0xFF#8) (c : FixtureCard) (hc : c.Quiet) (hk : c.tokDelay = 1)
    (data : List Byte) (hs : c.store 1#32 = data) :
    ∃ d, c.answers (.sel :: readEvents p (commandFrame p Config.opReadSingleBlock 1#32) data) = some d := by
  have h1 := answers_command_clear (q := [0xFF#8, 0xFE#8] ++ data ++ [0x00#8, 0x00#8]) hc
    (frame_tag p Config.opReadSingleBlock 1#32) (execute_read { c with frame := _ } p 1#32 hc.idle)
    (by simp [afterRead, hk, hs]) (.inr hc.rx)
  have h2 : ∀ (m : FixtureCard) (q : List Byte), m.rx = .inactive → ∃ d,
      ({ m with frame := [], q := q } : FixtureCard).answers (listenEvents true 0xFF#8 q) = some d := by
    intro m q hr
    have e := answers_listen { m with frame := [], q := q } q (.inr ⟨hr, rfl⟩)
    rw [if_pos (by simp only [queued]; rw [List.take_append_of_le_length (Nat.le_refl _), List.take_length])] at e
    exact ⟨_, e⟩
  obtain ⟨d, h3⟩ := h2 _ ([0xFF#8, 0xFE#8] ++ data ++ [0x00#8, 0x00#8]) (show (afterRead c 1#32 []).rx = _ from hc.rx)
  refine ⟨d, ?_⟩
  change c.answers (readEvents _ _ _) = _
  simp only [readEvents, answers_append, six, ones]
  rw [h1, Option.bind_some, hp]
  change (FixtureCard.answers { afterRead c 1#32 [] with
    frame := []
    q := [0xFF#8, 0xFE#8] ++ data ++ [0x00#8, 0x00#8] } _).bind _ = _
  rw [h3]
  rfl

theorem test_witness_WriteThenReadReturnsThePayload :
    ∃ (s t u : State) (c d e : FixtureCard) (evs more : List Event) (index : U32) (buf buf' : Nat),
      Whole s ∧ s.ready = true ∧ s.mem.wf ∧ s.cfg.fill = 0xFF#8 ∧ c.Quiet ∧
      exec (.writeSector index buf) s = .next t ∧ Emitted s t evs ∧ c.answers evs = some d ∧ t.res = .ok ∧
      exec (.readSector index buf') t = .next u ∧ Emitted t u more ∧ d.answers more = some e ∧ u.res = .ok := by
  have len : ∀ m a n, (hostBytes m a n).length = n := by simp [hostBytes]
  -- the write
  let s := roundTrip
  let v := latchCommand Config.opWriteBlock 1#32 (select (attachBuffer 0 (started (.writeSector 1#32 0) s)))
  have hx : exec (.writeSector 1#32 0) s = .next (writeLatched v).2 := rfl
  obtain ⟨evs, e, h1, h2, h3⟩ := writeLatched_spec v rfl rfl
  rw [bufBytes_eq_hostBytes] at h1
  have h4 := congrArg Prod.snd h3
  simp only at h4
  have h5 := (select_emits s).trans (⟨h2.trace, h2.count, h2.heard⟩ : Emitted (select s) (writeLatched v).2 _)
  obtain ⟨ok, rfl⟩ := write_answered (len ..) h1 h5 rfl
  obtain ⟨d, h6, hq, hk, hs⟩ := card_takes_write v.cfg rfl (hostBytes v.mem v.bufp 512) (len ..)
  have hcard : (writeLatched v).2.card = readAnswers (hostBytes [(0, 0x5A#8)] 0 512) := by
    have k := congrArg (fun q => q.2.1) h5.heard
    simp only at k
    have n : xferCount (.sel :: writeEvents v.cfg v.frame (hostBytes v.mem v.bufp 512)) = writeAnswers.length := by
      simp only [writeEvents, packetEvents, xferCount_sel, xferCount_append, xferCount_xfers,
        xferCount_listen, xferCount_desel, xferCount_nil, writeAnswers, six, ones, List.length_append,
        List.length_cons, List.length_nil, List.length_replicate, len]
      rfl
    rw [← k, List.singleton_append, n]
    exact congrArg (fun q => q.2.1) (takeAnswers_append writeAnswers _ _)
  generalize (writeLatched v).2 = t at hx h4 h5 hcard
  have ready : t.ready = true := by rw [h4]; rfl
  have idle : t.busy = false := by rw [h4]
  have cfg : t.cfg = Params.defaults := by rw [h4]; rfl
  -- the read
  let w := latchCommand Config.opReadSingleBlock 1#32 (select (attachBuffer 1000 (started (.readSector 1#32 1000) t)))
  have hy : exec (.readSector 1#32 1000) t = .next (readLatched w).2 := by
    simp [exec, execReadSector, startOp, idle, cfg, Params.defaults, readSector, ready, w, started]
  obtain ⟨more, g, k1, k2, k3⟩ := readLatched_spec w rfl rfl
  have k4 := congrArg Prod.snd k3
  simp only at k4
  have k5 := (select_emits t).trans (⟨k2.trace, k2.count, k2.heard⟩ : Emitted (select t) (readLatched w).2 _)
  obtain ⟨ok', rfl⟩ := read_answered (len ..) k1 k5 hcard
  obtain ⟨z, k6⟩ := card_takes_read w.cfg (show t.cfg.fill = 0xFF#8 by rw [cfg]; rfl) d hq hk _ hs
  refine ⟨s, t, (readLatched w).2, card, d, z, _, _, 1#32, 0, 1000, ⟨rfl, rfl⟩, rfl, by decide, rfl, card_quiet, hx, h5, h6, ?_,
    hy, k5, k6, ?_⟩
  · rw [h4]; exact ok
  · rw [k4]; exact ok'

end Sys2Proof.Tests
end

/-!
The state family (10_state.md): what a step can do, said once as `StepCase`; the statements about every step by cases on it;
the two granularities (log 7) by the segments of Laws/Segments.lean and Laws/Stepwise.lean.
-/

namespace Sys2Proof.Machine

/-! What a step can do. -/

/-- What a step from `s` to `t` can be. An exchange leads from `s`, with the bus history of some `v`, to the reaction to
its byte. -/
inductive StepCase (s t : State) : Prop
  /-- The reset input (R350). -/
  | resets (rst : s.rst = true) (eq : t = resetBlock s)
  /-- Nothing but the port changes (R104, R318). -/
  | waits (p : List Byte) (eq : t = { s with port := p })
  /-- The next exchange of the operation in flight (R29). -/
  | exchanges (p : List Byte) (v : State) (b : Byte) (busy : s.busy = true) (phase : s.phase ≠ .idle)
      (kept : Kept s (withBus v { s with port := p })) (eq : t = react b (withBus v { s with port := p }))
  /-- An instruction begins and has its first exchange still to make. -/
  | begins (i : Instr) (p : List Byte) (port : decode s.port = .ok (i, p)) (busy : s.busy = false)
      (begun : Begun i { s with port := p } t)
  /-- An instruction runs to its end. -/
  | completes (i : Instr) (p : List Byte) (port : decode s.port = .ok (i, p)) (busy : s.busy = false)
      (completed : Completed i { s with port := p } t)

theorem kept_port (p : List Byte) (s : State) : Kept s { s with port := p } := .same rfl rfl rfl rfl

/-- An exchange of the operation in flight is the reaction to a byte, after the bus history of one exchange. -/
theorem crank_reacts {u : State} (phase : u.phase ≠ .idle) :
    ∃ v b, Kept u (withBus v u) ∧ crank u = react b (withBus v u) := by
  have bus := exchange_withBus (nextOut u) u
  have kept := (ran_exchange (nextOut u) u).kept
  rw [bus] at kept
  exact ⟨_, _, kept, (crank_exchange phase).trans (congrArg (react _) bus)⟩

/-- With nothing in flight between exchanges no exchange is made. -/
theorem StepCase.of_crank {s : State} (p : List Byte) (busy : s.busy = true) : StepCase s (crank { s with port := p }) := by
  by_cases phase : s.phase = .idle
  · exact .waits p (if_pos phase)
  · obtain ⟨v, b, kept, eq⟩ := crank_reacts (u := { s with port := p }) phase
    exact .exchanges p v b busy phase ((kept_port p s).trans kept) eq

theorem StepCase.of_advance {s : State} (p : List Byte) (b : Byte) (busy : s.busy = true) :
    StepCase s (advance b { s with port := p }) := by
  by_cases phase : s.phase = .idle
  · exact .waits p (if_pos phase)
  · exact .exchanges p (transfer (nextOut { s with port := p }) b { s with port := p }) b busy phase
      ((kept_port p s).trans (kept_transfer _ _ _)) (if_neg phase)

/-- A step is one of the cases. -/
theorem stepCase {s t : State} (h : step s = .next t) : StepCase s t := by
  rcases step_next h with ⟨rst, -, eq⟩ | ⟨-, eq | ⟨busy, eq⟩ | eq | ⟨i, p, port, run⟩⟩
  · exact .resets rst eq
  · exact .waits s.port eq
  · exact eq ▸ .of_crank s.port busy
  · exact .waits [] eq
  · rcases exec_next run with ⟨busy, -, eq | ⟨b, eq⟩⟩ | ⟨busy, begun | completed⟩
    · exact eq ▸ .of_crank p busy
    · exact eq ▸ .of_advance p b busy
    · exact .begins i p port busy begun
    · exact .completes i p port busy completed

/-- A step that is no reset keeps the parameters and accounts for its events. -/
theorem step_kept {s t : State} (rst : s.rst = false) (h : step s = .next t) : Kept s t := by
  cases stepCase h with
  | resets r => rw [rst] at r; cases r
  | waits p eq => exact eq ▸ kept_port p s
  | exchanges p v b _ _ kept eq => exact eq ▸ kept.trans (kept_react b _)
  | begins i p _ _ begun => exact (kept_port p s).trans begun.kept
  | completes i p _ _ completed => exact (kept_port p s).trans completed.kept

/-! The invariant. -/

/-- The invariant reads neither the bus history nor the port. -/
theorem State.Inv.withBus {s : State} (h : s.Inv) (v : State) (p : List Byte) : (withBus v { s with port := p }).Inv :=
  ⟨h.readyIff, h.capacity, h.idle, h.flight, h.sequence, h.memory, h.params⟩

theorem State.Inv.port {s : State} (h : s.Inv) (p : List Byte) : ({ s with port := p } : State).Inv := h.withBus s p

theorem State.Inv.sess {s : State} (h : s.Inv) : Sess s := ⟨h.readyIff, h.capacity, h.memory, h.params⟩

/-- The Session as a tuple keeps its part of the invariant. -/
theorem Sess.of_session {s t : State} (h : Sess s) (k : Kept s t) (e : session t = session s) : Sess t := by
  simp only [session, Prod.mk.injEq] at e
  exact h.congr (by rw [k.cfg, e.1, e.2.1, e.2.2]) (k.mem h.m)

/-- The rows that write the Session are those whose flow is the sequence (R30). -/
theorem isSequence_flowOf (i : Instr) : isSequence (flowOf i) = writesSession i := by cases i <;> rfl

theorem flow_running {s : State} {i : Instr} (h : s.running = some i) : flow s = flowOf i := by unfold flow; rw [h]

theorem fsm_of_session {s t : State} (e : session t = session s) : t.fsm = s.fsm := congrArg (fun x => x.2.1) e

theorem Begun.inv {i : Instr} {s t : State} (h : Begun i s t) (inv : s.Inv) (idle : s.busy = false) : t.Inv := by
  have fl : flow t = flowOf i := flow_running h.running
  have fits : phaseFits (flow t) t.phase = true := fl ▸ h.fits
  cases q : isSequence (flowOf i)
  case false =>
    have e := h.same ((isSequence_flowOf i).symm.trans q)
    have rest : settled t.fsm = true := (fsm_of_session e).symm ▸ (inv.idle idle).2.2
    have f : Flt t := ⟨inv.sess.of_session h.kept e, h.busy, by rw [fl, q, rest]; decide⟩
    exact f.inv fits (inSequence_of (fl ▸ q) _)
  case true =>
    obtain ⟨ready, fsm, phase⟩ := h.sequence q
    have params : t.cfg.wf := by rw [h.kept.cfg]; exact inv.params
    have sess : Sess t := ⟨by rw [ready, fsm]; decide, by simp [ready], h.kept.mem inv.memory, params⟩
    have f : Flt t := ⟨sess, h.busy, by rw [fl, q, fsm]; decide⟩
    exact f.inv fits (inSequence_at fsm (by rw [phase]; rfl))

theorem Completed.inv {i : Instr} {s t : State} (h : Completed i s t) (inv : s.Inv) (idle : s.busy = false) : t.Inv := by
  obtain ⟨busy, phase, running⟩ := h.idle
  have mem := h.kept.mem inv.memory
  have params : t.cfg.wf := by rw [h.kept.cfg]; exact inv.params
  rcases h.sequence with e | ⟨ready, fsm, count⟩ | ⟨ready, fsm⟩
  · exact (inv.sess.of_session h.kept e).done ((fsm_of_session e).symm ▸ (inv.idle idle).2.2) busy phase running
  · have sess : Sess t := ⟨by simp [ready, fsm], fun _ => by rw [count, h.kept.cfg], mem, params⟩
    exact sess.done (by rw [fsm]; rfl) busy phase running
  · have sess : Sess t := ⟨by simp [ready, fsm], by simp [ready], mem, params⟩
    exact sess.done (by rw [fsm]; rfl) busy phase running

theorem reset_inv {s : State} (h : s.Inv) : (resetBlock s).Inv :=
  Sess.done ⟨by simp [resetBlock, State.reset], by simp [resetBlock, State.reset], h.memory, h.params⟩ rfl rfl rfl rfl

/-- Settles O12: every case of a step keeps the invariant. -/
theorem everyStepKeepsTheInvariant : Obligations.EveryStepKeepsTheInvariant := by
  intro s t inv h
  cases stepCase h with
  | resets _ eq => exact eq ▸ reset_inv inv
  | waits p eq => exact eq ▸ inv.port p
  | exchanges p v b busy _ _ eq => exact eq ▸ react_inv b _ (inv.withBus v p) busy
  | begins i p _ busy begun => exact begun.inv (inv.port p) busy
  | completes i p _ busy completed => exact completed.inv (inv.port p) busy

/-! The counters. -/

theorem State.LoopsInRange.withBus {s : State} (h : s.LoopsInRange) (v : State) (p : List Byte) :
    (withBus v { s with port := p }).LoopsInRange :=
  ⟨h.framei, h.frameiNext, h.byteidx, h.byteidxNext, h.retrycnt⟩

theorem State.PollsInRange.withBus {s : State} (h : s.PollsInRange) (v : State) (p : List Byte) :
    (withBus v { s with port := p }).PollsInRange :=
  ⟨h.pollcnt, h.respPollNext, h.transferPollNext, h.sector⟩

/-- In an idle block the bounds that do not depend on the phase are all. -/
theorem Idle.counters {t : State} (h : Idle t) (b : Bounded t) : t.CountersInRange :=
  have ⟨busy, phase, _⟩ := h
  ⟨b.counters (by simp [phase]) (by simp [phase]) (by simp [phase]), polls_idle busy⟩

theorem reset_counters (s : State) : (resetBlock s).CountersInRange :=
  Idle.counters ⟨rfl, rfl, rfl⟩ ⟨Nat.zero_le _, Nat.zero_le _, Nat.zero_le _⟩

/-- Settles O13: every case of a step keeps the counters in range. -/
theorem everyStepKeepsTheCounters : Obligations.EveryStepKeepsTheCounters := by
  intro s t inv ⟨loops, polls⟩ h
  have bounded := LoopsInRange.bounded loops
  cases stepCase h with
  | resets _ eq => exact eq ▸ reset_counters s
  | waits p eq => exact eq ▸ ⟨loops.withBus s p, polls.withBus s p⟩
  | exchanges p v b busy _ _ eq =>
    exact eq ▸ ⟨counters_react (loops.withBus v p) b, polls_react b (inv.withBus v p) busy (polls.withBus v p)⟩
  | begins i p _ _ begun => exact ⟨begun.counters ⟨bounded.framei, bounded.byteidx, bounded.retrycnt⟩, begun.polls⟩
  | completes i p _ _ completed =>
    exact completed.idle.counters (completed.bounds ⟨bounded.framei, bounded.byteidx, bounded.retrycnt⟩)

/-! Parameters, ghosts, Session, select latch. -/

/-- Settles O14: a reset keeps the parameters by definition, any other step by `step_kept`. -/
theorem noStepWritesAParameter : Obligations.NoStepWritesAParameter := by
  intro s t h
  cases rst : s.rst
  case false => exact (step_kept rst h).cfg
  case true =>
    rcases step_next h with ⟨-, -, eq⟩ | ⟨r, -⟩
    · rw [eq]; rfl
    · rw [rst] at r; cases r

/-- Settles O15: every case of a step but a reset keeps the account (`step_kept`). -/
theorem everyStepAccountsForItsExchanges : Obligations.EveryStepAccountsForItsExchanges :=
  fun _ _ rst h => (step_kept rst h).account

/-- Only the sequence sends the idle bytes of `BusReset` (R211). -/
theorem phaseFits_resetIdle (f : Flow) : phaseFits f .resetIdle = isSequence f := by
  rcases f with _ | _ | _ | _ | (_ | _) | ⟨_ | _, _, _, _⟩ | _ <;> rfl

/-- Settles O16: an exchange writes the Session in the sequence only, and so does the start of an instruction. -/
theorem onlyTheSequenceWritesTheSession : Obligations.OnlyTheSequenceWritesTheSession := by
  intro s t inv rst notSeq presented h
  cases stepCase h with
  | resets r => rw [rst] at r; cases r
  | waits p eq => rw [eq]; rfl
  | exchanges p v b busy _ _ eq =>
    have notReset : s.phase ≠ .resetIdle := by
      intro e
      have fits := (inv.flight busy).1
      rw [e, phaseFits_resetIdle, notSeq] at fits
      cases fits
    rw [eq]
    exact session_react b (withBus v { s with port := p }) notSeq notReset
  | begins i p port _ begun => exact begun.same (presented i p port)
  | completes i p port _ completed => exact completed.same (presented i p port)

/-- No operation of tiers 2 and 3 is a BYTE row (R110). -/
theorem aboveTransport_and_isByteRow (i : Instr) : (aboveTransport i && isByteRow i) = false := by cases i <;> rfl

/-- Settles O18: a whole run by `exec_next`, the last exchange of a stepwise one by `closes_react`. -/
theorem everyOperationLeavesTheCardDeselected : Obligations.EveryOperationLeavesTheCardDeselected := by
  constructor
  · intro i s t tier sel h done
    rcases exec_next h with ⟨-, byte, -⟩ | ⟨-, begun | completed⟩
    · have none := aboveTransport_and_isByteRow i
      rw [tier, byte] at none
      cases none
    · rw [begun.busy] at done; cases done
    · exact completed.sel (by rintro rfl; cases tier) sel
  · intro s t rst busy notCommand notPoll h done
    cases stepCase h with
    | resets r => rw [rst] at r; cases r
    | waits p eq => rw [eq] at done; rw [busy] at done; cases done
    | exchanges p v b _ _ _ eq =>
      rw [eq] at done ⊢
      exact closes_react (s := withBus v { s with port := p }) busy notCommand notPoll b done
    | begins i p _ idle => rw [busy] at idle; cases idle
    | completes i p _ idle => rw [busy] at idle; cases idle

/-! One step, and the reset state. -/

/-- Settles O5: the port is not empty, since an empty one does not decode. -/
theorem stepRunsTheDecodedInstruction : Obligations.StepRunsTheDecodedInstruction := by
  intro s i rest rst h
  unfold step
  rw [rst]
  cases port : s.port with
  | nil => rw [port] at h; cases h
  | cons b bs =>
    rw [port] at h
    simp [h]

/-- Settles O7: a step of a running operation is the reaction to its next exchange (`crank_exchange`). -/
theorem stepMakesTheNextExchange : Obligations.StepMakesTheNextExchange := by
  intro s rst port busy phase
  have emits := exchange_emits (nextOut s) s
  refine ⟨(exchange (nextOut s) s).2, ?_, ?_, ?_⟩
  · unfold step
    rw [rst, port, busy]
    exact congrArg Host.Outcome.next (crank_exchange phase)
  · refine (exchange_withBus (nextOut s) s).trans ?_
    unfold withBus exchanged
    rw [emits.count, emits.trace]
    rfl
  · simpa using emits.heard

/-- Settles O10: the values stand in `State.reset`. -/
theorem resetLeavesTheStatedValues : Obligations.ResetLeavesTheStatedValues :=
  ⟨rfl, rfl, rfl, rfl, rfl, rfl, rfl, rfl⟩

/-- Settles O11: an idle block that is not ready, with blank memory and the default parameters. -/
theorem resetMeetsTheInvariants : Obligations.ResetMeetsTheInvariants := by
  refine ⟨Sess.done ⟨?_, ?_, ?_, ?_⟩ rfl rfl rfl rfl, reset_counters State.reset⟩
  · decide
  · intro h; cases h
  · exact ⟨.nil, by simp [State.reset]⟩
  · exact Nat.le_refl 10

end Sys2Proof.Machine

/-!
The two granularities (log 7): each operation, started in a machine stepped one exchange at a time, reaches the state its
whole run ends in. `agrees` asks for the run (Laws/Segments.lean, Laws/Stepwise.lean), and that the whole run does not read the
granularity.
-/

namespace Sys2Proof.Machine

/-! A whole run under the other granularity, at the state it starts from. -/

/-- A run that ends its operation with a result. -/
theorem started_ended {f : State → Result × State}
    (h : ∀ (lay : Overlay) s, f (lay.on s) = ((f s).1, (lay.ended (f s).1).on (f s).2)) (i : Instr) (s : State) :
    (f (started i (withGranularity true s))).2 = withGranularity true (f (started i (withGranularity false s))).2 :=
  (granularity_ended h true (started i (withGranularity false s))).2

/-! Commands and polls. -/

theorem sendCommand_on (opcode : U6) (arg : U32) (lay : Overlay) (s : State) :
    sendCommand opcode arg (lay.on s) = ((sendCommand opcode arg s).1, lay.on (sendCommand opcode arg s).2) :=
  sendLatched_on lay (latchCommand opcode arg s)

theorem runSendCommand_granularity (opcode : U6) (arg : U32) (s : State) :
    runSendCommand opcode arg (withGranularity true s) = withGranularity true (runSendCommand opcode arg s) := by
  have c := granularity_pair (sendCommand_on opcode arg) true s
  exact congrArg (fun c => deliverValue (.byte c.1) c.2) c

theorem agrees_sendCommand (opcode : U6) (arg : U32) {s : State} (idle : s.busy = false) :
    StepwiseAgrees (.sendCommand opcode arg) s :=
  agrees idle (fun _ => rfl)
    (reaches_plain false (latchCommand opcode arg (started _ (withGranularity true s))) rfl rfl) rfl
    (runSendCommand_granularity opcode arg (started _ (withGranularity false s)))

/-- A `POLL` runs the same from the state its start leads to. -/
theorem runPoll_respPoll (bound : Nat) (pred : BytePred) (out : Byte) (s : State) :
    runPoll (bound + 1) pred out { s with pollcnt := 0, phase := .respPoll } = runPoll (bound + 1) pred out s := by
  have p := atPhase_comm_pair (fun lay s => poll_on lay (bound + 1) pred.holds out s) .respPoll s
  exact congrArg (fun p => deliverValue (.poll p.1.hit p.1.last p.1.n) p.2) p

theorem runPoll_granularity (bound : Nat) (pred : BytePred) (out : Byte) (s : State) :
    runPoll bound pred out (withGranularity true s) = withGranularity true (runPoll bound pred out s) := by
  have p := granularity_pair (fun lay s => poll_on lay bound pred.holds out s) true s
  exact congrArg (fun p => deliverValue (.poll p.1.hit p.1.last p.1.n) p.2) p

/-- With bound 0 the start is the whole run (R180). -/
theorem agrees_poll (bound : Nat) (pred : BytePred) (out : Byte) {s : State} (idle : s.busy = false) :
    StepwiseAgrees (.poll bound pred out) s := by
  have granularity := runPoll_granularity bound pred out (started (.poll bound pred out) (withGranularity false s))
  cases bound with
  | zero => exact agrees idle (fun _ => rfl) (.refl _) rfl granularity
  | succ bound =>
    refine agrees idle (fun _ => rfl) ?_ rfl granularity
    rw [← runPoll_respPoll]
    exact reaches_polling { started _ (withGranularity true s) with pollcnt := 0, phase := .respPoll } bound pred out
      rfl rfl rfl

theorem wireIfCond_granularity (arg : U32) (crc : U7) (s : State) :
    wireIfCond arg crc (withGranularity true s) = withGranularity true (wireIfCond arg crc s) := by
  have g := granularity_pair sendLatched_on true (latchWire Config.opSendIfCond arg crc s)
  have e : sendLatched (latchWire Config.opSendIfCond arg crc (withGranularity true s)) = _ := g
  unfold wireIfCond
  rw [e]
  dsimp only
  split
  · have d := granularity_comm (fun lay s => drainTail_on lay Config.r7TailLen s) true
      (startLoop (sendLatched (latchWire Config.opSendIfCond arg crc s)).2)
    exact congrArg (fun t => deliverValue _ (deselect t)) d
  · rfl

theorem agrees_cmd8 (arg : U32) (crc : U7) {s : State} (idle : s.busy = false) : StepwiseAgrees (.cmd8 arg crc) s :=
  agrees idle (fun _ => rfl)
    (reaches_ifCond (latchWire Config.opSendIfCond arg crc (started _ (withGranularity true s))) rfl rfl) rfl
    (wireIfCond_granularity arg crc (started _ (withGranularity false s)))

/-- Settles O56: SEND_COMMAND, POLL and CMD8 each by its own run, the other rows by `agrees_wire`. -/
theorem stepwiseCommandsReachTheWholeRun : Obligations.StepwiseCommandsReachTheWholeRun := by
  intro s opcode arg crc bound pred out idle
  have wire : ∀ (o : U6) (i : Instr), (∀ u, exec i u = startOp i (issueWire o arg crc) (wireCommand o arg crc) u) →
      flowOf i = .command true → StepwiseAgrees i s := fun o i => agrees_wire o arg crc i s idle
  exact ⟨agrees_sendCommand opcode arg idle, agrees_poll bound pred out idle, wire _ _ (fun _ => rfl) rfl,
    wire _ _ (fun _ => rfl) rfl, agrees_cmd8 arg crc idle, wire _ _ (fun _ => rfl) rfl, wire _ _ (fun _ => rfl) rfl,
    wire _ _ (fun _ => rfl) rfl⟩

/-! Sectors. -/

/-- One sector read, from its start on: behind the ready gate (R255). -/
theorem reaches_firstRead (index : U32) (buf : Nat) {s : State} (h : flow s = .sector false) :
    Reaches (firstSector false index buf s) (readSector index buf s).2 := by
  unfold firstSector readSector
  split
  · exact reaches_oneRead (latchCommand Config.opReadSingleBlock index (select (attachBuffer buf s))) rfl h
  · exact .refl _

theorem reaches_firstWrite (index : U32) (buf : Nat) {s : State} (h : flow s = .sector true) :
    Reaches (firstSector true index buf s) (writeSector index buf s).2 := by
  unfold firstSector writeSector
  split
  · exact reaches_oneWrite (latchCommand Config.opWriteBlock index (select (attachBuffer buf s))) rfl h
  · exact .refl _

/-- The start of a sector operation makes no exchange. -/
theorem xcount_firstSector (isWrite : Bool) (index : U32) (buf : Nat) (s : State) :
    (firstSector isWrite index buf s).xcount = s.xcount := by
  unfold firstSector
  split <;> rfl

/-- A wire row's command latched at the start of `i`, under either granularity. -/
def wireStarted (opcode : U6) (arg : U32) (crc : U7) (i : Instr) (s : State) (stepwise : Bool) : State :=
  latchWire opcode arg crc (started i (withGranularity stepwise s))

theorem agrees_cmd17 (arg : U32) (crc : U7) {s : State} (idle : s.busy = false) : StepwiseAgrees (.cmd17 arg crc) s :=
  agrees idle (fun _ => rfl)
    (reaches_oneRead (wireStarted Config.opReadSingleBlock arg crc (.cmd17 arg crc) s true) rfl rfl) rfl
    (granularity_ended readLatched_on true (wireStarted Config.opReadSingleBlock arg crc (.cmd17 arg crc) s false)).2

theorem agrees_cmd24 (arg : U32) (crc : U7) {s : State} (idle : s.busy = false) : StepwiseAgrees (.cmd24 arg crc) s :=
  agrees idle (fun _ => rfl)
    (reaches_oneWrite (wireStarted Config.opWriteBlock arg crc (.cmd24 arg crc) s true) rfl rfl) rfl
    (granularity_ended writeLatched_on true (wireStarted Config.opWriteBlock arg crc (.cmd24 arg crc) s false)).2

/-- Settles O57: the port's operations behind the ready gate, the wire rows without it (log 11). -/
theorem stepwiseSectorsReachTheWholeRun : Obligations.StepwiseSectorsReachTheWholeRun := by
  intro s index arg crc buf idle
  refine ⟨?_, ?_, agrees_cmd17 arg crc idle, agrees_cmd24 arg crc idle⟩
  · exact agrees (w := fun t => (readSector index buf t).2) idle (fun _ => rfl)
      (reaches_firstRead index buf rfl) (xcount_firstSector _ _ _ _)
      (started_ended (fun lay s => readSector_on lay index buf s) _ s)
  · exact agrees (w := fun t => (writeSector index buf t).2) idle (fun _ => rfl)
      (reaches_firstWrite index buf rfl) (xcount_firstSector _ _ _ _)
      (started_ended (fun lay s => writeSector_on lay index buf s) _ s)

/-! The initialisation sequence. -/

theorem idleBytes_ne_zero {p : Params} (h : p.wf) : p.resetIdleBytes ≠ 0 := by
  have : 10 ≤ p.resetIdleBytes := h
  omega

theorem runInitialize_eq (drive : Nat) (s : State) :
    runInitialize drive s = if driveOk drive s then report true (initCard s) else (raiseError false .parameterError s).2 := rfl

/-- How the sequence is reported does not depend on the granularity. -/
theorem report_granularity (v : Bool) (s : State) :
    report v (initCard (withGranularity true s)) = withGranularity true (report v (initCard s)) := by
  obtain ⟨res, run⟩ := granularity_ended initCard_on true s
  unfold report
  rw [res, run]
  cases v
  · rfl
  · rw [if_pos rfl, if_pos rfl]
    split <;> rfl

theorem agrees_initializeDrive (drive : Nat) {s : State} (idle : s.busy = false) (params : s.cfg.wf) :
    StepwiseAgrees (.initializeDrive drive) s := by
  refine agrees idle (fun _ => rfl) ?_ ?_ ?_
  · rw [runInitialize_eq]
    unfold firstInitialize
    split
    · exact reaches_init true _ rfl (idleBytes_ne_zero params)
    · exact .refl _
  · unfold firstInitialize
    split <;> rfl
  · rw [runInitialize_eq, runInitialize_eq]
    have check : driveOk drive (started (.initializeDrive drive) (withGranularity true s)) =
      driveOk drive (started (.initializeDrive drive) (withGranularity false s)) := rfl
    rw [check]
    split
    · exact report_granularity true (started _ (withGranularity false s))
    · rfl

/-- Settles O58: both by `reaches_init`, under their two ways to report the result. -/
theorem stepwiseInitReachesTheWholeRun : Obligations.StepwiseInitReachesTheWholeRun := fun s drive idle params =>
  ⟨agrees (w := fun t => (initCard t).2) idle (fun _ => rfl)
      (reaches_init false (started .init (withGranularity true s)) rfl (idleBytes_ne_zero params)) rfl
      (started_ended initCard_on .init s),
    agrees_initializeDrive drive idle params⟩

/-! Requests of many sectors. -/

/-- The sectors of a request, reading or writing (R284, R285). -/
def transferSectors (isWrite : Bool) (sector : U32) (buf n k : Nat) (s : State) : Result × State :=
  if isWrite then writeSectors sector buf n k s else readSectors sector buf n k s

theorem transferSectors_granularity (isWrite : Bool) (sector : U32) (buf n k : Nat) (s : State) :
    (transferSectors isWrite sector buf n k (withGranularity true s)).2 =
      withGranularity true (transferSectors isWrite sector buf n k s).2 := by
  cases isWrite
  · exact congrArg Prod.snd (readSectors_granularity true sector buf n k s)
  · exact congrArg Prod.snd (writeSectors_granularity true sector buf n k s)

theorem reaches_request (isWrite : Bool) (sector : U32) (count buf : Nat) {s : State} (ready : s.ready = true)
    (h : flow s = .sectors isWrite sector count buf) :
    Reaches (firstSectors isWrite sector count buf s) (transferSectors isWrite sector buf count 0 s).2 := by
  unfold firstSectors
  cases count with
  | zero => cases isWrite <;> exact .refl _
  | succ n =>
    rw [if_neg (Nat.succ_ne_zero n)]
    cases isWrite
    · exact reaches_readSectors sector (n + 1) buf n 0 s (Nat.zero_add _) ready h
    · exact reaches_writeSectors sector (n + 1) buf n 0 s (Nat.zero_add _) ready h

theorem ready_of_gate {drive : Nat} {s : State} (h : gate drive s = none) : s.ready = true := by
  unfold gate at h
  split at h
  · split at h
    · rename_i ready
      exact ready
    · cases h
  · cases h

/-- A request behind the gate (R281), in both granularities. -/
theorem agrees_request {i : Instr} (isWrite : Bool) (sector : U32) (count buf : Nat) (drive : State → Nat) {s : State}
    (idle : s.busy = false) (fl : flowOf i = .sectors isWrite sector count buf)
    (dr : drive (started i (withGranularity true s)) = drive (started i (withGranularity false s)))
    (ex : ∀ u, exec i u = startOp i (fun t => behindGate (drive t) (firstSectors isWrite sector count buf) t)
      (fun t => behindGate (drive t) (fun t => (transferSectors isWrite sector buf count 0 t).2) t) u) :
    StepwiseAgrees i s := by
  refine agrees idle ex ?_ ?_ ?_
  · unfold behindGate
    split
    · exact .refl _
    · rename_i pass
      exact reaches_request isWrite sector count buf (ready_of_gate pass) fl
  · unfold behindGate
    split
    · exact xcount_raise _ _ _
    · unfold firstSectors
      split <;> rfl
  · unfold behindGate
    have check : gate (drive (started i (withGranularity true s))) (started i (withGranularity true s)) =
      gate (drive (started i (withGranularity false s))) (started i (withGranularity false s)) := by rw [dr]; rfl
    dsimp only
    rw [check]
    split
    · rename_i e _
      cases e <;> rfl
    · exact transferSectors_granularity isWrite sector buf count 0 (started i (withGranularity false s))

/-- An exporter's number in whole sectors (R294). -/
theorem wholeSectors_of_mod {n : Nat} (h : n % 512 = 0) : wholeSectors n = true := by
  simp [wholeSectors, Config.blockSize, h]

/-- Settles O59: every request by `agrees_request`, which inducts over the sectors in `reaches_readSectors` and
`reaches_writeSectors`. -/
theorem stepwiseRequestsReachTheWholeRun : Obligations.StepwiseRequestsReachTheWholeRun := by
  constructor
  · intro s drive sector count buf idle
    exact ⟨agrees_request false sector count buf (fun _ => drive) idle rfl rfl (fun _ => rfl),
      agrees_request true sector count buf (fun _ => drive) idle rfl rfl (fun _ => rfl)⟩
  · intro s lba byteOffset buffer length idle offset len
    have whole : (wholeSectors byteOffset && wholeSectors length) = true := by
      rw [wholeSectors_of_mod offset, wholeSectors_of_mod len]; rfl
    exact ⟨agrees_request false _ _ buffer (fun t => t.cfg.driveIndex) idle rfl rfl (fun _ => if_pos whole),
      agrees_request true _ _ buffer (fun t => t.cfg.driveIndex) idle rfl rfl (fun _ => if_pos whole)⟩

end Sys2Proof.Machine

/-!
The memory family (20_memory.md): the two sector operations from their start on, the requests sector by sector, and the round trip
through the fixture card.
-/

namespace Sys2Proof.Machine

/-! One sector. -/

/-- An operation started on an idle block that runs whole is its whole run. -/
theorem startOp_whole {s : State} (whole : Whole s) (i : Instr) (first run : State → State) :
    startOp i first run s = .next (run (started i s)) := by
  obtain ⟨idle, granularity⟩ := whole
  unfold startOp
  simp [idle, granularity, started]

/-- The state in which a sector operation sends its frame: started, its buffer attached, selected, its command latched. -/
def sectorLatched (isWrite : Bool) (index : U32) (buf : Nat) (i : Instr) (s : State) : State :=
  latchCommand (sectorOpcode isWrite) index (select (attachBuffer buf (started i s)))

theorem exec_readSector_ready {s : State} (whole : Whole s) (ready : s.ready = true) (index : U32) (buf : Nat) :
    exec (.readSector index buf) s =
      .next (readLatched (sectorLatched false index buf (.readSector index buf) s)).2 :=
  (startOp_whole whole (.readSector index buf) (firstSector false index buf) (fun t => (readSector index buf t).2)).trans
    (congrArg (fun q => Host.Outcome.next (Prod.snd q)) (if_pos ready))

theorem exec_writeSector_ready {s : State} (whole : Whole s) (ready : s.ready = true) (index : U32) (buf : Nat) :
    exec (.writeSector index buf) s =
      .next (writeLatched (sectorLatched true index buf (.writeSector index buf) s)).2 :=
  (startOp_whole whole (.writeSector index buf) (firstSector true index buf) (fun t => (writeSector index buf t).2)).trans
    (congrArg (fun q => Host.Outcome.next (Prod.snd q)) (if_pos ready))

/-- Everything READ_SECTOR does on a ready idle block (R241 to R244), with host memory as the list of writes made. -/
theorem readSector_runs {s : State} (whole : Whole s) (ready : s.ready = true) (index : U32) (buf : Nat) :
    ∃ t evs e, exec (.readSector index buf) s = .next t ∧ ReadRun s.cfg (commandFrame s.cfg 17#6 index) evs e ∧
      Emitted s t (.sel :: evs) ∧ t.mem = memWriteAll s.mem buf e.data ∧
      t = { atRest (withBus t s) with
        sel := false
        opc := 17#6
        arg := index
        frame := commandFrame s.cfg 17#6 index
        framei := 6
        pollcnt := t.pollcnt
        byteidx := t.byteidx
        loopidx := t.loopidx
        r1 := e.r1
        tok := e.tok.getD s.tok
        mem := t.mem
        bufp := buf
        res := e.res
        out := .nothing } := by
  obtain ⟨evs, e, run, emits, frame⟩ :=
    readLatched_spec (sectorLatched false index buf (.readSector index buf) s) rfl rfl
  have bus := (select_emits s).trans (⟨emits.trace, emits.count, emits.heard⟩ : Emitted (select s) _ evs)
  have state := congrArg Prod.snd frame
  refine ⟨_, evs, e, exec_readSector_ready whole ready index buf, run, bus, (congrArg State.mem state).trans rfl, ?_⟩
  generalize (readLatched _).2 = t at state
  rw [congrArg State.mem state]
  exact state

/-- Everything WRITE_SECTOR does on a ready idle block (R246 to R250). -/
theorem writeSector_runs {s : State} (whole : Whole s) (ready : s.ready = true) (index : U32) (buf : Nat) :
    ∃ t evs e, exec (.writeSector index buf) s = .next t ∧
      WriteRun s.cfg (commandFrame s.cfg 24#6 index) (hostBytes s.mem buf 512) evs e ∧ Emitted s t (.sel :: evs) ∧
      t = { atRest (withBus t s) with
        sel := false
        opc := 24#6
        arg := index
        frame := commandFrame s.cfg 24#6 index
        framei := 6
        pollcnt := t.pollcnt
        byteidx := t.byteidx
        loopidx := t.loopidx
        r1 := e.r1
        dresp := e.dresp.getD s.dresp
        busyb := e.busyb.getD s.busyb
        bufp := buf
        res := e.res
        out := .nothing } := by
  obtain ⟨evs, e, run, emits, frame⟩ :=
    writeLatched_spec (sectorLatched true index buf (.writeSector index buf) s) rfl rfl
  rw [bufBytes_eq_hostBytes] at run
  have bus := (select_emits s).trans (⟨emits.trace, emits.count, emits.heard⟩ : Emitted (select s) _ evs)
  have state := congrArg Prod.snd frame
  refine ⟨_, evs, e, exec_writeSector_ready whole ready index buf, run, bus, ?_⟩
  generalize (writeLatched _).2 = t at state
  exact state

/-- Settles O43: the run of `readSector_runs`, whose writes to host memory read back by `memRead_memWriteAll`. -/
theorem readSectorRunsItsTransaction : Obligations.ReadSectorRunsItsTransaction := by
  intro s index buf whole ready canonical
  obtain ⟨t, evs, e, ex, run, emits, mem, frame⟩ := readSector_runs whole ready index buf
  refine ⟨t, evs, e, ex, run, emits, fun a => ?_, frame⟩
  rw [mem]
  exact memRead_memWriteAll canonical buf e.data a

/-! Block and card. -/

/-- The events of a run are fixed by the states it leads from and to. -/
theorem Emitted.unique {s t : State} {a b : List Event} (h : Emitted s t a) (k : Emitted s t b) : a = b :=
  List.append_cancel_left (h.trace.symm.trans k.trace)

/-- What is written from an address on is what stands there. -/
theorem hostBytes_memWriteAll {m : Memory} (canonical : m.wf) (a : Nat) (bytes : List Byte) :
    hostBytes (memWriteAll m a bytes) a bytes.length = bytes := by
  apply List.ext_getElem
  · simp [hostBytes]
  · intro i _ inside
    simp [hostBytes, memRead_memWriteAll canonical, inside]

/-- Settles O60: the write leaves its payload in the card (`card_write`), the read delivers what the card holds (`card_read`). -/
theorem writeThenReadReturnsThePayload : Obligations.WriteThenReadReturnsThePayload := by
  intro s t u c d e evs more index buf buf' whole ready canonical fill quiet write writeEmits writeAnswers writeOk
    read readEmits readAnswers readOk
  have length : (hostBytes s.mem buf 512).length = 512 := by simp [hostBytes]
  obtain ⟨t', wevs, w, ex, wrun, wemits, wframe⟩ := writeSector_runs whole ready index buf
  obtain rfl : t' = t := Host.Outcome.next.inj (ex.symm.trans write)
  obtain rfl := writeEmits.unique wemits
  have cfg : t'.cfg = s.cfg := by rw [wframe]; rfl
  have mem : t'.mem = s.mem := by rw [wframe]; rfl
  have wok : w.res = .ok := by rw [wframe] at writeOk; exact writeOk
  have whole' : Whole t' := ⟨by rw [wframe]; rfl, by rw [cfg]; exact whole.2⟩
  have ready' : t'.ready = true := by rw [wframe]; exact ready
  obtain ⟨quiet', store⟩ := card_write quiet fill length wrun wok writeAnswers
  have held : d.store index = hostBytes s.mem buf 512 := by rw [store]; exact if_pos rfl
  obtain ⟨u', revs, r, ex', rrun, remits, rmem, rframe⟩ := readSector_runs whole' ready' index buf'
  obtain rfl : u' = u := Host.Outcome.next.inj (ex'.symm.trans read)
  obtain rfl := readEmits.unique remits
  have rok : r.res = .ok := by rw [rframe] at readOk; exact readOk
  have data : r.data = hostBytes s.mem buf 512 :=
    (card_read quiet' (by rw [cfg]; exact fill) (by rw [held]; exact length) rrun rok readAnswers).trans held
  have back := hostBytes_memWriteAll canonical buf' (hostBytes s.mem buf 512)
  rw [length] at back
  rw [rmem, mem, data]
  exact back

/-! Requests of many sectors. -/

/-- READ_SECTOR or WRITE_SECTOR, as a function. -/
def transferSector (isWrite : Bool) (index : U32) (buf : Nat) (s : State) : Result × State :=
  if isWrite then writeSector index buf s else readSector index buf s

/-- READ_SECTOR or WRITE_SECTOR, as an instruction. -/
def sectorInstr : Bool → U32 → Nat → Instr
  | false => .readSector
  | true => .writeSector

/-- `read` or `write`, as an instruction. -/
def requestInstr : Bool → Nat → U32 → Nat → Nat → Instr
  | false => .read
  | true => .write

/-- The model's number of the sector in transit, one higher. -/
def nextNumber (s : State) : State := { s with sectidx := s.sectidx + 1#32, sectno := s.sectno + 1 }

theorem nextNumber_atSector (k : Nat) (s : State) : nextNumber (atSector k s) = atSector (k + 1) s := by
  have : BitVec.ofNat 32 k + 1#32 = BitVec.ofNat 32 (k + 1) := (BitVec.ofNat_add k 1).symm
  unfold nextNumber atSector
  rw [← this]

theorem transferSector_on (isWrite : Bool) (index : U32) (buf : Nat) (lay : Overlay) (s : State) :
    transferSector isWrite index buf (lay.on s) =
      ((transferSector isWrite index buf s).1,
        (lay.ended (transferSector isWrite index buf s).1).on (transferSector isWrite index buf s).2) := by
  cases isWrite
  · exact readSector_on lay index buf s
  · exact writeSector_on lay index buf s

theorem ended_transferSector (isWrite : Bool) (index : U32) (buf : Nat) (s : State) :
    Ended (transferSector isWrite index buf s) := by
  cases isWrite
  · exact ended_readSector index buf s
  · exact ended_writeSector index buf s

theorem ran_transferSector (isWrite : Bool) (index : U32) (buf : Nat) (s : State) :
    Ran s (transferSector isWrite index buf s).2 := by
  cases isWrite
  · exact ran_readSector index buf s
  · exact ran_writeSector index buf s

/-- A run that ends its operation leaves the number of its sector alone. -/
theorem ended_atSector {f : State → Result × State}
    (h : ∀ (lay : Overlay) s, f (lay.on s) = ((f s).1, (lay.ended (f s).1).on (f s).2)) (k : Nat) (s : State) :
    f (atSector k s) = ((f s).1, atSector k (f s).2) := by
  have own := congrArg (fun q => q.2.overlay) (h s.overlay s)
  rw [overlay_on_self] at own
  have numbered : atSector k s = ({ s.overlay with sectidx := BitVec.ofNat 32 k, sectno := k } : Overlay).on s := rfl
  have kept : atSector k (f s).2 =
      ({ (f s).2.overlay with sectidx := BitVec.ofNat 32 k, sectno := k } : Overlay).on (f s).2 := rfl
  rw [numbered, h, kept, own]
  rfl

/-- A sector is run the same whatever operation it belongs to. -/
theorem transferSector_started (isWrite : Bool) (index : U32) (buf : Nat) (i : Instr) (s : State) :
    transferSector isWrite index buf (started i s) = transferSector isWrite index buf s :=
  ended_overlay (transferSector_on isWrite index buf)
    (lay := { s.overlay with busy := true, running := some i }) (s := s) rfl rfl

theorem transferSectors_zero (isWrite : Bool) (sector : U32) (buf k : Nat) (s : State) :
    transferSectors isWrite sector buf 0 k s = deliverOk .nothing s := by cases isWrite <;> rfl

/-- One sector of a request, and the rest of it or its end (R284, R285). -/
theorem transferSectors_succ (isWrite : Bool) (sector : U32) (buf n k : Nat) (s : State) :
    transferSectors isWrite sector buf (n + 1) k s =
      (let q := transferSector isWrite (sectorAt sector k) (bufferAt buf k) s
       if q.1 = .ok then transferSectors isWrite sector buf n (k + 1) (atSector k q.2) else (q.1, atSector k q.2)) := by
  have numbered := ended_atSector (transferSector_on isWrite (sectorAt sector k) (bufferAt buf k)) k s
  have unfolded : transferSectors isWrite sector buf (n + 1) k s =
      (let q := transferSector isWrite (sectorAt sector k) (bufferAt buf k) (atSector k s)
       if q.1 = .ok then transferSectors isWrite sector buf n (k + 1) q.2 else q) := by cases isWrite <;> rfl
  rw [unfolded, numbered]

/-- A request gives its sectors their numbers itself. -/
theorem transferSectors_atSector (isWrite : Bool) (sector : U32) (buf n k j : Nat) (s : State) :
    transferSectors isWrite sector buf (n + 1) k (atSector j s) = transferSectors isWrite sector buf (n + 1) k s := by
  rw [transferSectors_succ, transferSectors_succ,
    ended_atSector (transferSector_on isWrite (sectorAt sector k) (bufferAt buf k))]
  rfl

theorem transferSectors_started (isWrite : Bool) (sector : U32) (buf n k : Nat) (i : Instr) (s : State) :
    transferSectors isWrite sector buf n k (started i s) = transferSectors isWrite sector buf n k s := by
  cases n with
  | zero => rw [transferSectors_zero, transferSectors_zero]; rfl
  | succ n => rw [transferSectors_succ, transferSectors_succ, transferSector_started]

/-- The sectors from the next number on are those of a request that begins one sector and 512 bytes later. -/
theorem transferSectors_shift (isWrite : Bool) (sector : U32) (buf n k : Nat) (s : State) :
    transferSectors isWrite sector buf (n + 1) (k + 1) s =
      ((transferSectors isWrite (sector + 1#32) (buf + 512) (n + 1) k s).1,
        nextNumber (transferSectors isWrite (sector + 1#32) (buf + 512) (n + 1) k s).2) := by
  have index : ∀ k, sectorAt (sector + 1#32) k = sectorAt sector (k + 1) := fun k => by
    unfold sectorAt
    rw [BitVec.ofNat_add, BitVec.add_comm (BitVec.ofNat 32 k), BitVec.add_assoc]
  have address : ∀ k, bufferAt (buf + 512) k = bufferAt buf (k + 1) := fun k => by
    unfold bufferAt Config.blockSize
    omega
  induction n generalizing k s with
  | zero =>
    rw [transferSectors_succ, transferSectors_succ, index, address]
    dsimp only
    split
    · rw [transferSectors_zero, transferSectors_zero, ← nextNumber_atSector]; rfl
    · rw [nextNumber_atSector]
  | succ n ih =>
    rw [transferSectors_succ, transferSectors_succ _ _ (buf + 512), index, address]
    dsimp only
    split
    · rw [ih, transferSectors_atSector, transferSectors_atSector]
    · rw [nextNumber_atSector]

theorem exec_sectorInstr {s : State} (whole : Whole s) (isWrite : Bool) (index : U32) (buf : Nat) :
    exec (sectorInstr isWrite index buf) s = .next (transferSector isWrite index buf s).2 := by
  rw [← transferSector_started isWrite index buf (sectorInstr isWrite index buf)]
  cases isWrite
  · exact startOp_whole whole _ (firstSector false index buf) (fun t => (readSector index buf t).2)
  · exact startOp_whole whole _ (firstSector true index buf) (fun t => (writeSector index buf t).2)

/-- A request behind both checks is its sectors (R281). -/
theorem exec_requestInstr {s : State} (whole : Whole s) (ready : s.ready = true) (isWrite : Bool) (sector : U32)
    (count buf : Nat) :
    exec (requestInstr isWrite s.cfg.driveIndex sector count buf) s =
      .next (transferSectors isWrite sector buf count 0 s).2 := by
  rw [← transferSectors_started isWrite sector buf count 0 (requestInstr isWrite s.cfg.driveIndex sector count buf)]
  have pass : ∀ i, gate s.cfg.driveIndex (started i s) = none := fun i => by simp [gate, driveOk, ready]
  cases isWrite <;> refine (startOp_whole whole _ _ _).trans (congrArg _ ?_)
  · unfold runRead behindGate; rw [pass]; rfl
  · unfold runWrite behindGate; rw [pass]; rfl

/-- A request from its first sector on, reading or writing (R284, R285). -/
theorem request_sector_by_sector (isWrite : Bool) {s : State} (sector : U32) (buf : Nat) (whole : Whole s)
    (ready : s.ready = true) :
    exec (requestInstr isWrite s.cfg.driveIndex sector 0 buf) s = .next { atRest s with res := .ok, out := .nothing } ∧
    ∀ n, ∃ u, exec (sectorInstr isWrite sector buf) s = .next u ∧
      (u.res ≠ .ok → exec (requestInstr isWrite s.cfg.driveIndex sector (n + 1) buf) s =
        .next { u with sectidx := 0#32, sectno := 0 }) ∧
      (u.res = .ok → ∃ v,
        exec (requestInstr isWrite s.cfg.driveIndex (sector + 1#32) n (buf + 512)) u = .next v ∧
        exec (requestInstr isWrite s.cfg.driveIndex sector (n + 1) buf) s = .next
          { v with sectidx := if n = 0 then 0#32 else v.sectidx + 1#32, sectno := if n = 0 then 0 else v.sectno + 1 }) := by
  constructor
  · rw [exec_requestInstr whole ready, transferSectors_zero]; rfl
  intro n
  have first := transferSectors_succ isWrite sector buf n 0 s
  rw [show sectorAt sector 0 = sector from BitVec.add_zero sector, show bufferAt buf 0 = buf from rfl] at first
  have ended := ended_transferSector isWrite sector buf s
  have ran := ran_transferSector isWrite sector buf s
  have one := exec_sectorInstr whole isWrite sector buf
  have all := exec_requestInstr whole ready isWrite sector (n + 1) buf
  rw [first] at all
  generalize transferSector isWrite sector buf s = q at ended ran one all
  refine ⟨q.2, one, fun failed => ?_, fun ok => ?_⟩
  · rw [ended.res] at failed
    rw [all, if_neg failed]; rfl
  · rw [ended.res] at ok
    have cfg := ran.kept.cfg
    have whole' : Whole q.2 := ⟨ended.busy, by rw [cfg]; exact whole.2⟩
    have ready' : q.2.ready = true := (congrArg Prod.fst ran.session).trans ready
    have rest := exec_requestInstr whole' ready' isWrite (sector + 1#32) n (buf + 512)
    rw [cfg] at rest
    refine ⟨_, rest, ?_⟩
    rw [all, if_pos ok]
    cases n with
    | zero => rw [transferSectors_zero, transferSectors_zero]; rfl
    | succ n => rw [transferSectors_atSector, transferSectors_shift]; rfl

/-- Settles O47: the request of `request_sector_by_sector` that reads. -/
theorem readRequestGoesSectorBySector : Obligations.ReadRequestGoesSectorBySector := by
  rintro s _ sector buf whole rfl ready
  exact request_sector_by_sector false sector buf whole ready

/-- Settles O48: the request of `request_sector_by_sector` that writes. -/
theorem writeRequestGoesSectorBySector : Obligations.WriteRequestGoesSectorBySector := by
  rintro s _ sector buf whole rfl ready
  exact request_sector_by_sector true sector buf whole ready

end Sys2Proof.Machine

/-!
The encoding family (30_encoding.md), the bytes at the port: the decoder and the encoder undo one another (R90 to R102, R110,
R111).
-/

namespace Sys2Proof

/-! Reading back what the encoder writes. -/

/-- A frame with an opcode of no row of its own is `CMD_FRAME` (R95). -/
theorem frameRow_of_unnamed {opcode : U6} (unnamed : namedOpcodes.contains opcode = false) (arg : U32) (crc7 : U7) :
    frameRow opcode arg crc7 = .cmdFrame opcode arg crc7 := by
  simp_all [frameRow, namedOpcodes]

theorem byteRow_r1Valid : ∀ flags : U7, byteRow 1 (0#1 ++ flags) = some (.r1Valid flags) := by decide

theorem byteRow_r1NotYet : ∀ low : U7, byteRow 2 (1#1 ++ low) = some (.r1NotYet low) := by decide

theorem byteRow_drespAccepted : ∀ x : BitVec 3, byteRow 5 (responseByte x 0b00101#5) = some (.drespAccepted x) := by decide

theorem byteRow_drespCrcError : ∀ x : BitVec 3, byteRow 6 (responseByte x 0b01011#5) = some (.drespCrcError x) := by decide

theorem byteRow_drespWriteError : ∀ x : BitVec 3, byteRow 7 (responseByte x 0b01101#5) = some (.drespWriteError x) := by
  decide

theorem byteRow_drespOther : ∀ (x : BitVec 3) (r : BitVec 5), namedResponses.contains r = false →
    byteRow 8 (responseByte x r) = some (.drespOther x r) := by decide

/-- A first byte that R110 assigns is read as a selector. -/
theorem decode_selector {n : Nat} (assigned : n ∈ selectors) (bs : List Byte) :
    decode (BitVec.ofNat 8 n :: bs) = decodeHostOp (BitVec.ofNat 8 n) bs := by
  have apart : ∀ n ∈ selectors, (BitVec.ofNat 8 n).extractLsb' 6 2 ≠ 0b01#2 ∧
      ¬ (byteTagBase ≤ (BitVec.ofNat 8 n).toNat ∧ (BitVec.ofNat 8 n).toNat < byteTagBase + byteTagCount) := by decide
  exact decode_hostOp _ bs (apart n assigned).1 (apart n assigned).2

/-- A reader that goes on from a successful one. -/
theorem ok_bind {α β : Type} (a : α) (f : α → Except DecodeError β) : (Except.ok a >>= f) = f a := rfl

/-- An `ioctl` is read as the row of its sub-command (R111). -/
theorem decode_ioctl (drive sub : Nat) (hd : fitsPort drive = true) (hs : fitsPort sub = true) (rest : List Byte) :
    decode (0x14#8 :: portBytes drive ++ portBytes sub ++ rest) = .ok (ioctlRow drive sub, rest) := by
  simp only [List.cons_append, List.append_assoc]
  refine (decode_selector (by decide) _).trans ?_
  simp only [decodeHostOp, takePort_bytes, hd, hs, ok_bind]
  rfl

/-- Each row of the table by its format: frames, tagged bytes, selectors with their operands. -/
theorem decode_encode (i : Instr) (rest : List Byte) (wf : i.wf = true) : decode (encode i ++ rest) = .ok (i, rest) := by
  cases i with
  | cmdFrame opcode arg crc7 =>
    rw [encode, decode_frame, frameRow_of_unnamed (by simpa [Instr.wf] using wf)]
  | cmd0 arg crc7 | cmd8 arg crc7 | cmd16 arg crc7 | cmd17 arg crc7 | cmd24 arg crc7 | acmd41 arg crc7 | cmd55 arg crc7 =>
    exact decode_frame _ arg crc7 rest
  | dataStartToken => exact decode_tagged 0 _ _ rest (by decide) rfl
  | r1Valid flags => exact decode_tagged 1 _ _ rest (by decide) (byteRow_r1Valid flags)
  | r1NotYet low => exact decode_tagged 2 _ _ rest (by decide) (byteRow_r1NotYet low)
  | r1IdleExact => exact decode_tagged 3 _ _ rest (by decide) rfl
  | r1ReadyExact => exact decode_tagged 4 _ _ rest (by decide) rfl
  | drespAccepted x => exact decode_tagged 5 _ _ rest (by decide) (byteRow_drespAccepted x)
  | drespCrcError x => exact decode_tagged 6 _ _ rest (by decide) (byteRow_drespCrcError x)
  | drespWriteError x => exact decode_tagged 7 _ _ rest (by decide) (byteRow_drespWriteError x)
  | drespOther x r => exact decode_tagged 8 _ _ rest (by decide) (byteRow_drespOther x r (by simpa [Instr.wf] using wf))
  | busyByte => exact decode_tagged 9 _ _ rest (by decide) rfl
  | fillByte => exact decode_tagged 10 _ _ rest (by decide) rfl
  | exchange | select | deselect | init | testUnitReady | capacity => exact decode_selector (by decide) _
  | sendCommand opcode arg =>
    have fits : ∀ o : U6, (0#2 ++ o).extractLsb' 6 2 = 0#2 ∧ (0#2 ++ o).extractLsb' 0 6 = o := by decide
    simp only [encode, List.cons_append]
    refine (decode_selector (by decide) _).trans ?_
    simp only [decodeHostOp, takeByte, takeU32_bytes, fits, ok_bind]
    rfl
  | poll bound pred out =>
    simp only [Instr.wf] at wf
    simp only [encode, List.cons_append, List.append_assoc]
    refine (decode_selector (by decide) _).trans ?_
    simp only [decodeHostOp, takePort_bytes, takeByte, takeTable_bytes, wf, ok_bind, BitVec.ofNat_toNat, BitVec.setWidth_eq]
    rfl
  | readSector index buf | writeSector index buf | status drive | initializeDrive drive | read drive sector count buf
  | write drive sector count buf | read10 lba byteOffset buffer length | write10 lba byteOffset buffer length =>
    simp only [Instr.wf, Bool.and_eq_true] at wf
    simp only [encode, List.cons_append, List.append_assoc]
    refine (decode_selector (by decide) _).trans ?_
    simp only [decodeHostOp, takePort_bytes, takeU32_bytes, wf, ok_bind]
    rfl
  | ioctlSync drive => exact decode_ioctl drive 0 wf (by decide) rest
  | ioctlGetSectorCount drive => exact decode_ioctl drive 1 wf (by decide) rest
  | ioctlGetSectorSize drive => exact decode_ioctl drive 2 wf (by decide) rest
  | ioctlGetBlockSize drive => exact decode_ioctl drive 3 wf (by decide) rest
  | ioctlUnknown drive sub =>
    simp only [Instr.wf, Bool.and_eq_true, decide_eq_true_eq] at wf
    obtain ⟨⟨hd, hs⟩, unknown⟩ := wf
    have row : ioctlRow drive sub = .ioctlUnknown drive sub := by
      unfold ioctlRow
      rw [if_neg (by omega), if_neg (by omega), if_neg (by omega), if_neg (by omega)]
    have read := decode_ioctl drive sub hd hs rest
    rwa [row] at read

/-! The bytes of what the decoder reads. -/

theorem commandByte_of_high : ∀ b : Byte, b.extractLsb' 6 2 = 0b01#2 → commandByte (b.extractLsb' 0 6) = b := by decide

theorem checkByte_of_end : ∀ b : Byte, b.getLsbD 0 = true → checkByte (b.extractLsb' 1 7) = b := by decide

/-- A frame read is the row of its fields, and six bytes of those fields. -/
theorem decodeFrame_inv {first : Byte} (high : first.extractLsb' 6 2 = 0b01#2) {bs : List Byte} {i : Instr} {rest : List Byte}
    (h : decodeFrame first bs = .ok (i, rest)) : i.wf = true ∧ first :: bs = encode i ++ rest := by
  unfold decodeFrame at h
  split at h
  · rename_i a3 a2 a1 a0 c tail
    split at h
    · rename_i ends
      cases h
      obtain ⟨wf, bytes⟩ := frameRow_inv (first.extractLsb' 0 6) (a3 ++ a2 ++ a1 ++ a0) (c.extractLsb' 1 7)
      obtain ⟨h3, h2, h1, h0⟩ := extract_join a3 a2 a1 a0
      refine ⟨wf, ?_⟩
      simp only [bytes, frameBytes, argBytes, h3, h2, h1, h0, commandByte_of_high first high, checkByte_of_end c ends,
        List.cons_append, List.nil_append]
    · cases h
  · cases h

/-- A BYTE row read has its tag and its byte. -/
theorem decodeByteRow_inv {tag : Nat} (assigned : tag < byteTagCount) {bs : List Byte} {i : Instr} {rest : List Byte}
    (h : decodeByteRow tag bs = .ok (i, rest)) : i.wf = true ∧ BitVec.ofNat 8 (byteTagBase + tag) :: bs = encode i ++ rest := by
  obtain ⟨b, hb, h⟩ := bind_ok h
  have byte := takeByte_inv hb
  split at h
  · rename_i row
    cases h
    obtain ⟨wf, bytes⟩ := byteRow_inv tag assigned b.1 i row
    exact ⟨wf, by rw [bytes, byte]; rfl⟩
  · cases h

/-- The row of a sub-command is well-formed and has the bytes of its operands (R111). -/
theorem ioctlRow_inv {drive sub : Nat} (hd : fitsPort drive = true) (hs : fitsPort sub = true) :
    (ioctlRow drive sub).wf = true ∧ encode (ioctlRow drive sub) = 0x14#8 :: portBytes drive ++ portBytes sub := by
  unfold ioctlRow
  split; · subst_vars; exact ⟨hd, rfl⟩
  split; · subst_vars; exact ⟨hd, rfl⟩
  split; · subst_vars; exact ⟨hd, rfl⟩
  split; · subst_vars; exact ⟨hd, rfl⟩
  refine ⟨?_, rfl⟩
  simp only [Instr.wf, hd, hs, Bool.true_and, decide_eq_true_eq]
  omega

theorem opcode_of_narrow : ∀ b : Byte, b.extractLsb' 6 2 = 0#2 → 0#2 ++ b.extractLsb' 0 6 = b := by decide

/-- A host operation read fits the port and is its selector and its operands (R110), one case for each selector. -/
theorem decodeHostOp_inv {opsel : Byte} {bs : List Byte} {i : Instr} {rest : List Byte}
    (h : decodeHostOp opsel bs = .ok (i, rest)) : i.wf = true ∧ opsel :: bs = encode i ++ rest := by
  unfold decodeHostOp at h
  split at h
  -- EXCHANGE
  case h_1 =>
    obtain ⟨out, h0, h⟩ := bind_ok h
    have byte := takeByte_inv h0
    cases h
    exact ⟨rfl, by rw [byte]; rfl⟩
  -- SELECT, DESELECT, INIT, test_unit_ready, capacity
  case h_2 | h_3 | h_6 | h_14 | h_15 => cases h; exact ⟨rfl, rfl⟩
  -- SEND_COMMAND
  case h_4 =>
    obtain ⟨opcode, h0, h⟩ := bind_ok h
    have byte := takeByte_inv h0
    dsimp only at h
    split at h
    · cases h
    · rename_i narrow
      obtain ⟨arg, h1, h⟩ := bind_ok h
      have bytes := takeU32_inv h1
      cases h
      refine ⟨rfl, ?_⟩
      rw [encode, opcode_of_narrow _ (not_not.mp narrow), byte, bytes]
      rfl
  -- POLL
  case h_5 =>
    obtain ⟨bound, h0, h⟩ := bind_ok h
    obtain ⟨fits, bytes⟩ := takePort_inv h0
    obtain ⟨out, h1, h⟩ := bind_ok h
    have byte := takeByte_inv h1
    obtain ⟨table, h2, h⟩ := bind_ok h
    obtain ⟨v, small, number, tail⟩ := takeNat_inv 32 0 _ table.1 table.2 h2
    cases h
    refine ⟨fits, ?_⟩
    have same : (BitVec.ofNat 256 table.1).toNat = v := by
      rw [number, Nat.zero_mul, Nat.zero_add, BitVec.toNat_ofNat, Nat.mod_eq_of_lt (by simpa using small)]
    simp only [encode, same, bytes, byte, tail, List.cons_append, List.append_assoc]
  -- READ_SECTOR, WRITE_SECTOR
  case h_7 | h_8 =>
    obtain ⟨index, h0, h⟩ := bind_ok h
    have bytes0 := takeU32_inv h0
    obtain ⟨buf, h1, h⟩ := bind_ok h
    obtain ⟨fits, bytes1⟩ := takePort_inv h1
    cases h
    exact ⟨fits, by simp only [encode, bytes0, bytes1, List.cons_append, List.append_assoc]⟩
  -- the two calls whose one operand is the drive
  case h_9 | h_10 =>
    obtain ⟨drive, h0, h⟩ := bind_ok h
    obtain ⟨fits, bytes⟩ := takePort_inv h0
    cases h
    exact ⟨fits, by simp only [encode, bytes, List.cons_append]⟩
  -- read, write
  case h_11 | h_12 =>
    obtain ⟨drive, h0, h⟩ := bind_ok h
    obtain ⟨fits0, bytes0⟩ := takePort_inv h0
    obtain ⟨sector, h1, h⟩ := bind_ok h
    have bytes1 := takeU32_inv h1
    obtain ⟨count, h2, h⟩ := bind_ok h
    obtain ⟨fits2, bytes2⟩ := takePort_inv h2
    obtain ⟨buf, h3, h⟩ := bind_ok h
    obtain ⟨fits3, bytes3⟩ := takePort_inv h3
    cases h
    refine ⟨by simp only [Instr.wf, fits0, fits2, fits3, Bool.and_self], ?_⟩
    simp only [encode, bytes0, bytes1, bytes2, bytes3, List.cons_append, List.append_assoc]
  -- ioctl
  case h_13 =>
    obtain ⟨drive, h0, h⟩ := bind_ok h
    obtain ⟨fits0, bytes0⟩ := takePort_inv h0
    obtain ⟨sub, h1, h⟩ := bind_ok h
    obtain ⟨fits1, bytes1⟩ := takePort_inv h1
    cases h
    obtain ⟨wf, bytes⟩ := ioctlRow_inv fits0 fits1
    refine ⟨wf, ?_⟩
    simp only [bytes, bytes0, bytes1, List.cons_append, List.append_assoc]
  -- read10, write10
  case h_16 | h_17 =>
    obtain ⟨lba, h0, h⟩ := bind_ok h
    have bytes0 := takeU32_inv h0
    obtain ⟨byteOffset, h1, h⟩ := bind_ok h
    obtain ⟨fits1, bytes1⟩ := takePort_inv h1
    obtain ⟨buffer, h2, h⟩ := bind_ok h
    obtain ⟨fits2, bytes2⟩ := takePort_inv h2
    obtain ⟨length, h3, h⟩ := bind_ok h
    obtain ⟨fits3, bytes3⟩ := takePort_inv h3
    cases h
    refine ⟨by simp only [Instr.wf, fits1, fits2, fits3, Bool.and_self], ?_⟩
    simp only [encode, bytes0, bytes1, bytes2, bytes3, List.cons_append, List.append_assoc]
  case h_18 => cases h

/-- The decoder's three formats: a frame, a tagged byte, a selector. -/
theorem encode_decode {bytes : List Byte} {i : Instr} {rest : List Byte} (h : decode bytes = .ok (i, rest)) :
    i.wf = true ∧ bytes = encode i ++ rest := by
  unfold decode at h
  split at h
  · cases h
  rename_i first tail
  split at h
  · rename_i high
    exact decodeFrame_inv high h
  split at h
  · rename_i tagged
    have tag : BitVec.ofNat 8 (byteTagBase + (first.toNat - byteTagBase)) = first := by
      rw [Nat.add_sub_cancel' tagged.1, BitVec.ofNat_toNat, BitVec.setWidth_eq]
    have inv := decodeByteRow_inv (by omega) h
    rwa [tag] at inv
  · exact decodeHostOp_inv h

/-! Words of 48 bits. -/

/-- A 48-bit word that has the fixed bits of R91 is, most significant byte first, the frame of its fields (log 3). -/
theorem bytesOfNat_frameWord (w : BitVec 48) (high : w.extractLsb' 46 2 = 0b01#2) (ends : w.getLsbD 0 = true) :
    bytesOfNat 6 w.toNat = frameBytes (w.extractLsb' 40 6) (w.extractLsb' 8 32) (w.extractLsb' 1 7) := by
  have byte : ∀ k, BitVec.ofNat 8 (w.toNat / 256 ^ k) = w.extractLsb' (8 * k) 8 := fun k => by
    apply BitVec.eq_of_toNat_eq
    rw [BitVec.toNat_ofNat, BitVec.extractLsb'_toNat, Nat.shiftRight_eq_div_pow, pow_mul]
    norm_num
  have first : w.extractLsb' 40 8 = commandByte (w.extractLsb' 40 6) := by
    rw [commandByte, ← high]
    apply BitVec.eq_of_getLsbD_eq
    intro i hi
    simp only [BitVec.getLsbD_append, BitVec.getLsbD_extractLsb']
    interval_cases i <;> simp
  have last : w.extractLsb' 0 8 = checkByte (w.extractLsb' 1 7) := by
    apply BitVec.eq_of_getLsbD_eq
    intro i hi
    simp only [checkByte, BitVec.getLsbD_append, BitVec.getLsbD_extractLsb']
    interval_cases i <;> simp [ends]
  have arg : argBytes (w.extractLsb' 8 32) =
      [w.extractLsb' 32 8, w.extractLsb' 24 8, w.extractLsb' 16 8, w.extractLsb' 8 8] := by
    have inner : ∀ n, n + 8 ≤ 32 → (w.extractLsb' 8 32).extractLsb' n 8 = w.extractLsb' (8 + n) 8 := fun n fits => by
      apply BitVec.eq_of_getLsbD_eq
      intro i hi
      simp only [BitVec.getLsbD_extractLsb', Nat.add_assoc, hi, show n + i < 32 by omega, decide_true, Bool.true_and]
    simp [argBytes, inner]
  simp only [bytesOfNat, byte, frameBytes, arg, ← first, ← last]
  rfl

/-- Settles O2: `decode_encode`. -/
theorem decodeReadsBackEncode : Obligations.DecodeReadsBackEncode := fun i rest wf => decode_encode i rest wf

/-- Settles O3: `encode_decode`. -/
theorem decodedBytesAreTheirEncoding : Obligations.DecodedBytesAreTheirEncoding := fun _ _ _ h => encode_decode h

/-- Settles O4: the word's bytes are a frame (`bytesOfNat_frameWord`), which is read as its row (`decode_frame`). -/
theorem frameWordsDecodeByTheirFields : Obligations.FrameWordsDecodeByTheirFields := by
  intro w high ends
  have bytes : tableBytes 48 w.toNat = _ ++ operandZeros :=
    congrArg (· ++ operandZeros) (bytesOfNat_frameWord w high ends)
  unfold decodeTableWord
  rw [bytes, decode_frame]

/-- Settles O1: the decoder, run on each word. -/
theorem specWordsDecode : Obligations.SpecWordsDecode := by
  unfold Obligations.SpecWordsDecode
  decide +kernel

end Sys2Proof

/-!
The encoding family (30_encoding.md), the rows as instructions: the wire commands as whole transactions (R91, R105), the byte
rows as exchanges (R96 to R102) and the frames INIT sends (R213).
-/

namespace Sys2Proof.Machine

/-! The wire commands (R91, R105; logs 11 and 35): each row's own frame, then what the shared transactions do. -/

theorem commandByte_eq_or : ∀ opcode : U6, commandByte opcode = 0x40#8 ||| opcode.setWidth 8 := by decide

theorem checkByte_eq_or : ∀ crc : U7, checkByte crc = (crc.setWidth 8 <<< 1) ||| 0x01#8 := by decide

/-- The frame of a row, its fields written out (R91). -/
theorem wireFrame_fields (opcode : U6) (arg : U32) (crc : U7) :
    wireFrame opcode arg crc = ⟨0x40#8 ||| opcode.setWidth 8, arg.extractLsb' 24 8, arg.extractLsb' 16 8, arg.extractLsb' 8 8,
      arg.extractLsb' 0 8, (crc.setWidth 8 <<< 1) ||| 0x01#8⟩ := by
  rw [← commandByte_eq_or, ← checkByte_eq_or]
  rfl

/-- Everything a wire command does up to its response (R91, R182), as `sendLatched_spec`, from the state before its `Sel`. -/
theorem sendLatched_wire (opcode : U6) (arg : U32) (crc : U7) (s : State) :
    ∃ heard got r q, Answered heard got r ∧ sendLatched (latchWire opcode arg crc s) = (r, q) ∧
      Emitted s q (.sel :: commandEvents true (wireFrame opcode arg crc) heard got) ∧
      q = { withBus q s with
        sel := true
        opc := opcode
        arg := arg
        frame := wireFrame opcode arg crc
        framei := 6
        pollcnt := got.length
        r1 := r } := by
  obtain ⟨heard, got, r, answered, emits, run⟩ := sendLatched_spec (latchWire opcode arg crc s) rfl
  have bus := (select_emits s).trans (⟨emits.trace, emits.count, emits.heard⟩ : Emitted (select s) _ _)
  have byte := congrArg Prod.fst run
  have state := congrArg Prod.snd run
  generalize sendLatched (latchWire opcode arg crc s) = p at byte bus state
  exact ⟨heard, got, r, p.2, answered, Prod.ext byte rfl, bus, state⟩

/-- A wire command whose response is its one R1 byte (R105, R205). -/
theorem wireCommand_runs (opcode : U6) (arg : U32) (crc : U7) (s : State) :
    ∃ evs r n, CommandRun (wireFrame opcode arg crc) evs r ∧ Emitted s (wireCommand opcode arg crc s) (.sel :: evs) ∧
      xferCount evs = 6 + n ∧
      wireCommand opcode arg crc s = { atRest (withBus (wireCommand opcode arg crc s) s) with
        sel := false
        opc := opcode
        arg := arg
        frame := wireFrame opcode arg crc
        framei := 6
        pollcnt := n
        r1 := r
        out := .byte r } := by
  obtain ⟨heard, got, r, q, answered, run, emits, state⟩ := sendLatched_wire opcode arg crc s
  have closed := emits.trans (deselect_emits q)
  unfold wireCommand
  rw [run]
  refine ⟨_, r, got.length, ⟨heard, got, answered, rfl⟩, ⟨closed.trace, closed.count, closed.heard⟩, ?_, ?_⟩
  · rw [xferCount_append, xferCount_command true _ got answered.frame]
    rfl
  · exact congrArg (fun q => deliverValue (.byte r) (deselect q)) state

/-- Opcode 8: the response, and its trailing bytes exactly if it is 0x01 (R98, R204). -/
theorem wireIfCond_runs (arg : U32) (crc : U7) (s : State) :
    ∃ evs r tail n k, IfCondRun s.cfg (wireFrame 8#6 arg crc) evs r tail ∧ Emitted s (wireIfCond arg crc s) (.sel :: evs) ∧
      wireIfCond arg crc s = { atRest (withBus (wireIfCond arg crc s) s) with
        sel := false
        opc := 8#6
        arg := arg
        frame := wireFrame 8#6 arg crc
        framei := 6
        pollcnt := n
        loopidx := k
        r1 := r
        r7tail := if r = 0x01#8 then ⟨tail.getD 0 0#8, tail.getD 1 0#8, tail.getD 2 0#8, tail.getD 3 0#8⟩ else s.r7tail
        out := .byte r } := by
  obtain ⟨heard, got, r, q, answered, run, emits, state⟩ := sendLatched_wire 8#6 arg crc s
  unfold wireIfCond
  rw [show sendLatched (latchWire Config.opSendIfCond arg crc s) = (r, q) from run]
  dsimp only
  by_cases idle : r = 0x01#8
  · subst idle
    have sel : q.sel = true := (congrArg State.sel state).trans rfl
    have cfg : q.cfg = s.cfg := (congrArg State.cfg state).trans rfl
    obtain ⟨a, b, c, d, drains, drained⟩ := drainTail_four (startLoop q) rfl
    rw [if_pos (show r1ExactlyIdle 0x01#8 = true from rfl)]
    generalize drainTail Config.r7TailLen (startLoop q) = w at drains drained
    have drains : Emitted q w (listenEvents true s.cfg.fill [a, b, c, d]) :=
      (⟨drains.trace, drains.count, drains.heard⟩ : Emitted q w _).cast (by simp [startLoop, sel, cfg])
    have closed := (emits.trans drains).trans (deselect_emits w)
    refine ⟨_, 0x01#8, [a, b, c, d], got.length, 4, ⟨rfl, heard, got, answered, rfl⟩,
      ⟨closed.trace, closed.count, closed.heard⟩, ?_⟩
    rw [state] at drained
    exact congrArg (fun w => deliverValue (.byte 0x01#8) (deselect w)) drained
  · rw [if_neg (show ¬ r1ExactlyIdle r = true by simpa [r1ExactlyIdle, Config.r1Idle] using idle)]
    have closed := emits.trans (deselect_emits q)
    refine ⟨_, r, [], got.length, s.loopidx, ⟨(if_neg idle).symm, heard, got, answered, by simp⟩,
      ⟨closed.trace, closed.count, closed.heard⟩, ?_⟩
    rw [if_neg idle]
    exact congrArg (fun q => deliverValue (.byte r) (deselect q)) state

/-- Settles O28: each row is `wireCommand` at its opcode. -/
theorem oneByteCommandsRunTheirBracket : Obligations.OneByteCommandsRunTheirBracket := by
  rintro s opcode arg crc i f whole rfl row
  rw [← wireFrame_fields]
  have run : exec i s = .next (wireCommand opcode arg crc (started i s)) := by
    rcases row with rfl | ⟨rfl, rfl⟩ | ⟨rfl, rfl⟩ | ⟨rfl, rfl⟩ | ⟨rfl, rfl⟩ <;> exact startOp_whole whole _ _ _
  obtain ⟨evs, r, n, command, emits, count, state⟩ := wireCommand_runs opcode arg crc (started i s)
  exact ⟨_, evs, r, n, run, command, ⟨emits.trace, emits.count, emits.heard⟩, count, state⟩

/-- Settles O29: `wireIfCond_runs`. -/
theorem cmd8DrainsItsTrailingBytes : Obligations.Cmd8DrainsItsTrailingBytes := by
  intro s arg crc f whole fields
  obtain rfl : f = wireFrame 8#6 arg crc := fields.trans (wireFrame_fields 8#6 arg crc).symm
  obtain ⟨evs, r, tail, n, k, run, emits, state⟩ := wireIfCond_runs arg crc (started (.cmd8 arg crc) s)
  refine ⟨_, evs, r, tail, startOp_whole whole _ _ _, run,
    ⟨emits.trace, emits.count, emits.heard⟩, ?_⟩
  generalize wireIfCond arg crc (started (.cmd8 arg crc) s) = t at state
  have pollcnt : t.pollcnt = n := (congrArg State.pollcnt state).trans rfl
  have loopidx : t.loopidx = k := (congrArg State.loopidx state).trans rfl
  rw [pollcnt, loopidx]
  exact state

/-- Settles O30: the run of `readLatched_spec`, whose writes to host memory read back by `memRead_memWriteAll`. -/
theorem cmd17ReadsABlock : Obligations.Cmd17ReadsABlock := by
  intro s arg crc f whole canonical fields
  obtain rfl : f = wireFrame 17#6 arg crc := fields.trans (wireFrame_fields 17#6 arg crc).symm
  have ex : exec (.cmd17 arg crc) s = .next (readLatched (latchWire 17#6 arg crc (started (.cmd17 arg crc) s))).2 :=
    startOp_whole whole _ _ _
  obtain ⟨evs, e, run, emits, ended⟩ := readLatched_spec (latchWire 17#6 arg crc (started (.cmd17 arg crc) s)) rfl rfl
  have bus := (select_emits s).trans (⟨emits.trace, emits.count, emits.heard⟩ : Emitted (select s) _ evs)
  have state := congrArg Prod.snd ended
  have mem := (congrArg State.mem state).trans rfl
  refine ⟨_, evs, e, ex, run, bus, fun a => ?_, ?_⟩
  · exact (congrArg (memRead · a) mem).trans (memRead_memWriteAll canonical s.bufp e.data a)
  · generalize (readLatched _).2 = t at state
    rw [congrArg State.mem state]
    exact state

/-- Settles O31: the run of `writeLatched_spec`. -/
theorem cmd24WritesABlock : Obligations.Cmd24WritesABlock := by
  intro s arg crc f whole fields
  obtain rfl : f = wireFrame 24#6 arg crc := fields.trans (wireFrame_fields 24#6 arg crc).symm
  obtain ⟨evs, e, run, emits, ended⟩ := writeLatched_spec (latchWire 24#6 arg crc (started (.cmd24 arg crc) s)) rfl rfl
  rw [bufBytes_eq_hostBytes] at run
  have bus := (select_emits s).trans (⟨emits.trace, emits.count, emits.heard⟩ : Emitted (select s) _ evs)
  have state := congrArg Prod.snd ended
  refine ⟨_, evs, e, startOp_whole whole _ _ _, run, bus, state⟩

/-! The byte rows: each is one exchange (log 13). -/

/-- The card's next answer (R44), as `draw` takes it. -/
theorem takeAnswers_one (s : State) : takeAnswers 1 s.card s.draws = ([(draw s).1], (draw s).2.card, (draw s).2.draws) :=
  takeAnswers_draw 0 s

/-- An exchange with the card's own answer (R140). -/
theorem exchange_exchanged (out : Byte) (s : State) :
    (exchange out s).2 = { exchanged out (draw s).1 s with card := (draw s).2.card, draws := (draw s).2.draws } := by
  unfold exchange draw
  split <;> rfl

theorem runExchange_exchanged (out : Byte) (s : State) :
    runExchange out s =
      { atRest (exchanged out (draw s).1 s) with
        card := (draw s).2.card
        draws := (draw s).2.draws
        out := .byte (draw s).1 } :=
  congrArg (deliverValue (.byte (draw s).1)) (exchange_exchanged out s)

/-- A row in which the card answers, with no operation in flight. -/
theorem receiveByte_idle {s : State} (idle : s.busy = false) (out b : Byte) :
    receiveByte out b s = .next { atRest (exchanged out b s) with out := .byte b } := by
  unfold receiveByte
  rw [idle]
  rfl

/-- A row in which the card answers, while an operation is in flight. -/
theorem receiveByte_busy {s : State} (busy : s.busy = true) (phase : s.phase ≠ .idle) (out b : Byte) :
    receiveByte out b s = .next (react b (exchanged (nextOut s) b s)) := by
  unfold receiveByte advance
  rw [busy, if_neg phase]
  rfl

/-- Settles O32: `receiveByte_idle`, and `runExchange_exchanged` for the two bytes the block sends. -/
theorem idleByteRowsAreBareExchanges : Obligations.IdleByteRowsAreBareExchanges := by
  intro s idle
  refine ⟨fun flags => receiveByte_idle idle _ _, fun low => receiveByte_idle idle _ _, receiveByte_idle idle _ _,
    receiveByte_idle idle _ _, fun x => receiveByte_idle idle _ _, fun x => receiveByte_idle idle _ _,
    fun x => receiveByte_idle idle _ _, fun x r => receiveByte_idle idle _ _, receiveByte_idle idle _ _,
    (draw s).1, (draw s).2.card, (draw s).2.draws, takeAnswers_one s, ?_, ?_⟩
  · simp only [exec, execDataStartToken, idle, Bool.false_eq_true, if_false, runExchange_exchanged, Config.dataStartToken]
  · simp only [exec, execFillByte, idle, Bool.false_eq_true, if_false, runExchange_exchanged]

/-! A response poll. -/

theorem exec_responseRow {s : State} {i : Instr} {r : Byte} (row : ResponseRow i r) (busy : s.busy = true)
    (phase : s.phase ≠ .idle) : exec i s = .next (react r (exchanged (nextOut s) r s)) := by
  rcases row with ⟨flags, rfl, rfl⟩ | ⟨low, rfl, rfl⟩ | ⟨rfl, rfl⟩ | ⟨rfl, rfl⟩ <;> exact receiveByte_busy busy phase _ _

/-- A tier-1 `POLL` reacts by its own test and bound (R180). -/
theorem react_polling {u : State} (phase : u.phase = .respPoll) {bound : Nat} {pred : BytePred} {out : Byte}
    (polling : flow u = .polling bound pred out) (b : Byte) :
    react b u =
      if pred.holds b = true ∨ bound ≤ u.pollcnt + 1 then
        deliverValue (.poll (pred.holds b) b (u.pollcnt + 1)) { u with pollcnt := u.pollcnt + 1 }
      else { u with pollcnt := u.pollcnt + 1 } := by
  unfold react
  rw [phase]
  dsimp only
  rw [polling]
  simp only [Bool.or_eq_true, decide_eq_true_eq]

theorem flow_ne_polling {u : State} (command : isPolling (flow u) = false) {bound : Nat} {pred : BytePred} {out : Byte} :
    flow u ≠ .polling bound pred out := by
  intro polling
  rw [polling] at command
  cases command

/-- Any other operation ends its response poll at a byte with bit 7 clear, or at the tenth (R182, R189). -/
theorem react_respPoll {u : State} (phase : u.phase = .respPoll) (command : isPolling (flow u) = false) (b : Byte) :
    react b u =
      if b.getLsbD 7 = false ∨ Config.respPollBound ≤ u.pollcnt + 1 then
        afterResponse b { u with pollcnt := u.pollcnt + 1, r1 := b }
      else { u with pollcnt := u.pollcnt + 1, r1 := b } := by
  unfold react
  rw [phase]
  dsimp only
  split
  · exact absurd ‹_› (flow_ne_polling command)
  · simp only [isResponse, Bool.or_eq_true, Bool.not_eq_true', decide_eq_true_eq]

theorem nextOut_polling {s : State} (phase : s.phase = .respPoll) {bound : Nat} {pred : BytePred} {out : Byte}
    (polling : flow s = .polling bound pred out) : nextOut s = out := by
  unfold nextOut
  rw [phase]
  dsimp only
  rw [polling]

theorem nextOut_respPoll {s : State} (phase : s.phase = .respPoll) (command : isPolling (flow s) = false) :
    nextOut s = 0xFF#8 := by
  unfold nextOut
  rw [phase]
  dsimp only
  split
  · exact absurd ‹_› (flow_ne_polling command)
  · rfl

/-- The response poll of a lone wire command or of SEND_COMMAND is over (R105, R185). -/
theorem afterResponse_command {u : State} {bracketed : Bool} (h : flow u = .command bracketed) (r : Byte) :
    afterResponse r u = { atRest (if bracketed then bracketClosed u else u) with out := .byte r } := by
  simp only [afterResponse, h]
  rfl

/-- That of a lone opcode 8 (R98). -/
theorem afterResponse_ifCond {u : State} (h : flow u = .ifCond) (r : Byte) :
    afterResponse r u =
      if r = 0x01#8 then { u with loopidx := 0, phase := .r7Drain } else { atRest (bracketClosed u) with out := .byte r } := by
  simp only [afterResponse, h, r1ExactlyIdle, Config.r1Idle, beq_iff_eq]
  rfl

/-- That of a sector (R241, R246). -/
theorem afterSectorResponse_eq (isWrite : Bool) (r : Byte) (u : State) :
    afterSectorResponse isWrite r u =
      if r = 0x00#8 then
        { u with pollcnt := if isWrite then u.pollcnt else 0, phase := if isWrite then .wrToken else .tokenPoll }
      else { atRest (bracketClosed u) with res := .commandRejected r, out := .nothing } := by
  simp only [afterSectorResponse, r1AllClear_eq]
  cases isWrite <;> rfl

/-- Select and latch a command of the sequencers (R205), its six bytes as R94 gives them. -/
theorem issue_eq (opcode : U6) (arg : U32) (s : State) :
    issue opcode arg s = commandNext opcode arg (commandFrame s.cfg opcode arg)
      { s with crc := if crcComputed s.cfg opcode then crc7 (frameHead opcode arg) else s.crc } := rfl

theorem failInit_eq (viaAdapter : Bool) (step : InitStep) (r : Byte) (s : State) :
    failInit viaAdapter step r s = sequenceFailed viaAdapter step r s := by cases viaAdapter <;> rfl

/-! The five frames of the sequence (R94, R95). -/

theorem crcByte_goIdle (p : Params) : crcByte p 0#6 0#32 = 0x95#8 := by
  have computed : checkByte (crc7 (frameHead 0#6 0#32)) = 0x95#8 := by decide +kernel
  unfold crcByte
  cases p.crcMode
  · exact computed
  · rfl

theorem crcByte_sendIfCond (p : Params) : crcByte p 8#6 0x000001AA#32 = 0x87#8 := by
  have computed : checkByte (crc7 (frameHead 8#6 0x000001AA#32)) = 0x87#8 := by decide +kernel
  unfold crcByte
  cases p.crcMode
  · exact computed
  · rfl

theorem frame_goIdle (p : Params) : commandFrame p 0#6 0#32 = ⟨0x40#8, 0x00#8, 0x00#8, 0x00#8, 0x00#8, 0x95#8⟩ :=
  congrArg (frameOf 0#6 0#32) (crcByte_goIdle p)

theorem frame_sendIfCond (p : Params) :
    commandFrame p 8#6 0x000001AA#32 = ⟨0x48#8, 0x00#8, 0x00#8, 0x01#8, 0xAA#8, 0x87#8⟩ :=
  congrArg (frameOf 8#6 0x000001AA#32) (crcByte_sendIfCond p)

theorem frame_appCmd (p : Params) :
    commandFrame p 55#6 0#32 = ⟨0x77#8, 0x00#8, 0x00#8, 0x00#8, 0x00#8, p.crcPlaceholder⟩ := rfl

theorem frame_sendOpCond (p : Params) :
    commandFrame p 41#6 0x40000000#32 = ⟨0x69#8, 0x40#8, 0x00#8, 0x00#8, 0x00#8, p.crcPlaceholder⟩ := rfl

theorem frame_setBlocklen (p : Params) :
    commandFrame p 16#6 0x00000200#32 = ⟨0x50#8, 0x00#8, 0x00#8, 0x02#8, 0x00#8, p.crcPlaceholder⟩ := rfl

theorem enterIfCond_eq (s : State) :
    enterIfCond s = commandNext 8#6 0x000001AA#32 ⟨0x48#8, 0x00#8, 0x00#8, 0x01#8, 0xAA#8, 0x87#8⟩
      { s with fsm := .checkInterfaceCondition, crc := if s.cfg.crcMode = .computed then 0x43#7 else s.crc } := by
  have sum : crc7 (frameHead 8#6 0x000001AA#32) = 0x43#7 := by decide +kernel
  have mode : crcComputed s.cfg 8#6 = true ↔ s.cfg.crcMode = .computed := by simp [crcComputed, Config.opSendIfCond]
  have frame := frame_sendIfCond s.cfg
  unfold enterIfCond
  rw [issue_eq]
  simp only [Config.opSendIfCond, Config.argIfCond, frame, sum, mode]

theorem startAttempt_eq (s : State) :
    startAttempt s = commandNext 55#6 0x00000000#32 ⟨0x77#8, 0x00#8, 0x00#8, 0x00#8, 0x00#8, s.cfg.crcPlaceholder⟩
      { s with retrycnt := s.retrycnt + 1, appcmd := true } := rfl

theorem issueOpCond_eq (s : State) :
    issue Config.opSendOpCond Config.argOpCond s =
      commandNext 41#6 0x40000000#32 ⟨0x69#8, 0x40#8, 0x00#8, 0x00#8, 0x00#8, s.cfg.crcPlaceholder⟩ s := rfl

theorem enterSetBlockLength_eq (s : State) :
    enterSetBlockLength s = commandNext 16#6 0x00000200#32 ⟨0x50#8, 0x00#8, 0x00#8, 0x02#8, 0x00#8, s.cfg.crcPlaceholder⟩
      { s with fsm := .setBlockLength } := rfl

/-! What the sequence does with a response `r` (R211), state by state; `u` is the state after the exchange. -/

theorem afterInit_goIdle {u : State} (fsm : u.fsm = .goIdle) (viaAdapter : Bool) (r : Byte) :
    afterInitResponse viaAdapter r u =
      if r = 0x01#8 then enterIfCond (bracketClosed u) else sequenceFailed viaAdapter .goIdle r (bracketClosed u) := by
  simp only [afterInitResponse, fsm, r1ExactlyIdle, Config.r1Idle, beq_iff_eq, failInit_eq]
  rfl

theorem afterInit_ifCond {u : State} (fsm : u.fsm = .checkInterfaceCondition) (viaAdapter : Bool) (r : Byte) :
    afterInitResponse viaAdapter r u =
      if r = 0x01#8 then { u with loopidx := 0, phase := .r7Drain }
      else if u.cfg.ifcondTimeoutFatal = true ∧ r.getLsbD 7 = true then
        sequenceFailed viaAdapter .checkInterfaceCondition r (bracketClosed u)
      else enterApplicationInit (bracketClosed u) := by
  cases u
  cases fsm
  simp only [afterInitResponse, afterIfCond, r1ExactlyIdle, Config.r1Idle, beq_iff_eq, failInit_eq, isResponse,
    Bool.not_not, Bool.and_eq_true, deselect_cfg]
  rfl

theorem afterInit_appCmd {u : State} (fsm : u.fsm = .applicationInit) (first : u.appcmd = true) (viaAdapter : Bool) (r : Byte) :
    afterInitResponse viaAdapter r u = issue Config.opSendOpCond Config.argOpCond { bracketClosed u with appcmd := false } := by
  simp only [afterInitResponse, fsm, first, if_true]
  rfl

theorem afterInit_opCond {u : State} (fsm : u.fsm = .applicationInit) (second : u.appcmd = false) (viaAdapter : Bool)
    (r : Byte) :
    afterInitResponse viaAdapter r u =
      if r.getLsbD 0 = true then
        (if u.retrycnt < 1000 then startAttempt (sleep (bracketClosed u))
        else sequenceFailed viaAdapter .applicationInit r (sleep (bracketClosed u)))
      else enterSetBlockLength (bracketClosed u) := by
  simp only [afterInitResponse, fsm, second, Bool.false_eq_true, if_false, afterAttempt, failInit_eq, r1IdleFlag]
  rfl

theorem afterInit_setBlocklen {u : State} (fsm : u.fsm = .setBlockLength) (viaAdapter : Bool) (r : Byte) :
    afterInitResponse viaAdapter r u =
      if r = 0x00#8 then
        { atRest (bracketClosed u) with
          sectorCount := u.cfg.sectorCountFixed
          ready := true
          fsm := .ready
          res := .ok
          out := .nothing }
      else sequenceFailed viaAdapter .setBlockLength r (bracketClosed u) := by
  simp only [afterInitResponse, fsm, r1AllClear_eq, failInit_eq]
  rfl

/-- The trace of an exchange, the end of its bracket and a sleep, as one list (R42). -/
theorem sleep_bracketClosed (r : Byte) (s : State) :
    sleep (bracketClosed (polledResponse r s)) =
      { bracketClosed (polledResponse r s) with trace := s.trace ++ [.xfer s.sel 0xFF#8 r, .desel, .slept] } := by
  simp only [sleep, bracketClosed, polledResponse, exchanged, List.append_assoc, List.cons_append, List.nil_append]

/-- Settles O33: the exchange of the row (`exec_responseRow`), then the reaction by the flow in flight. -/
theorem responseBytesInTheResponsePoll : Obligations.ResponseBytesInTheResponsePoll := by
  intro s i r busy phase row
  have ex := exec_responseRow row busy (by rw [phase]; decide)
  have reacts : isPolling (flow s) = false → exec i s = .next
      (if r.getLsbD 7 = false ∨ 10 ≤ s.pollcnt + 1 then afterResponse r (polledResponse r s) else polledResponse r s) :=
    fun command => by
      rw [ex, nextOut_respPoll phase command]
      exact congrArg _ (react_respPoll (u := exchanged 0xFF#8 r s) phase command r)
  refine ⟨fun bound pred out polling => ?_, fun command high below => ?_, fun ended => ?_⟩
  · rw [ex, nextOut_polling phase polling]
    exact congrArg _ (react_polling (u := exchanged out r s) phase polling r)
  · rw [reacts command, if_neg]
    rintro (clear | tenth)
    · rw [high] at clear
      cases clear
    · omega
  have ends : isPolling (flow s) = false → exec i s = .next (afterResponse r (polledResponse r s)) := fun command => by
    rw [reacts command, if_pos ended]
  refine ⟨fun bracketed h => ?_, fun h => ?_, fun isWrite h => ?_, fun viaAdapter h => ?_⟩
  · exact (ends (by rw [h]; rfl)).trans (congrArg _ (afterResponse_command (u := polledResponse r s) h r))
  · exact (ends (by rw [h]; rfl)).trans (congrArg _ (afterResponse_ifCond (u := polledResponse r s) h r))
  · have sector : afterResponse r (polledResponse r s) = afterSectorResponse isWrite r (polledResponse r s) := by
      have same : flow (polledResponse r s) = flow s := rfl
      rcases h with h | ⟨first, count, buf, h⟩ <;> simp only [afterResponse, same, h]
    have command : isPolling (flow s) = false := by rcases h with h | ⟨first, count, buf, h⟩ <;> rw [h] <;> rfl
    rw [ends command, sector, afterSectorResponse_eq]
    rfl
  · have sequence : exec i s = .next (afterInitResponse viaAdapter r (polledResponse r s)) := by
      rw [ends (by rw [h]; rfl)]
      simp only [afterResponse, show flow (polledResponse r s) = .sequence viaAdapter from h]
    rw [sequence]
    refine ⟨fun fsm => ?_, fun fsm => ?_, fun fsm first => ?_, fun fsm second => ?_, fun fsm => ?_⟩
    · rw [afterInit_goIdle (u := polledResponse r s) fsm, enterIfCond_eq]
      rfl
    · rw [afterInit_ifCond (u := polledResponse r s) fsm, enterApplicationInit, startAttempt_eq]
      rfl
    · rw [afterInit_appCmd (u := polledResponse r s) fsm first, issueOpCond_eq]
      rfl
    · rw [afterInit_opCond (u := polledResponse r s) fsm second, startAttempt_eq, enterSetBlockLength_eq,
        sleep_bracketClosed]
      rfl
    · rw [afterInit_setBlocklen (u := polledResponse r s) fsm]
      rfl

/-! The other places of a byte row. -/

/-- A sector that fails closes its bracket (R318). -/
theorem failSector_eq {e : Result} (h : isInitFailure e = false) (u : State) :
    failSector e u = { atRest (bracketClosed u) with res := e, out := .nothing } := by
  cases e with
  | initFailure => cases h
  | _ => rfl

theorem validByte_ne_token : ∀ flags : U7, (0#1 ++ flags : Byte) ≠ 0xFE#8 := by decide

theorem notYetByte_ne_zero : ∀ low : U7, (1#1 ++ low : Byte) ≠ 0#8 := by decide

/-- A one-sector operation is over with its sector. -/
theorem endSector_sector {u : State} {isWrite : Bool} (one : flow u = .sector isWrite) :
    endSector u = { atRest u with res := .ok, out := .nothing } := by
  unfold endSector
  rw [one]
  rfl

/-- The bytes of a frame by their number (R91). -/
theorem frameList_frameByte (f : Frame) {i : Nat} (inside : i < 6) : (frameList f)[i]? = some (frameByte f i) := by
  interval_cases i <;> rfl

/-- The token poll (R242). -/
theorem react_tokenPoll {u : State} (phase : u.phase = .tokenPoll) (b : Byte) :
    react b u =
      if b = 0xFE#8 then { u with pollcnt := u.pollcnt + 1, tok := b, byteidx := 0, phase := .rdPayload }
      else if u.pollcnt + 1 < 1000 then { u with pollcnt := u.pollcnt + 1, tok := b }
      else failSector (.transferTimeout .token) { u with pollcnt := u.pollcnt + 1, tok := b } := by
  cases u
  cases phase
  simp only [react, isStartToken_eq]
  rfl

/-- The data response (R248, R249). -/
theorem react_wrResp {u : State} (phase : u.phase = .wrResp) (b : Byte) :
    react b u =
      if writeAccepted b = true then { u with dresp := b, pollcnt := 0, phase := .busyPoll }
      else failSector (.writeRejected (rejectReason b) b) { u with dresp := b } := by
  cases u
  cases phase
  rfl

/-- The busy poll (R250). -/
theorem react_busyPoll {u : State} (phase : u.phase = .busyPoll) (b : Byte) :
    react b u =
      if b ≠ 0#8 then endSector (bracketClosed { u with pollcnt := u.pollcnt + 1, busyb := b })
      else if u.pollcnt + 1 < 1000 then { u with pollcnt := u.pollcnt + 1, busyb := b }
      else failSector (.transferTimeout .busy) { u with pollcnt := u.pollcnt + 1, busyb := b } := by
  cases u
  cases phase
  simp only [react, notBusy_eq]
  rfl

/-- In every receive-only phase the block sends FILL (R102). -/
theorem nextOut_fill {s : State}
    (h : s.phase ∈ [Phase.resetIdle, .r7Drain, .tokenPoll, .rdPayload, .rdCrc, .wrCrc, .wrResp, .busyPoll]) :
    nextOut s = s.cfg.fill := by
  unfold nextOut
  split <;> simp_all

/-- The next exchange with the card's own answer (R44), the reaction included. -/
theorem crank_exchanged {s : State} (phase : s.phase ≠ .idle) :
    crank s = react (draw s).1
      { exchanged (nextOut s) (draw s).1 s with card := (draw s).2.card, draws := (draw s).2.draws } :=
  (crank_exchange phase).trans (congrArg (react _) (exchange_exchanged _ s))

theorem exec_dataStartToken_busy {s : State} (busy : s.busy = true) :
    exec .dataStartToken s = .next (if s.phase = .wrToken then crank s else advance 0xFE#8 s) := if_pos busy

/-- The trace of an exchange and the end of its bracket, as one list (R42). -/
theorem trace_closed (s : State) (out b : Byte) :
    s.trace ++ [.xfer s.sel out b] ++ [.desel] = s.trace ++ [.xfer s.sel out b, .desel] := List.append_assoc ..

/-- Settles O34: the reaction of `react_tokenPoll`, and the exchange that sends the token. -/
theorem startTokenOpensThePayload : Obligations.StartTokenOpensThePayload := by
  intro s busy
  refine ⟨fun phase => ?_, fun phase i b row => ?_, fun phase => ?_⟩
  · have fill := nextOut_fill (s := s) (by simp [phase])
    rw [exec_dataStartToken_busy busy, if_neg (by simp [phase])]
    unfold advance
    rw [if_neg (by simp [phase]), fill]
    exact congrArg _ (react_tokenPoll (u := exchanged s.cfg.fill 0xFE#8 s) phase _)
  · have fill := nextOut_fill (s := s) (by simp [phase])
    have ex : exec i s = .next (react b (exchanged (nextOut s) b s)) := by
      rcases row with ⟨low, rfl, rfl, -⟩ | ⟨flags, rfl, rfl⟩ <;> exact receiveByte_busy busy (by simp [phase]) _ _
    have other : b ≠ 0xFE#8 := by
      rcases row with ⟨low, -, -, other⟩ | ⟨flags, -, rfl⟩
      · exact other
      · exact validByte_ne_token flags
    rw [ex, fill, react_tokenPoll (u := exchanged s.cfg.fill b s) phase, if_neg other, failSector_eq rfl]
    simp only [atRest, bracketClosed, exchanged, trace_closed]
  · have sent : nextOut s = 0xFE#8 := by unfold nextOut; rw [phase]; rfl
    refine ⟨_, _, _, takeAnswers_one s, ?_⟩
    rw [exec_dataStartToken_busy busy, if_pos phase, crank_exchanged (by simp [phase]), sent]
    cases s
    cases phase
    rfl

/-- Settles O35: the reaction of `react_wrResp` to a byte with the row's status. -/
theorem dataResponseDecidesTheWrite : Obligations.DataResponseDecidesTheWrite := by
  intro s x busy phase
  have fill := nextOut_fill (s := s) (by simp [phase])
  have status_of : ∀ (x : BitVec 3) (status : BitVec 5), responseStatus (x ++ status) = status := by decide
  have reacts : ∀ status : BitVec 5, receiveByte s.cfg.fill (x ++ status) s = .next
      (if status = 0b00101#5 then
        { exchanged s.cfg.fill (x ++ status) s with dresp := x ++ status, pollcnt := 0, phase := .busyPoll }
      else failSector (.writeRejected (rejectReason (x ++ status)) (x ++ status))
        { exchanged s.cfg.fill (x ++ status) s with dresp := x ++ status }) := fun status => by
    rw [receiveByte_busy busy (by simp [phase]), fill, react_wrResp (u := exchanged s.cfg.fill (x ++ status) s) phase]
    simp only [writeAccepted, status_of, Config.acceptPattern, beq_iff_eq]
  refine ⟨(reacts 0b00101#5).trans (congrArg _ (if_pos rfl)), fun i status reason row => ?_⟩
  have ex : exec i s = receiveByte s.cfg.fill (x ++ status) s := by
    rcases row with ⟨rfl, rfl, -⟩ | ⟨rfl, rfl, -⟩ | ⟨rfl, -, -⟩ <;> rfl
  have rejects : status ≠ 0b00101#5 ∧ rejectReason (x ++ status) = reason := by
    unfold rejectReason
    rw [status_of]
    rcases row with ⟨-, rfl, rfl⟩ | ⟨-, rfl, rfl⟩ | ⟨rfl, wf, rfl⟩
    · exact ⟨by decide, rfl⟩
    · exact ⟨by decide, rfl⟩
    · have unnamed : status ≠ 0b00101#5 ∧ status ≠ 0b01011#5 ∧ status ≠ 0b01101#5 := by
        simpa [Instr.wf, namedResponses] using wf
      obtain ⟨accepted, crcError, writeError⟩ := unnamed
      exact ⟨accepted, by rw [if_neg crcError, if_neg writeError]⟩
  rw [ex, reacts, if_neg rejects.1, rejects.2, failSector_eq rfl]
  simp only [atRest, bracketClosed, exchanged, trace_closed]

/-- Settles O36: the reaction of `react_busyPoll`. -/
theorem busyBytesKeepTheBusyPoll : Obligations.BusyBytesKeepTheBusyPoll := by
  intro s busy phase
  have fill := nextOut_fill (s := s) (by simp [phase])
  have reacts : ∀ out b, receiveByte out b s = .next (react b (exchanged s.cfg.fill b s)) := fun out b => by
    rw [receiveByte_busy busy (by simp [phase]), fill]
  refine ⟨(reacts s.cfg.fill 0x00#8).trans (congrArg _ ?_), fun low one => (reacts 0xFF#8 (1#1 ++ low)).trans (congrArg _ ?_)⟩
  · rw [react_busyPoll (u := exchanged s.cfg.fill 0x00#8 s) phase, if_neg (by simp), failSector_eq rfl]
    simp only [atRest, bracketClosed, exchanged, trace_closed]
  · rw [react_busyPoll (u := exchanged s.cfg.fill (1#1 ++ low) s) phase, if_pos (notYetByte_ne_zero low)]
    rw [endSector_sector (isWrite := true)]
    · simp only [atRest, bracketClosed, exchanged, trace_closed]
    · exact one

/-- Settles O37: what each phase sends, and the row as the next exchange of the operation in flight (`crank_exchanged`). -/
theorem fillRowSendsTheFillByte : Obligations.FillRowSendsTheFillByte := by
  intro s busy phase
  have ex : exec .fillByte s = if nextOut s = s.cfg.fill then .next (crank s) else .refused .fillNotNext := if_pos busy
  refine ⟨nextOut_fill, fun frame inside => ?_, fun poll => ?_, fun token => ?_, fun payload => ?_, fun fill => ?_,
    fun other => ?_⟩
  · have sent : nextOut s = frameByte s.frame s.framei := by
      unfold nextOut
      rw [frame]
    rw [sent]
    exact frameList_frameByte s.frame inside
  · unfold nextOut
    rw [poll]
    rfl
  · unfold nextOut
    rw [token]
    rfl
  · unfold nextOut
    rw [payload]
    rfl
  · refine ⟨{ exchanged s.cfg.fill (draw s).1 s with card := (draw s).2.card, draws := (draw s).2.draws }, ?_, rfl,
      takeAnswers_one s⟩
    rw [ex, if_pos fill, crank_exchanged phase, fill]
  · rw [ex, if_neg other]

/-- Settles O6: the two steps of an idle port. -/
theorem stepStartsNothingWithoutAnInstruction : Obligations.StepStartsNothingWithoutAnInstruction := by
  constructor
  · intro s e rst presented error
    unfold step
    rw [rst]
    cases port : s.port with
    | nil => exact absurd port presented
    | cons b bs =>
      rw [port] at error
      simp [error]
  · intro s rst port idle
    unfold step
    rw [rst, port, idle]
    rfl

/-! The frames INIT sends (R213). -/

/-- The frames sent after the `Sel`s of `evs` are `frames`, whatever events come after. -/
def SendsFrames (evs : List Event) (frames : List (List Byte)) : Prop :=
  ∀ rest, framesSent (evs ++ rest) = frames ++ framesSent rest

theorem SendsFrames.nil : SendsFrames [] [] := fun _ => rfl

theorem SendsFrames.append {a b : List Event} {fs gs : List (List Byte)} (h : SendsFrames a fs) (k : SendsFrames b gs) :
    SendsFrames (a ++ b) (fs ++ gs) := fun rest => by
  rw [List.append_assoc, h, k, List.append_assoc]

theorem SendsFrames.all {evs : List Event} {frames : List (List Byte)} (h : SendsFrames evs frames) :
    framesSent evs = frames := by
  simpa [framesSent] using h []

/-- Exchanges select nothing. -/
theorem sendsFrames_xfers (b : Bool) (outs ins : List Byte) : SendsFrames (xfers b outs ins) [] := fun rest => by
  induction outs generalizing ins with
  | nil => rfl
  | cons o outs ih =>
    cases ins with
    | nil => rfl
    | cons i ins => exact ih ins

theorem sendsFrames_listen (b : Bool) (out : Byte) (got : List Byte) : SendsFrames (listenEvents b out got) [] :=
  sendsFrames_xfers b _ got

theorem sendsFrames_desel : SendsFrames [.desel] [] := fun _ => rfl

theorem sendsFrames_slept : SendsFrames [.slept] [] := fun _ => rfl

theorem sent_xfers (b : Bool) {outs ins : List Byte} (h : outs.length = ins.length) (rest : List Event) :
    sent (xfers b outs ins ++ rest) = outs ++ sent rest := by
  induction outs generalizing ins with
  | nil =>
    obtain rfl := List.length_eq_zero_iff.mp h.symm
    rfl
  | cons o outs ih =>
    cases ins with
    | nil => cases h
    | cons i ins => exact congrArg (o :: ·) (ih (Nat.succ.inj h))

/-- A command selected and sent is its frame, whatever follows in its bracket (R205). -/
theorem sendsFrames_command (f : Frame) {heard : List Byte} (six : heard.length = 6) (got : List Byte) {evs : List Event}
    (quiet : SendsFrames evs []) : SendsFrames (.sel :: (commandEvents true f heard got ++ evs)) [frameList f] := fun rest => by
  have first : (sent (commandEvents true f heard got ++ evs ++ rest)).take 6 = frameList f := by
    simp only [commandEvents, List.append_assoc]
    rw [sent_xfers true (show (frameList f).length = heard.length from six.symm)]
    rfl
  have others := (((sendsFrames_xfers true (frameList f) heard).append (sendsFrames_listen true Config.pollByte got)).append
    quiet) rest
  exact congr (congrArg _ first) others

theorem bracket_frames {p : Params} {opcode : U6} {arg : U32} {evs : List Event} {r : Byte} (h : Bracket p opcode arg evs r) :
    SendsFrames evs [frameList (commandFrame p opcode arg)] := by
  obtain ⟨_, ⟨heard, got, answered, rfl⟩, rfl⟩ := h
  exact sendsFrames_command _ answered.frame got sendsFrames_desel

theorem ifCondBracket_frames {p : Params} {evs : List Event} {r : Byte} {tail : List Byte} (h : IfCondBracket p evs r tail) :
    SendsFrames evs [frameList (commandFrame p 8#6 0x000001AA#32)] := by
  obtain ⟨_, ⟨_, heard, got, answered, rfl⟩, rfl⟩ := h
  rw [List.append_assoc]
  exact sendsFrames_command _ answered.frame got ((sendsFrames_listen true p.fill tail).append sendsFrames_desel)

/-- A frame of the ACMD41 loop (R206). -/
def AttemptFrame (p : Params) (f : List Byte) : Prop :=
  f = [0x77#8, 0x00#8, 0x00#8, 0x00#8, 0x00#8, p.crcPlaceholder] ∨
    f = [0x69#8, 0x40#8, 0x00#8, 0x00#8, 0x00#8, p.crcPlaceholder]

theorem attempt_frames {p : Params} {evs : List Event} {r : Byte} (h : Attempt p evs r) :
    ∃ fs, SendsFrames evs fs ∧ ∀ f ∈ fs, AttemptFrame p f := by
  obtain ⟨a, b, any, ha, hb, rfl⟩ := h
  refine ⟨_, (bracket_frames ha).append (bracket_frames hb), fun f sent => ?_⟩
  simpa [AttemptFrame, frame_appCmd, frame_sendOpCond, frameList] using sent

theorem stillIdle_frames {p : Params} {n : Nat} {evs : List Event} {r : Byte} (h : StillIdle p n evs r) :
    ∃ fs, SendsFrames evs fs ∧ ∀ f ∈ fs, AttemptFrame p f := by
  induction n generalizing evs r with
  | zero =>
    obtain rfl : evs = [] := h
    exact ⟨[], .nil, by simp⟩
  | succ n ih =>
    obtain ⟨before, r0, a, still, attempt, -, rfl⟩ := h
    obtain ⟨fs, hf, all⟩ := ih still
    obtain ⟨gs, hg, more⟩ := attempt_frames attempt
    refine ⟨_, (hf.append hg).append sendsFrames_slept, fun f sent => ?_⟩
    simp only [List.append_nil, List.mem_append] at sent
    exact sent.elim (all f) (more f)

/-- The frames of a run of the sequence: opcode 0, then opcode 8 or nothing, attempts, opcode 16 or nothing (R200, R211). -/
def InitFrames (p : Params) (frames : List (List Byte)) : Prop :=
  ∃ ifCond loop blockLength, frames = [0x40#8, 0x00#8, 0x00#8, 0x00#8, 0x00#8, 0x95#8] :: (ifCond ++ loop ++ blockLength) ∧
    (ifCond = [] ∨ ifCond = [[0x48#8, 0x00#8, 0x00#8, 0x01#8, 0xAA#8, 0x87#8]]) ∧ (∀ f ∈ loop, AttemptFrame p f) ∧
    (blockLength = [] ∨ blockLength = [[0x50#8, 0x00#8, 0x00#8, 0x02#8, 0x00#8, p.crcPlaceholder]])

theorem initRun_frames {p : Params} {evs : List Event} {o : InitOutcome} (h : InitRun p evs o) :
    InitFrames p (framesSent evs) := by
  have start : ∀ (idle : List Byte) {g : List Event} {r : Byte}, Bracket p 0#6 0#32 g r →
      SendsFrames (busResetEvents p idle ++ g) [[0x40#8, 0x00#8, 0x00#8, 0x00#8, 0x00#8, 0x95#8]] := fun idle _ _ b => by
    have sends := (sendsFrames_desel.append (sendsFrames_listen false p.fill idle)).append (bracket_frames b)
    rw [frame_goIdle] at sends
    exact sends
  have ifCond : ∀ {c : List Event} {r : Byte} {tail : List Byte}, IfCondBracket p c r tail →
      SendsFrames c [[0x48#8, 0x00#8, 0x00#8, 0x01#8, 0xAA#8, 0x87#8]] := fun i => by
    have sends := ifCondBracket_frames i
    rw [frame_sendIfCond] at sends
    exact sends
  cases h with
  | goIdle idle g r n b h =>
    exact ⟨[], [], [], (start idle b).all, .inl rfl, by simp, .inl rfl⟩
  | ifCond idle g c r n b i =>
    exact ⟨_, [], [], ((start idle b).append (ifCond i)).all.trans (by simp), .inr rfl, by simp, .inl rfl⟩
  | application idle g c w rc r tail n b i pass still =>
    obtain ⟨fs, hf, all⟩ := stillIdle_frames still
    refine ⟨_, fs, [], (((start idle b).append (ifCond i)).append hf).all.trans (by simp), .inr rfl, all, .inl rfl⟩
  | blockLength idle g c w a l rc r0 ra r tail k n b i pass hk still attempt cleared e =>
    obtain ⟨fs, hf, all⟩ := stillIdle_frames still
    obtain ⟨gs, hg, more⟩ := attempt_frames attempt
    have last := bracket_frames e
    rw [frame_setBlocklen] at last
    have sends := ((((start idle b).append (ifCond i)).append hf).append hg).append last
    refine ⟨_, fs ++ gs, _, sends.all.trans (by simp [frameList]), .inr rfl, fun f sent => ?_, .inr rfl⟩
    exact (List.mem_append.mp sent).elim (all f) (more f)

/-- No frame of the loop begins with another byte than its two commands'. -/
theorem countP_attemptFrames {p : Params} {loop : List (List Byte)} (all : ∀ f ∈ loop, AttemptFrame p f) {c : Byte}
    (other : c ≠ 0x77#8 ∧ c ≠ 0x69#8) : loop.countP (fun f => f.head? == some c) = 0 := by
  rw [List.countP_eq_zero]
  intro f sent
  rcases all f sent with rfl | rfl
  · simpa using other.1.symm
  · simpa using other.2.symm

/-- Settles O40: the frames of the run of `init_spec`. -/
theorem initSendsOnlyItsFiveCommands : Obligations.InitSendsOnlyItsFiveCommands := by
  intro s whole
  obtain ⟨evs, tail, run, -, emits, -⟩ := init_spec (started .init s)
  refine ⟨_, evs, startOp_whole whole .init enterBusReset (fun t => (initCard t).2),
    ⟨emits.trace, emits.count, emits.heard⟩, ?_⟩
  obtain ⟨ifCond, loop, blockLength, frames, hc, hl, hb⟩ := initRun_frames run
  rw [frames]
  refine ⟨fun f sent => ?_, ?_⟩
  · simp only [List.mem_cons, List.mem_append] at sent
    rcases sent with rfl | (sent | sent) | sent
    · simp
    · rcases hc with rfl | rfl
      · cases sent
      · simp [List.mem_singleton.mp sent]
    · rcases hl f sent with rfl | rfl <;> simp
    · rcases hb with rfl | rfl
      · cases sent
      · simp [List.mem_singleton.mp sent]
  · simp only [List.countP_cons, List.countP_append, countP_attemptFrames hl (c := 0x40#8) (by decide),
      countP_attemptFrames hl (c := 0x48#8) (by decide), countP_attemptFrames hl (c := 0x50#8) (by decide)]
    rcases hc with rfl | rfl <;> rcases hb with rfl | rfl <;> simp

end Sys2Proof.Machine

/-!
The transport family (40_transport.md): one exchange as its effect (R140), the chip-select latch (R141, R142), and the wave of
an exchange on the pins (R143).
-/

namespace Sys2Proof.Machine

/-! The operations of the transport: each is one step in either granularity (R66). -/

theorem startWhole_idle {s : State} (idle : s.busy = false) (i : Instr) (whole : State → State) :
    startWhole i whole s = .next (whole (started i s)) := by
  simp only [startWhole, startOp, idle, Bool.false_eq_true, if_false, ite_self, started]

/-- The card's answer does not depend on the operation in flight (R44). -/
theorem draw_started (i : Instr) (s : State) : draw (started i s) = ((draw s).1, started i (draw s).2) := by
  unfold draw
  cases h : s.card <;> simp [started, h]

/-- Settles O19: the exchange of `runExchange_exchanged`, with the card's answer of `takeAnswers_one`. -/
theorem exchangeMovesOneByteEachWay : Obligations.ExchangeMovesOneByteEachWay := by
  intro s out idle
  refine ⟨(draw s).1, (draw s).2.card, (draw s).2.draws, takeAnswers_one s, ?_⟩
  have run : exec (.exchange out) s = .next (runExchange out (started (.exchange out) s)) := startWhole_idle idle _ _
  rw [run, runExchange_exchanged, draw_started]
  rfl

/-- Settles O20: each runs whole from every idle block, and its effect is its definition's. -/
theorem selectAndDeselectDriveTheLatch : Obligations.SelectAndDeselectDriveTheLatch := fun _ idle =>
  ⟨startWhole_idle idle .select runSelect, startWhole_idle idle .deselect runDeselect⟩

/-! The wave of an exchange: clock periods that each carry a bit both ways, for any number of bits. -/

/-- The clock periods that carry the pairs of bits (`MOSI`, `MISO`), one period a pair. -/
def bitPeriods (sel : Bool) (bits : List (Bool × Bool)) : List Pins := bits.flatMap (fun b => bitPeriod sel b.1 b.2)

theorem exchangeWave_eq (sel : Bool) (out inp : Byte) :
    exchangeWave sel out inp = bitPeriods sel ((bitsOfByte out).zip (bitsOfByte inp)) := rfl

theorem bitPeriods_cons (sel : Bool) (b : Bool × Bool) (bits : List (Bool × Bool)) :
    bitPeriods sel (b :: bits) = ⟨false, b.1, b.2, !sel⟩ :: ⟨true, b.1, b.2, !sel⟩ :: bitPeriods sel bits := rfl

theorem length_bitPeriods (sel : Bool) (bits : List (Bool × Bool)) : (bitPeriods sel bits).length = 2 * bits.length := by
  induction bits with
  | nil => rfl
  | cons b bits ih => rw [bitPeriods_cons, List.length_cons, List.length_cons, List.length_cons, ih]; omega

/-- In period `k` both halves carry pair `k`, the clock low in the first and high in the second. -/
theorem bitPeriods_period (sel : Bool) {bits : List (Bool × Bool)} {k : Nat} {b : Bool × Bool} (hb : bits[k]? = some b) :
    (bitPeriods sel bits)[2 * k]? = some ⟨false, b.1, b.2, !sel⟩ ∧
      (bitPeriods sel bits)[2 * k + 1]? = some ⟨true, b.1, b.2, !sel⟩ := by
  induction bits generalizing k with
  | nil => cases hb
  | cons c bits ih =>
    cases k with
    | zero =>
      obtain rfl : c = b := by simpa using hb
      exact ⟨rfl, rfl⟩
    | succ k => exact ih (by simpa using hb)

/-- The clock rises once in each period, whatever its level before: every period begins low. -/
theorem risingEdges_bitPeriods (before sel : Bool) (bits : List (Bool × Bool)) :
    risingEdges before (bitPeriods sel bits) = bits.map (fun b => ⟨true, b.1, b.2, !sel⟩) := by
  induction bits generalizing before with
  | nil => rfl
  | cons b bits ih => simp [bitPeriods_cons, risingEdges, ih]

/-! The bits of a byte. -/

theorem getElem?_bitsOfByte (b : Byte) {k : Nat} (hk : k < 8) : (bitsOfByte b)[k]? = some (b.getLsbD (7 - k)) := by
  interval_cases k <;> rfl

theorem length_bitsOfByte (b : Byte) : (bitsOfByte b).length = 8 := rfl

theorem byteOfBits_bitsOfByte : ∀ b : Byte, byteOfBits (bitsOfByte b) = b := by decide

/-! What a receiver that samples on rising edges gets: the byte whose bits its line carries. -/

theorem sampledMosi_exchangeWave (sel : Bool) (out inp : Byte) : sampledMosi (exchangeWave sel out inp) = out := by
  have line : (risingEdges false (exchangeWave sel out inp)).map Pins.mosi = bitsOfByte out := by
    rw [exchangeWave_eq, risingEdges_bitPeriods, List.map_map]
    exact List.map_fst_zip (Nat.le_refl 8)
  rw [sampledMosi, line, byteOfBits_bitsOfByte]

theorem sampledMiso_exchangeWave (sel : Bool) (out inp : Byte) : sampledMiso (exchangeWave sel out inp) = inp := by
  have line : (risingEdges false (exchangeWave sel out inp)).map Pins.miso = bitsOfByte inp := by
    rw [exchangeWave_eq, risingEdges_bitPeriods, List.map_map]
    exact List.map_snd_zip (Nat.le_refl 8)
  rw [sampledMiso, line, byteOfBits_bitsOfByte]

/-- Settles O21: an exchange is eight clock periods, and period `k` carries bit `7 - k` of each byte. -/
theorem serialWaveCarriesBothBytes : Obligations.SerialWaveCarriesBothBytes := by
  intro sel out inp
  refine ⟨?_, fun k hk => ?_, sampledMosi_exchangeWave sel out inp, sampledMiso_exchangeWave sel out inp⟩
  · rw [exchangeWave_eq, length_bitPeriods, List.length_zip, length_bitsOfByte, length_bitsOfByte, Nat.min_self]
  · have pair : ((bitsOfByte out).zip (bitsOfByte inp))[k]? = some (out.getLsbD (7 - k), inp.getLsbD (7 - k)) :=
      List.getElem?_zip_eq_some.mpr ⟨getElem?_bitsOfByte out hk, getElem?_bitsOfByte inp hk⟩
    exact bitPeriods_period sel pair

end Sys2Proof.Machine

/-!
The checksum family (41_crc7.md): the linearity of `crc7` (R160), the polynomial remainder it computes (R161), the sixth byte
of a frame by opcode and mode (R162, R163), and the worked examples (R164).
-/

namespace Sys2Proof.Machine

/-! Linearity (R160): byte by byte, from any two working registers. -/

theorem foldl_crcOfByte_xor (a b : List Byte) (same : a.length = b.length) (c d : U7) :
    (List.zipWith (· ^^^ ·) a b).foldl crcOfByte (c ^^^ d) = a.foldl crcOfByte c ^^^ b.foldl crcOfByte d := by
  induction a generalizing b c d with
  | nil =>
    obtain rfl : b = [] := List.length_eq_zero_iff.mp same.symm
    rfl
  | cons x a ih =>
    obtain ⟨y, b, rfl⟩ := List.exists_cons_of_length_eq_add_one same.symm
    rw [List.zipWith_cons_cons, List.foldl_cons, List.foldl_cons, List.foldl_cons, crcOfByte_xor]
    exact ih b (Nat.succ.inj same) _ _

/-- Settles O22: `foldl_crcOfByte_xor` from two cleared registers. -/
theorem crcIsLinear : Obligations.CrcIsLinear := fun a b same => foldl_crcOfByte_xor a b same 0#7 0#7

/-! The remainder (R161): after every message bit the working register is what the bits read so far, times x^7, leave modulo
the generator. -/

section Remainder
open Polynomial

/-- x^7 + x^3 + 1 over GF(2) (R160). -/
noncomputable def generator : (ZMod 2)[X] := X ^ 7 + X ^ 3 + 1

/-- A bit as a coefficient. -/
noncomputable def bitCoeff (d : Bool) : (ZMod 2)[X] := if d then 1 else 0

/-- The message polynomial with one more bit read, as the coefficient of the next lower power (R161). -/
noncomputable def pushBit (m : (ZMod 2)[X]) (d : Bool) : (ZMod 2)[X] := m * X + bitCoeff d

/-- The working register as a polynomial, bit `k` the coefficient of x^k (R161). -/
noncomputable def registerPoly (c : U7) : (ZMod 2)[X] := ∑ k ∈ Finset.range 7, if c.getLsbD k then X ^ k else 0

theorem bitCoeff_xor (x y : Bool) : bitCoeff (Bool.xor x y) = bitCoeff x + bitCoeff y := by
  cases x <;> cases y <;> simp [bitCoeff, CharTwo.add_self_eq_zero]

theorem registerPoly_eq (c : U7) : registerPoly c = bitCoeff (c.getLsbD 0) + bitCoeff (c.getLsbD 1) * X +
    bitCoeff (c.getLsbD 2) * X ^ 2 + bitCoeff (c.getLsbD 3) * X ^ 3 + bitCoeff (c.getLsbD 4) * X ^ 4 +
    bitCoeff (c.getLsbD 5) * X ^ 5 + bitCoeff (c.getLsbD 6) * X ^ 6 := by
  simp [registerPoly, bitCoeff, Finset.sum_range_succ, ite_mul]

theorem registerPoly_zero : registerPoly 0#7 = 0 := by simp [registerPoly]

theorem generator_monic : generator.Monic := by unfold generator; monicity!

theorem degree_generator : generator.degree = 7 := by unfold generator; compute_degree!

theorem degree_registerPoly_lt (c : U7) : (registerPoly c).degree < 7 := by
  refine mem_degreeLT.mp (Submodule.sum_mem (degreeLT (ZMod 2) 7) fun k hk => ?_)
  split
  · rw [mem_degreeLT, degree_X_pow]
    exact_mod_cast Finset.mem_range.mp hk
  · exact zero_mem _

/-- A message bit shifts the register up by x and enters at x^7; the generator is taken off exactly when the register feeds
back. -/
theorem registerPoly_crcBit (c : U7) (d : Bool) :
    X * registerPoly c + bitCoeff d * X ^ 7 - registerPoly (crcBit c d) =
      bitCoeff (Bool.xor (c.getLsbD 6) d) * generator := by
  obtain ⟨b0, b1, b2, b3, b4, b5, b6⟩ := crcBit_bits c d
  have two : (2 : (ZMod 2)[X]) = 0 := CharTwo.two_eq_zero
  rw [registerPoly_eq, registerPoly_eq, b0, b1, b2, b3, b4, b5, b6, bitCoeff_xor, bitCoeff_xor, bitCoeff_xor, generator]
  linear_combination -(bitCoeff (c.getLsbD 6) + bitCoeff d) * (X ^ 3 + 1) * two

/-- The register stays congruent to the message times x^7 through any bits. -/
theorem generator_dvd_message_sub_register (bits : List Bool) (m : (ZMod 2)[X]) (c : U7)
    (congruent : generator ∣ m * X ^ 7 - registerPoly c) :
    generator ∣ bits.foldl pushBit m * X ^ 7 - registerPoly (bits.foldl crcBit c) := by
  induction bits generalizing m c with
  | nil => exact congruent
  | cons d bits ih =>
    refine ih (pushBit m d) (crcBit c d) ?_
    have step : pushBit m d * X ^ 7 - registerPoly (crcBit c d) =
        X * (m * X ^ 7 - registerPoly c) + bitCoeff (Bool.xor (c.getLsbD 6) d) * generator := by
      rw [← registerPoly_crcBit, pushBit]
      ring
    rw [step]
    exact (congruent.mul_left X).add (dvd_mul_left _ _)

/-- The register is the remainder: it is congruent to the message times x^7, and its degree is below the generator's. -/
theorem message_modByMonic_generator (bits : List Bool) :
    bits.foldl pushBit 0 * X ^ 7 %ₘ generator = registerPoly (bits.foldl crcBit 0#7) := by
  have congruent := generator_dvd_message_sub_register bits 0 0#7 (by simp [registerPoly_zero])
  rw [modByMonic_eq_of_dvd_sub generator_monic congruent, (modByMonic_eq_self_iff generator_monic).mpr]
  rw [degree_generator]
  exact degree_registerPoly_lt _

end Remainder

/-- Settles O23: `message_modByMonic_generator` of the bytes' bits. -/
theorem crcIsThePolynomialRemainder : Obligations.CrcIsThePolynomialRemainder := by
  intro bytes
  rw [crc7, crc_bits]
  exact message_modByMonic_generator (bytes.flatMap bitsOfByte)

/-! The sixth byte (R162, R163), by opcode and mode. -/

theorem crcByte_computed {p : Params} (mode : p.crcMode = .computed) {opcode : U6} (checked : opcode = 0#6 ∨ opcode = 8#6)
    (arg : U32) : crcByte p opcode arg = checkByte (crc7 (frameHead opcode arg)) := by
  rw [crcByte, mode]
  exact if_pos checked

theorem crcByte_table {p : Params} (mode : p.crcMode = .table) {opcode : U6} (checked : opcode = 0#6 ∨ opcode = 8#6)
    (arg : U32) : crcByte p opcode arg = if opcode = 0#6 then 0x95#8 else 0x87#8 := by
  rw [crcByte, mode]
  exact if_pos checked

theorem crcByte_unchecked (p : Params) {opcode : U6} (unchecked : ¬(opcode = 0#6 ∨ opcode = 8#6)) (arg : U32) :
    crcByte p opcode arg = p.crcPlaceholder := if_neg unchecked

/-- The five bytes the checksum is taken over, the fields written out (R161). -/
theorem frameHead_fields (opcode : U6) (arg : U32) :
    frameHead opcode arg = [0x40#8 ||| opcode.setWidth 8, arg.extractLsb' 24 8, arg.extractLsb' 16 8, arg.extractLsb' 8 8,
      arg.extractLsb' 0 8] := by
  rw [frameHead, commandByte_eq_or, argBytes]

/-- Settles O25: by opcode, then by mode. -/
theorem sixthByteOfAFrame : Obligations.SixthByteOfAFrame := by
  intro p opcode arg
  rw [← frameHead_fields, ← checkByte_eq_or]
  by_cases checked : opcode = 0#6 ∨ opcode = 8#6
  · rw [if_pos checked]
    cases mode : p.crcMode with
    | computed => exact crcByte_computed mode checked arg
    | table => exact crcByte_table mode checked arg
  · rw [if_neg checked]
    exact crcByte_unchecked p checked arg

/-- The byte is 0x87 exactly when the checksum is 0x43. -/
theorem checkByte_eq_crcCmd8_iff : ∀ crc : U7, checkByte crc = 0x87#8 ↔ crc = 0x43#7 := by decide

/-- Of the 256 arguments of opcode 8 from 0x100 on, two give the checksum of the interface check (R164). -/
theorem ifCondArgs_of_checksum :
    (List.range 256).filter (fun k => crc7 (frameHead 8#6 (BitVec.ofNat 32 (0x100 + k))) = 0x43#7) = [0x23, 0xAA] := by
  decide +kernel

/-- Settles O24: the values by evaluation, the two standard frames' bytes by `crcByte_goIdle` and `crcByte_sendIfCond`. -/
theorem crcWorkedExamples : Obligations.CrcWorkedExamples := by
  refine ⟨by decide +kernel, by decide +kernel, by decide, by decide, by decide, by decide, by decide, by decide,
    by decide, crcByte_goIdle _, crcByte_sendIfCond _, ?_⟩
  rw [← ifCondArgs_of_checksum]
  refine List.filter_congr fun k _ => decide_eq_decide.mpr ?_
  exact (Eq.congr_left (crcByte_computed rfl (.inr rfl) _)).trans (checkByte_eq_crcCmd8_iff _)

end Sys2Proof.Machine

/-!
The command engine family (42_command_engine.md): POLL (R180) and SEND_COMMAND (R182), each started by the host and run to its
end.
-/

namespace Sys2Proof.Machine

/-- When the checksum of a command is computed (R162). -/
theorem crcComputed_iff (p : Params) (opcode : U6) :
    crcComputed p opcode = true ↔ (opcode = 0#6 ∨ opcode = 8#6) ∧ p.crcMode = .computed := by
  simp [crcComputed, Config.opGoIdle, Config.opSendIfCond]

/-- The frame of a command, its fields written out (R91, R182). -/
theorem commandFrame_fields (p : Params) (opcode : U6) (arg : U32) :
    commandFrame p opcode arg = ⟨0x40#8 ||| opcode.setWidth 8, arg.extractLsb' 24 8, arg.extractLsb' 16 8,
      arg.extractLsb' 8 8, arg.extractLsb' 0 8, crcByte p opcode arg⟩ := by
  rw [← commandByte_eq_or]
  rfl

/-- Everything `runPoll` does with a bound of at least 1 (R180), as `poll_spec`: the triple is delivered. -/
theorem runPoll_spec {bound : Nat} (pos : 1 ≤ bound) (pred : BytePred) (out : Byte) (s : State) :
    ∃ got last, Polled bound pred.holds got last ∧ Emitted s (runPoll bound pred out s) (listenEvents s.sel out got) ∧
      runPoll bound pred out s = { atRest (withBus (runPoll bound pred out s) s) with
        pollcnt := got.length
        out := .poll (pred.holds last) last got.length } := by
  obtain ⟨got, last, polled, emits, run⟩ := poll_spec bound pos pred.holds out s
  exact ⟨got, last, polled, ⟨emits.trace, emits.count, emits.heard⟩,
    congrArg (fun p : PollResult × State => deliverValue (.poll p.1.hit p.1.last p.1.n) p.2) run⟩

/-- Everything `runSendCommand` does (R182), as `sendCommand_spec`: the last byte polled is delivered. -/
theorem runSendCommand_spec (opcode : U6) (arg : U32) (s : State) :
    ∃ heard got r, Answered heard got r ∧
      Emitted s (runSendCommand opcode arg s) (commandEvents s.sel (commandFrame s.cfg opcode arg) heard got) ∧
      runSendCommand opcode arg s = { atRest (withBus (runSendCommand opcode arg s) s) with
        opc := opcode
        arg := arg
        frame := commandFrame s.cfg opcode arg
        framei := Config.frameLen
        crc := if crcComputed s.cfg opcode then crc7 (frameHead opcode arg) else s.crc
        pollcnt := got.length
        r1 := r
        out := .byte r } := by
  obtain ⟨heard, got, r, answered, emits, run⟩ := sendCommand_spec opcode arg s
  exact ⟨heard, got, r, answered, ⟨emits.trace, emits.count, emits.heard⟩,
    congrArg (fun c : Byte × State => deliverValue (.byte c.1) c.2) run⟩

/-- Settles O26: with a bound of at least 1 the run of `runPoll_spec`; with bound 0 `poll` returns before its loop. -/
theorem pollSendsUntilAByteHits : Obligations.PollSendsUntilAByteHits := by
  intro s bound pred out whole
  have run : exec (.poll bound pred out) s = .next (runPoll bound pred out (started (.poll bound pred out) s)) :=
    startOp_whole whole _ _ _
  constructor
  · intro pos
    obtain ⟨got, last, polled, emits, state⟩ := runPoll_spec pos pred out (started (.poll bound pred out) s)
    exact ⟨_, got, last, run, polled, ⟨emits.trace, emits.count, emits.heard⟩, state⟩
  · rintro rfl
    exact ⟨Config.unpolledByte s.draws, run⟩

/-- Settles O27: the run of `runSendCommand_spec`, the frame and the checksum's condition written out. -/
theorem sendCommandFramesThenPolls : Obligations.SendCommandFramesThenPolls := by
  intro s opcode arg whole
  obtain ⟨heard, got, r, answered, emits, state⟩ := runSendCommand_spec opcode arg (started (.sendCommand opcode arg) s)
  refine ⟨_, heard, got, r, startOp_whole whole _ _ _, answered, ⟨emits.trace, emits.count, emits.heard⟩, ?_⟩
  rw [← commandFrame_fields]
  simp only [← crcComputed_iff]
  exact state

end Sys2Proof.Machine

/-!
The initialisation sequencer family (43_init_sequencer.md): INIT as a run of its sequence (R200 to R211), the bounds that follow
from such a run (R212), and the run that a wrong first response ends (R203).
-/

namespace Sys2Proof.Machine

/-! The run. -/

/-- The frame of INIT: `InitEnd`, field by field, as one equation. -/
theorem InitEnd.state {s : State} {q : Result × State} (h : InitEnd { s with ready := false } q) :
    q.2 = { atRest (withBus q.2 s) with
      ready := decide (q.2.res = .ok)
      fsm := if q.2.res = .ok then .ready else .failed
      sectorCount := if q.2.res = .ok then s.cfg.sectorCountFixed else s.sectorCount
      sel := false
      opc := q.2.opc
      arg := q.2.arg
      frame := q.2.frame
      framei := 6
      crc := q.2.crc
      r1 := q.2.r1
      r7tail := q.2.r7tail
      pollcnt := q.2.pollcnt
      retrycnt := q.2.retrycnt
      appcmd := q.2.appcmd
      loopidx := q.2.loopidx
      res := q.2.res
      out := .nothing } := by
  obtain ⟨cfg, other, ⟨res, out, busy, phase, running⟩, ready, fsm, count, sel, framei, -⟩ := h
  obtain ⟨result, t⟩ := q
  simp only [Prod.mk.injEq] at other
  cases t
  simp_all [atRest, withBus]

/-- Settles O38: the run and the frame of `init_spec`. -/
theorem initRunsItsSequence : Obligations.InitRunsItsSequence := by
  intro s whole
  obtain ⟨evs, tail, run, drained, emits, ended⟩ := init_spec (started .init s)
  refine ⟨_, evs, tail, startOp_whole whole .init enterBusReset (fun t => (initCard t).2), ?_,
    ⟨emits.trace, emits.count, emits.heard⟩, ?_⟩
  · rw [ended.ended.res]
    exact run
  · have drained : (initCard (started .init s)).2.r7tail = tailAfter s.r7tail tail := drained
    rw [← drained]
    exact ended.state

/-! The bounds (R212). -/

/-- The events make `lo` to `hi` exchanges and `naps` sleeps. -/
structure Spends (lo hi naps : Nat) (evs : List Event) : Prop where
  least : lo ≤ xferCount evs
  most : xferCount evs ≤ hi
  sleeps : sleepCount evs = naps

theorem Spends.append {lo hi naps lo' hi' naps' : Nat} {a b : List Event} (h : Spends lo hi naps a) (k : Spends lo' hi' naps' b) :
    Spends (lo + lo') (hi + hi') (naps + naps') (a ++ b) where
  least := (Nat.add_le_add h.least k.least).trans_eq (xferCount_append a b).symm
  most := (xferCount_append a b).trans_le (Nat.add_le_add h.most k.most)
  sleeps := by rw [sleepCount_append, h.sleeps, k.sleeps]

theorem Spends.weaken {lo hi naps lo' hi' : Nat} {evs : List Event} (h : Spends lo hi naps evs) (least : lo' ≤ lo)
    (most : hi ≤ hi') : Spends lo' hi' naps evs :=
  ⟨least.trans h.least, h.most.trans most, h.sleeps⟩

theorem spends_sel : Spends 0 0 0 [.sel] := ⟨by simp, by simp, rfl⟩

theorem spends_desel : Spends 0 0 0 [.desel] := ⟨by simp, by simp, rfl⟩

theorem spends_slept : Spends 0 0 1 [.slept] := ⟨by simp, by simp, rfl⟩

theorem spends_listen (b : Bool) (out : Byte) (got : List Byte) : Spends got.length got.length 0 (listenEvents b out got) :=
  ⟨(xferCount_listen b out got).ge, (xferCount_listen b out got).le, sleepCount_xfers b _ got⟩

/-- A command makes six exchanges for its frame and one to ten for its response (R183). -/
theorem spends_command (b : Bool) (f : Frame) {heard got : List Byte} {r : Byte} (h : Answered heard got r) :
    Spends 7 16 0 (commandEvents b f heard got) := by
  have count := xferCount_command b f got h.frame
  have pos := h.response.pos
  have within := h.response.within
  simp only [Config.frameLen, Config.respPollBound] at count within
  refine ⟨by omega, by omega, ?_⟩
  rw [commandEvents, sleepCount_append, listenEvents, sleepCount_xfers, sleepCount_xfers]

theorem Bracket.spends {p : Params} {opcode : U6} {arg : U32} {evs : List Event} {r : Byte} (h : Bracket p opcode arg evs r) :
    Spends 7 16 0 evs := by
  obtain ⟨_, ⟨heard, got, answered, rfl⟩, rfl⟩ := h
  exact (spends_sel.append (spends_command true _ answered)).append spends_desel

/-- Opcode 8 makes four exchanges more where it drains (R204). -/
theorem IfCondBracket.spends {p : Params} {evs : List Event} {r : Byte} {tail : List Byte} (h : IfCondBracket p evs r tail) :
    Spends 7 20 0 evs := by
  obtain ⟨_, ⟨length, heard, got, answered, rfl⟩, rfl⟩ := h
  have drain : tail.length ≤ 4 := by
    rw [length]
    split <;> omega
  have spends := ((spends_sel.append (spends_command true (commandFrame p 8#6 0x000001AA#32) answered)).append
    (spends_listen true p.fill tail)).append spends_desel
  exact spends.weaken (by omega) (by omega)

theorem Attempt.spends {p : Params} {evs : List Event} {r : Byte} (h : Attempt p evs r) : Spends 14 32 0 evs := by
  obtain ⟨a, b, any, appCmd, opCond, rfl⟩ := h
  exact appCmd.spends.append opCond.spends

theorem StillIdle.spends {p : Params} {n : Nat} {evs : List Event} {r : Byte} (h : StillIdle p n evs r) :
    Spends (14 * n) (32 * n) n evs := by
  induction n generalizing evs r with
  | zero =>
    obtain rfl : evs = [] := h
    exact ⟨Nat.le_refl 0, Nat.le_refl 0, rfl⟩
  | succ n ih =>
    obtain ⟨before, r0, a, still, attempt, -, rfl⟩ := h
    exact ((ih still).append attempt.spends).append spends_slept

theorem spends_busReset (p : Params) (idle : List Byte) : Spends idle.length idle.length 0 (busResetEvents p idle) := by
  exact (spends_desel.append (spends_listen false p.fill idle)).weaken (by omega) (by omega)

/-- What a run of INIT with ten idle bytes spends, by its result (R212). -/
theorem InitRun.bounds {p : Params} {evs : List Event} {o : InitOutcome} (h : InitRun p evs o) (ten : p.resetIdleBytes = 10) :
    (o.res = .ok → 45 ≤ xferCount evs ∧ xferCount evs ≤ 32062 ∧ sleepCount evs ≤ 999) ∧
      (o.res ≠ .ok → 17 ≤ xferCount evs ∧ xferCount evs ≤ 32062 ∧ sleepCount evs ≤ 1000) := by
  cases h with
  | goIdle idle g r n b =>
    obtain ⟨least, most, sleeps⟩ := (spends_busReset p idle).append b.spends
    exact ⟨nofun, fun _ => by omega⟩
  | ifCond idle g c r n b i =>
    obtain ⟨least, most, sleeps⟩ := ((spends_busReset p idle).append b.spends).append i.spends
    exact ⟨nofun, fun _ => by omega⟩
  | application idle g c w rc r tail n b i pass still =>
    obtain ⟨least, most, sleeps⟩ := (((spends_busReset p idle).append b.spends).append i.spends).append still.spends
    exact ⟨nofun, fun _ => by omega⟩
  | blockLength idle g c w a l rc r0 ra r tail k n b i pass hk still attempt cleared e =>
    obtain ⟨least, most, sleeps⟩ :=
      (((((spends_busReset p idle).append b.spends).append i.spends).append still.spends).append attempt.spends).append e.spends
    exact ⟨fun _ => by omega, fun _ => by omega⟩

/-- Settles O39: the bounds of the run of `init_spec`. -/
theorem initStaysWithinItsBounds : Obligations.InitStaysWithinItsBounds := by
  intro s whole ten
  obtain ⟨t, evs, tail, ex, run, emits, -⟩ := initRunsItsSequence s whole
  exact ⟨t, evs, ex, emits, run.bounds ten⟩

/-! A wrong first response (R203). -/

/-- `BusReset`, then the bracket of opcode 0 (R202, R203): the idle bytes and the command receive `idle`, `heard` and `got`. -/
def goIdleEvents (p : Params) (idle heard got : List Byte) : List Event :=
  busResetEvents p idle ++ (.sel :: commandEvents true ⟨0x40#8, 0#8, 0#8, 0#8, 0#8, 0x95#8⟩ heard got ++ [.desel])

theorem received_goIdle (p : Params) (idle : List Byte) {heard got : List Byte} {r : Byte} (h : Answered heard got r) :
    received (goIdleEvents p idle heard got) = idle ++ heard ++ got := by
  simp [goIdleEvents, busResetEvents, received_command true _ got h.frame]

theorem Bracket.events_goIdle {p : Params} {g : List Event} {r : Byte} (h : Bracket p 0#6 0#32 g r) (idle : List Byte) :
    ∃ heard got, Answered heard got r ∧ busResetEvents p idle ++ g = goIdleEvents p idle heard got := by
  obtain ⟨_, ⟨heard, got, answered, rfl⟩, rfl⟩ := h
  rw [frame_goIdle]
  exact ⟨heard, got, answered, rfl⟩

/-- Every run of INIT begins with `goIdleEvents`; a response other than 0x01 there is its end. -/
theorem InitRun.begins {p : Params} {evs : List Event} {o : InitOutcome} (h : InitRun p evs o) :
    ∃ idle heard got r rest, idle.length = p.resetIdleBytes ∧ Answered heard got r ∧
      evs = goIdleEvents p idle heard got ++ rest ∧ (r ≠ 0x01#8 → rest = [] ∧ o.res = .initFailure .goIdle r) := by
  cases h with
  | goIdle idle g r n b =>
    obtain ⟨heard, got, answered, events⟩ := b.events_goIdle idle
    exact ⟨idle, heard, got, r, [], n, answered, by rw [events, List.append_nil], fun _ => ⟨rfl, rfl⟩⟩
  | ifCond idle g c r n b =>
    obtain ⟨heard, got, answered, events⟩ := b.events_goIdle idle
    exact ⟨idle, heard, got, _, c, n, answered, by rw [events], absurd rfl⟩
  | application idle g c w rc r tail n b =>
    obtain ⟨heard, got, answered, events⟩ := b.events_goIdle idle
    exact ⟨idle, heard, got, _, c ++ w, n, answered, by simp [events], absurd rfl⟩
  | blockLength idle g c w a l rc r0 ra r tail k n b =>
    obtain ⟨heard, got, answered, events⟩ := b.events_goIdle idle
    exact ⟨idle, heard, got, _, c ++ w ++ a ++ l, n, answered, by simp [events], absurd rfl⟩

theorem xferCount_eq_received (evs : List Event) : xferCount evs = (received evs).length := by
  induction evs with
  | nil => rfl
  | cons e evs ih => cases e <;> simp [ih]

/-- The bytes received are the card's listed answers, as far as both go (R44). -/
theorem Emitted.listed {s t : State} {evs : List Event} (h : Emitted s t evs) : ∃ x y, received evs ++ x = s.card ++ y := by
  have ends := takeAnswers_prefix (xferCount evs) s.card s.draws
  rw [h.heard] at ends
  rcases ends with ⟨x, listed⟩ | ⟨y, more⟩
  · exact ⟨x, [], listed.trans (List.append_nil _).symm⟩
  · exact ⟨[], y, (List.append_nil _).trans more.symm⟩

/-- The answers listed after those received are left (R44). -/
theorem Emitted.card_eq {s t : State} {evs : List Event} (h : Emitted s t evs) {after : List Byte}
    (listed : s.card = received evs ++ after) : t.card = after := by
  have heard := h.heard
  rw [xferCount_eq_received, listed, takeAnswers_append] at heard
  exact (congrArg (fun a => a.2.1) heard).symm

/-- Idle bytes and one command receive the same bytes wherever they read the same stream. -/
theorem Answered.unique {idle idle' heard heard' got got' x y : List Byte} {r r' : Byte} (h : Answered heard got r)
    (h' : Answered heard' got' r') (length : idle.length = idle'.length)
    (stream : idle ++ (heard ++ (got ++ x)) = idle' ++ (heard' ++ (got' ++ y))) :
    idle = idle' ∧ heard = heard' ∧ got = got' ∧ r = r' := by
  obtain ⟨sameIdle, stream⟩ := List.append_inj stream length
  obtain ⟨sameHeard, stream⟩ := List.append_inj stream (h.frame.trans h'.frame.symm)
  exact ⟨sameIdle, sameHeard, h.response.unique h'.response stream⟩

/-- Settles O41: what the run of INIT first receives is what the card lists, so its first response is `r`, which ends it. -/
theorem initStopsAtAWrongFirstResponse : Obligations.InitStopsAtAWrongFirstResponse := by
  intro s idle heard got after r whole length answered wrong card
  obtain ⟨t, evs, tail, ex, run, emits, state⟩ := initRunsItsSequence s whole
  obtain ⟨idle', heard', got', r', rest, length', answered', rfl, ended⟩ := run.begins
  have stream : ∃ x y, idle' ++ (heard' ++ (got' ++ x)) = idle ++ (heard ++ (got ++ y)) := by
    obtain ⟨x, y, listed⟩ := emits.listed
    refine ⟨received rest ++ x, after ++ y, ?_⟩
    simpa [received_goIdle s.cfg idle' answered', card] using listed
  obtain ⟨x, y, stream⟩ := stream
  obtain ⟨rfl, rfl, rfl, rfl⟩ := answered'.unique answered (length'.trans length.symm) stream
  obtain ⟨rfl, failed⟩ := ended wrong
  rw [List.append_nil] at emits
  have hears := received_goIdle s.cfg idle' answered
  have failed : t.res = .initFailure .goIdle r' := failed
  have notOk : t.res ≠ .ok := by simp [failed]
  refine ⟨t, ex, failed, ?_, ?_, ?_, ?_, emits.card_eq (by rw [hears, card]), ?_⟩
  · rw [state]; exact decide_eq_false notOk
  · rw [state]; exact if_neg notOk
  · rw [state]
  · rw [emits.count, xferCount_eq_received, hears, List.length_append, List.length_append, length, answered.frame]
    rfl
  · rw [emits.trace]; simp [goIdleEvents, busResetEvents]

end Sys2Proof.Machine

/-!
The block I/O family (44_block_io.md): the ready gate of the sector operations, the transaction of opcode 24, the exchanges of each
result, and the buffer of a read that failed.
-/

namespace Sys2Proof.Machine

/-! The ready gate (R255). -/

theorem firstSector_unready (isWrite : Bool) (index : U32) (buf : Nat) {s : State} (ready : s.ready = false) :
    firstSector isWrite index buf s = (raiseError false .notReady s).2 := if_neg (by simp [ready])

theorem readSector_unready (index : U32) (buf : Nat) {s : State} (ready : s.ready = false) :
    readSector index buf s = raiseError false .notReady s := if_neg (by simp [ready])

theorem writeSector_unready (index : U32) (buf : Nat) {s : State} (ready : s.ready = false) :
    writeSector index buf s = raiseError false .notReady s := if_neg (by simp [ready])

/-- A sector operation that the gate stops ends at once in either granularity, with the error raised (R318). -/
theorem startOp_unready {s : State} (idle : s.busy = false) (ready : s.ready = false) {i : Instr} {isWrite : Bool} {index : U32}
    {buf : Nat} {whole : State → Result × State} (gated : whole (started i s) = raiseError false .notReady (started i s)) :
    startOp i (firstSector isWrite index buf) (fun t => (whole t).2) s =
      .next { atRest s with res := .notReady, out := .nothing } := by
  have first := firstSector_unready isWrite index buf (s := started i s) ready
  unfold started at first gated
  simp [startOp, idle, first, gated, raiseError, deliverValue, atRest]

/-- Settles O42: the gate stops either operation. -/
theorem sectorOperationsNeedAReadySession : Obligations.SectorOperationsNeedAReadySession := fun _ index buf idle ready =>
  ⟨startOp_unready (whole := readSector index buf) idle ready (readSector_unready index buf ready),
    startOp_unready (whole := writeSector index buf) idle ready (writeSector_unready index buf ready)⟩

/-! The transaction of opcode 24. -/

/-- Settles O44: `writeSector_runs`. -/
theorem writeSectorRunsItsTransaction : Obligations.WriteSectorRunsItsTransaction := fun _ index buf whole ready =>
  writeSector_runs whole ready index buf

/-! The exchanges of a sector operation, by its result. -/

/-- The packet of a write makes four exchanges beside those of its payload: the token, two bytes and the data response (R247,
R248). -/
theorem spends_packet (p : Params) {data more : List Byte} (d : Byte) (n : more.length = data.length + 3) :
    Spends (data.length + 4) (data.length + 4) 0 (packetEvents p data more d) := by
  have count : xferCount (packetEvents p data more d) = data.length + 4 := by simp [packetEvents, xferCount_xfers, n]
  exact ⟨count.ge, count.le, sleepCount_xfers true _ _⟩

/-- How many exchanges a read may make, by its result (R245). -/
def ReadCount (n : Nat) : Result → Prop
  | .ok => 522 ≤ n ∧ n ≤ 1530
  | .commandRejected _ => 7 ≤ n ∧ n ≤ 16
  | .transferTimeout which => which = .token ∧ 1007 ≤ n ∧ n ≤ 1016
  | _ => False

/-- How many exchanges a write may make, by its result (R251). -/
def WriteCount (n : Nat) : Result → Prop
  | .ok => 524 ≤ n ∧ n ≤ 1532
  | .commandRejected _ => 7 ≤ n ∧ n ≤ 16
  | .transferTimeout which => which = .busy ∧ 1523 ≤ n ∧ n ≤ 1532
  | .writeRejected _ _ => 523 ≤ n ∧ n ≤ 532
  | _ => False

theorem ReadRun.count {p : Params} {f : Frame} {evs : List Event} {e : ReadEnd} (h : ReadRun p f evs e) :
    ReadCount (xferCount evs) e.res := by
  cases h with
  | rejected heard got r answered =>
    obtain ⟨least, most, -⟩ := (spends_command true f answered).append spends_desel
    exact ⟨least, most⟩
  | timeout heard got toks last answered polled miss =>
    obtain ⟨least, most, -⟩ := ((spends_command true f answered).append (spends_listen true p.fill toks)).append spends_desel
    have spent : toks.length = 1000 := polled.spent (by simpa [isStartToken, Config.dataStartToken] using miss)
    exact ⟨rfl, by omega, by omega⟩
  | done heard got toks data crc answered polled block check =>
    obtain ⟨least, most, -⟩ :=
      ((spends_command true f answered).append (spends_listen true p.fill (toks ++ data ++ crc))).append spends_desel
    have pos := polled.pos
    have within : toks.length ≤ 1000 := polled.within
    rw [List.length_append, List.length_append] at least most
    simp only [Config.blockSize, Config.dataCrcLen] at block check
    exact ⟨by omega, by omega⟩

theorem WriteRun.count {p : Params} {f : Frame} {data : List Byte} {evs : List Event} {e : WriteEnd}
    (h : WriteRun p f data evs e) (block : data.length = 512) : WriteCount (xferCount evs) e.res := by
  cases h with
  | commandRejected heard got r answered =>
    obtain ⟨least, most, -⟩ := (spends_command true f answered).append spends_desel
    exact ⟨least, most⟩
  | rejected heard got more d answered n =>
    obtain ⟨least, most, -⟩ := ((spends_command true f answered).append (spends_packet p d n)).append spends_desel
    exact ⟨by omega, by omega⟩
  | accepted heard got more busy d last answered n accepted polled =>
    obtain ⟨least, most, -⟩ := (((spends_command true f answered).append (spends_packet p d n)).append
      (spends_listen true p.fill busy)).append spends_desel
    split
    · next still =>
      have spent : busy.length = 1000 := polled.spent (by simp [still, notBusy])
      exact ⟨rfl, by omega, by omega⟩
    · have pos := polled.pos
      have within : busy.length ≤ 1000 := polled.within
      exact ⟨by omega, by omega⟩

/-- The exchanges of a bracketed run are those after its `Sel` (R41). -/
theorem Emitted.bracket_count {s t : State} {evs : List Event} (h : Emitted s t (.sel :: evs)) {n : Nat}
    (count : t.xcount = s.xcount + n) : xferCount evs = n :=
  Nat.add_left_cancel ((congrArg (s.xcount + ·) (xferCount_sel evs).symm).trans (h.count.symm.trans count))

/-- Settles O45: the counts of the runs of `readSector_runs` and `writeSector_runs`. -/
theorem sectorExchangeCounts : Obligations.SectorExchangeCounts := by
  intro s t index buf n whole ready count
  constructor
  · intro read
    obtain ⟨t', evs, e, ex, run, emits, -, frame⟩ := readSector_runs whole ready index buf
    obtain rfl : t' = t := Host.Outcome.next.inj (ex.symm.trans read)
    have res : t'.res = e.res := (congrArg State.res frame).trans rfl
    have counted := run.count
    rw [emits.bracket_count count, ← res] at counted
    exact counted
  · intro write
    obtain ⟨t', evs, e, ex, run, emits, frame⟩ := writeSector_runs whole ready index buf
    obtain rfl : t' = t := Host.Outcome.next.inj (ex.symm.trans write)
    have res : t'.res = e.res := (congrArg State.res frame).trans rfl
    have counted := run.count (by simp [hostBytes])
    rw [emits.bracket_count count, ← res] at counted
    exact counted

/-! A read that failed (R244). -/

theorem ReadRun.data_eq_nil {p : Params} {f : Frame} {evs : List Event} {e : ReadEnd} (h : ReadRun p f evs e)
    (failed : e.res ≠ .ok) : e.data = [] := by
  cases h with
  | rejected => rfl
  | timeout => rfl
  | done => exact absurd rfl failed

/-- Settles O46: behind the gate nothing is written; past it, only the data of the run, which a failure leaves empty. -/
theorem failedReadLeavesTheBuffer : Obligations.FailedReadLeavesTheBuffer := by
  intro s t index buf whole read failed
  cases ready : s.ready with
  | false =>
    obtain ⟨idle, -⟩ := whole
    obtain ⟨ex, -⟩ := sectorOperationsNeedAReadySession s index buf idle ready
    rw [← Host.Outcome.next.inj (ex.symm.trans read)]
    rfl
  | true =>
    obtain ⟨t', evs, e, ex, run, -, mem, frame⟩ := readSector_runs whole ready index buf
    obtain rfl : t' = t := Host.Outcome.next.inj (ex.symm.trans read)
    have res : t'.res = e.res := (congrArg State.res frame).trans rfl
    rw [res] at failed
    rw [mem, run.data_eq_nil failed]
    rfl

end Sys2Proof.Machine

/-!
The adapter family (45_adapter_boundary.md): the checks of R290 and the calls they stop, the calls that only report, `initialize` as
INIT, and the exporter's transfers as the adapter's requests.
-/

namespace Sys2Proof.Machine

/-! The checks (R281, R290). -/

theorem gate_wrongDrive {drive : Nat} {s : State} (wrong : drive ≠ s.cfg.driveIndex) : gate drive s = some .parameterError :=
  if_neg (by simpa [driveOk] using wrong)

theorem gate_unready {s : State} (ready : s.ready = false) : gate s.cfg.driveIndex s = some .notReady := by
  simp [gate, driveOk, ready]

theorem gate_ready {s : State} (ready : s.ready = true) : gate s.cfg.driveIndex s = none := by
  simp [gate, driveOk, ready]

theorem behindGate_stopped {drive : Nat} {work : State → State} {s : State} {e : Result} (stop : gate drive s = some e) :
    behindGate drive work s = (raiseError false e s).2 := by
  unfold behindGate
  rw [stop]

theorem behindGate_passed {drive : Nat} {work : State → State} {s : State} (pass : gate drive s = none) :
    behindGate drive work s = work s := by
  unfold behindGate
  rw [pass]

/-- An error raised with no bracket open by an operation just started: the host gets the error, and the rest is as it was (R318). -/
theorem raise_started {e : Result} (notInit : isInitFailure e = false) (i : Instr) (s : State) :
    (raiseError false e (started i s)).2 = { atRest s with res := e, out := .nothing } := by
  cases e with
  | initFailure _ _ => cases notInit
  | ok | notReady | commandRejected _ | transferTimeout _ | writeRejected _ _ | parameterError => rfl

/-! Calls that a check stops, and calls that only report. -/

/-- An operation whose start already ends it as its whole run does is one step in either granularity. -/
theorem startOp_at_once {s t : State} (idle : s.busy = false) {i : Instr} {first whole : State → State}
    (begins : first (started i s) = t) (runs : whole (started i s) = t) : startOp i first whole s = .next t := by
  unfold started at begins runs
  simp [startOp, idle, begins, runs]

/-- A call that a check stops (R281): the error is delivered, whatever the work behind the checks. -/
theorem startOp_stopped {s : State} {drive : Nat} {e : Result} (idle : s.busy = false) (stop : gate drive s = some e)
    (notInit : isInitFailure e = false) {i : Instr} {first whole : State → State} :
    startOp i (behindGate drive first) (behindGate drive whole) s = .next { atRest s with res := e, out := .nothing } :=
  have ends (work : State → State) : behindGate drive work (started i s) = { atRest s with res := e, out := .nothing } :=
    (behindGate_stopped (s := started i s) stop).trans (raise_started notInit i s)
  startOp_at_once idle (ends first) (ends whole)

/-- A call that passes both checks and only reports: `Ok`, and its value. -/
theorem startWhole_reports {s : State} {drive : Nat} (idle : s.busy = false) (pass : gate drive s = none) {i : Instr}
    (value : State → Delivered) :
    startWhole i (behindGate drive (fun t => (deliverOk (value t) t).2)) s =
      .next { atRest s with res := .ok, out := value (started i s) } :=
  (startWhole_idle idle i _).trans (congrArg Host.Outcome.next (behindGate_passed pass))

/-- A data call (R281) that a check stops. -/
theorem exec_stopped {i : Instr} {s : State} {drive : Nat} {e : Result} (idle : s.busy = false)
    (call : (∃ sector count buf, i = .read drive sector count buf) ∨ (∃ sector count buf, i = .write drive sector count buf) ∨
      i = .ioctlSync drive ∨ i = .ioctlGetSectorCount drive ∨ i = .ioctlGetBlockSize drive)
    (stop : gate drive s = some e) (notInit : isInitFailure e = false) :
    exec i s = .next { atRest s with res := e, out := .nothing } := by
  rcases call with ⟨_, _, _, rfl⟩ | ⟨_, _, _, rfl⟩ | rfl | rfl | rfl <;> exact startOp_stopped idle stop notInit

/-- Settles O49: the drive check stops the call, else the ready gate does. -/
theorem callsBehindTheGateFailFast : Obligations.CallsBehindTheGateFailFast := by
  intro i s drive idle call
  constructor
  · intro wrong
    exact exec_stopped idle call (gate_wrongDrive wrong) rfl
  · rintro rfl ready
    exact exec_stopped idle call (gate_unready ready) rfl

/-- Settles O50: `status` only delivers its value. -/
theorem statusReportsTheSession : Obligations.StatusReportsTheSession := fun _ drive idle =>
  startWhole_idle idle (.status drive) (runStatus drive)

/-- `get_sector_size` checks the drive only (R288). -/
theorem exec_getSectorSize {s : State} (idle : s.busy = false) (drive : Nat) :
    exec (.ioctlGetSectorSize drive) s = .next (if drive = s.cfg.driveIndex then { atRest s with res := .ok, out := .number 512 }
      else { atRest s with res := .parameterError, out := .nothing }) := by
  refine (startWhole_idle idle _ _).trans (congrArg Host.Outcome.next ?_)
  unfold runIoctlSectorSize driveOk
  simp only [started_cfg, beq_iff_eq]
  rfl

/-- Settles O52: behind the checks each sub-command reports; `get_sector_size` has the drive check only, an unknown one none. -/
theorem ioctlDeliversByItsSubCommand : Obligations.IoctlDeliversByItsSubCommand := by
  intro s drive sub idle
  refine ⟨?_, ?_, ?_, ?_, ?_⟩
  · rintro rfl ready
    have pass := gate_ready ready
    exact ⟨startWhole_reports idle pass (fun _ => .nothing),
      startWhole_reports idle pass (fun t => .number t.sectorCount.toNat),
      startWhole_reports idle pass (fun _ => .number Config.eraseGranularity)⟩
  · rintro rfl ready i call
    exact exec_stopped idle (.inr (.inr call)) (gate_unready ready) rfl
  · intro right
    rw [exec_getSectorSize idle, if_pos right]
  · intro wrong i call
    have stop := gate_wrongDrive wrong
    rcases call with rfl | rfl | rfl | rfl
    · exact startOp_stopped idle stop rfl
    · exact startOp_stopped idle stop rfl
    · rw [exec_getSectorSize idle, if_neg wrong]
    · exact startOp_stopped idle stop rfl
  · exact startWhole_idle idle (.ioctlUnknown drive sub) runIoctlUnknown

/-- Settles O53: both queries only deliver; `capacity` draws a free count while the Session is not ready (log 17). -/
theorem exporterQueriesReadTheSession : Obligations.ExporterQueriesReadTheSession := by
  intro s idle
  have capacity := startWhole_idle idle .capacity runCapacity
  refine ⟨startWhole_idle idle .testUnitReady runTestUnitReady, fun ready => ?_, fun ready => ?_⟩
  · exact capacity.trans (congrArg Host.Outcome.next (if_pos ready))
  · exact ⟨Config.unreadyBlockCount s.draws, capacity.trans (congrArg Host.Outcome.next (if_neg (by simp [ready])))⟩

/-! `initialize` (R283). -/

/-- INIT is run the same whatever operation it belongs to. -/
theorem initCard_started (i : Instr) (s : State) : initCard (started i s) = initCard s :=
  ended_overlay initCard_on (lay := { s.overlay with busy := true, running := some i }) (s := s) rfl rfl

/-- An operation that has ended is at rest, with nothing at the value port. -/
theorem Ended.atRest_eq {q : Result × State} (h : Ended q) : { atRest q.2 with out := .nothing } = q.2 := by
  obtain ⟨-, out, busy, phase, running⟩ := h
  obtain ⟨result, t⟩ := q
  cases t
  simp_all [atRest]

/-- What the adapter makes of an operation that has ended: its failure becomes `NotReady`, and nothing else changes. -/
theorem report_ended {q : Result × State} (h : Ended q) :
    report true q = { q.2 with res := if q.2.res = .ok then .ok else .notReady } := by
  have delivers (e : Result) : { atRest q.2 with res := e, out := .nothing } = { q.2 with res := e } :=
    congrArg (fun t : State => { t with res := e }) h.atRest_eq
  unfold report
  rw [if_pos rfl, h.res]
  split
  · exact delivers .ok
  · exact delivers .notReady

/-- Settles O51: past the drive check `initialize` reports the run of INIT. -/
theorem initializeIsInitBehindTheDriveCheck : Obligations.InitializeIsInitBehindTheDriveCheck := by
  intro s drive whole
  have run : exec (.initializeDrive drive) s = .next (runInitialize drive (started (.initializeDrive drive) s)) :=
    startOp_whole whole _ _ _
  rw [runInitialize_eq] at run
  constructor
  · intro wrong
    rw [run, if_neg (by simpa [driveOk] using wrong), raise_started rfl]
  · rintro rfl
    refine ⟨_, startOp_whole whole .init enterBusReset (fun t => (initCard t).2), ?_⟩
    rw [run, if_pos (by simp [driveOk]), initCard_started, initCard_started, report_ended (ended_initCard s)]

/-! The exporter's transfers (R293, R294). -/

/-- A request behind both checks is run the same whatever operation it belongs to. -/
theorem behindGate_started (drive : Nat) {work : State → State} (same : ∀ i s, work (started i s) = work s) (i : Instr)
    (s : State) : behindGate drive work (started i s) = behindGate drive work s := by
  have check : gate drive (started i s) = gate drive s := rfl
  unfold behindGate
  rw [check]
  cases gate drive s with
  | none => exact same i s
  | some e => cases e <;> rfl

/-- The request of `read` or `write`, run whole (R284, R285). -/
def runRequest (isWrite : Bool) (drive : Nat) (sector : U32) (count buf : Nat) : State → State :=
  behindGate drive (fun t => (transferSectors isWrite sector buf count 0 t).2)

theorem runRequest_started (isWrite : Bool) (drive : Nat) (sector : U32) (count buf : Nat) (i : Instr) (s : State) :
    runRequest isWrite drive sector count buf (started i s) = runRequest isWrite drive sector count buf s :=
  behindGate_started drive (fun i s => congrArg Prod.snd (transferSectors_started isWrite sector buf count 0 i s)) i s

/-- `read` or `write`, whatever the checks find. -/
theorem exec_request_whole {s : State} (whole : Whole s) (isWrite : Bool) (drive : Nat) (sector : U32) (count buf : Nat) :
    exec (requestInstr isWrite drive sector count buf) s = .next (runRequest isWrite drive sector count buf s) := by
  rw [← runRequest_started isWrite drive sector count buf (requestInstr isWrite drive sector count buf)]
  cases isWrite <;> exact startOp_whole whole _ _ _

/-- `read10` or `write10`, as an instruction. -/
def exporterInstr : Bool → U32 → Nat → Nat → Nat → Instr
  | false => .read10
  | true => .write10

theorem exporterSector_eq (lba : U32) (byteOffset : Nat) :
    exporterSector lba byteOffset = BitVec.ofNat 32 (lba.toNat + byteOffset / 512) := by
  rw [BitVec.ofNat_add, BitVec.ofNat_toNat, BitVec.setWidth_eq]
  rfl

/-- `read10` or `write10` in whole sectors is the request at the translated sector (R293). -/
theorem exec_exporterInstr {s : State} (whole : Whole s) (isWrite : Bool) (lba : U32) {byteOffset length : Nat} (buffer : Nat)
    (offset : byteOffset % 512 = 0) (len : length % 512 = 0) :
    exec (exporterInstr isWrite lba byteOffset buffer length) s =
      .next (runRequest isWrite s.cfg.driveIndex (BitVec.ofNat 32 (lba.toNat + byteOffset / 512)) (length / 512) buffer s) := by
  have inSectors : (wholeSectors byteOffset && wholeSectors length) = true := by
    rw [wholeSectors_of_mod offset, wholeSectors_of_mod len]; rfl
  rw [← exporterSector_eq,
    ← runRequest_started isWrite _ _ _ buffer (exporterInstr isWrite lba byteOffset buffer length)]
  cases isWrite <;> exact (if_pos inSectors).trans (startOp_whole whole _ _ _)

/-- Settles O54: both calls run the request of `runRequest`. -/
theorem exporterTransfersAreAdapterTransfers : Obligations.ExporterTransfersAreAdapterTransfers :=
  fun _ lba _ buffer _ whole offset len =>
    ⟨⟨_, exec_exporterInstr whole false lba buffer offset len, exec_request_whole whole false _ _ _ _⟩,
      ⟨_, exec_exporterInstr whole true lba buffer offset len, exec_request_whole whole true _ _ _ _⟩⟩

/-- Settles O55: the exporter's own check refuses the call. -/
theorem raggedExporterCallsAreRefused : Obligations.RaggedExporterCallsAreRefused := by
  intro s lba byteOffset buffer length ragged
  have fails : ¬ (wholeSectors byteOffset && wholeSectors length) = true := by
    simpa [wholeSectors, Config.blockSize, imp_iff_not_or] using ragged
  exact ⟨if_neg fails, if_neg fails⟩

end Sys2Proof.Machine

/-!
The error family (60_exceptions.md): raising an error, in the order of R318: the bracket first, then the fields that each kind of error
writes.
-/

namespace Sys2Proof.Machine

/-- The first step of R318, as one update of the state whether the bracket is open or not. -/
theorem closeBracket_eq (bracketOpen : Bool) (s : State) :
    (if bracketOpen then deselect s else s) =
      { s with
        sel := if bracketOpen then false else s.sel
        trace := s.trace ++ (if bracketOpen then [.desel] else []) } := by
  cases bracketOpen with
  | false => simp
  | true => rfl

/-- Settles O17: once the bracket is dealt with, only an `InitFailure` moves `fsm`. -/
theorem raisingAnErrorEndsTheOperation : Obligations.RaisingAnErrorEndsTheOperation := by
  intro bracketOpen e s
  unfold raiseError
  rw [closeBracket_eq]
  cases e with
  | initFailure _ _ => rfl
  | ok | notReady | commandRejected _ | transferTimeout _ | writeRejected _ _ | parameterError => rfl

end Sys2Proof.Machine

/-!
The reset and hazards family (70_reset_and_hazards.md): the reset input, and a start while an operation is in flight.
-/

namespace Sys2Proof.Machine

/-! The reset input (R350 to R352). -/

/-- The reset input comes before whatever stands at the port (R350). -/
theorem step_of_rst {s : State} (rst : s.rst = true) : step s = hostReset s := if_pos rst

theorem hostReset_idle {s : State} (idle : s.busy = false) : hostReset s = .next (resetBlock s) := if_neg (by simp [idle])

theorem hostReset_busy {s : State} (busy : s.busy = true) : hostReset s = .refused .resetWhileBusy := if_pos busy

/-- Settles O8: a step under reset is `hostReset`, and what an idle block goes to is `resetBlock`. -/
theorem resetInputResetsAnIdleBlock : Obligations.ResetInputResetsAnIdleBlock :=
  fun _ rst => ⟨fun idle => (step_of_rst rst).trans (hostReset_idle idle), fun busy => (step_of_rst rst).trans (hostReset_busy busy)⟩

/-! A start while an operation is in flight (R358). -/

theorem startOp_busy {s : State} (busy : s.busy = true) (i : Instr) (first whole : State → State) :
    startOp i first whole s = .refused .startWhileBusy := if_pos busy

/-- A call that is not ragged passes the exporter's check (R294); `e` is its offset in bytes, `n` its length. -/
theorem wholeSectors_of_not_ragged {e n : Nat} (even : (e % 512 != 0 || n % 512 != 0) = false) :
    (wholeSectors e && wholeSectors n) = true := by
  simpa [wholeSectors, Config.blockSize] using even

/-- A ragged call is an exporter's, and its own check refuses it (`raggedExporterCallsAreRefused`). -/
theorem exec_ragged {i : Instr} (ragged : raggedCall i = true) (s : State) : exec i s = .refused .raggedOffset := by
  cases i with
  | read10 lba e b n => exact (raggedExporterCallsAreRefused s lba e b n (by simpa [raggedCall] using ragged)).1
  | write10 lba e b n => exact (raggedExporterCallsAreRefused s lba e b n (by simpa [raggedCall] using ragged)).2
  | _ => cases ragged

/-- Every other instruction but a BYTE row is the start of an operation (R38). -/
theorem exec_eq_startOp {i : Instr} (row : isByteRow i = false) (even : raggedCall i = false) (s : State) :
    ∃ first whole, exec i s = startOp i first whole s := by
  cases i with
  | dataStartToken | r1Valid _ | r1NotYet _ | r1IdleExact | r1ReadyExact | drespAccepted _ | drespCrcError _
  | drespWriteError _ | drespOther _ _ | busyByte | fillByte => cases row
  | read10 _ _ _ _ | write10 _ _ _ _ => exact ⟨_, _, if_pos (wholeSectors_of_not_ragged even)⟩
  | init => exact ⟨enterBusReset, fun t => (initCard t).2, rfl⟩
  | readSector index buf => exact ⟨firstSector false index buf, fun t => (readSector index buf t).2, rfl⟩
  | writeSector index buf => exact ⟨firstSector true index buf, fun t => (writeSector index buf t).2, rfl⟩
  | _ => exact ⟨_, _, rfl⟩

/-- Settles O9: a ragged call fails its own check before the start, and `startOp` refuses every other row. -/
theorem startWhileBusyIsRefused : Obligations.StartWhileBusyIsRefused := by
  intro i s busy row
  cases ragged : raggedCall i with
  | true => exact exec_ragged ragged s
  | false =>
    obtain ⟨first, whole, start⟩ := exec_eq_startOp row ragged s
    exact start.trans (startOp_busy busy i first whole)

end Sys2Proof.Machine
